-- ==== Sys2Proof/Word.lean ====
section
/-! DEFINITION. The widths of the Execution Unit: byte, word, doubleword, quadword, one 256-bit register, one native instruction word (spec/40_common_execution.md R401, spec/10_state.md R52, spec/30_encoding.md R250). -/

namespace Sys2Proof

/-- A byte of a register or of instruction memory (R401). -/
abbrev Byte := BitVec 8

/-- A 16-bit word (R401). -/
abbrev Word := BitVec 16

/-- A 32-bit doubleword (R401). -/
abbrev DWord := BitVec 32

/-- A 64-bit quadword (R401). -/
abbrev QWord := BitVec 64

/-- The contents of one general register (spec/10_state.md R52). -/
abbrev Reg256 := BitVec 256

/-- One native instruction word, bit 0 the least significant bit of DW0 (spec/30_encoding.md R250). -/
abbrev NativeWord := BitVec 128

/-- One compact instruction word (spec/30_encoding.md R330). -/
abbrev CompactWord := BitVec 64

end Sys2Proof
end

