-- ==== Sys2Proof/Config.lean ====
section
/-! DEFINITION. What the spec leaves free: uninterpreted constants with no body (notes/assumptions/1.md), and the places a free value is drawn for. -/

namespace Sys2Proof

/-- Where one instruction draws a free value; two different places of one instruction draw independent values (log 1).
The numbers are the source operand k, the instruction channel n, or the register number r. -/
inductive FreeSlot where
  /-- U4: an element of the null register read as source k on channel n -/
  | nullSrc (k n : Nat)
  /-- U21, U10: unpopulated or reserved bits of an ARF register read as source k on channel n -/
  | arf (k n : Nat)
  /-- the destination element of channel n (U13, U15, U18, U19, U20, U23) -/
  | dst (n : Nat)
  /-- the second destination register's element of channel n (math FC Bh, U13) -/
  | dst2 (n : Nat)
  /-- the flag bit of channel n (U15, U23) -/
  | flag (n : Nat)
  /-- the accumulator channel n written by the instruction (U15, U23) -/
  | acc (n : Nat)
  /-- the accumulator channel n read in a format it was not written in (R64 gives no overlay) -/
  | accView (n : Nat)
  /-- the bit pattern of a NaN result on channel n (U22) -/
  | nan (n : Nat)
  /-- the bit pattern of a NaN result of the second term on channel n (U22) -/
  | nan2 (n : Nat)
  /-- U17: the scoreboard mark of register r -/
  | dep (r : Nat)
  /-- U17: the scoreboard mark of a0 (log 50) -/
  | depA0
  /-- un-enabled bytes of an ARF granule written in part (log 13) -/
  | granule
  /-- a predicate flag bit the spec does not place (log 40) -/
  | predBit (n : Nat)
  /-- flush or keep a denormal that a non-raw F move passes on (R482, log 26) -/
  | choice (n : Nat)
  deriving DecidableEq, Repr

/-- The free values: the draw number (a counter of State) and the place say which one; nothing constrains it
(spec/93_implementation_defined.md, treatment "any value"; log 1). -/
opaque Config.free (draw : Nat) (slot : FreeSlot) : BitVec 256

/-- U12: the uninterpreted result of a `math` function, by function control, ALT mode bit and the two source patterns
(spec/43_misc_send_wait.md R703); the machine uses it only inside the rule's table and precision bound (log 31). -/
opaque Config.mathValue (fc : BitVec 4) (alt : Bool) (a b : DWord) : DWord

/-- U11: the value of the free-running 64-bit timestamp counter at the draw-th instruction (spec/10_state.md R85). -/
opaque Config.timestamp (draw : Nat) : QWord

end Sys2Proof
end

