-- ==== Sys2Proof/Syntax.lean ====
section
/-! DEFINITION. The syntax of the Execution Unit: every field of every instruction format as a type, and `Instr`, one constructor per row of spec/opcode_table.json (spec/30_encoding.md R255 to R300). -/

namespace Sys2Proof

/-! ## Field values -/

/-- `AccessMode`, bit 8 (R265). -/
inductive AccessMode where
  | align1 | align16
  deriving DecidableEq, Repr

/-- `ThreadCtrl`, bits 15:14 (R268); 11b is reserved. -/
inductive ThreadCtrl where
  | normal | atomic | switch
  deriving DecidableEq, Repr

/-- `ExecSize`, bits 23:21 (R274); 110b and 111b are reserved. -/
inductive ExecSize where
  | s1 | s2 | s4 | s8 | s16 | s32
  deriving DecidableEq, Repr

/-- The number of channels of an execution size (R274). -/
def ExecSize.toNat : ExecSize → Nat
  | .s1 => 1 | .s2 => 2 | .s4 => 4 | .s8 => 8 | .s16 => 16 | .s32 => 32

/-- `PredCtrl`, bits 19:16, the codes of both access modes (R273). -/
inductive PredCtrl where
  | none | seq
  | anyv | allv | any2h | all2h
  | any4h | all4h
  | any8h | all8h | any16h | all16h | any32h | all32h
  | replX | replY | replZ | replW
  deriving DecidableEq, Repr

/-- `CondModifier`, bits 27:24 (R277). -/
inductive CondMod where
  | none | z | nz | g | ge | l | le | o | u
  deriving DecidableEq, Repr

/-- The data type of a destination or of a register source (R256). -/
inductive RegType where
  | ud | d | uw | w | ub | b | df | f
  deriving DecidableEq, Repr

/-- The data type of an immediate source (R256). -/
inductive ImmType where
  | ud | d | uw | w | uv | vf | v | f
  deriving DecidableEq, Repr

/-- The data types of the three-source format (R272). -/
inductive TriType where
  | f | d | ud | df
  deriving DecidableEq, Repr

/-- `SrcMod` (spec/30_encoding.md R259, spec/40_common_execution.md R445). -/
inductive SrcMod where
  | none | abs | neg | negAbs
  deriving DecidableEq, Repr

/-- `VertStride` in elements; `vx` is 1111b, the VxH or Vx1 mode (R261). -/
inductive VertStride where
  | v0 | v1 | v2 | v4 | v8 | v16 | v32 | vx
  deriving DecidableEq, Repr

/-- The stride in elements; 0 for `vx`, whose rows come from index registers (R261, R423). -/
def VertStride.toNat : VertStride → Nat
  | .v0 => 0 | .v1 => 1 | .v2 => 2 | .v4 => 4 | .v8 => 8 | .v16 => 16 | .v32 => 32 | .vx => 0

/-- `Width` in elements (R261). -/
inductive Width where
  | w1 | w2 | w4 | w8 | w16
  deriving DecidableEq, Repr

def Width.toNat : Width → Nat
  | .w1 => 1 | .w2 => 2 | .w4 => 4 | .w8 => 8 | .w16 => 16

/-- `HorzStride` in elements (R261). -/
inductive HorzStride where
  | h0 | h1 | h2 | h4
  deriving DecidableEq, Repr

def HorzStride.toNat : HorzStride → Nat
  | .h0 => 0 | .h1 => 1 | .h2 => 2 | .h4 => 4

/-- The architecture registers, by `RegNum` (spec/10_state.md R56 to R85). -/
inductive Arf where
  | null | a0 | acc0 | acc1 | f0 | f1 | sr0 | cr0 | n0 | ip | tdr0 | tm0
  deriving DecidableEq, Repr

/-- Where an operand lies: a general register and byte offset, an architecture register and byte offset, or
register-indirect through an address subregister (R257, R258). -/
inductive Loc where
  | grf (num : BitVec 7) (sub : BitVec 5)
  | arf (reg : Arf) (sub : BitVec 5)
  | ind (addrSub : BitVec 3) (imm : BitVec 10)
  deriving DecidableEq, Repr

/-- The region fields of a source: Align1 strides and width, or the Align16 swizzle (R261, R263). -/
inductive SrcRegion where
  | a1 (vert : VertStride) (width : Width) (horz : HorzStride)
  | a16 (vert : VertStride) (chanSel : BitVec 8)
  deriving DecidableEq, Repr

/-- The region fields of a destination: Align1 stride, or the Align16 channel enables (R261, R263). -/
inductive DstRegion where
  | a1 (horz : HorzStride)
  | a16 (chanEn : BitVec 4)
  deriving DecidableEq, Repr

/-- A register source operand (R260). -/
structure RegSrc where
  loc : Loc
  ty : RegType
  mod : SrcMod
  region : SrcRegion
  deriving DecidableEq, Repr

/-- The last source operand of an instruction: a register region or an immediate (R264, R420). -/
inductive Src where
  | reg (r : RegSrc)
  | imm (ty : ImmType) (val : DWord)
  deriving DecidableEq, Repr

/-- A destination operand (R260). -/
structure Dst where
  loc : Loc
  ty : RegType
  region : DstRegion
  deriving DecidableEq, Repr

/-- The fields of DW0 that are common to the formats, with the flag selector and `NibCtrl` (R262 to R269, R273, R274).
`nib` is bit 47; `flagReg` and `flagSub` are bits 90 and 89 (34 and 33 in the three-source format). -/
structure Header where
  access : AccessMode
  noMask : Bool
  noDDClr : Bool
  noDDChk : Bool
  qtr : BitVec 2
  nib : Bool
  thread : ThreadCtrl
  pred : PredCtrl
  predInv : Bool
  size : ExecSize
  accWr : Bool
  debug : Bool
  sat : Bool
  flagReg : Bool
  flagSub : Bool
  deriving DecidableEq, Repr

/-- The number of channels of an instruction (R274). -/
def Header.count (h : Header) : Nat := h.size.toNat

/-! ## Formats -/

/-- Basic format, one source (R260, R290): src1 is the null filler. -/
structure Basic1 where
  hdr : Header
  cmod : CondMod
  dst : Dst
  src0 : Src
  deriving DecidableEq, Repr

/-- Basic format, two sources (R260): only src1 can be an immediate (R251). -/
structure Basic2 where
  hdr : Header
  cmod : CondMod
  dst : Dst
  src0 : RegSrc
  src1 : Src
  deriving DecidableEq, Repr

/-- One source of the three-source format (R270): register, DWord subregister, swizzle, replicate, modifier. -/
structure TriSrc where
  num : BitVec 7
  sub : BitVec 3
  chanSel : BitVec 8
  rep : Bool
  mod : SrcMod
  deriving DecidableEq, Repr

/-- Three-source format (R270). -/
structure Tri where
  hdr : Header
  cmod : CondMod
  dstTy : TriType
  srcTy : TriType
  dstNum : BitVec 7
  dstSub : BitVec 3
  chanEn : BitVec 4
  src0 : TriSrc
  src1 : TriSrc
  src2 : TriSrc
  deriving DecidableEq, Repr

/-- The register file field of the src1 position of a branch (R255, R275); 10b is reserved. -/
inductive RegFile where
  | arf | grf | imm
  deriving DecidableEq, Repr

/-- Branch format with one offset (R275): `brd`, `else`, `endif`, `while`. `offFile` and `offTy` are the register file
and type fields of the src1 position, which the instruction's rule constrains (R634; log 11). -/
structure Branch1 where
  hdr : Header
  offFile : RegFile
  offTy : BitVec 3
  jip : BitVec 16
  deriving DecidableEq, Repr

/-- Branch format with two offsets (R275): `if`, `brc`, `break`, `cont`, `halt`, `case`. -/
structure Branch2 where
  hdr : Header
  offFile : RegFile
  offTy : BitVec 3
  jip : BitVec 16
  uip : BitVec 16
  deriving DecidableEq, Repr

/-- `call` (R275, R651): a destination and one offset. -/
structure Call where
  hdr : Header
  dst : Dst
  offFile : RegFile
  offTy : BitVec 3
  jip : BitVec 16
  deriving DecidableEq, Repr

/-- The message descriptor operand of `send` (R280): 31 immediate bits, or a register. -/
inductive Desc where
  | imm (val : BitVec 31)
  | reg (r : RegSrc)
  deriving DecidableEq, Repr

/-- Send format (R280). -/
structure Send where
  hdr : Header
  sfid : BitVec 4
  dst : Dst
  src0 : RegSrc
  desc : Desc
  eot : Bool
  deriving DecidableEq, Repr

/-- Math format (R285): `fc` is the function control in the place of the conditional modifier. -/
structure Math where
  hdr : Header
  fc : BitVec 4
  dst : Dst
  src0 : RegSrc
  src1 : Src
  deriving DecidableEq, Repr

/-- The instructions: one constructor per row of spec/opcode_table.json (R300). -/
inductive Instr where
  | illegal
  | mov (b : Basic1)
  | sel (b : Basic2)
  | movi (b : Basic1)
  | not_ (b : Basic1)
  | and_ (b : Basic2)
  | or_ (b : Basic2)
  | xor_ (b : Basic2)
  | shr (b : Basic2)
  | shl (b : Basic2)
  | asr (b : Basic2)
  | cmp (b : Basic2)
  | cmpn (b : Basic2)
  | f32to16 (b : Basic1)
  | f16to32 (b : Basic1)
  | bfrev (b : Basic1)
  | bfe (t : Tri)
  | bfi1 (b : Basic2)
  | bfi2 (t : Tri)
  | jmpi (b : Basic2)
  | brd (b : Branch1)
  | if_ (b : Branch2)
  | brc (b : Branch2)
  | else_ (b : Branch1)
  | endif (b : Branch1)
  | case_ (b : Branch2)
  | while_ (b : Branch1)
  | break_ (b : Branch2)
  | cont (b : Branch2)
  | halt (b : Branch2)
  | call (c : Call)
  | ret (b : Basic1)
  | wait (b : Basic1)
  | send (m : Send)
  | sendc (m : Send)
  | math (m : Math)
  | add (b : Basic2)
  | mul (b : Basic2)
  | avg (b : Basic2)
  | frc (b : Basic1)
  | rndu (b : Basic1)
  | rndd (b : Basic1)
  | rnde (b : Basic1)
  | rndz (b : Basic1)
  | mac (b : Basic2)
  | mach (b : Basic2)
  | lzd (b : Basic1)
  | fbh (b : Basic1)
  | fbl (b : Basic1)
  | cbit (b : Basic1)
  | addc (b : Basic2)
  | subb (b : Basic2)
  | sad2 (b : Basic2)
  | sada2 (b : Basic2)
  | dp4 (b : Basic2)
  | dph (b : Basic2)
  | dp3 (b : Basic2)
  | dp2 (b : Basic2)
  | line (b : Basic2)
  | pln (b : Basic2)
  | mad (t : Tri)
  | lrp (t : Tri)
  | nop (debug : Bool)
  deriving DecidableEq, Repr

/-- The format of an instruction with its fields: what the encoder, the checks of well-formedness and the scoreboard read. -/
inductive Form where
  | bare (debug : Bool)
  | basic1 (b : Basic1)
  | basic2 (b : Basic2)
  | tri (t : Tri)
  | branch1 (b : Branch1)
  | branch2 (b : Branch2)
  | call (c : Call)
  | send (m : Send)
  | math (m : Math)
  deriving DecidableEq, Repr

/-- The format and fields of an instruction (R253). -/
def Instr.form : Instr → Form
  | .illegal => .bare false
  | .nop d => .bare d
  | .mov b | .movi b | .not_ b | .f32to16 b | .f16to32 b | .bfrev b | .ret b | .wait b => .basic1 b
  | .frc b | .rndu b | .rndd b | .rnde b | .rndz b | .lzd b | .fbh b | .fbl b | .cbit b => .basic1 b
  | .sel b | .and_ b | .or_ b | .xor_ b | .shr b | .shl b | .asr b | .cmp b | .cmpn b | .bfi1 b | .jmpi b => .basic2 b
  | .add b | .mul b | .avg b | .mac b | .mach b | .addc b | .subb b => .basic2 b
  | .sad2 b | .sada2 b | .dp4 b | .dph b | .dp3 b | .dp2 b | .line b | .pln b => .basic2 b
  | .bfe t | .bfi2 t | .mad t | .lrp t => .tri t
  | .brd b | .else_ b | .endif b | .while_ b => .branch1 b
  | .if_ b | .brc b | .case_ b | .break_ b | .cont b | .halt b => .branch2 b
  | .call c => .call c
  | .send m | .sendc m => .send m
  | .math m => .math m

/-- The opcode, bits 7:0 of the native word (R300). -/
def Instr.opcode : Instr → BitVec 8
  | .illegal => 0x00
  | .mov _ => 0x01
  | .sel _ => 0x02
  | .movi _ => 0x03
  | .not_ _ => 0x04
  | .and_ _ => 0x05
  | .or_ _ => 0x06
  | .xor_ _ => 0x07
  | .shr _ => 0x08
  | .shl _ => 0x09
  | .asr _ => 0x0C
  | .cmp _ => 0x10
  | .cmpn _ => 0x11
  | .f32to16 _ => 0x13
  | .f16to32 _ => 0x14
  | .bfrev _ => 0x17
  | .bfe _ => 0x18
  | .bfi1 _ => 0x19
  | .bfi2 _ => 0x1A
  | .jmpi _ => 0x20
  | .brd _ => 0x21
  | .if_ _ => 0x22
  | .brc _ => 0x23
  | .else_ _ => 0x24
  | .endif _ => 0x25
  | .case_ _ => 0x26
  | .while_ _ => 0x27
  | .break_ _ => 0x28
  | .cont _ => 0x29
  | .halt _ => 0x2A
  | .call _ => 0x2C
  | .ret _ => 0x2D
  | .wait _ => 0x30
  | .send _ => 0x31
  | .sendc _ => 0x32
  | .math _ => 0x38
  | .add _ => 0x40
  | .mul _ => 0x41
  | .avg _ => 0x42
  | .frc _ => 0x43
  | .rndu _ => 0x44
  | .rndd _ => 0x45
  | .rnde _ => 0x46
  | .rndz _ => 0x47
  | .mac _ => 0x48
  | .mach _ => 0x49
  | .lzd _ => 0x4A
  | .fbh _ => 0x4B
  | .fbl _ => 0x4C
  | .cbit _ => 0x4D
  | .addc _ => 0x4E
  | .subb _ => 0x4F
  | .sad2 _ => 0x50
  | .sada2 _ => 0x51
  | .dp4 _ => 0x54
  | .dph _ => 0x55
  | .dp3 _ => 0x56
  | .dp2 _ => 0x57
  | .line _ => 0x59
  | .pln _ => 0x5A
  | .mad _ => 0x5B
  | .lrp _ => 0x5C
  | .nop _ => 0x7E

end Sys2Proof
end

