-- ==== Sys2Proof/WellFormed.lean ====
section
/-! DEFINITION. Which instruction terms have an encoding: the fields agree with the access mode and every value has a code (spec/30_encoding.md R252, R257, R258, R260 to R263, R270 to R285). -/

namespace Sys2Proof

/-- A predicate control has a code in the access mode (R273). -/
def PredCtrl.wf (a : AccessMode) : PredCtrl → Bool
  | .none | .seq | .any4h | .all4h => true
  | .anyv | .allv | .any2h | .all2h | .any8h | .all8h | .any16h | .all16h | .any32h | .all32h => a = .align1
  | .replX | .replY | .replZ | .replW => a = .align16

/-- In Align16 only the 16-byte aligned part of a subregister number or address immediate is encoded (R257, R258). -/
def Loc.wf (a : AccessMode) : Loc → Bool
  | .grf _ sub => a = .align1 || sub.extractLsb' 0 4 = 0
  | .arf _ sub => a = .align1 || sub.extractLsb' 0 4 = 0
  | .ind _ imm => a = .align1 || imm.extractLsb' 0 4 = 0

/-- The region fields are those of the access mode; VertStride 1111b only for an indirect Align1 src0 (R252, R261). -/
def RegSrc.wf (a : AccessMode) (isSrc1 : Bool) (r : RegSrc) : Bool :=
  r.loc.wf a &&
  (match r.region with
   | .a1 v _ _ =>
      a = .align1 && (v != .vx || (!isSrc1 && (match r.loc with | .ind _ _ => true | _ => false)))
   | .a16 v _ => a = .align16 && v != .vx)

/-- A source operand: an immediate always has a code (R256, R264). -/
def Src.wf (a : AccessMode) (isSrc1 : Bool) : Src → Bool
  | .reg r => r.wf a isSrc1
  | .imm _ _ => true

/-- The destination's region fields are those of the access mode (R260). -/
def Dst.wf (a : AccessMode) (d : Dst) : Bool :=
  d.loc.wf a &&
  (match d.region with
   | .a1 _ => a = .align1
   | .a16 _ => a = .align16)

/-- The header's predicate control has a code in its access mode (R273). -/
def Header.wf (h : Header) : Bool := h.pred.wf h.access

/-- Format by format (R260, R270, R275, R280, R285). The immediate of a register-free source needs no check. -/
def Form.wf : Form → Bool
  | .bare _ => true
  | .basic1 b => b.hdr.wf && b.dst.wf b.hdr.access && b.src0.wf b.hdr.access false
  | .basic2 b => b.hdr.wf && b.dst.wf b.hdr.access && b.src0.wf b.hdr.access false && b.src1.wf b.hdr.access true
  | .tri t => t.hdr.wf
  | .branch1 b => b.hdr.wf
  | .branch2 b => b.hdr.wf
  | .call c => c.hdr.wf && c.dst.wf c.hdr.access
  | .send m =>
      m.hdr.wf && m.dst.wf m.hdr.access && m.src0.wf m.hdr.access false &&
      (match m.desc with
       | .imm _ => true
       | .reg r => r.wf m.hdr.access true)
  | .math m => m.hdr.wf && m.dst.wf m.hdr.access && m.src0.wf m.hdr.access false && m.src1.wf m.hdr.access true

/-- Instructions of the branch format have no conditional modifier (R275): the two that use the basic layout. -/
def Instr.noCmodWf : Instr → Bool
  | .jmpi b => b.cmod = .none
  | .ret b => b.cmod = .none
  | _ => true

/-- A well-formed instruction: it has a native encoding. -/
def Instr.wf (i : Instr) : Bool := i.form.wf && i.noCmodWf

end Sys2Proof
end

