-- ==== Sys2Proof/Decode.lean ====
section
/-! DEFINITION. The decoder, total on any bytes and rejecting by name, and after it the encoder of a well-formed instruction in native form (spec/30_encoding.md R253 to R336). -/

namespace Sys2Proof

/-- Why a word is rejected: a reserved encoding or a non-zero MBZ bit (R254, spec/93_implementation_defined.md U1), or
an operand field not filled with null (R290, U2). An unassigned opcode byte is no error: it is `illegal` (R253). -/
inductive DecodeErr where
  /-- RegFile 10b, or 11b where no immediate can stand (R255, R251) -/
  | regFile
  /-- a reserved architecture register type or number (spec/10_state.md R56) -/
  | arfReg
  /-- a GRF RegNum above 127 (R257) -/
  | regNum
  /-- AddrMode 1 with an ARF operand (spec/40_common_execution.md R423) -/
  | arfIndirect
  /-- a reserved VertStride, or 1111b where it is reserved (R261, R252) -/
  | vertStride
  /-- a reserved Width (R261) -/
  | width
  /-- ExecSize 110b or 111b (R274) -/
  | execSize
  /-- a reserved PredCtrl (R273) -/
  | predCtrl
  /-- a reserved CondModifier (R277), or a non-zero one in a branch (R275) -/
  | condMod
  /-- ThreadCtrl 11b (R268) -/
  | threadCtrl
  /-- a non-zero reserved MBZ bit (R254) -/
  | mbz
  /-- an absent operand whose field is not null, with a modifier, or of another type than src0 (R290, 40 R445) -/
  | fillerNotNull
  /-- a source region of `call` other than `<2;2,1>` and the all-zero filler (42 R651; log 61) -/
  | callRegion
  /-- a source modifier on an immediate src0 (spec/40_common_execution.md R445) -/
  | immModifier
  /-- a compact word with a three-source opcode (R330) -/
  | compactTri
  /-- fewer bytes than the instruction has -/
  | truncated
  deriving DecidableEq, Repr

/-! ## Codes of the field values -/

def AccessMode.code : AccessMode → BitVec 1
  | .align1 => 0 | .align16 => 1

def AccessMode.ofBit (b : Bool) : AccessMode := if b then .align16 else .align1

/-- R268. -/
def ThreadCtrl.code : ThreadCtrl → BitVec 2
  | .normal => 0 | .atomic => 1 | .switch => 2

def ThreadCtrl.ofCode (c : BitVec 2) : Except DecodeErr ThreadCtrl :=
  match c.toNat with
  | 0 => .ok .normal
  | 1 => .ok .atomic
  | 2 => .ok .switch
  | _ => .error .threadCtrl

/-- R274. -/
def ExecSize.code : ExecSize → BitVec 3
  | .s1 => 0 | .s2 => 1 | .s4 => 2 | .s8 => 3 | .s16 => 4 | .s32 => 5

def ExecSize.ofCode (c : BitVec 3) : Except DecodeErr ExecSize :=
  match c.toNat with
  | 0 => .ok .s1
  | 1 => .ok .s2
  | 2 => .ok .s4
  | 3 => .ok .s8
  | 4 => .ok .s16
  | 5 => .ok .s32
  | _ => .error .execSize

/-- R273: one code for the two meanings of 0010b to 0101b. -/
def PredCtrl.code : PredCtrl → BitVec 4
  | .none => 0 | .seq => 1
  | .anyv => 2 | .allv => 3 | .any2h => 4 | .all2h => 5
  | .replX => 2 | .replY => 3 | .replZ => 4 | .replW => 5
  | .any4h => 6 | .all4h => 7
  | .any8h => 8 | .all8h => 9 | .any16h => 10 | .all16h => 11 | .any32h => 12 | .all32h => 13

/-- R273: the two columns of the table. -/
def PredCtrl.ofCode (a : AccessMode) (c : BitVec 4) : Except DecodeErr PredCtrl :=
  match a, c.toNat with
  | _, 0 => .ok .none
  | _, 1 => .ok .seq
  | .align1, 2 => .ok .anyv
  | .align1, 3 => .ok .allv
  | .align1, 4 => .ok .any2h
  | .align1, 5 => .ok .all2h
  | .align16, 2 => .ok .replX
  | .align16, 3 => .ok .replY
  | .align16, 4 => .ok .replZ
  | .align16, 5 => .ok .replW
  | _, 6 => .ok .any4h
  | _, 7 => .ok .all4h
  | .align1, 8 => .ok .any8h
  | .align1, 9 => .ok .all8h
  | .align1, 10 => .ok .any16h
  | .align1, 11 => .ok .all16h
  | .align1, 12 => .ok .any32h
  | .align1, 13 => .ok .all32h
  | _, _ => .error .predCtrl

/-- R277. -/
def CondMod.code : CondMod → BitVec 4
  | .none => 0 | .z => 1 | .nz => 2 | .g => 3 | .ge => 4 | .l => 5 | .le => 6 | .o => 8 | .u => 9

def CondMod.ofCode (c : BitVec 4) : Except DecodeErr CondMod :=
  match c.toNat with
  | 0 => .ok .none
  | 1 => .ok .z
  | 2 => .ok .nz
  | 3 => .ok .g
  | 4 => .ok .ge
  | 5 => .ok .l
  | 6 => .ok .le
  | 8 => .ok .o
  | 9 => .ok .u
  | _ => .error .condMod

/-- R256, the register column. -/
def RegType.code : RegType → BitVec 3
  | .ud => 0 | .d => 1 | .uw => 2 | .w => 3 | .ub => 4 | .b => 5 | .df => 6 | .f => 7

def RegType.ofCode (c : BitVec 3) : RegType :=
  match c.toNat with
  | 0 => .ud
  | 1 => .d
  | 2 => .uw
  | 3 => .w
  | 4 => .ub
  | 5 => .b
  | 6 => .df
  | _ => .f

/-- R256, the immediate column. -/
def ImmType.code : ImmType → BitVec 3
  | .ud => 0 | .d => 1 | .uw => 2 | .w => 3 | .uv => 4 | .vf => 5 | .v => 6 | .f => 7

def ImmType.ofCode (c : BitVec 3) : ImmType :=
  match c.toNat with
  | 0 => .ud
  | 1 => .d
  | 2 => .uw
  | 3 => .w
  | 4 => .uv
  | 5 => .vf
  | 6 => .v
  | _ => .f

/-- R272. -/
def TriType.code : TriType → BitVec 2
  | .f => 0 | .d => 1 | .ud => 2 | .df => 3

def TriType.ofCode (c : BitVec 2) : TriType :=
  match c.toNat with
  | 0 => .f
  | 1 => .d
  | 2 => .ud
  | _ => .df

/-- R259, spec/40_common_execution.md R445. -/
def SrcMod.code : SrcMod → BitVec 2
  | .none => 0 | .abs => 1 | .neg => 2 | .negAbs => 3

def SrcMod.ofCode (c : BitVec 2) : SrcMod :=
  match c.toNat with
  | 0 => .none
  | 1 => .abs
  | 2 => .neg
  | _ => .negAbs

/-- R261. -/
def VertStride.code : VertStride → BitVec 4
  | .v0 => 0 | .v1 => 1 | .v2 => 2 | .v4 => 3 | .v8 => 4 | .v16 => 5 | .v32 => 6 | .vx => 15

/-- R261; 1111b only where `allowVx` (an indirect Align1 src0, R252). -/
def VertStride.ofCode (allowVx : Bool) (c : BitVec 4) : Except DecodeErr VertStride :=
  match c.toNat with
  | 0 => .ok .v0
  | 1 => .ok .v1
  | 2 => .ok .v2
  | 3 => .ok .v4
  | 4 => .ok .v8
  | 5 => .ok .v16
  | 6 => .ok .v32
  | 15 => if allowVx then .ok .vx else .error .vertStride
  | _ => .error .vertStride

/-- R261. -/
def Width.code : Width → BitVec 3
  | .w1 => 0 | .w2 => 1 | .w4 => 2 | .w8 => 3 | .w16 => 4

def Width.ofCode (c : BitVec 3) : Except DecodeErr Width :=
  match c.toNat with
  | 0 => .ok .w1
  | 1 => .ok .w2
  | 2 => .ok .w4
  | 3 => .ok .w8
  | 4 => .ok .w16
  | _ => .error .width

/-- R261. -/
def HorzStride.code : HorzStride → BitVec 2
  | .h0 => 0 | .h1 => 1 | .h2 => 2 | .h4 => 3

def HorzStride.ofCode (c : BitVec 2) : HorzStride :=
  match c.toNat with
  | 0 => .h0
  | 1 => .h1
  | 2 => .h2
  | _ => .h4

/-- R255. -/
def RegFile.code : RegFile → BitVec 2
  | .arf => 0 | .grf => 1 | .imm => 3

def RegFile.ofCode (c : BitVec 2) : Except DecodeErr RegFile :=
  match c.toNat with
  | 0 => .ok .arf
  | 1 => .ok .grf
  | 3 => .ok .imm
  | _ => .error .regFile

/-- The 8-bit RegNum of an architecture register (spec/10_state.md R56 to R85). -/
def Arf.code : Arf → BitVec 8
  | .null => 0x00 | .a0 => 0x10 | .acc0 => 0x20 | .acc1 => 0x21 | .f0 => 0x30 | .f1 => 0x31
  | .sr0 => 0x70 | .cr0 => 0x80 | .n0 => 0x90 | .ip => 0xA0 | .tdr0 => 0xB0 | .tm0 => 0xC0

def Arf.ofCode (c : BitVec 8) : Except DecodeErr Arf :=
  match c.toNat with
  | 0x00 => .ok .null
  | 0x10 => .ok .a0
  | 0x20 => .ok .acc0
  | 0x21 => .ok .acc1
  | 0x30 => .ok .f0
  | 0x31 => .ok .f1
  | 0x70 => .ok .sr0
  | 0x80 => .ok .cr0
  | 0x90 => .ok .n0
  | 0xA0 => .ok .ip
  | 0xB0 => .ok .tdr0
  | 0xC0 => .ok .tm0
  | _ => .error .arfReg

/-! ## Parts of an instruction word -/

/-- The bits lo+len-1 : lo of a native word (R250). -/
abbrev fld (w : NativeWord) (lo len : Nat) : BitVec len := w.extractLsb' lo len

/-- A part that must hold; otherwise the word is rejected with the given name. -/
def need (c : Bool) (e : DecodeErr) : Except DecodeErr Unit := if c then .ok () else .error e

/-- The header: bits 31:8 of DW0, `NibCtrl` (bit 47) and the flag selector, which lies at `flagLo` + 1 : `flagLo` (R260, R270). -/
def decodeHeader (w : NativeWord) (flagLo : Nat) : Except DecodeErr Header := do
  let access := AccessMode.ofBit (w.getLsbD 8)
  let thread ← ThreadCtrl.ofCode (fld w 14 2)
  let pred ← PredCtrl.ofCode access (fld w 16 4)
  let size ← ExecSize.ofCode (fld w 21 3)
  return {
    access := access, noMask := w.getLsbD 9, noDDClr := w.getLsbD 10, noDDChk := w.getLsbD 11,
    qtr := fld w 12 2, nib := w.getLsbD 47, thread := thread, pred := pred, predInv := w.getLsbD 20,
    size := size, accWr := w.getLsbD 28, debug := w.getLsbD 30, sat := w.getLsbD 31,
    flagReg := w.getLsbD (flagLo + 1), flagSub := w.getLsbD flagLo }

/-- The 13 bits RegNum/SubRegNum or AddrSubRegNum/AddrImm, in Align16 with the low four bits taken as 0 (R257, R258, R260). -/
def locBits (a : AccessMode) (x : BitVec 13) : BitVec 13 :=
  match a with
  | .align1 => x
  | .align16 => x.extractLsb' 4 9 ++ 0#4

/-- A register operand's place, from RegFile, AddrMode and the 13 bits (R255 to R258). -/
def decodeLoc (file : BitVec 2) (indirect : Bool) (x : BitVec 13) : Except DecodeErr Loc :=
  match file.toNat with
  | 0 =>
    if indirect then .error .arfIndirect
    else do
      let r ← Arf.ofCode (x.extractLsb' 5 8)
      return .arf r (x.extractLsb' 0 5)
  | 1 =>
    if indirect then .ok (.ind (x.extractLsb' 10 3) (x.extractLsb' 0 10))
    else if x.getLsbD 12 then .error .regNum
    else .ok (.grf (x.extractLsb' 5 7) (x.extractLsb' 0 5))
  | _ => .error .regFile

/-- A register source from its RegFile, type code and 25 bits VertStride .. SubRegNum (R260). -/
def decodeRegSrc (a : AccessMode) (isSrc1 : Bool) (file : BitVec 2) (ty : BitVec 3) (x : BitVec 25) :
    Except DecodeErr RegSrc := do
  let indirect := x.getLsbD 15
  let loc ← decodeLoc file indirect (locBits a (x.extractLsb' 0 13))
  match a with
  | .align1 =>
    let v ← VertStride.ofCode (indirect && !isSrc1) (x.extractLsb' 21 4)
    let wd ← Width.ofCode (x.extractLsb' 18 3)
    return { loc := loc, ty := RegType.ofCode ty, mod := SrcMod.ofCode (x.extractLsb' 13 2),
             region := .a1 v wd (HorzStride.ofCode (x.extractLsb' 16 2)) }
  | .align16 =>
    let v ← VertStride.ofCode false (x.extractLsb' 21 4)
    need (!x.getLsbD 20) .mbz
    return { loc := loc, ty := RegType.ofCode ty, mod := SrcMod.ofCode (x.extractLsb' 13 2),
             region := .a16 v (x.extractLsb' 16 4 ++ x.extractLsb' 0 4) }

/-- The destination: bits 63:48, type 36:34, RegFile 33:32 (R260). Align16 ignores bits 62:61 (note d). -/
def decodeDst (w : NativeWord) (a : AccessMode) : Except DecodeErr Dst := do
  let loc ← decodeLoc (fld w 32 2) (w.getLsbD 63) (locBits a (fld w 48 13))
  return { loc := loc, ty := RegType.ofCode (fld w 34 3),
           region := match a with
             | .align1 => .a1 (HorzStride.ofCode (fld w 61 2))
             | .align16 => .a16 (fld w 48 4) }

/-- The src0 register operand (R260). -/
def decodeSrc0 (w : NativeWord) (a : AccessMode) : Except DecodeErr RegSrc :=
  decodeRegSrc a false (fld w 37 2) (fld w 39 3) (fld w 64 25)

/-- The src1 operand of a two-source instruction: an immediate, or a register with 127:121 zero (R260, R264). -/
def decodeSrc1 (w : NativeWord) (a : AccessMode) : Except DecodeErr Src :=
  if fld w 42 2 = 3#2 then .ok (.imm (ImmType.ofCode (fld w 44 3)) (fld w 96 32))
  else do
    need (fld w 121 7 = 0#7) .mbz
    let r ← decodeRegSrc a true (fld w 42 2) (fld w 44 3) (fld w 96 25)
    return .reg r

/-- The field of an absent destination names null: RegNum and SubRegNum 0, direct (R290). -/
def fillerNull (a : AccessMode) (file : BitVec 2) (indirect : Bool) (x : BitVec 13) : Bool :=
  file = 0#2 && !indirect && locBits a x = 0#13

/-- The field of an absent source: a register operand with legal codes (R254, R261) that names null without a modifier
(R290, 42 R634; log 10). -/
def decodeFiller (a : AccessMode) (isSrc1 : Bool) (file : BitVec 2) (ty : BitVec 3) (x : BitVec 25) :
    Except DecodeErr Unit := do
  let r ← decodeRegSrc a isSrc1 file ty x
  need (r.loc = .arf .null 0#5 && r.mod = .none) .fillerNotNull

/-- Basic format, one source; src1 is the null filler, of src0's type code (R260, R290; a compact word's: log 75). -/
def decodeBasic1 (w : NativeWord) : Except DecodeErr Basic1 := do
  need (fld w 91 5 = 0#5) .mbz
  let h ← decodeHeader w 89
  let c ← CondMod.ofCode (fld w 24 4)
  let dst ← decodeDst w h.access
  need (fld w 44 3 = fld w 39 3) .fillerNotNull
  if fld w 37 2 = 3#2 then
    need (fld w 42 2 = 0#2) .fillerNotNull
    need (fld w 77 2 = 0#2) .immModifier
    return { hdr := h, cmod := c, dst := dst, src0 := .imm (ImmType.ofCode (fld w 39 3)) (fld w 96 32) }
  else
    need (fld w 121 7 = 0#7) .mbz
    decodeFiller h.access true (fld w 42 2) (fld w 44 3) (fld w 96 25)
    let s ← decodeSrc0 w h.access
    return { hdr := h, cmod := c, dst := dst, src0 := .reg s }

/-- Basic format, two sources (R260). -/
def decodeBasic2 (w : NativeWord) : Except DecodeErr Basic2 := do
  need (fld w 91 5 = 0#5) .mbz
  let h ← decodeHeader w 89
  let c ← CondMod.ofCode (fld w 24 4)
  let dst ← decodeDst w h.access
  let s0 ← decodeSrc0 w h.access
  let s1 ← decodeSrc1 w h.access
  return { hdr := h, cmod := c, dst := dst, src0 := s0, src1 := s1 }

/-- One three-source operand from its 20 bits: RegNum, SubRegNum, ChanSel, RepCtrl (R270). -/
def decodeTriSrc (x : BitVec 20) (mod : BitVec 2) : Except DecodeErr TriSrc := do
  need (!x.getLsbD 19) .regNum
  return { num := x.extractLsb' 12 7, sub := x.extractLsb' 9 3, chanSel := x.extractLsb' 1 8,
           rep := x.getLsbD 0, mod := SrcMod.ofCode mod }

/-- Three-source format (R270, R272). Bit 8 is read into the header; that it must be 1 is the instruction's check (R271, log 11). -/
def decodeTri (w : NativeWord) : Except DecodeErr Tri := do
  need (fld w 126 2 = 0#2 && !w.getLsbD 105 && !w.getLsbD 84 && !w.getLsbD 48 && !w.getLsbD 46 &&
    !w.getLsbD 35 && !w.getLsbD 32) .mbz
  need (!w.getLsbD 63) .regNum
  let h ← decodeHeader w 33
  let c ← CondMod.ofCode (fld w 24 4)
  let s0 ← decodeTriSrc (fld w 64 20) (fld w 36 2)
  let s1 ← decodeTriSrc (fld w 85 20) (fld w 38 2)
  let s2 ← decodeTriSrc (fld w 106 20) (fld w 40 2)
  return { hdr := h, cmod := c, dstTy := TriType.ofCode (fld w 44 2), srcTy := TriType.ofCode (fld w 42 2),
           dstNum := fld w 56 7, dstSub := fld w 53 3, chanEn := fld w 49 4, src0 := s0, src1 := s1, src2 := s2 }

/-- The parts that every branch with null operands shares: no conditional modifier, null src0 (R275, R290). -/
def decodeBranchHeader (w : NativeWord) : Except DecodeErr Header := do
  need (fld w 24 4 = 0#4) .condMod
  need (fld w 91 5 = 0#5) .mbz
  let h ← decodeHeader w 89
  decodeFiller h.access false (fld w 37 2) (fld w 39 3) (fld w 64 25)
  return h

/-- Branch format, one offset; 127:112 is MBZ (R275). -/
def decodeBranch1 (w : NativeWord) : Except DecodeErr Branch1 := do
  let h ← decodeBranchHeader w
  need (fillerNull h.access (fld w 32 2) (w.getLsbD 63) (fld w 48 13)) .fillerNotNull
  let file ← RegFile.ofCode (fld w 42 2)
  need (fld w 112 16 = 0#16) .mbz
  return { hdr := h, offFile := file, offTy := fld w 44 3, jip := fld w 96 16 }

/-- Branch format, two offsets: JIP 111:96, UIP 127:112 (R275). -/
def decodeBranch2 (w : NativeWord) : Except DecodeErr Branch2 := do
  let h ← decodeBranchHeader w
  need (fillerNull h.access (fld w 32 2) (w.getLsbD 63) (fld w 48 13)) .fillerNotNull
  let file ← RegFile.ofCode (fld w 42 2)
  return { hdr := h, offFile := file, offTy := fld w 44 3, jip := fld w 96 16, uip := fld w 112 16 }

/-- The region bits 88:80 of `call`'s source0: `<2;2,1>` (42 R651), or the zeros of the null filler that the spec's own
words hold (95 E18); Align16 is refused with the instruction (40 R470 7D; log 61). -/
def callRegionOk (a : AccessMode) (x : BitVec 9) : Bool := a = .align16 || x = 0#9 || x = 0b001000101#9

/-- `call`: a destination, null src0, one offset (R275, 42 R651). -/
def decodeCall (w : NativeWord) : Except DecodeErr Call := do
  let h ← decodeBranchHeader w
  need (callRegionOk h.access (fld w 80 9)) .callRegion
  let dst ← decodeDst w h.access
  let file ← RegFile.ofCode (fld w 42 2)
  need (fld w 112 16 = 0#16) .mbz
  return { hdr := h, dst := dst, offFile := file, offTy := fld w 44 3, jip := fld w 96 16 }

/-- A branch that uses the basic layout: bits 27:24 are MBZ (R275). -/
def needNoCmod (w : NativeWord) : Except DecodeErr Unit := need (fld w 24 4 = 0#4) .condMod

/-- Send format: SFID 27:24, EOT 127, descriptor 126:96 or a register (R280). The spec gives no type code 46:44 for an immediate
descriptor: any is accepted, and `encodeSend` writes 000b (DESIGN CHOICE, unsafe: log 92). -/
def decodeSend (w : NativeWord) : Except DecodeErr Send := do
  need (fld w 91 5 = 0#5) .mbz
  let h ← decodeHeader w 89
  let dst ← decodeDst w h.access
  let s0 ← decodeSrc0 w h.access
  if fld w 42 2 = 3#2 then
    return { hdr := h, sfid := fld w 24 4, dst := dst, src0 := s0, desc := .imm (fld w 96 31), eot := w.getLsbD 127 }
  else
    need (fld w 121 6 = 0#6) .mbz
    let r ← decodeRegSrc h.access true (fld w 42 2) (fld w 44 3) (fld w 96 25)
    return { hdr := h, sfid := fld w 24 4, dst := dst, src0 := s0, desc := .reg r, eot := w.getLsbD 127 }

/-- Math format: the function control in 27:24 (R285). -/
def decodeMath (w : NativeWord) : Except DecodeErr Math := do
  need (fld w 91 5 = 0#5) .mbz
  let h ← decodeHeader w 89
  let dst ← decodeDst w h.access
  let s0 ← decodeSrc0 w h.access
  let s1 ← decodeSrc1 w h.access
  return { hdr := h, fc := fld w 24 4, dst := dst, src0 := s0, src1 := s1 }

/-- A native word (R253 steps 3 and 4): the opcode byte selects the row and its format; every other byte value is `illegal`. -/
def decodeNative (w : NativeWord) : Except DecodeErr Instr :=
  match (fld w 0 8).toNat with
  | 0x00 => .ok .illegal
  | 0x01 => .mov <$> decodeBasic1 w
  | 0x02 => .sel <$> decodeBasic2 w
  | 0x03 => .movi <$> decodeBasic1 w
  | 0x04 => .not_ <$> decodeBasic1 w
  | 0x05 => .and_ <$> decodeBasic2 w
  | 0x06 => .or_ <$> decodeBasic2 w
  | 0x07 => .xor_ <$> decodeBasic2 w
  | 0x08 => .shr <$> decodeBasic2 w
  | 0x09 => .shl <$> decodeBasic2 w
  | 0x0C => .asr <$> decodeBasic2 w
  | 0x10 => .cmp <$> decodeBasic2 w
  | 0x11 => .cmpn <$> decodeBasic2 w
  | 0x13 => .f32to16 <$> decodeBasic1 w
  | 0x14 => .f16to32 <$> decodeBasic1 w
  | 0x17 => .bfrev <$> decodeBasic1 w
  | 0x18 => .bfe <$> decodeTri w
  | 0x19 => .bfi1 <$> decodeBasic2 w
  | 0x1A => .bfi2 <$> decodeTri w
  | 0x20 => do needNoCmod w; .jmpi <$> decodeBasic2 w
  | 0x21 => .brd <$> decodeBranch1 w
  | 0x22 => .if_ <$> decodeBranch2 w
  | 0x23 => .brc <$> decodeBranch2 w
  | 0x24 => .else_ <$> decodeBranch1 w
  | 0x25 => .endif <$> decodeBranch1 w
  | 0x26 => .case_ <$> decodeBranch2 w
  | 0x27 => .while_ <$> decodeBranch1 w
  | 0x28 => .break_ <$> decodeBranch2 w
  | 0x29 => .cont <$> decodeBranch2 w
  | 0x2A => .halt <$> decodeBranch2 w
  | 0x2C => .call <$> decodeCall w
  | 0x2D => do needNoCmod w; .ret <$> decodeBasic1 w
  | 0x30 => .wait <$> decodeBasic1 w
  | 0x31 => .send <$> decodeSend w
  | 0x32 => .sendc <$> decodeSend w
  | 0x38 => .math <$> decodeMath w
  | 0x40 => .add <$> decodeBasic2 w
  | 0x41 => .mul <$> decodeBasic2 w
  | 0x42 => .avg <$> decodeBasic2 w
  | 0x43 => .frc <$> decodeBasic1 w
  | 0x44 => .rndu <$> decodeBasic1 w
  | 0x45 => .rndd <$> decodeBasic1 w
  | 0x46 => .rnde <$> decodeBasic1 w
  | 0x47 => .rndz <$> decodeBasic1 w
  | 0x48 => .mac <$> decodeBasic2 w
  | 0x49 => .mach <$> decodeBasic2 w
  | 0x4A => .lzd <$> decodeBasic1 w
  | 0x4B => .fbh <$> decodeBasic1 w
  | 0x4C => .fbl <$> decodeBasic1 w
  | 0x4D => .cbit <$> decodeBasic1 w
  | 0x4E => .addc <$> decodeBasic2 w
  | 0x4F => .subb <$> decodeBasic2 w
  | 0x50 => .sad2 <$> decodeBasic2 w
  | 0x51 => .sada2 <$> decodeBasic2 w
  | 0x54 => .dp4 <$> decodeBasic2 w
  | 0x55 => .dph <$> decodeBasic2 w
  | 0x56 => .dp3 <$> decodeBasic2 w
  | 0x57 => .dp2 <$> decodeBasic2 w
  | 0x59 => .line <$> decodeBasic2 w
  | 0x5A => .pln <$> decodeBasic2 w
  | 0x5B => .mad <$> decodeTri w
  | 0x5C => .lrp <$> decodeTri w
  | 0x7E => .ok (.nop (w.getLsbD 30))
  | _ => .ok .illegal

/-! ## The compact form -/

/-- ControlIndex: flag selector, Saturate and bits 23:8 of the native word (R333). -/
def controlIndexTable : List (BitVec 19) :=
  [0x00002, 0x04000, 0x04001, 0x04002, 0x04003, 0x04004, 0x04005, 0x04007,
   0x04008, 0x04009, 0x0400D, 0x06000, 0x06001, 0x06002, 0x06003, 0x06004,
   0x06005, 0x06007, 0x06009, 0x0600D, 0x06010, 0x06100, 0x08000, 0x08002,
   0x08004, 0x08100, 0x16000, 0x16010, 0x18000, 0x18100, 0x28000, 0x28100]

/-- DataTypeIndex: destination mode and stride, register files and types (R334). -/
def dataTypeIndexTable : List (BitVec 18) :=
  [0x08001, 0x08020, 0x08021, 0x08061, 0x080BD, 0x082FD, 0x083A1, 0x083A5,
   0x083BD, 0x08421, 0x08C20, 0x08C21, 0x094A5, 0x09CA4, 0x09CA5, 0x0F3BD,
   0x0F79D, 0x0F7BC, 0x0F7BD, 0x0FFBC, 0x0020C, 0x0803D, 0x080A5, 0x08420,
   0x094A4, 0x09C84, 0x0A509, 0x0DFBD, 0x0FFBD, 0x0BDAC, 0x0A528, 0x0AD28]

/-- SubRegIndex: the low five bits of the three operand fields (R335). -/
def subRegIndexTable : List (BitVec 15) :=
  [0x0000, 0x0001, 0x0008, 0x000F, 0x0010, 0x0080, 0x0100, 0x0180,
   0x0200, 0x0210, 0x0280, 0x1000, 0x1001, 0x1081, 0x1082, 0x1083,
   0x1084, 0x1087, 0x1088, 0x108E, 0x108F, 0x1180, 0x11E8, 0x2000,
   0x2180, 0x3000, 0x3C87, 0x4000, 0x5000, 0x6000, 0x7000, 0x701C]

/-- Src0Index and Src1Index: one table for both sources (R336). -/
def srcIndexTable : List (BitVec 12) :=
  [0x000, 0x002, 0x010, 0x012, 0x018, 0x020, 0x028, 0x048,
   0x050, 0x070, 0x078, 0x300, 0x302, 0x308, 0x310, 0x312,
   0x320, 0x328, 0x338, 0x340, 0x342, 0x348, 0x350, 0x360,
   0x368, 0x370, 0x371, 0x378, 0x468, 0x469, 0x46A, 0x588]

/-- The row of a compaction table (R332). -/
def tableRow {n : Nat} (t : List (BitVec n)) (i : BitVec 5) : BitVec n := t.getD i.toNat 0

/-- A compact word holds an immediate in DW3 when Src1.RegFile or Src0.RegFile is 11b after the DataTypeIndex lookup (R331). -/
def compactImm (dt : BitVec 18) : Bool := dt.extractLsb' 10 2 = 3#2 || dt.extractLsb' 5 2 = 3#2

/-- DW3 of the reconstructed word: the sign-extended 13-bit immediate, or the src1 fields (R331, D27). -/
def expandDW3 (c : CompactWord) (dt : BitVec 18) (sr : BitVec 15) : DWord :=
  if compactImm dt then (c.extractLsb' 35 5 ++ c.extractLsb' 56 8).signExtend 32
  else 0#7 ++ tableRow srcIndexTable (c.extractLsb' 35 5) ++ c.extractLsb' 56 8 ++ sr.extractLsb' 10 5

/-- The native word a compact word stands for; every native bit that receives nothing is 0 (R331 to R336). -/
def expandCompact (c : CompactWord) : NativeWord :=
  let ct := tableRow controlIndexTable (c.extractLsb' 8 5)
  let dt := tableRow dataTypeIndexTable (c.extractLsb' 13 5)
  let sr := tableRow subRegIndexTable (c.extractLsb' 18 5)
  let s0 := tableRow srcIndexTable (c.extractLsb' 30 5)
  let dw0 : DWord := ct.extractLsb' 16 1 ++ 0#2 ++ c.extractLsb' 23 1 ++ c.extractLsb' 24 4 ++ ct.extractLsb' 0 16 ++
    c.extractLsb' 0 8
  let dw1 : DWord := dt.extractLsb' 15 3 ++ c.extractLsb' 40 8 ++ sr.extractLsb' 0 5 ++ 0#1 ++ dt.extractLsb' 0 15
  let dw2 : DWord := 0#5 ++ ct.extractLsb' 17 2 ++ s0 ++ c.extractLsb' 48 8 ++ sr.extractLsb' 5 5
  expandDW3 c dt sr ++ dw2 ++ dw1 ++ dw0

/-- A three-source opcode (R270). -/
def isTriOpcode (op : BitVec 8) : Bool := op = 0x18#8 || op = 0x1A#8 || op = 0x5B#8 || op = 0x5C#8

/-- The opcodes of the basic instructions with one source (R300). -/
def oneSourceOpcodes : List Byte :=
  [0x01, 0x03, 0x04, 0x13, 0x14, 0x17, 0x2D, 0x30, 0x43, 0x44, 0x45, 0x46, 0x47, 0x4A, 0x4B, 0x4C, 0x4D]

/-- The word has no src1: a one-source opcode, or `math` with an ARF src1, which only null can be (R290, 43 R703). -/
def lacksSrc1 (w : NativeWord) : Bool :=
  oneSourceOpcodes.contains (fld w 0 8) || (fld w 0 8 = 0x38#8 && fld w 42 2 = 0#2)

/-- An expanded compact word whose absent src1 has src0's type. R290 asks for that type, and rows 4 to 8, 20 and 22 of the
DataTypeIndex table, made for one source, give UD beside another type (R334): the spec does not reconcile the two, and the
model does not compare the type of a null src1 in a compact word (DESIGN CHOICE, unsafe: log 75). -/
def fillSrc1Type (w : NativeWord) : NativeWord :=
  if lacksSrc1 w then w.extractLsb' 47 81 ++ fld w 39 3 ++ w.extractLsb' 0 44 else w

/-- A compact word: bit 28 is MBZ, three-source opcodes have no compact form, everything else is the expanded native
word (R330, R331; log 75); `nop` reads no other field (R302, D26) and `illegal` none at all (R254). -/
def decodeCompact (c : CompactWord) : Except DecodeErr Instr :=
  let op := c.extractLsb' 0 8
  if op = 0x7E#8 then .ok (.nop false)
  else if isTriOpcode op then .error .compactTri
  else
    match decodeNative (fillSrc1Type (expandCompact c)) with
    | .ok .illegal => .ok .illegal
    | .ok i => if c.getLsbD 28 then .error .mbz else .ok i
    | .error e => .error e

/-! ## Bytes -/

/-- The little-endian value of a list of bytes (spec/20_memory.md R200, R201). -/
def leNat : List Byte → Nat
  | [] => 0
  | b :: bs => b.toNat + 256 * leNat bs

/-- n little-endian bytes of a number, the lowest first. -/
def leBytes : Nat → Nat → List Byte
  | 0, _ => []
  | n + 1, v => BitVec.ofNat 8 v :: leBytes n (v / 256)

/-- The instruction at the head of a list of bytes and its length in bytes (R253, spec/20_memory.md R203). -/
def decodeBytes (bs : List Byte) : Except DecodeErr (Instr × Nat) :=
  if bs.length < 8 then .error .truncated
  else
    let q0 : CompactWord := BitVec.ofNat 64 (leNat (bs.take 8))
    if q0.getLsbD 29 then
      match decodeCompact q0 with
      | .ok i => .ok (i, 8)
      | .error e => .error e
    else if bs.length < 16 then .error .truncated
    else
      match decodeNative (BitVec.ofNat 128 (leNat (bs.take 16))) with
      | .ok i => .ok (i, 16)
      | .error e => .error e

/-- The instruction the decoder reads from an instruction whose bits are `w`, bit 0 the least significant bit of the
first byte in memory; the bits from `nbits` on are 0 (the host's probe). -/
def decodeTableWord (nbits w : Nat) : Option Instr :=
  match decodeBytes (leBytes 16 (w % 2 ^ nbits)) with
  | .ok (i, _) => some i
  | .error _ => none

/-! ## The encoder -/

/-- Bits 31:0 (R260): `b2724` is the conditional modifier, SFID or function control. -/
def encodeDW0 (h : Header) (b2724 : BitVec 4) (op : BitVec 8) : DWord :=
  BitVec.ofBool h.sat ++ BitVec.ofBool h.debug ++ 0#1 ++ BitVec.ofBool h.accWr ++ b2724 ++ h.size.code ++
  BitVec.ofBool h.predInv ++ h.pred.code ++ h.thread.code ++ h.qtr ++ BitVec.ofBool h.noDDChk ++
  BitVec.ofBool h.noDDClr ++ BitVec.ofBool h.noMask ++ h.access.code ++ op

/-- RegFile and AddrMode of a register operand (R255, R258). -/
def Loc.file : Loc → BitVec 2
  | .grf _ _ => 1
  | .arf _ _ => 0
  | .ind _ _ => 1

def Loc.addrMode : Loc → BitVec 1
  | .ind _ _ => 1
  | _ => 0

/-- The 13 bits RegNum/SubRegNum or AddrSubRegNum/AddrImm (R257, R258). -/
def Loc.bits : Loc → BitVec 13
  | .grf n s => 0#1 ++ n ++ s
  | .arf r s => r.code ++ s
  | .ind a i => a ++ i

/-- The 25 bits VertStride .. SubRegNum of a register source (R260). -/
def encodeRegSrc (r : RegSrc) : BitVec 25 :=
  match r.region with
  | .a1 v wd hz => v.code ++ wd.code ++ hz.code ++ r.loc.addrMode ++ r.mod.code ++ r.loc.bits
  | .a16 v cs => v.code ++ 0#1 ++ cs.extractLsb' 4 4 ++ r.loc.addrMode ++ r.mod.code ++ r.loc.bits.extractLsb' 4 9 ++
      cs.extractLsb' 0 4

/-- Bits 63:48 of the destination; Align16 writes HorzStride 01b (R260 note d). -/
def encodeDst (d : Dst) : BitVec 16 :=
  match d.region with
  | .a1 hz => d.loc.addrMode ++ hz.code ++ d.loc.bits
  | .a16 ce => d.loc.addrMode ++ 1#2 ++ d.loc.bits.extractLsb' 4 9 ++ ce

/-- DW1 from the destination's 16 bits and the files and types of the operands (R260). -/
def encodeDW1 (dst16 : BitVec 16) (nib : Bool) (s1ty : BitVec 3) (s1file : BitVec 2) (s0ty : BitVec 3) (s0file : BitVec 2)
    (dty : BitVec 3) (dfile : BitVec 2) : DWord :=
  dst16 ++ BitVec.ofBool nib ++ s1ty ++ s1file ++ s0ty ++ s0file ++ dty ++ dfile

/-- DW2: the flag selector and src0 (R260). -/
def encodeDW2 (h : Header) (s0 : BitVec 25) : DWord :=
  0#5 ++ BitVec.ofBool h.flagReg ++ BitVec.ofBool h.flagSub ++ s0

/-- Type code and RegFile of a source (R255, R256). -/
def Src.typeCode : Src → BitVec 3
  | .reg r => r.ty.code
  | .imm t _ => t.code

def Src.file : Src → BitVec 2
  | .reg r => r.loc.file
  | .imm _ _ => 3

/-- DW3: the immediate, or the src1 fields (R260, R264). -/
def encodeDW3 : Src → DWord
  | .reg r => 0#7 ++ encodeRegSrc r
  | .imm _ v => v

/-- Basic format, one source: src1 is null with src0's type code (R290). -/
def encodeBasic1 (op : BitVec 8) (b : Basic1) : NativeWord :=
  match b.src0 with
  | .reg r =>
    0#32 ++ encodeDW2 b.hdr (encodeRegSrc r) ++
    encodeDW1 (encodeDst b.dst) b.hdr.nib r.ty.code 0#2 r.ty.code r.loc.file b.dst.ty.code b.dst.loc.file ++
    encodeDW0 b.hdr b.cmod.code op
  | .imm t v =>
    v ++ encodeDW2 b.hdr 0#25 ++
    encodeDW1 (encodeDst b.dst) b.hdr.nib t.code 0#2 t.code 3#2 b.dst.ty.code b.dst.loc.file ++
    encodeDW0 b.hdr b.cmod.code op

/-- Basic layout, two sources, with the given bits 27:24 (R260, R285). -/
def encodeTwo (op : BitVec 8) (h : Header) (b2724 : BitVec 4) (dst : Dst) (s0 : RegSrc) (s1 : Src) : NativeWord :=
  encodeDW3 s1 ++ encodeDW2 h (encodeRegSrc s0) ++
  encodeDW1 (encodeDst dst) h.nib s1.typeCode s1.file s0.ty.code s0.loc.file dst.ty.code dst.loc.file ++
  encodeDW0 h b2724 op

/-- One three-source operand (R270). -/
def encodeTriSrc (s : TriSrc) : BitVec 20 := 0#1 ++ s.num ++ s.sub ++ s.chanSel ++ BitVec.ofBool s.rep

/-- Three-source format (R270). -/
def encodeTri (op : BitVec 8) (t : Tri) : NativeWord :=
  0#2 ++ encodeTriSrc t.src2 ++ 0#1 ++ encodeTriSrc t.src1 ++ 0#1 ++ encodeTriSrc t.src0 ++
  0#1 ++ t.dstNum ++ t.dstSub ++ t.chanEn ++ 0#1 ++ BitVec.ofBool t.hdr.nib ++ 0#1 ++ t.dstTy.code ++ t.srcTy.code ++
  t.src2.mod.code ++ t.src1.mod.code ++ t.src0.mod.code ++ 0#1 ++ BitVec.ofBool t.hdr.flagReg ++
  BitVec.ofBool t.hdr.flagSub ++ 0#1 ++ encodeDW0 t.hdr t.cmod.code op

/-- The null destination of a branch, type D, HorzStride 01b (R275; spec/95_test_vectors.md E12). -/
def branchNullDst : BitVec 16 := 0x2000#16

/-- Branch format (R275): null dst and src0 of type D, the offsets in DW3. -/
def encodeBranch (op : BitVec 8) (h : Header) (dst16 : BitVec 16) (dty : BitVec 3) (dfile : BitVec 2) (file : RegFile) (ty : BitVec 3)
    (jip uip : BitVec 16) : NativeWord :=
  uip ++ jip ++ encodeDW2 h 0#25 ++ encodeDW1 dst16 h.nib ty file.code 1#3 0#2 dty dfile ++ encodeDW0 h 0#4 op

/-- Send format (R280); the type code beside an immediate descriptor is 000b (log 92). -/
def encodeSend (op : BitVec 8) (m : Send) : NativeWord :=
  match m.desc with
  | .imm v =>
    BitVec.ofBool m.eot ++ v ++ encodeDW2 m.hdr (encodeRegSrc m.src0) ++
    encodeDW1 (encodeDst m.dst) m.hdr.nib 0#3 3#2 m.src0.ty.code m.src0.loc.file m.dst.ty.code m.dst.loc.file ++
    encodeDW0 m.hdr m.sfid op
  | .reg r =>
    BitVec.ofBool m.eot ++ 0#6 ++ encodeRegSrc r ++ encodeDW2 m.hdr (encodeRegSrc m.src0) ++
    encodeDW1 (encodeDst m.dst) m.hdr.nib r.ty.code r.loc.file m.src0.ty.code m.src0.loc.file m.dst.ty.code m.dst.loc.file ++
    encodeDW0 m.hdr m.sfid op

/-- `nop` and `illegal`: DW0 holds the opcode and DebugCtrl (R254, R302). -/
def encodeBare (op : BitVec 8) (debug : Bool) : NativeWord :=
  0#96 ++ (0#1 ++ BitVec.ofBool debug ++ 0#22 ++ op)

/-- The native word of a form with a given opcode. -/
def encodeForm (op : BitVec 8) : Form → NativeWord
  | .bare d => encodeBare op d
  | .basic1 b => encodeBasic1 op b
  | .basic2 b => encodeTwo op b.hdr b.cmod.code b.dst b.src0 b.src1
  | .tri t => encodeTri op t
  | .branch1 b => encodeBranch op b.hdr branchNullDst 1#3 0#2 b.offFile b.offTy b.jip 0#16
  | .branch2 b => encodeBranch op b.hdr branchNullDst 1#3 0#2 b.offFile b.offTy b.jip b.uip
  | .call c => encodeBranch op c.hdr (encodeDst c.dst) c.dst.ty.code c.dst.loc.file c.offFile c.offTy c.jip 0#16
  | .send m => encodeSend op m
  | .math m => encodeTwo op m.hdr m.fc m.dst m.src0 m.src1

/-- The native word of an instruction (R260 to R300). -/
def encodeWord (i : Instr) : NativeWord := encodeForm i.opcode i.form

/-- The 16 bytes of an instruction in memory (spec/20_memory.md R201). -/
def encode (i : Instr) : List Byte := leBytes 16 (encodeWord i).toNat

end Sys2Proof
end

