-- ==== Sys2Proof/Machine/State.lean ====
section
/-! DEFINITION. The state of one Execution Unit thread as plain data (spec/10_state.md, spec/70_reset_and_hazards.md), the reasons a step can stop, and the state after reset. -/

namespace Sys2Proof.Machine

/-! ## Why a step stops -/

/-- A stated restriction ("must", "cannot", "is not allowed") that an instruction violates. The spec calls the outcome
undefined and gives no effect (spec/93_implementation_defined.md U2, U3; spec/60_exceptions.md R932). -/
inductive Restriction where
  /-- explicit cr0 access without ThreadCtrl = Switch (10_state R75, 70 R970) -/
  | cr0Switch
  /-- index registers not group-aligned, or beyond a0.7 (10_state R61, 40 R423) -/
  | indexGroup
  /-- source and destination name different accumulators (10_state R66 a), or mov with both (41 R600) -/
  | accBoth
  /-- an accumulator source with a swizzle or a region other than the destination's (10_state R66 c, e) -/
  | accRegion
  /-- SIMD16 execution on DWords or floats with an explicit accumulator, or more channels than acc0 has (10_state R66 d, f) -/
  | accChannels
  /-- acc1 for an operand or an execution type other than F, a byte accumulator, or SubRegNum not 0 (10_state R64, R66 d) -/
  | accType
  /-- an explicit accumulator operand where the instruction does not allow one -/
  | accOperand
  /-- AccWrCtrl = 1 where the instruction does not allow it (40 R465) -/
  | accWrForbidden
  /-- AccWrCtrl = 0 where it is required (44 R749, R754, R755) -/
  | accWrRequired
  /-- a GRF reference at or beyond the thread's allocation (10_state R53, U3) -/
  | grfRange
  /-- an ARF region crosses the register, accumulators among them, or an a0 region leaves the 128 bits (10_state R57 a, R59) -/
  | arfRange
  /-- an ARF register as src1, null among them where the instruction has a src1 (10_state R51, 20_memory R202, 40 R420) -/
  | arfSrc1
  /-- an operand origin not aligned to its type (40 R401, 20_memory R205) -/
  | misaligned
  /-- QtrCtrl 2H for SIMD16 (30 R267; C38) -/
  | half2
  /-- NibCtrl = 1 without SIMD4 and DF (30 R267) -/
  | nibCtrl
  /-- QtrCtrl or NibCtrl not 0 with SPF = 1 (10_state R76) -/
  | spfQuarter
  /-- more than 64 bytes per operand (40 R470 1A) -/
  | sizeLimit
  /-- the destination is not aligned to, or strided for, the wider execution type (40 R470 1B, 3F) -/
  | dstExecAlign
  /-- Width, HorzStride and VertStride do not fit together (40 R470 2A to 2F, 30 R261) -/
  | regionShape
  /-- Dst.HorzStride = 0 (40 R470 2G) -/
  | dstStride
  /-- a row of a source region crosses a register boundary (40 R470 2H) -/
  | rowCross
  /-- a source spans more than two registers (40 R470 3A) -/
  | srcSpan
  /-- a destination spans more than two registers (40 R470 3B) -/
  | dstSpan
  /-- source two registers, destination one: elements not in one OWord nor split evenly (40 R470 3C) -/
  | splitOWord
  /-- source and destination both two registers, not split alike (40 R470 3D) -/
  | splitEven
  /-- destination two registers, source one (40 R470 3E) -/
  | splitSource
  /-- a packed byte destination outside a raw mov (40 R470 4A, R402) -/
  | packedByte
  /-- a DF operand not 64-bit aligned, or fewer than two channels (40 R428, R470 5A) -/
  | dfAlign
  /-- a region, swizzle or channel enable that separates the halves of a DF number (40 R428, R470 5A, 5B) -/
  | dfPair
  /-- a Vx1 or VxH source with a two-register destination, or one index crossing a register (40 R470 6B, 6D, 6F) -/
  | indirect
  /-- Align16 with SIMD16 DWords, or with eight DF numbers (40 R470 7A; log 62) -/
  | align16Size
  /-- an Align16 conversion to or from DF with an operand in two registers (40 R470 5C) -/
  | convSpan
  /-- an Align16 operand that is not 32 bits or DF (40 R424) -/
  | align16Type
  /-- a conditional modifier with SIMD32 (40 R470 7C) -/
  | simd32Cmod
  /-- a flow-control instruction in Align16 (40 R470 7D), or an instruction that excludes Align16 -/
  | align1Only
  /-- a three-source instruction in Align1 (30 R271) -/
  | align16Only
  /-- a vector immediate with a destination it does not allow, or with a wrong src0 (40 R426, 30 R256) -/
  | immVector
  /-- an immediate where the instruction does not allow one -/
  | immediate
  /-- a source modifier where the instruction does not allow one -/
  | srcModifier
  /-- `.sat` where the instruction does not allow it -/
  | saturate
  /-- a conditional modifier the instruction does not allow, or a missing one it requires -/
  | condModifier
  /-- a predicate where the instruction does not allow one, or a missing one it requires -/
  | predicate
  /-- a type combination outside the instruction's list -/
  | types
  /-- an execution size the instruction does not allow -/
  | execSize
  /-- a missing or forbidden NoMask -/
  | noMask
  /-- `mach`, or the `mul` of its pair, with a channel disabled (44 R749) -/
  | allChannels
  /-- `call` or `ret` in a single program flow with a predicate that differs between channels (42 R651, R652) -/
  | spfPredicate
  /-- `halt` in a single program flow whose JIP points to no `nop` (70 R972 c) -/
  | haltNop
  /-- the instructions of one block or loop differ in ExecSize (42 R642, R644, R647 to R649; log 74) -/
  | blockSize
  /-- an `if` or an `else` without an `endif` in the program text (42 R642; log 74) -/
  | noEndif
  /-- the JIP of an `if` points neither right after its `else` nor, without one, to its `endif` (42 R642; log 74) -/
  | ifTarget
  /-- a block with a second `else` (42 R642; log 74) -/
  | secondElse
  /-- `brc` in an if-endif block (42 R643; log 77) -/
  | brcInIf
  /-- a missing or forbidden ThreadCtrl = Switch (70 R971, 43 R701) -/
  | threadCtrl
  /-- a conversion between F and DF or half in ALT mode (40 R480), or FDIV in ALT mode (43 R703) -/
  | altMode
  /-- an operand of the wrong kind (register file, addressing, subregister, region) for the instruction -/
  | operand
  /-- NoDDChk on send (30 R266, 70 R963) -/
  | sendNoDDChk
  /-- RLEN that disagrees with the destination of a `send` (43 R701; log 36) -/
  | sendLength
  /-- an EOT `send` whose <src> is not in r112 to r127 (43 R701, 70 R953) -/
  | eotSource
  /-- two wait instructions back to back (43 R700) -/
  | waitTwice
  /-- the write that leaves the System Routine is not followed by a nop (60 R908, 70 R972) -/
  | returnNop
  deriving DecidableEq, Repr

/-- Why the machine stops with a fault. Safe: the spec defines no step there. -/
inductive Fault where
  /-- raised by the fetch: the launch supplied no byte at the address (20_memory R203, D35). Safe. -/
  | fetchUnmapped (addr : Nat)
  /-- raised by the step: the thread has ended with an EOT message (70 R953, D34). Safe. -/
  | threadEnded
  deriving DecidableEq, Repr

/-- Why the machine refuses an instruction. Safe: the spec calls the outcome undefined. -/
inductive Refusal where
  /-- raised by the dispatch of an instruction that has no meaning in the model -/
  | notModelled (mnemonic : String)
  /-- raised by the step: the word uses a reserved encoding (30 R254, U1). Safe. -/
  | decode (e : DecodeErr)
  /-- raised by a meaning: a stated restriction is violated (U2, U3). Safe. -/
  | restriction (r : Restriction)
  /-- raised by `math`: a reserved function control (43 R703, U1). Safe. -/
  | reservedFunction (fc : BitVec 4)
  /-- raised by `case`: the opcode has no semantics in the source (42 R646, D19, U1). Safe. -/
  | caseUndefined
  deriving DecidableEq, Repr

/-! ## Parts of the state -/

/-- The contents of acc0 in the format it was last written in (10_state R64): the channels and their widths depend on the
data type, and the source gives no overlay of one format on another (log 12). -/
inductive Acc0 where
  /-- DF: 4 channels of 64 bits -/
  | df (c : Vector (BitVec 64) 4)
  /-- F: 8 channels of 32 bits -/
  | f (c : Vector (BitVec 32) 8)
  /-- D and UD: 8 channels of 64 bits -/
  | d (c : Vector (BitVec 64) 8)
  /-- W and UW: 16 channels of 33 bits -/
  | w (c : Vector (BitVec 33) 16)
  deriving DecidableEq, Repr

/-- The accumulators: acc0, and acc1, which exists for F alone, with 8 channels of 32 bits (10_state R64). -/
structure Acc where
  acc0 : Acc0
  acc1 : Vector (BitVec 32) 8
  deriving DecidableEq, Repr

/-- One element of tdr0 (10_state R84): bits 7:0 and bit 15; bits 14:8 are forced to zero. -/
structure TdrEntry where
  valid : Bool
  fftid : BitVec 8
  deriving DecidableEq, Repr

/-- The live states of a thread (70 R954). A held thread is running. -/
inductive RunState where
  | running
  /-- in `wait_for_notification` on n0.k (43 R700) -/
  | waiting (k : Fin 3)
  | ended
  deriving DecidableEq, Repr

/-- The record one `send` hands to the host (20_memory R210, 43 R701). R210 lists its fields "and nothing else", and 10_state R76
forwards cr0.0[0] on the sideband of every message: the record has the field `altMode` as well (DEDUCED, unsafe: log 90). -/
structure Message where
  eot : Bool
  sfid : BitVec 4
  mlen : BitVec 4
  rlen : BitVec 5
  funcCtrl : BitVec 19
  header : Bool
  /-- REG: the destination register number, none for null -/
  reg : Option (BitVec 7)
  /-- CE: WrEn[15:0] -/
  channelEnable : BitVec 16
  /-- CLEAR: the inverse of NoDDClr -/
  clear : Bool
  ffid : BitVec 4
  priorityClass : Bool
  euid : BitVec 4
  tid : BitVec 3
  /-- cr0.0[0], forwarded on the sideband (10_state R76; log 90) -/
  altMode : Bool
  payload : List Reg256
  deriving DecidableEq, Repr

/-- A response the host still owes: its registers, and which phases have landed (20_memory R212). -/
structure Response where
  reg : BitVec 7
  rlen : BitVec 5
  clear : Bool
  landed : BitVec 32
  deriving DecidableEq, Repr

/-- The steps of the host agent (20_memory R212, R219; 92 D1). -/
inductive HostAction where
  /-- the thread executes its next instruction -/
  | run
  /-- phase `phase` of the `idx`-th outstanding response lands: DWord j of `data` where bit j of `mask` is set (R212) -/
  | deliver (idx : Nat) (phase : BitVec 5) (data : Reg256) (mask : BitVec 8)
  /-- a notification for n0.k (10_state R81) -/
  | notify (k : Fin 3)
  /-- the External Halt broadcast (60 R912) -/
  | externalHalt
  /-- the thread with this FFTID has retired (10_state R84) -/
  | retire (fftid : BitVec 8)
  /-- hardware raises the Priority field of sr0.0 (10_state R72) -/
  | setPriority (p : BitVec 3)
  /-- a time discontinuity: TmEvent becomes 1 (10_state R85) -/
  | timeEvent
  /-- a preemption, where `PREEMPTION` lets the host generate one (60 R915, U16; log 67) -/
  | preempt
  deriving DecidableEq, Repr

/-- The order in which a dot product's terms are summed: a tree over the components 0..3 (`DOT_ORDER`, D12). -/
inductive SumOrder where
  | term (i : Fin 4)
  | add (l r : SumOrder)
  deriving DecidableEq, Repr

/-- One comparator of the host for breakpoints: an instruction address, an opcode byte, or both, which must then match
together (60 R913; log 48). -/
structure Comparator where
  addr : Option DWord
  op : Option Byte
  deriving DecidableEq, Repr

/-- What the launch and the host configuration fix for a run (00_scope R6, 92 D2 to D16, D30). -/
structure Launch where
  /-- bits 31:4 of SIP (10_state R79), which is 16-byte aligned (20_memory R205, R208): `Launch.sip` -/
  sipHi : BitVec 28
  /-- `GRF_COUNT`, 10_state R53 -/
  grfCount : Nat
  /-- `CALL_MASK_WIDTH`: true is 32, false is 2 (42 R651, D11) -/
  callMaskFull : Bool
  /-- `DOT_ORDER`, 45 R779 -/
  dotOrder : SumOrder
  /-- `MAD_FUSED`, 45 R788 -/
  madFused : Bool
  /-- `FRC_RD_ERRATUM`, 44 R743 -/
  frcErratum : Bool
  /-- `HostBreak`: the host's comparators; a match of any triggers (60 R913; log 48) -/
  breaks : List Comparator
  /-- `PREEMPTION`: the host may generate preemptions; never by default (60 R915, U16) -/
  preemption : Bool
  deriving DecidableEq, Repr

/-- The state of the thread and of the host's queue. -/
structure State where
  /-- r0..r127 (10_state R52) -/
  grf : Vector Reg256 128
  /-- a0.0..a0.7 (10_state R59, R60) -/
  a0 : Vector Word 8
  /-- acc0, acc1 (10_state R64) -/
  acc : Acc
  /-- 10_state R67 -/
  f0 : DWord
  f1 : DWord
  /-- 10_state R72, R73 -/
  sr00 : DWord
  sr01 : DWord
  /-- DMask -/
  sr02 : DWord
  /-- VMask -/
  sr03 : DWord
  /-- 10_state R76 to R78 -/
  cr00 : DWord
  cr01 : DWord
  cr02 : DWord
  /-- 10_state R80 -/
  n00 : Word
  n01 : BitVec 1
  n02 : Word
  /-- 10_state R82 -/
  ip : DWord
  /-- 10_state R83 -/
  pcIP : Vector DWord 32
  /-- 10_state R84 -/
  tdr : Vector TdrEntry 8
  /-- TmHigh:TmLow as this instruction sees it (10_state R85, U11; log 38) -/
  tm0 : QWord
  tmEvent : Bool
  /-- 10_state R91 -/
  callMask : DWord
  /-- Dep[r] is bit r (70 R960) -/
  dep : BitVec 128
  /-- the one mark of a0 (10_state R63, 70 R960; log 50) -/
  depA0 : Bool
  /-- instruction memory: (address, byte), addresses strictly rising below 2^32 (20_memory R203) -/
  imem : List Host.Cell
  /-- messages enqueued, oldest first (20_memory R210) -/
  messages : List Message
  /-- responses still owed, oldest first (20_memory R212) -/
  outstanding : List Response
  run : RunState
  /-- the address of the instruction after the one being executed (42 R630) -/
  nextIP : DWord
  launch : Launch
  /-- MODEL: host actions to come (log 7); empty means that only the thread acts -/
  host : List HostAction
  /-- MODEL: the number of the free values of the instruction being executed (log 1) -/
  draw : Nat
  /-- MODEL: the instruction being executed / the one before it is a `wait` (log 37) -/
  curWait : Bool
  prevWait : Bool
  deriving DecidableEq, Repr

/-- The machine right after dispatch, which is the reset the spec describes (70 R950, 10_state R90; log 2 to 6). -/
def State.reset : State where
  grf := Vector.replicate 128 0
  a0 := Vector.replicate 8 0
  acc := { acc0 := .d (Vector.replicate 8 0), acc1 := Vector.replicate 8 0 }
  f0 := 0
  f1 := 0
  sr00 := 0
  sr01 := 0
  sr02 := 0xFFFFFFFF
  sr03 := 0xFFFFFFFF
  cr00 := 0
  cr01 := 0x1000
  cr02 := 0
  n00 := 0
  n01 := 0
  n02 := 0
  ip := 0
  pcIP := Vector.replicate 32 0
  tdr := Vector.replicate 8 { valid := false, fftid := 0 }
  tm0 := 0
  tmEvent := false
  callMask := 0
  dep := 0
  depA0 := false
  imem := []
  messages := []
  outstanding := []
  run := .running
  nextIP := 0
  launch := {
    sipHi := 0, grfCount := 128, callMaskFull := true,
    dotOrder := .add (.add (.add (.term 0) (.term 1)) (.term 2)) (.term 3),
    madFused := false, frcErratum := false, breaks := [],
    preemption := false }
  host := []
  draw := 0
  curWait := false
  prevWait := false

end Sys2Proof.Machine
end

