-- ==== Sys2Proof/Machine/Ops.lean ====
section
/-! DEFINITION. The named operations over instruction memory, the register files, the scoreboard, the instruction pointers, and the exception mechanism: entry (`raise`) and return (spec/10_state.md, spec/20_memory.md, spec/42_flow_control.md R631, spec/60_exceptions.md R905, R908, spec/70_reset_and_hazards.md R960 to R964). -/

namespace Sys2Proof.Machine

/-! ## Instruction memory -/

/-- The byte the launch supplied at an address; an unlisted address has none (20_memory R203, D35; log 6). -/
def Memory.read : List Host.Cell → Nat → Option Byte
  | [], _ => none
  | (k, b) :: m, a => if a = k then some b else Memory.read m a

/-- One byte stored, in the canonical form (log 6). No instruction writes instruction memory (20_memory R206): the
launch does. -/
def Memory.write : List Host.Cell → Nat → Byte → List Host.Cell
  | [], a, b => [(a, b)]
  | (k, c) :: m, a, b =>
    if a < k then (a, b) :: (k, c) :: m
    else if a = k then (a, b) :: m
    else (k, c) :: Memory.write m a b

/-- The canonical form: addresses strictly rising. An unlisted address reads as no byte, so no entry equals it. -/
def Memory.wf : List Host.Cell → Bool
  | [] => true
  | [_] => true
  | (j, _) :: (k, c) :: m => decide (j < k) && Memory.wf ((k, c) :: m)

/-- Bytes stored from an address on, modulo 2^32 (D9). -/
def Memory.writeBytes (m : List Host.Cell) (a : Nat) : List Byte → List Host.Cell
  | [] => m
  | b :: bs => Memory.writeBytes (Memory.write m (a % 2 ^ 32) b) (a + 1) bs

/-- The n bytes from an address on, modulo 2^32, or the first address that has none (20_memory R203). -/
def Memory.readBytes (m : List Host.Cell) (a : Nat) : Nat → Except Nat (List Byte)
  | 0 => .ok []
  | n + 1 =>
    match Memory.read m (a % 2 ^ 32) with
    | none => .error (a % 2 ^ 32)
    | some b =>
      match Memory.readBytes m (a + 1) n with
      | .ok bs => .ok (b :: bs)
      | .error e => .error e

/-! ## Bytes of a 256-bit register (little-endian, 20_memory R200) -/

/-- Byte i of a register. -/
def byteOf (r : Reg256) (i : Nat) : Byte := r.extractLsb' (8 * i) 8

/-- A register with byte i replaced. -/
def setByte (r : Reg256) (i : Nat) (b : Byte) : Reg256 :=
  (r &&& ~~~((255#256) <<< (8 * i))) ||| (b.zeroExtend 256 <<< (8 * i))

/-- A register with the listed bytes replaced, in order. -/
def setBytes (r : Reg256) (ws : List (Nat × Byte)) : Reg256 :=
  ws.foldl (fun r w => setByte r w.1 w.2) r

/-- DWord j of a register. -/
def dwordOf (r : Reg256) (j : Nat) : DWord := r.extractLsb' (32 * j) 32

/-- Word j of a register. -/
def wordOf (r : Reg256) (j : Nat) : Word := r.extractLsb' (16 * j) 16

/-- The n little-endian bytes of a value. -/
def bytesOf (v : DWord) (n : Nat) : List Byte := (List.range n).map (fun i => v.extractLsb' (8 * i) 8)

/-! ## General register file -/

/-- Byte a of the GRF seen as one array of 4096 bytes (10_state R52). -/
def grfByte (g : Vector Reg256 128) (a : Nat) : Byte :=
  if h : a / 32 < 128 then byteOf g[a / 32] (a % 32) else 0

/-- The GRF with byte a replaced (10_state R52: writes are at byte granularity). -/
def setGrfByte (g : Vector Reg256 128) (a : Nat) (b : Byte) : Vector Reg256 128 :=
  if h : a / 32 < 128 then g.set (a / 32) (setByte g[a / 32] (a % 32) b) else g

/-- The GRF with the listed bytes replaced, in order. -/
def setGrfBytes (g : Vector Reg256 128) (ws : List (Nat × Byte)) : Vector Reg256 128 :=
  ws.foldl (fun g w => setGrfByte g w.1 w.2) g

/-- The little-endian value of n bytes of the GRF (40 R427). -/
def grfElem (g : Vector Reg256 128) (a n : Nat) : DWord :=
  BitVec.ofNat 32 (leNat ((List.range n).map (fun i => grfByte g (a + i))))

/-- Register r of the GRF. -/
def grfReg (g : Vector Reg256 128) (r : Nat) : Reg256 := if h : r < 128 then g[r] else 0

/-- The bytes of one channel-indexed write: element n of `size` bytes at address `addr n`, for the channels that `en` enables. -/
def elemWrites (count size : Nat) (en : Nat → Bool) (addr : Nat → Nat) (val : Nat → DWord) : List (Nat × Byte) :=
  (List.range count).flatMap fun n =>
    if en n then (List.range size).map (fun i => (addr n + i, (val n).extractLsb' (8 * i) 8)) else []

/-! ## Control bits -/

/-- cr0.0[31]: the thread executes the System Routine (60 R903). -/
def State.inSR (s : State) : Bool := s.cr00.getLsbD 31

/-- cr0.0[2]: single program flow (10_state R76). -/
def State.spf (s : State) : Bool := s.cr00.getLsbD 2

/-- cr0.0[3]: vector mask enable (10_state R76). -/
def State.vme (s : State) : Bool := s.cr00.getLsbD 3

/-- cr0.0[1]: implicit accumulator updates are disabled (10_state R65, R76). -/
def State.accDisable (s : State) : Bool := s.cr00.getLsbD 1

/-- cr0.0[0]: ALT mode for type F (10_state R76). -/
def State.altMode (s : State) : Bool := s.cr00.getLsbD 0

/-- cr0.0[6] = 0: double-precision denormals are flushed (10_state R76). -/
def State.dfFlush (s : State) : Bool := !s.cr00.getLsbD 6

/-- cr0.0[5:4]: the rounding mode (10_state R76). -/
def State.roundBits (s : State) : BitVec 2 := s.cr00.extractLsb' 4 2

/-- The flag register a header selects (10_state R68). -/
def State.flagReg (s : State) (b : Bool) : DWord := if b then s.f1 else s.f0

/-- The counts n0.0 to n0.2 (10_state R80). -/
def State.notify (s : State) (k : Fin 3) : Nat :=
  match k with
  | 0 => s.n00.toNat
  | 1 => s.n01.toNat
  | 2 => s.n02.toNat

/-- A count one higher (a notification) or one lower (a consumed one) (10_state R81, 43 R700). The rules say only
"increments": that the one-bit n0.1 stays 1 at a second notification and that the 16-bit counts wrap is the model's
choice (DESIGN CHOICE, unsafe: log 54). -/
def State.addNotify (s : State) (k : Fin 3) (up : Bool) : State :=
  match k with
  | 0 => { s with n00 := if up then s.n00 + 1 else s.n00 - 1 }
  | 1 => { s with n01 := if up then s.n01 ||| 1 else s.n01 - 1 }
  | 2 => { s with n02 := if up then s.n02 + 1 else s.n02 - 1 }

/-! ## Architecture registers as explicit operands -/

/-- The populated bits of cr0.0, cr0.1, sr0.0 (without the drawn Priority field, U10) and sr0.1 (10_state R72, R73, R76, R77). -/
def cr00Mask : DWord := 0x8000807F
def cr01Mask : DWord := 0xF800F800
def sr00Mask : DWord := 0x0F801F07
def sr00Stored : DWord := 0x0F871F07
def sr01Mask : DWord := 0xFF000000

/-- Words laid out in a register, element 0 lowest (20_memory R200). -/
def packWords (l : List Word) : Reg256 :=
  l.foldr (fun w r => (r <<< 16) ||| w.zeroExtend 256) 0

/-- DWords laid out in a register, element 0 lowest. -/
def packDWords (l : List DWord) : Reg256 :=
  l.foldr (fun w r => (r <<< 32) ||| w.zeroExtend 256) 0

/-- The word of one tdr0 element: Valid in bit 15, FFTID in 7:0, 14:8 zero (10_state R84). -/
def TdrEntry.word (e : TdrEntry) : Word := BitVec.ofBool e.valid ++ 0#7 ++ e.fftid

/-- An architecture register as 256 bits, and which of them are populated (10_state R57 to R85; log 15). Accumulators
are read by `accGet`. -/
def arfImage (s : State) : Arf → Reg256 × Reg256
  | .null => (0, 0)
  | .a0 => (packWords s.a0.toList, packDWords [0xFFFFFFFF, 0xFFFFFFFF, 0xFFFFFFFF, 0xFFFFFFFF])
  | .acc0 => (0, 0)
  | .acc1 => (0, 0)
  | .f0 => (packDWords [s.f0], packDWords [0xFFFFFFFF])
  | .f1 => (packDWords [s.f1], packDWords [0xFFFFFFFF])
  | .sr0 => (packDWords [s.sr00, s.sr01, s.sr02, s.sr03], packDWords [sr00Mask, sr01Mask, 0xFFFFFFFF, 0xFFFFFFFF])
  | .cr0 => (packDWords [s.cr00, s.cr01, s.cr02], packDWords [cr00Mask, cr01Mask, 0xFFFFFFF8])
  | .n0 => (packDWords [s.n00.zeroExtend 32, s.n01.zeroExtend 32, s.n02.zeroExtend 32],
            packDWords [0xFFFF, 1, 0xFFFF])
  | .ip => (packDWords [s.ip], packDWords [0xFFFFFFFF])
  | .tdr0 => (packWords (s.tdr.toList.map TdrEntry.word),
              packDWords [0xFFFFFFFF, 0xFFFFFFFF, 0xFFFFFFFF, 0xFFFFFFFF])
  | .tm0 => (s.tm0.zeroExtend 256, packDWords [0xFFFFFFFF, 0xFFFFFFFF])

/-- The thread is restoring its context: it is in the System Routine on a machine whose host may preempt. The source says
neither when a restore begins nor how the routine tells it from another entry (91 N50; DESIGN CHOICE, unsafe: log 76). -/
def State.restoring (s : State) : Bool := s.launch.preemption && s.inSR

/-- What a read of an architecture register sees: the populated bits, and free bits elsewhere (U4, U10, U21). -/
def arfSeen (s : State) (r : Arf) (slot : FreeSlot) : Reg256 :=
  let im := arfImage s r
  (im.1 &&& im.2) ||| (Config.free s.draw slot &&& ~~~im.2)

/-- The granule, in bytes, of a register whose write mask is coarser than a byte (10_state R59, R74, R80, R82, R84). -/
def arfGranule : Arf → Nat
  | .a0 => 2
  | .tdr0 => 2
  | .cr0 => 4
  | .n0 => 4
  | .ip => 4
  | _ => 1

/-- A register image after a write of some bytes: a granule written in part takes free values in its other bytes (log 13). -/
def arfWritten (s : State) (r : Arf) (ws : List (Nat × Byte)) : Reg256 :=
  let g := arfGranule r
  let free := Config.free s.draw .granule
  let granules := ws.flatMap fun w => (List.range g).map fun i => w.1 / g * g + i
  let rest := granules.filter fun p => !ws.any fun w => w.1 = p
  setBytes (setBytes (arfImage s r).1 (rest.map fun p => (p, byteOf free p))) ws

/-- Bits 31:3 of an instruction address (10_state R78, R82). -/
def alignIP (v : DWord) : DWord := v &&& 0xFFFFFFF8

/-- a0.2 to a0.7 keep 12 bits (10_state R60). -/
def a0Stored (k : Nat) (v : Word) : Word := if k < 2 then v else v &&& 0x0FFF

/-- cr0.1 as a write leaves it: the populated bits, and in an application routine a software exception bit that is set
stays set (10_state R77, 60 R911). -/
def cr01Stored (inSR : Bool) (old new : DWord) : DWord :=
  (new &&& cr01Mask) ||| (if inSR then 0 else old &&& 0x20000000)

/-- cr0.0 as a write leaves it: bit 31 can only be cleared (10_state R76). -/
def cr00Stored (old new : DWord) : DWord :=
  (new &&& 0x0000807F) ||| (old &&& new &&& 0x80000000)

/-- An explicit write of bytes of an architecture register (10_state R57, 40 R454). Read-only and unpopulated bits are
dropped; a write of `ip` sets the address of the next instruction (10_state R82). During a context restore n0 is writable, and
TmEvent is "restored as 1" by a write of tm0 (10_state R80, R85; 60 R915; log 76). Accumulators are written by `accSet`. -/
def writeArf (s : State) (r : Arf) (ws : List (Nat × Byte)) : State :=
  if ws.isEmpty then s
  else
    let im := arfWritten s r ws
    match r with
    | .null => s
    | .a0 => { s with a0 := Vector.ofFn fun k => a0Stored k.val (wordOf im k.val) }
    | .acc0 => s
    | .acc1 => s
    | .f0 => { s with f0 := dwordOf im 0 }
    | .f1 => { s with f1 := dwordOf im 0 }
    | .sr0 => { s with sr00 := dwordOf im 0 &&& sr00Stored, sr01 := dwordOf im 1 &&& sr01Mask,
                       sr02 := dwordOf im 2, sr03 := dwordOf im 3 }
    | .cr0 => { s with cr00 := cr00Stored s.cr00 (dwordOf im 0), cr01 := cr01Stored s.inSR s.cr01 (dwordOf im 1),
                       cr02 := alignIP (dwordOf im 2) }
    | .n0 =>
      if s.restoring then
        { s with n00 := (dwordOf im 0).setWidth 16, n01 := (dwordOf im 1).setWidth 1, n02 := (dwordOf im 2).setWidth 16 }
      else s
    | .ip => { s with nextIP := if ws.any (fun w => w.1 < 4) then alignIP (dwordOf im 0) else s.nextIP }
    | .tdr0 => { s with tdr := Vector.ofFn fun k =>
                   if ws.any (fun w => w.1 / 2 = k.val) then { s.tdr[k] with valid := false } else s.tdr[k] }
    | .tm0 => if s.restoring then { s with tmEvent := true } else s

/-! ## Accumulators -/

/-- The formats of the accumulators (10_state R64). -/
inductive AccFmt where
  | df | f | d | w
  deriving DecidableEq, Repr

/-- The format of a register type; bytes have none (10_state R64). The table of R64 is keyed by execution data type: an explicit
accumulator operand takes the format of its own type instead, as the D of `mov (8) acc0:d r:w` (DESIGN CHOICE, unsafe:
log 84). -/
def accFmt : RegType → Option AccFmt
  | .ud | .d => some .d
  | .uw | .w => some .w
  | .f => some .f
  | .df => some .df
  | .ub | .b => none

/-- The number of channels of a format, acc1 counted for F (10_state R64). -/
def AccFmt.channels : AccFmt → Nat
  | .df => 4 | .f => 16 | .d => 8 | .w => 16

/-- What an accumulator channel of a format keeps of a 64-bit value, as `accGet` shows it (10_state R64). -/
def AccFmt.keep (fmt : AccFmt) (v : QWord) : QWord :=
  match fmt with
  | .f => (v.setWidth 32).setWidth 64
  | .w => (v.setWidth 33).signExtend 64
  | .d => v
  | .df => v

/-- acc0 seen in a format: unchanged in its own, free values in another (log 12). -/
def Acc0.view (a : Acc0) (fmt : AccFmt) (draw : Nat) : Acc0 :=
  match fmt, a with
  | .df, .df c => .df c
  | .f, .f c => .f c
  | .d, .d c => .d c
  | .w, .w c => .w c
  | .df, _ => .df (Vector.ofFn fun i => (Config.free draw (.accView i.val)).setWidth 64)
  | .f, _ => .f (Vector.ofFn fun i => (Config.free draw (.accView i.val)).setWidth 32)
  | .d, _ => .d (Vector.ofFn fun i => (Config.free draw (.accView i.val)).setWidth 64)
  | .w, _ => .w (Vector.ofFn fun i => (Config.free draw (.accView i.val)).setWidth 33)

/-- Channel i of acc0, sign-extended to 64 bits for integers, the bit pattern for floats (10_state R64). -/
def Acc0.get (a : Acc0) (i : Nat) : QWord :=
  match a with
  | .df c => c.getD i 0
  | .f c => (c.getD i 0).setWidth 64
  | .d c => c.getD i 0
  | .w c => (c.getD i 0).signExtend 64

/-- Channel i of acc0 replaced by the low bits of a value (10_state R64). -/
def Acc0.set (a : Acc0) (i : Nat) (v : QWord) : Acc0 :=
  match a with
  | .df c => .df (c.setIfInBounds i v)
  | .f c => .f (c.setIfInBounds i (v.setWidth 32))
  | .d c => .d (c.setIfInBounds i v)
  | .w c => .w (c.setIfInBounds i (v.setWidth 33))

/-- Channel i of a format lies in acc1: the channels from 8 on of F (10_state R64, R65). -/
def AccFmt.inAcc1 (fmt : AccFmt) (i : Nat) : Bool := fmt = .f && 8 ≤ i

/-- Channel i of the accumulators in a format. A channel that the accumulators do not have is free: an instruction on 32
word channels or on eight DF numbers (16 channels) reads them (91 N4; DESIGN CHOICE: log 78). -/
def Acc.get (a : Acc) (fmt : AccFmt) (draw i : Nat) : QWord :=
  if fmt.channels ≤ i then fmt.keep ((Config.free draw (.accView i)).setWidth 64)
  else if fmt.inAcc1 i then (a.acc1.getD (i - 8) 0).setWidth 64
  else (a.acc0.view fmt draw).get i

/-- Channel i of the accumulators written in a format: the other accumulator stays. A channel that they do not have takes
nothing (91 N4; DESIGN CHOICE, unsafe: log 78). -/
def Acc.set (a : Acc) (fmt : AccFmt) (draw i : Nat) (v : QWord) : Acc :=
  if fmt.channels ≤ i then a
  else if fmt.inAcc1 i then { a with acc1 := a.acc1.setIfInBounds (i - 8) (v.setWidth 32) }
  else { a with acc0 := (a.acc0.view fmt draw).set i v }

/-- An accumulator channel as an operand of the given format. -/
def accGet (s : State) (fmt : AccFmt) (i : Nat) : QWord := s.acc.get fmt s.draw i

/-- The listed accumulator channels replaced. -/
def accSet (s : State) (fmt : AccFmt) (ws : List (Nat × QWord)) : State :=
  { s with acc := ws.foldl (fun a w => a.set fmt s.draw w.1 w.2) s.acc }

/-! ## Flags -/

/-- The listed bits of a flag register replaced (10_state R69). -/
def setFlagBits (s : State) (reg : Bool) (ws : List (Nat × Bool)) : State :=
  let v := ws.foldl (fun (v : DWord) w =>
    if w.2 then v ||| (1#32 <<< w.1) else v &&& ~~~(1#32 <<< w.1)) (s.flagReg reg)
  if reg then { s with f1 := v } else { s with f0 := v }

/-! ## Scoreboard -/

/-- The mark of register r (70 R960). -/
def State.depOf (s : State) (r : Nat) : Bool := s.dep.getLsbD r

/-- One mark replaced. -/
def setDep (d : BitVec 128) (r : Nat) (b : Bool) : BitVec 128 :=
  if b then d ||| (1#128 <<< r) else d &&& ~~~(1#128 <<< r)

/-- The mark an instruction leaves on a register of its destination (70 R961, R964): NoDDClr, or a free value where no channel
was enabled and DepCtrl is not 0 (U17). -/
def markLeft (s : State) (h : Header) (anyEnabled : Bool) (slot : FreeSlot) : Bool :=
  if !anyEnabled && (h.noDDClr || h.noDDChk) then (Config.free s.draw slot).getLsbD 0 else h.noDDClr

/-- The marks on the general registers of a destination (70 R961). -/
def markDst (s : State) (h : Header) (anyEnabled : Bool) (regs : List Nat) : State :=
  { s with dep := regs.foldl (fun d r => setDep d r (markLeft s h anyEnabled (.dep r))) s.dep }

/-- The one mark of a0, of an instruction whose destination a0 is (10_state R63, 70 R962, R963; DEDUCED, unsafe: log 50). -/
def markA0 (s : State) (h : Header) (anyEnabled isA0 : Bool) : State :=
  { s with depA0 := if isA0 then markLeft s h anyEnabled .depA0 else s.depA0 }

/-- Marks set or cleared on a range of registers. -/
def markRange (d : BitVec 128) (first count : Nat) (b : Bool) : BitVec 128 :=
  (List.range count).foldl (fun d i => setDep d (first + i) b) d

/-! ## Instruction pointers -/

/-- The advance of a non-branch (42 R631): IP becomes NextIP and, with SPF = 0, the channels at the instruction go with it. -/
def advance (spf : Bool) (s : State) : State :=
  { s with
    ip := s.nextIP
    pcIP := if spf then s.pcIP else s.pcIP.map fun p => if p = s.ip then s.nextIP else p }

/-! ## Exceptions -/

/-- The system IP: 16-byte aligned (10_state R79, 20_memory R205, R208). -/
def Launch.sip (l : Launch) : DWord := l.sipHi ++ 0#4

/-- Entry to the System Routine (60 R905): AIP and Master Exception State are written, IP becomes SIP; nothing else
changes (R906). -/
def raise (s : State) (aip : DWord) : State :=
  { s with cr02 := alignIP aip, cr00 := s.cr00 ||| 0x80000000, ip := s.launch.sip }

/-- Return from the System Routine (60 R908): IP becomes AIP; nothing else is restored. -/
def returnToApp (s : State) : State := { s with ip := alignIP s.cr02 }

/-- cr0.1[30] and its enable [14]: a pending External Halt (60 R904; G2, log 22). -/
def State.pendHalt (s : State) : Bool := s.cr01.getLsbD 30 && s.cr01.getLsbD 14

/-- cr0.1[29] and its enable [13]: a pending software exception (60 R904). -/
def State.pendSW (s : State) : Bool := s.cr01.getLsbD 29 && s.cr01.getLsbD 13

/-- The opcode byte at an address is that of `nop` (43 R704). -/
def nopAt (s : State) (a : DWord) : Bool := Memory.read s.imem a.toNat == some 0x7E#8

/-- The first DWord of the instruction at an address, if the launch supplied it (20_memory R203). -/
def State.headAt (s : State) (a : DWord) : Option DWord :=
  match Memory.readBytes s.imem a.toNat 4 with
  | .ok bs => some (BitVec.ofNat 32 (leNat bs))
  | .error _ => none

/-- The ExecSize code in the first DWord of an instruction: bits 23:21, in a compact word those of the row of its
ControlIndex (30 R274, R333). -/
def headSize (q : DWord) : BitVec 3 :=
  if q.getLsbD 29 then (tableRow controlIndexTable (q.extractLsb' 8 5)).extractLsb' 13 3 else q.extractLsb' 21 3

/-- The bytes of the instruction that begins with a DWord: 8 with CmptCtrl, 16 without (30 R253). -/
def headLength (q : DWord) : Nat := if q.getLsbD 29 then 8 else 16

/-- The first DWord of an instruction is that of a SIMD-16 `nop` (30 R302; log 19). -/
def isNop16 (q : DWord) : Bool := q.extractLsb' 0 8 = 0x7E#8 && headSize q = 4#3

/-- The instruction after this one is a SIMD-16 `nop` (60 R908, 70 R972 a). -/
def State.nopFollows (s : State) : Bool :=
  match s.headAt s.nextIP with
  | some q => isNop16 q
  | none => false

/-- The opcode in the first DWord of an instruction (30 R253). -/
def headOpcode (q : DWord) : Byte := q.extractLsb' 0 8

/-- The address and the first DWord of the first `else` or `endif` from address a on that belongs to no block opened on the way:
the text is walked instruction by instruction, over at most `fuel` of them, and `depth` counts the `if`s passed that are still
open. None where the text that the launch supplied ends before (42 R642 to R645; log 74). -/
def State.walkBlock (s : State) : Nat → Nat → DWord → Option (DWord × DWord)
  | 0, _, _ => none
  | fuel + 1, depth, a =>
    match s.headAt a with
    | none => none
    | some q =>
      let next := a + BitVec.ofNat 32 (headLength q)
      if headOpcode q = 0x22#8 then s.walkBlock fuel (depth + 1) next
      else if depth = 0 && (headOpcode q = 0x24#8 || headOpcode q = 0x25#8) then some (a, q)
      else if headOpcode q = 0x25#8 then s.walkBlock fuel (depth - 1) next
      else s.walkBlock fuel depth next

/-- The end of the block, or of the part of it, that encloses address a (log 74). -/
def State.blockEnd (s : State) (a : DWord) : Option (DWord × DWord) := s.walkBlock (s.imem.length / 8 + 1) 0 a

/-- The end of an instruction that is no branch (42 R631, 60 R908): `s0` is the state it began in, `s1` the state with
its results. Clearing Master Exception State returns; everything else advances. After an entry by preemption it returns to
AIP as well: 91 N50 leaves open whether the thread ends there (DESIGN CHOICE, unsafe: log 67). -/
def finish (s0 s1 : State) : Host.Outcome State Fault Refusal :=
  if s0.inSR && !s1.inSR then
    if s1.nopFollows then .next (returnToApp s1) else .refused (.restriction .returnNop)
  else .next (advance s0.spf s1)

/-- A read of any part of tm0 clears TmEvent (10_state R85, 20_memory R209), whatever channels are enabled: sources are
fetched for every channel (40 R400), and the rules do not say what an instruction without an enabled channel does (DESIGN
CHOICE, unsafe: log 79). -/
def readTm0 (s : State) (reads : Bool) : State := if reads then { s with tmEvent := false } else s

/-- The first violated restriction of a list of conditions, in order. -/
def firstViolation : List (Bool × Restriction) → Option Restriction
  | [] => none
  | (bad, r) :: l => if bad then some r else firstViolation l

/-- A meaning behind its restrictions (spec/93_implementation_defined.md U2). -/
def guarded (v : Option Restriction) (k : Host.Outcome State Fault Refusal) : Host.Outcome State Fault Refusal :=
  match v with
  | some r => .refused (.restriction r)
  | none => k

end Sys2Proof.Machine
end

