-- ==== Sys2Proof/Machine/Float.lean ====
section
/-! DEFINITION. Floating point: exact dyadic values, the formats F, DF and half, rounding, and the arithmetic of IEEE and ALT mode (spec/40_common_execution.md R403, R406, R432 to R436, R480 to R487; R485 comparison). -/

namespace Sys2Proof.Machine

/-- A float as a number: NaN, an infinity, or (-1)^neg * m * 2^e, zero when m = 0. -/
inductive FVal where
  | nan
  | inf (neg : Bool)
  | fin (neg : Bool) (m : Nat) (e : Int)
  deriving DecidableEq, Repr

/-- A binary format: fraction bits, exponent bits (R403; half: 1/5/10, G4, log 24). -/
structure FFmt where
  frac : Nat
  expBits : Nat
  deriving DecidableEq, Repr

def fmtF : FFmt := { frac := 23, expBits := 8 }
def fmtDF : FFmt := { frac := 52, expBits := 11 }
def fmtHalf : FFmt := { frac := 10, expBits := 5 }

/-- The exponent of the unit of a denormal: -149, -1074, -24. -/
def FFmt.emin (f : FFmt) : Int := 2 - (2 : Int) ^ (f.expBits - 1) - f.frac

/-- The pattern of +infinity, which is also the first one above the largest finite number. -/
def FFmt.infBits (f : FFmt) : Nat := (2 ^ f.expBits - 1) * 2 ^ f.frac

/-- The pattern of the sign bit. -/
def FFmt.signBits (f : FFmt) : Nat := 2 ^ (f.frac + f.expBits)

/-- The value of a bit pattern (R403). -/
def FVal.ofBits (f : FFmt) (bits : Nat) : FVal :=
  let neg := bits / f.signBits % 2 = 1
  let ex := bits / 2 ^ f.frac % 2 ^ f.expBits
  let fr := bits % 2 ^ f.frac
  if ex = 2 ^ f.expBits - 1 then (if fr = 0 then .inf neg else .nan)
  else if ex = 0 then .fin neg fr f.emin
  else .fin neg (2 ^ f.frac + fr) (f.emin + (ex - 1))

/-- The rounding modes of cr0.0[5:4] (10_state R76). -/
inductive Round where
  | rne | ru | rd | rz
  deriving DecidableEq, Repr

def Round.ofBits (b : BitVec 2) : Round :=
  match b.toNat with
  | 0 => .rne
  | 1 => .ru
  | 2 => .rd
  | _ => .rz

/-- Is a magnitude with remainder r out of 2^k (n its quotient) rounded up? (R483) -/
def Round.up (rm : Round) (neg : Bool) (n r k : Nat) : Bool :=
  match rm with
  | .rne => 2 * r > 2 ^ k || (2 * r = 2 ^ k && n % 2 = 1)
  | .ru => r > 0 && !neg
  | .rd => r > 0 && neg
  | .rz => false

/-- The pattern, without sign, of m * 2^e rounded to the format with an unbounded exponent: a value at or above
`infBits` is an overflow. Denormals are produced, not flushed (R483). -/
def roundMag (f : FFmt) (rm : Round) (neg : Bool) (m : Nat) (e : Int) : Nat :=
  if m = 0 then 0
  else
    let q : Int := max f.emin (e + Nat.log2 m - f.frac)
    if q ≤ e then ((q - f.emin).toNat * 2 ^ f.frac) + m * 2 ^ (e - q).toNat
    else
      let k := (q - e).toNat
      let n := m / 2 ^ k
      let r := m % 2 ^ k
      ((q - f.emin).toNat * 2 ^ f.frac) + n + (if rm.up neg n r k then 1 else 0)

/-- Does an overflow in this direction give the infinity, not the largest finite number? (R483, G3; log 23) -/
def Round.overflowsToInf (rm : Round) (neg : Bool) : Bool :=
  match rm with
  | .rne => true
  | .ru => !neg
  | .rd => neg
  | .rz => false

/-- How floats are computed by one instruction: format, rounding, ALT mode, flushing of denormals (R480 to R483). -/
structure FMode where
  fmt : FFmt
  rm : Round
  alt : Bool
  flush : Bool
  deriving DecidableEq, Repr

/-- The largest finite value. -/
def FFmt.maxVal (f : FFmt) (neg : Bool) : FVal := FVal.ofBits f (f.infBits - 1 + (if neg then f.signBits else 0))

/-- A float result and whether the exact result was out of range (R460 OF). -/
structure FRes where
  val : FVal
  ov : Bool
  deriving DecidableEq, Repr

/-- A finite exact value rounded, flushed after rounding (D20), infinity clamped in ALT mode (R481). R460 sets OF for a
result "outside the range" and for one that "rounds to infinity"; where a directed mode gives fmax instead, the model sets
it (DESIGN CHOICE, unsafe: log 56). -/
def roundFin (md : FMode) (neg : Bool) (m : Nat) (e : Int) : FRes :=
  let b := roundMag md.fmt md.rm neg m e
  if b ≥ md.fmt.infBits then
    { val := if !md.alt && md.rm.overflowsToInf neg then .inf neg else md.fmt.maxVal neg, ov := true }
  else if md.flush && b < 2 ^ md.fmt.frac then { val := .fin neg 0 md.fmt.emin, ov := false }
  else { val := FVal.ofBits md.fmt (b + (if neg then md.fmt.signBits else 0)), ov := false }

/-- An infinity as a result: fmax in ALT mode (R481). -/
def infRes (md : FMode) (neg : Bool) : FRes :=
  { val := if md.alt then md.fmt.maxVal neg else .inf neg, ov := false }

/-- A result that is not finite or that needs no rounding. -/
def exactRes (v : FVal) : FRes := { val := v, ov := false }

/-- The exact sum of two finite values as a signed significand and exponent. -/
def addExact (m1 : Int) (e1 : Int) (m2 : Int) (e2 : Int) : Int × Int :=
  if e1 ≤ e2 then (m1 + m2 * 2 ^ (e2 - e1).toNat, e1) else (m1 * 2 ^ (e1 - e2).toNat + m2, e2)

/-- A number below the smallest normal one of the format (R403). -/
def FFmt.isDenorm (f : FFmt) (m : Nat) (e : Int) : Bool := (addExact m e (-(2 ^ f.frac : Int)) f.emin).1 < 0

/-- An input denormal becomes a zero of its sign where the mode flushes (R482). A denormal is told by its value, because an
exact result (a half in `f16to32`, 41 R613) has fewer significant bits than a number of the format. -/
def FVal.flushIn (md : FMode) (v : FVal) : FVal :=
  match v with
  | .fin neg m e => if md.flush && md.fmt.isDenorm m e then .fin neg 0 md.fmt.emin else v
  | v => v

def FVal.isNan : FVal → Bool
  | .nan => true
  | _ => false

/-- NaN or an infinity: an input that ALT mode gives no result for (R481, U15). -/
def FVal.isSpecial : FVal → Bool
  | .nan => true
  | .inf _ => true
  | .fin _ _ _ => false

def FVal.sign : FVal → Bool
  | .nan => false
  | .inf n => n
  | .fin n _ _ => n

def FVal.isZero : FVal → Bool
  | .fin _ m _ => m = 0
  | _ => false

/-- The signed significand. -/
def signedM (neg : Bool) (m : Nat) : Int := if neg then -(m : Int) else m

/-- A signed exact value rounded; an exact zero takes the given sign. -/
def roundInt (md : FMode) (zeroNeg : Bool) (m : Int) (e : Int) : FRes :=
  if m = 0 then exactRes (.fin zeroNeg 0 md.fmt.emin) else roundFin md (m < 0) m.natAbs e

/-- The sign of an exact cancellation, m * 2^e being the magnitude of the terms: -0 when rounding down, but +0 in ALT mode
and for two denormals, as the tables of 44 R740 print (log 25). -/
def FMode.cancelNeg (md : FMode) (m : Nat) (e : Int) : Bool := md.rm = .rd && !md.alt && !md.fmt.isDenorm m e

/-- Addition (44 R740): inf - inf is NaN; -0 + 0 is +0; the sign of an exact cancellation is `FMode.cancelNeg`. With DF
denormals kept, a finite number and a denormal give their rounded sum (40 R482, R483), not the finite number that the IEEE
table of R740 prints (DESIGN CHOICE, unsafe: log 69). -/
def fadd (md : FMode) (a b : FVal) : FRes :=
  match a, b with
  | .nan, _ => exactRes .nan
  | _, .nan => exactRes .nan
  | .inf s, .inf t => if s = t then infRes md s else exactRes .nan
  | .inf s, _ => infRes md s
  | _, .inf t => infRes md t
  | .fin s m e, .fin t n f =>
    if m = 0 && n = 0 then exactRes (.fin (s && t) 0 md.fmt.emin)
    else
      let r := addExact (signedM s m) e (signedM t n) f
      roundInt md (md.cancelNeg m e) r.1 r.2

/-- Multiplication (44 R741): 0 * inf is NaN; the sign is the exclusive or of the signs. -/
def fmul (md : FMode) (a b : FVal) : FRes :=
  match a, b with
  | .nan, _ => exactRes .nan
  | _, .nan => exactRes .nan
  | .inf s, .inf t => infRes md (s != t)
  | .inf s, .fin t n _ => if n = 0 then exactRes .nan else infRes md (s != t)
  | .fin s m _, .inf t => if m = 0 then exactRes .nan else infRes md (s != t)
  | .fin s m e, .fin t n f =>
    if m = 0 || n = 0 then exactRes (.fin (s != t) 0 md.fmt.emin)
    else roundFin md (s != t) (m * n) (e + f)

/-- The product of `mul`: in ALT mode fmax times a number that is not zero is fmax of the product's sign, as the ALT table
of 44 R741 prints (log 63); everything else is `fmul`. -/
def fmulAlt (md : FMode) (a b : FVal) : FRes :=
  let r := fmul md a b
  let top (v : FVal) : Bool := v = md.fmt.maxVal v.sign
  if md.alt && (top a || top b) && !a.isZero && !b.isZero && !r.val.isNan then
    { r with val := md.fmt.maxVal (a.sign != b.sign) }
  else r

/-- The exact product of two finite values, before any rounding; special values as in `fmul`. -/
def fmulExact (md : FMode) (a b : FVal) : FVal :=
  match a, b with
  | .fin s m e, .fin t n f => .fin (s != t) (m * n) (e + f)
  | a, b => (fmul md a b).val

/-- The exact sum of two finite values, before any rounding; the sign of a zero and special values as in `fadd`. -/
def faddExact (md : FMode) (a b : FVal) : FVal :=
  match a, b with
  | .fin s m e, .fin t n f =>
    let r := addExact (signedM s m) e (signedM t n) f
    if m = 0 && n = 0 then .fin (s && t) 0 md.fmt.emin
    else if r.1 = 0 then .fin (md.cancelNeg m e) 0 md.fmt.emin
    else .fin (r.1 < 0) r.1.natAbs r.2
  | a, b => (fadd md a b).val

/-- The negation of a number. -/
def FVal.neg : FVal → FVal
  | .nan => .nan
  | .inf n => .inf (!n)
  | .fin n m e => .fin (!n) m e

/-- Two steps in a row: the value of the last, an overflow of either. -/
def FRes.andThen (r : FRes) (f : FVal → FRes) : FRes :=
  let q := f r.val
  { val := q.val, ov := r.ov || q.ov }

/-- a * b + c: rounded once if `fused`, after each operation otherwise (`MAD_FUSED`, D16; log 45). -/
def fmadd (md : FMode) (fused : Bool) (a b c : FVal) : FRes :=
  if fused then fadd md (fmulExact md a b) c
  else (fmul md a b).andThen fun p => fadd md p c

/-- p * u + q * v + r: rounded once if `fused`; else each product, then p * u + q * v, then the whole (00_scope R6, 45 R787;
log 45). -/
def fplane (md : FMode) (fused : Bool) (p u q v r : FVal) : FRes :=
  if fused then fadd md (faddExact md (fmulExact md p u) (fmulExact md q v)) r
  else
    let qv := fmul md q v
    let sum := (fmadd md false p u qv.val).andThen fun x => fadd md x r
    { sum with ov := sum.ov || qv.ov }

/-- u * a + v * (1 - a): rounded once if `fused`; else after each operation (00_scope R6, 45 R789; log 45). -/
def flerp (md : FMode) (fused : Bool) (a u v : FVal) : FRes :=
  let one : FVal := .fin false 1 0
  if fused then fadd md (fmulExact md u a) (fmulExact md v (faddExact md one a.neg))
  else
    let c := fadd md one a.neg
    let vc := fmul md v c.val
    let r := fmadd md false u a vc.val
    { r with ov := r.ov || c.ov || vc.ov }

/-- Division (43 R718, D17): IEEE, round to nearest even of `md`. -/
def fdiv (md : FMode) (a b : FVal) : FRes :=
  match a, b with
  | .nan, _ => exactRes .nan
  | _, .nan => exactRes .nan
  | .inf _, .inf _ => exactRes .nan
  | .inf s, .fin t _ _ => infRes md (s != t)
  | .fin s _ _, .inf t => exactRes (.fin (s != t) 0 md.fmt.emin)
  | .fin s m e, .fin t n f =>
    if n = 0 then (if m = 0 then exactRes .nan else infRes md (s != t))
    else if m = 0 then exactRes (.fin (s != t) 0 md.fmt.emin)
    else
      -- the quotient with enough bits, the last one sticky
      let k := Nat.log2 n + 2 * md.fmt.frac + 4
      let q := m * 2 ^ k / n
      let sticky := if m * 2 ^ k % n = 0 then 0 else 1
      roundFin md (s != t) (2 * q + sticky) (e - f - k - 1)

/-- floor of a finite value as an integer. -/
def floorInt (neg : Bool) (m : Nat) (e : Int) : Int :=
  if 0 ≤ e then signedM neg m * 2 ^ e.toNat else signedM neg m / 2 ^ (-e).toNat

/-- An integer as a float of the mode; zero takes the sign of the input (R434, 44 R744 to R747). -/
def ofIntSigned (md : FMode) (neg : Bool) (v : Int) : FRes :=
  if v = 0 then exactRes (.fin neg 0 md.fmt.emin) else roundFin md (v < 0) v.natAbs 0

/-- Rounding to an integral float: floor, ceiling, nearest even, toward zero (44 R744 to R747). -/
def fround (md : FMode) (rm : Round) (v : FVal) : FRes :=
  match v with
  | .nan => exactRes .nan
  | .inf s => infRes md s
  | .fin s m e =>
    if m = 0 || 0 ≤ e then exactRes v
    else
      let k := (-e).toNat
      let n := m / 2 ^ k
      let r := m % 2 ^ k
      ofIntSigned md s (signedM s (n + (if rm.up s n r k then 1 else 0)))

/-- x - floor(x), rounded; an integral x gives +0 (44 R743). -/
def ffrc (md : FMode) (v : FVal) : FRes :=
  match v with
  | .nan => exactRes .nan
  | .inf _ => exactRes .nan
  | .fin s m e =>
    let r := addExact (signedM s m) e (-(floorInt s m e)) 0
    roundInt md false r.1 r.2

/-- The bit pattern of a value that the format holds exactly; a NaN takes the given pattern. -/
def FVal.toBits (f : FFmt) (nanBits : Nat) (v : FVal) : Nat :=
  match v with
  | .nan => nanBits
  | .inf neg => f.infBits + (if neg then f.signBits else 0)
  | .fin neg m e => roundMag f .rz neg m e + (if neg then f.signBits else 0)

/-- A NaN pattern: the candidate if it is one, else a fixed quiet NaN (U22: any NaN pattern of the type). -/
def nanPattern (f : FFmt) (cand : Nat) : Nat :=
  let c := cand % (2 * f.signBits)
  if (FVal.ofBits f c).isNan then c else f.infBits + 2 ^ (f.frac - 1)

/-- Float to integer: truncated toward zero, clamped to the range; NaN gives 0 (R432). The flag says out of range. -/
def floatToInt (lo hi : Int) (v : FVal) : Int × Bool :=
  match v with
  | .nan => (0, false)
  | .inf neg => (if neg then lo else hi, true)
  | .fin neg m e =>
    let t := signedM neg (if 0 ≤ e then m * 2 ^ e.toNat else m / 2 ^ (-e).toNat)
    if t < lo then (lo, true) else if hi < t then (hi, true) else (t, false)

/-- A value converted to another float format without flushing (R435, R436, R482; 41 R612, R613). -/
def fconvert (f : FFmt) (rm : Round) (v : FVal) : FRes :=
  match v with
  | .fin neg m e => roundFin { fmt := f, rm := rm, alt := false, flush := false } neg m e
  | v => exactRes v

/-- -1, 0 or 1 as the first finite value is below, equal to or above the second. -/
def cmpFin (s : Bool) (m : Nat) (e : Int) (t : Bool) (n : Nat) (f : Int) : Int :=
  let r := addExact (signedM s m) e (-(signedM t n)) f
  r.1.sign

/-- The order of two values, none if unordered (R485). -/
def fcompare (a b : FVal) : Option Int :=
  match a, b with
  | .nan, _ => none
  | _, .nan => none
  | .inf s, .inf t => some (if s = t then 0 else if s then -1 else 1)
  | .inf s, _ => some (if s then -1 else 1)
  | _, .inf t => some (if t then 1 else -1)
  | .fin s m e, .fin t n f => some (cmpFin s m e t n f)

/-- Saturation of a float to [0.0, 1.0]; NaN, negative values and -0 give +0 (R450). -/
def fsat (f : FFmt) (v : FVal) : FVal :=
  match v with
  | .nan => .fin false 0 f.emin
  | .inf neg => if neg then .fin false 0 f.emin else .fin false 1 0
  | .fin neg m e =>
    if neg || m = 0 then .fin false 0 f.emin
    else if cmpFin false m e false 1 0 = 1 then .fin false 1 0
    else v

/-- One element of a VF immediate as an F bit pattern (R406). -/
def vfElement (e : Byte) : DWord :=
  if e.extractLsb' 0 7 = 0#7 then e.extractLsb' 7 1 ++ 0#31
  else
    let b2 := e.extractLsb' 6 1
    e.extractLsb' 7 1 ++ (b2 ++ ~~~b2 ++ ~~~b2 ++ ~~~b2 ++ ~~~b2 ++ ~~~b2 ++ e.extractLsb' 4 2) ++ e.extractLsb' 0 4 ++ 0#19

end Sys2Proof.Machine
end

