-- ==== Sys2Proof/Machine/Flags.lean ====
section
/-! DEFINITION. Channel offsets, predication, write enables, and every condition signal (spec/40_common_execution.md R410, R411, R440, R460 to R463, R485, R486). -/

namespace Sys2Proof.Machine

/-! ## Channel groups (R411) -/

/-- ChOff: the thread channel of instruction channel 0 (R411, D22). -/
def chOff (h : Header) : Nat :=
  match h.size with
  | .s32 => 0
  | .s16 => 16 * (h.qtr.toNat / 2)
  | _ => 8 * h.qtr.toNat + (if h.nib then 4 else 0)

/-- FlagOff: the bit of instruction channel 0 inside the selected flag subregister (R411). -/
def flagOff (h : Header) : Nat := chOff h % 16

/-! ## Predication (R440) -/

/-- Flag bit i of the selection: bit FlagOff + i of the 16-bit subregister; with 32 channels (`wide`) bit i of the 32-bit
register, whatever the subregister (R440, D21). A bit beyond the subregister is not placed by the spec: it is free (log 40). -/
def predFlag (s : State) (h : Header) (wide : Bool) (i : Nat) : Bool :=
  let f := s.flagReg h.flagReg
  if wide then f.getLsbD i
  else if flagOff h + i < 16 then f.getLsbD ((if h.flagSub then 16 else 0) + flagOff h + i)
  else (Config.free s.draw (.predBit i)).getLsbD 0

/-- The group of k channels that contains n. -/
def predGroup (k n : Nat) : List Nat := (List.range k).map (fun j => k * (n / k) + j)

/-- Bit n of one of the two subregisters, for vertical predication (R440). -/
def predVert (s : State) (h : Header) (wide : Bool) (sub : Bool) (n : Nat) : Bool :=
  let off := if wide then 0 else flagOff h
  if off + n < 16 then (s.flagReg h.flagReg).getLsbD ((if sub then 16 else 0) + off + n)
  else (Config.free s.draw (.predBit n)).getLsbD 0

/-- The predicate of channel n before inversion: the two tables of R440. -/
def predRaw (s : State) (h : Header) (wide : Bool) (n : Nat) : Bool :=
  let f := predFlag s h wide
  let g := 4 * (n / 4)
  match h.pred with
  | .none => true
  | .seq => f n
  | .anyv => predVert s h wide false n || predVert s h wide true n
  | .allv => predVert s h wide false n && predVert s h wide true n
  | .any2h => (predGroup 2 n).any f
  | .all2h => (predGroup 2 n).all f
  | .any4h => (predGroup 4 n).any f
  | .all4h => (predGroup 4 n).all f
  | .any8h => (predGroup 8 n).any f
  | .all8h => (predGroup 8 n).all f
  | .any16h => (predGroup 16 n).any f
  | .all16h => (predGroup 16 n).all f
  | .any32h => (List.range 32).any (fun i => (s.flagReg h.flagReg).getLsbD i)
  | .all32h => (List.range 32).all (fun i => (s.flagReg h.flagReg).getLsbD i)
  | .replX => f g
  | .replY => f (g + 1)
  | .replZ => f (g + 2)
  | .replW => f (g + 3)

/-- PMask[n]: all ones without predication, inverted after the combination (R440). -/
def pmask (s : State) (h : Header) (wide : Bool) (n : Nat) : Bool :=
  if h.pred = .none then true else predRaw s h wide n != h.predInv

/-! ## Write enables (R410) -/

/-- The dispatch or vector mask (R410, 10_state R86, D7). -/
def dispatchMask (s : State) : DWord := if s.vme then s.sr03 else s.sr02

/-- Thread channel c is at this instruction (10_state R83). -/
def atIP (s : State) (c : Nat) : Bool := s.spf || s.pcIP.getD c 0 == s.ip

/-- The execution-mask term e of R410 for thread channel c under mask bit m. -/
def execEnable (s : State) (h : Header) (c m : Nat) : Bool :=
  h.noMask || ((dispatchMask s).getLsbD m && atIP s c)

/-- Evaluate(WrEn, NoPMask) (R410). -/
def wrEnNoPred (s : State) (h : Header) (n : Nat) : Bool :=
  let c := chOff h + n
  n < h.count && execEnable s h c (if h.size = .s32 then n % 16 else c)

/-- Evaluate(WrEn) (R410). -/
def wrEn (s : State) (h : Header) (n : Nat) : Bool :=
  wrEnNoPred s h n && pmask s h (h.size = .s32) n

/-- Some channel is enabled. -/
def anyWrEn (s : State) (h : Header) : Bool := (List.range h.count).any (wrEn s h)

/-! ## Conditions -/

/-- The signals a condition is made from (R460): sign, zero, overflow, NaN. -/
structure Signals where
  neg : Bool
  zero : Bool
  ov : Bool
  nan : Bool
  deriving DecidableEq, Repr

/-- Condition(result, cmod) on the post signals (R460). -/
def condition (c : CondMod) (g : Signals) : Bool :=
  match c with
  | .none => false
  | .z => g.zero && !g.nan
  | .nz => !(g.zero && !g.nan)
  | .g => !g.neg && !g.zero && !g.nan
  | .ge => (!g.neg || g.zero) && !g.nan
  | .l => g.neg && !g.zero && !g.nan
  | .le => (g.neg || g.zero) && !g.nan
  | .o => g.ov
  | .u => g.nan

/-- The pre signals of a comparison (R462): the order of the sources, none if either is a NaN. -/
def compareCond (c : CondMod) (ord : Option Int) : Bool :=
  match ord with
  | some r => condition c { neg := r < 0, zero := r = 0, ov := false, nan := false }
  | none => c = .nz

/-- `cmpn` (R461 table, R486): src1 NaN makes every modifier but `.ne` true; only src0 NaN makes only `.ne` true. -/
def compareNaN (c : CondMod) (nan1 : Bool) (ord : Option Int) : Bool :=
  match ord with
  | some _ => compareCond c ord
  | none => if nan1 then c != .nz else c = .nz

/-- The selection of `sel` with a conditional modifier (R461 table, 41 R601): true selects src0. For `.o` and `.u` the
tables name the value of a comparison that `cmp` does not have: the model takes it as false, and src1 is selected
(DESIGN CHOICE, unsafe: log 58). -/
def selectCond (c : CondMod) (nan0 nan1 : Bool) (ord : Option Int) : Bool :=
  match ord with
  | some _ => compareCond c ord
  | none => (c = .ge || c = .l) && nan1 && !nan0

/-- Channel n's bit in the selected flag register (R411, R463). -/
def flagIndex (h : Header) (n : Nat) : Nat :=
  if h.size = .s32 then n else (if h.flagSub then 16 else 0) + flagOff h + n

/-- The flag bits a conditional modifier writes: channel n's bit of the selected subregister (R463). -/
def flagWrites (s : State) (h : Header) (bit : Nat → Bool) : List (Nat × Bool) :=
  (List.range h.count).filterMap fun n => if wrEn s h n then some (flagIndex h n, bit n) else none

end Sys2Proof.Machine
end

