-- ==== Sys2Proof/Machine/Operands.lean ====
section
/-! DEFINITION. Operands: region addresses of every addressing mode, fetching and converting source elements, source modifiers, conversion of results to the destination type, and the writes of destination, flags, accumulator and scoreboard marks (spec/40_common_execution.md R400, R420 to R465). -/

namespace Sys2Proof


/-! ## Types -/

/-- The element size of region arithmetic in bytes; a DF operand counts as pairs of 4-byte elements (R422, R428). -/
def RegType.size : RegType → Nat
  | .ud | .d | .f | .df => 4
  | .uw | .w => 2
  | .ub | .b => 1

def RegType.isInt : RegType → Bool
  | .f | .df => false
  | _ => true

def RegType.isSigned : RegType → Bool
  | .d | .w | .b => true
  | _ => false

/-- The least and greatest value of an integer type (R402). -/
def RegType.lo : RegType → Int
  | .d => -2147483648 | .w => -32768 | .b => -128 | _ => 0

def RegType.hi : RegType → Int
  | .d => 2147483647 | .w => 32767 | .b => 127
  | .ud => 4294967295 | .uw => 65535 | .ub => 255
  | _ => 0

/-- The register type an immediate's elements have in the execution pipeline (R421, R426). -/
def ImmType.regType : ImmType → RegType
  | .ud => .ud | .d => .d | .uw => .uw | .w => .w | .uv => .uw | .v => .w | .vf => .f | .f => .f

def Src.regType : Src → RegType
  | .reg r => r.ty
  | .imm t _ => t.regType

def TriType.regType : TriType → RegType
  | .f => .f | .d => .d | .ud => .ud | .df => .df

/-! ## Regions -/

/-- The byte offset of element n of an Align1 region (R422). -/
def regionOff (size : Nat) (v : VertStride) (wd : Width) (hz : HorzStride) (n : Nat) : Nat :=
  n / wd.toNat * v.toNat * size + n % wd.toNat * hz.toNat * size

/-- The component that channel n of a group of four reads (R424). -/
def swizzle (cs : BitVec 8) (n : Nat) : Nat := (cs.extractLsb' (2 * (n % 4)) 2).toNat

/-- The byte offset of element n of an Align16 region (R424). -/
def swizzleOff (v : VertStride) (cs : BitVec 8) (n : Nat) : Nat := n / 4 * v.toNat * 4 + swizzle cs n * 4

/-- The offset of element n in a source region; Vx1 and VxH rows start at their own index (R422 to R424). -/
def SrcRegion.off (size : Nat) (r : SrcRegion) (n : Nat) : Nat :=
  match r with
  | .a1 v wd hz => regionOff size v wd hz n
  | .a16 v cs => swizzleOff v cs n

/-- The accumulator channel, counted from the accumulator's first, that element n of a region names: a region of an
accumulator is addressed like one of the GRF, by the bytes its nominal elements would have, and a DF channel has two of
4 bytes (10_state R57, R64; DEDUCED, unsafe: log 55). -/
def SrcRegion.accChan (r : SrcRegion) (size n : Nat) : Nat := r.off size n / size
def SrcRegion.accPairChan (r : SrcRegion) (n : Nat) : Nat := r.off 4 (2 * (n / 2)) / 8

/-- A replicated scalar (R470 3E, 6B): `<0;1,0>`, and of DF, whose elements come in pairs, `<0;2,1>` (R428); in Align16 one
component that `<0>` repeats (R424; DESIGN CHOICE, unsafe: log 18). -/
def RegSrc.isScalar (r : RegSrc) : Bool :=
  match r.region with
  | .a1 v wd hz => v = .v0 && ((wd = .w1 && hz = .h0) || (r.ty = .df && wd = .w2 && hz = .h1))
  | .a16 v cs =>
    v = .v0 && (List.range 4).all fun n => swizzle cs n = swizzle cs (if r.ty = .df then n % 2 else 0)

/-- The region uses an index register per row or channel (R423). -/
def SrcRegion.isVx : SrcRegion → Bool
  | .a1 v _ _ => v = .vx
  | .a16 _ _ => false

/-- The destination's stride in elements; 1 in Align16 (R452, R453). -/
def DstRegion.stride : DstRegion → Nat
  | .a1 hz => hz.toNat
  | .a16 _ => 1

/-- The Align16 destination channel enable of channel n (R453). -/
def DstRegion.chanOn (r : DstRegion) (n : Nat) : Bool :=
  match r with
  | .a1 _ => true
  | .a16 ce => ce.getLsbD (n % 4)

/-- The destination is a0. -/
def Dst.isA0 (d : Dst) : Bool :=
  match d.loc with
  | .arf .a0 _ => true
  | _ => false

/-- A register source is tm0, whose read clears TmEvent. -/
def RegSrc.isTm0 (r : RegSrc) : Bool :=
  match r.loc with
  | .arf .tm0 _ => true
  | _ => false

def Src.isTm0 : Src → Bool
  | .reg r => r.isTm0
  | .imm _ _ => false

end Sys2Proof

namespace Sys2Proof.Machine

/-- The execution data type of an instruction (R430). -/
inductive ExecTy where
  | w | d | f | df
  deriving DecidableEq, Repr

/-- The widest source type (R430). -/
def execTy (tys : List RegType) : ExecTy :=
  if tys.any (· = .df) then .df
  else if tys.any (· = .f) then .f
  else if tys.any (fun t => t = .ud || t = .d) then .d
  else .w

/-- The accumulator format of an execution type (10_state R64). -/
def ExecTy.fmt : ExecTy → AccFmt
  | .w => .w | .d => .d | .f => .f | .df => .df

/-- The accumulator channel width of an integer execution type (10_state R64). -/
def ExecTy.accBits : ExecTy → Nat
  | .w => 33
  | _ => 64

/-- The size of the execution type in the region arithmetic (R428, R470 1B). -/
def ExecTy.size : ExecTy → Nat
  | .w => 2
  | _ => 4

/-! ## Region addresses -/

/-- An address subregister as a 12-bit index plus the signed immediate (R423, 10_state R60, D4). -/
def indexAddr (s : State) (k : Nat) (imm : BitVec 10) : Int :=
  ((s.a0.getD k 0) &&& 0x0FFF).toNat + imm.toInt

/-- The offset of the destination's origin inside its register. -/
def dstSub (s : State) (d : Dst) : Nat :=
  match d.loc with
  | .grf _ sub => sub.toNat
  | .arf _ sub => sub.toNat
  | .ind k imm => (indexAddr s k.toNat imm % 32).toNat

/-- The destination region spans two registers (R470 3B, R471). A null or accumulator destination is counted as if its
region lay in the GRF (DESIGN CHOICE, unsafe: log 59). -/
def dstTwoRegs (s : State) (h : Header) (d : Dst) : Bool :=
  dstSub s d + (h.count - 1) * d.region.stride * d.ty.size + d.ty.size > 32

/-- Which index register and which element of its region channel n uses: the second half of a two-register instruction
restarts at the next index register (R471, R470 6A, 6B). -/
def halfIndex (h : Header) (two : Bool) (n : Nat) : Nat × Nat :=
  if two && h.count ≥ 2 then (n / (h.count / 2), n % (h.count / 2)) else (0, n)

/-- The byte address of element n of a register source: in the GRF, or in its architecture register (R422 to R424, R471). -/
def srcAddr (s : State) (h : Header) (two : Bool) (r : RegSrc) (n : Nat) : Int :=
  let size := r.ty.size
  match r.loc with
  | .grf num sub => (num.toNat * 32 + sub.toNat + r.region.off size n : Nat)
  | .arf _ sub => (sub.toNat + r.region.off size n : Nat)
  | .ind k imm =>
    match r.region with
    | .a1 .vx wd hz => indexAddr s (k.toNat + n / wd.toNat) imm + (n % wd.toNat * hz.toNat * size : Nat)
    | reg =>
      let hm := halfIndex h (two && !r.isScalar) n
      indexAddr s (k.toNat + hm.1) imm + (reg.off size hm.2 : Nat)

/-- The byte address of element n of the destination (R452, R453, R470 6A). -/
def dstAddr (s : State) (h : Header) (d : Dst) (n : Nat) : Int :=
  let step := d.region.stride * d.ty.size
  match d.loc with
  | .grf num sub => (num.toNat * 32 + sub.toNat + n * step : Nat)
  | .arf _ sub => (sub.toNat + n * step : Nat)
  | .ind k imm =>
    let hm := halfIndex h (dstTwoRegs s h d) n
    indexAddr s (k.toNat + hm.1) imm + (hm.2 * step : Nat)

/-- The general registers an operand's elements touch. -/
def regsOf (count size : Nat) (addr : Nat → Int) : List Nat :=
  (List.range count).flatMap fun n => [(addr n).toNat / 32, ((addr n).toNat + (size - 1)) / 32]

/-! ## Source elements (R400 step 6) -/

/-- The raw element n of register source k, its low `size` bytes (R427, 10_state R57, R58). -/
def srcRaw (s : State) (h : Header) (two : Bool) (k : Nat) (r : RegSrc) (n : Nat) : DWord :=
  let size := r.ty.size
  match r.loc with
  | .arf .null _ => ((Config.free s.draw (.nullSrc k n)).setWidth 32) &&& BitVec.ofNat 32 (2 ^ (8 * size) - 1)
  | .arf a _ =>
    ((arfSeen s a (.arf k n) >>> (8 * (srcAddr s h two r n).toNat)).setWidth 32) &&& BitVec.ofNat 32 (2 ^ (8 * size) - 1)
  | _ => grfElem s.grf (srcAddr s h two r n).toNat size

/-- An accumulator named as an explicit source: 0 for acc0, 8 for acc1 (10_state R64). -/
def accOperand : Loc → Option Nat
  | .arf .acc0 _ => some 0
  | .arf .acc1 _ => some 8
  | _ => none

/-- The integer a raw element of a type stands for (R402). -/
def intOfRaw (ty : RegType) (raw : DWord) : Int :=
  match ty with
  | .ud => raw.toNat
  | .d => raw.toInt
  | .uw => (raw.setWidth 16).toNat
  | .w => (raw.setWidth 16).toInt
  | .ub => (raw.setWidth 8).toNat
  | .b => (raw.setWidth 8).toInt
  | .f | .df => 0

/-- The source modifier on an exact integer (R445). -/
def modInt (m : SrcMod) (v : Int) : Int :=
  match m with
  | .none => v
  | .abs => v.natAbs
  | .neg => -v
  | .negAbs => -(v.natAbs : Int)

/-- The source modifier on the sign bit of a pattern (R445). -/
def modBits {w : Nat} (m : SrcMod) (v : BitVec w) : BitVec w :=
  let top := 1#w <<< (w - 1)
  match m with
  | .none => v
  | .abs => v &&& ~~~top
  | .neg => v ^^^ top
  | .negAbs => v ||| top

/-- Element n of an immediate as a raw pattern of its register type (R421, R426, R404 to R406). -/
def immRaw (ty : ImmType) (v : DWord) (n : Nat) : DWord :=
  match ty with
  | .ud | .d | .f => v
  | .uw => (v.setWidth 16).setWidth 32
  | .w => (v.setWidth 16).signExtend 32
  | .uv => (v.extractLsb' (4 * (n % 8)) 4).setWidth 32
  | .v => (v.extractLsb' (4 * (n % 8)) 4).signExtend 32
  | .vf => vfElement (v.extractLsb' (8 * (n % 4)) 8)

/-- The value of channel n of an integer source, unmodified: exact (R430); an accumulator channel at its full width (10_state
R64), the one that the region names (log 55), in the format of the operand's own type (DESIGN CHOICE, unsafe: log 84). -/
def regInt (s : State) (h : Header) (two : Bool) (k : Nat) (r : RegSrc) (n : Nat) : Int :=
  match accOperand r.loc, accFmt r.ty with
  | some base, some fmt => (accGet s fmt (base + r.region.accChan r.ty.size n)).toInt
  | _, _ => intOfRaw r.ty (srcRaw s h two k r n)

/-- `sk[n]` of an integer source (R400 step 6). -/
def srcInt (s : State) (h : Header) (two : Bool) (k : Nat) (src : Src) (n : Nat) : Int :=
  match src with
  | .reg r => modInt r.mod (regInt s h two k r n)
  | .imm t v => intOfRaw (t.regType) (immRaw t v n)

/-- `sk[n]` of an F source, as a bit pattern. -/
def srcF (s : State) (h : Header) (two : Bool) (k : Nat) (src : Src) (n : Nat) : DWord :=
  match src with
  | .reg r =>
    match accOperand r.loc with
    | some base => modBits r.mod ((accGet s .f (base + r.region.accChan 4 n)).setWidth 32)
    | none => modBits r.mod (srcRaw s h two k r n)
  | .imm t v => immRaw t v n

/-- `sk` of the DF pair that channel n belongs to: channels 2j and 2j+1 hold its halves (R428). -/
def srcDF (s : State) (h : Header) (two : Bool) (k : Nat) (src : Src) (n : Nat) : QWord :=
  match src with
  | .reg r =>
    match accOperand r.loc with
    | some _ => modBits r.mod (accGet s .df (r.region.accPairChan n))
    | none => modBits r.mod (srcRaw s h two k r (2 * (n / 2) + 1) ++ srcRaw s h two k r (2 * (n / 2)))
  | .imm _ _ => 0

/-- The instruction touches DF data: its channels work in pairs (R428; log 29). -/
def dfPairs (dstTy : RegType) (srcTys : List RegType) : Bool := dstTy = .df || srcTys.any (· = .df)

/-- The channel whose non-DF element a DF instruction's channel n uses: the even one of its pair (log 29). -/
def pairBase (pairs : Bool) (n : Nat) : Nat := if pairs then 2 * (n / 2) else n

/-! ## Results (R400 steps 8 to 10) -/

/-- What one channel's computation gives: the destination element's bits, the value for an explicit accumulator
destination, the flag bit, and the value of the implicit accumulator write. -/
structure Out where
  bits : DWord
  wide : QWord
  flag : Bool
  acc : QWord
  deriving DecidableEq, Repr

/-- Every value of the channel is free (U13, U15, U23). -/
def freeOut (s : State) (n : Nat) : Out :=
  { bits := (Config.free s.draw (.dst n)).setWidth 32
    wide := (Config.free s.draw (.dst n)).setWidth 64
    flag := (Config.free s.draw (.flag n)).getLsbD 0
    acc := (Config.free s.draw (.acc n)).setWidth 64 }

/-- Rounding and modes of F and DF arithmetic (R480 to R483). -/
def modeF (s : State) : FMode := { fmt := fmtF, rm := Round.ofBits s.roundBits, alt := s.altMode, flush := true }
def modeDF (s : State) : FMode := { fmt := fmtDF, rm := Round.ofBits s.roundBits, alt := false, flush := s.dfFlush }

/-- The half of a DF result that channel n holds (R428). -/
def halfOf (q : QWord) (n : Nat) : DWord := if n % 2 = 0 then q.setWidth 32 else q.extractLsb' 32 32

/-- The signals of a float result of the given mode: a flushed denormal counts as zero (R460, R485). -/
def floatSignals (md : FMode) (v : FVal) (ov : Bool) : Signals :=
  { neg := v.sign, zero := (v.flushIn md).isZero, ov := ov, nan := v.isNan }

/-- An integer v as a number of an integer type: its low bits, reinterpreted (R433). -/
def wrapInt (ty : RegType) (v : Int) : Int := intOfRaw ty (BitVec.ofInt 32 v)

/-- Saturation to an integer type (R450). -/
def clampInt (ty : RegType) (v : Int) : Int := if v < ty.lo then ty.lo else if ty.hi < v then ty.hi else v

/-- An exact integer fits a two's complement width. -/
def fitsInt (w : Nat) (v : Int) : Bool := -(2 : Int) ^ (w - 1) ≤ v && v < (2 : Int) ^ (w - 1)

/-- An exact integer as a channel of a two's complement width keeps it: a longer one "loses its top bits" (10_state R66 g). -/
def chanInt (w : Nat) (v : Int) : Int := (BitVec.ofInt w v).toInt

/-- A float result written to a float destination: saturation, pattern, flag (R450, R451, R460). `q` is the value in the
destination's format. -/
def floatBits (md : FMode) (nanBits : Nat) (sat : Bool) (v : FVal) : Nat :=
  (if sat then fsat md.fmt v else v).toBits md.fmt nanBits

/-- An integer v as the result of a channel, in the type of the destination (R433, R434, R450, R451, R460, R465). -/
def intOutAs (s : State) (h : Header) (cm : CondMod) (dstTy : RegType) (v : Int) (n : Nat) : Out :=
  match dstTy with
  | .f =>
    let r := ofIntSigned { modeF s with flush := false } false v
    let b : DWord := BitVec.ofNat 32 (floatBits (modeF s) 0 h.sat r.val)
    { bits := b, wide := b.setWidth 64, flag := condition cm (floatSignals (modeF s) r.val r.ov), acc := BitVec.ofInt 64 v }
  | .df =>
    let r := ofIntSigned { modeDF s with flush := false } false v
    let b : QWord := BitVec.ofNat 64 (floatBits (modeDF s) 0 h.sat r.val)
    { bits := halfOf b n, wide := b, flag := condition cm (floatSignals (modeDF s) r.val r.ov), acc := BitVec.ofInt 64 v }
  | ty =>
    let r := wrapInt ty v
    let x := if h.sat then clampInt ty v else v
    { bits := BitVec.ofInt 32 x, wide := BitVec.ofInt 64 x,
      flag := condition cm { neg := r < 0, zero := r = 0, ov := v < ty.lo || ty.hi < v, nan := false },
      acc := BitVec.ofInt 64 v }

/-- The result of an integer computation with exact value v. `width` is the accumulator channel width: whatever the
destination's type, beyond it `.sat` and a conditional modifier give free values (U23), and without them the top bits are
lost before any conversion (10_state R66 g; log 30). -/
def intOut (s : State) (h : Header) (cm : CondMod) (dstTy : RegType) (width : Nat) (v : Int) (n : Nat) : Out :=
  if fitsInt width v then intOutAs s h cm dstTy v n
  else if h.sat || cm != .none then freeOut s n
  else intOutAs s h cm dstTy (chanInt width v) n

/-- The pattern a NaN result takes in a format (U22). -/
def nanBitsFor (s : State) (f : FFmt) (n : Nat) : Nat := nanPattern f (Config.free s.draw (.nan n)).toNat

/-- The result of an F computation (R432, R436, R450, R451, R460, R465). The accumulator copy is the value written to a
float destination, saturated with it (D25). -/
def fOut (s : State) (h : Header) (cm : CondMod) (dstTy : RegType) (r : FRes) (n : Nat) : Out :=
  match dstTy with
  | .f =>
    let b : DWord := BitVec.ofNat 32 (floatBits (modeF s) (nanBitsFor s fmtF n) h.sat r.val)
    { bits := b, wide := b.setWidth 64, flag := condition cm (floatSignals (modeF s) r.val r.ov), acc := b.setWidth 64 }
  | .df =>
    let n0 := 2 * (n / 2)
    let b : QWord := BitVec.ofNat 64 (floatBits (modeDF s) (nanBitsFor s fmtDF n0) h.sat r.val)
    { bits := halfOf b n, wide := b, flag := condition cm (floatSignals (modeDF s) r.val r.ov),
      acc := BitVec.ofNat 64 (floatBits (modeF s) (nanBitsFor s fmtF n) h.sat r.val) }
  | ty =>
    let v := floatToInt ty.lo ty.hi r.val
    { bits := BitVec.ofInt 32 v.1, wide := BitVec.ofInt 64 v.1,
      flag := condition cm { neg := v.1 < 0, zero := v.1 = 0, ov := r.ov || v.2, nan := r.val.isNan },
      acc := BitVec.ofNat 64 (floatBits (modeF s) (nanBitsFor s fmtF n) false r.val) }

/-- The result of a DF computation (R432, R435, R450, R451, R460, R465). The odd channel of a non-DF destination takes a
free value (U19; log 29). The accumulator copy is the value written to a float destination (D25). -/
def dfOut (s : State) (h : Header) (cm : CondMod) (dstTy : RegType) (r : FRes) (n : Nat) : Out :=
  let n0 := 2 * (n / 2)
  let accBits (sat : Bool) (v : FVal) : QWord := BitVec.ofNat 64 (floatBits (modeDF s) (nanBitsFor s fmtDF n0) sat v)
  let odd := Config.free s.draw (.dst n)
  match dstTy with
  | .df =>
    let b := accBits h.sat r.val
    { bits := halfOf b n, wide := b, flag := condition cm (floatSignals (modeDF s) r.val r.ov), acc := b }
  | .f =>
    let q := fconvert fmtF .rz r.val
    let b : DWord := BitVec.ofNat 32 (floatBits (modeF s) (nanBitsFor s fmtF n0) h.sat q.val)
    { bits := if n % 2 = 0 then b else odd.setWidth 32, wide := if n % 2 = 0 then b.setWidth 64 else odd.setWidth 64,
      flag := condition cm (floatSignals (modeF s) q.val (r.ov || q.ov)), acc := accBits h.sat q.val }
  | ty =>
    let v := floatToInt ty.lo ty.hi r.val
    { bits := if n % 2 = 0 then BitVec.ofInt 32 v.1 else odd.setWidth 32,
      wide := if n % 2 = 0 then BitVec.ofInt 64 v.1 else odd.setWidth 64,
      flag := condition cm { neg := v.1 < 0, zero := v.1 = 0, ov := r.ov || v.2, nan := r.val.isNan },
      acc := accBits false r.val }

/-! ## Writes (R400 steps 11 to 13) -/

/-- The element writes of a destination region for the channels `en` enables (R452, R453). -/
def dstWrites (s : State) (h : Header) (d : Dst) (en : Nat → Bool) (val : Nat → DWord) : List (Nat × Byte) :=
  elemWrites h.count (d.ty.size) (fun n => en n && d.region.chanOn n) (fun n => (dstAddr s h d n).toNat) val

/-- A DF accumulator channel after a write of its halves: each from the channel that holds it, if that is enabled (R428). -/
def accPair (s : State) (en : Nat → Bool) (v : Nat → QWord) (j : Nat) : QWord :=
  (if en (2 * j + 1) then v (2 * j + 1) else accGet s .df j).extractLsb' 32 32 ++
    (if en (2 * j) then v (2 * j) else accGet s .df j).setWidth 32

/-- The DF accumulator channels written where one half of the pair is enabled (R428). -/
def accPairWrites (s : State) (h : Header) (en : Nat → Bool) (v : Nat → QWord) : List (Nat × QWord) :=
  (List.range (h.count / 2)).filterMap fun j =>
    if en (2 * j) || en (2 * j + 1) then some (j, accPair s en v j) else none

/-- The channel writes of an explicit accumulator destination (10_state R64; 41 R600, 44 R741): element n names the channel
`stride` elements after that of element n - 1, as the region is addressed (10_state R57; log 55); a DF channel is written by
halves (R428). -/
def accDstWrites (s : State) (h : Header) (d : Dst) (base : Nat) (en : Nat → Bool) (out : Nat → Out) :
    List (Nat × QWord) :=
  let on := fun n => en n && d.region.chanOn n
  if d.ty = .df then accPairWrites s h on (fun n => (out n).wide)
  else (List.range h.count).filterMap fun n => if on n then some (base + n * d.region.stride, (out n).wide) else none

/-- Step 11: the destination takes the elements of the enabled channels (R452 to R454). An accumulator is written in the format
of the destination's own type, whatever the execution type is (10_state R64; DESIGN CHOICE, unsafe: log 84). -/
def writeDst (s : State) (h : Header) (d : Dst) (en : Nat → Bool) (out : Nat → Out) : State :=
  match d.loc with
  | .arf .acc0 _ => match accFmt d.ty with
    | some fmt => accSet s fmt (accDstWrites s h d 0 en out)
    | none => s
  | .arf .acc1 _ => match accFmt d.ty with
    | some fmt => accSet s fmt (accDstWrites s h d 8 en out)
    | none => s
  | .arf r _ => writeArf s r (dstWrites s h d en (fun n => (out n).bits))
  | _ => { s with grf := setGrfBytes s.grf (dstWrites s h d en (fun n => (out n).bits)) }

/-- The first accumulator channel of the implicit write: acc1 for F with ExecSize 8 and QtrCtrl Q2 or Q4 (10_state R65). With
ExecSize 4 the model follows R65, by which channel n is that of acc0, whatever QtrCtrl and NibCtrl; the table of 40 R411 gives
the accumulator the eighth they name (DESIGN CHOICE, unsafe: log 80). -/
def accBase (h : Header) (fmt : AccFmt) : Nat :=
  if fmt = .f && h.size = .s8 && h.qtr.toNat % 2 = 1 then 8 else 0

/-- The accumulator channel of channel n of the instruction; a pair of channels has one for DF (10_state R64, R65). -/
def accChannel (h : Header) (fmt : AccFmt) (n : Nat) : Nat := if fmt = .df then n / 2 else accBase h fmt + n

/-- The accumulator channel an instruction reads implicitly on channel n (R465, 44 R748, R749, 45 R781). -/
def accIn (s : State) (h : Header) (fmt : AccFmt) (n : Nat) : QWord := accGet s fmt (accChannel h fmt n)

/-- The channel writes of the implicit accumulator update; a DF channel is written by halves (10_state R65, R465). R65 does not
say where a channel goes that the accumulator does not have: channels 16 to 31 of words, and the numbers 4 to 7 of a DF instruction
on 16 channels, are dropped (DESIGN CHOICE, unsafe: log 78). -/
def accImplicitWrites (s : State) (h : Header) (fmt : AccFmt) (en : Nat → Bool) (out : Nat → Out) : List (Nat × QWord) :=
  match fmt with
  | .df => accPairWrites s h en (fun n => (out n).acc)
  | fmt =>
    (List.range h.count).filterMap fun n => if en n then some (accBase h fmt + n, (out n).acc) else none

/-- Step 13: the implicit accumulator write (R465, 10_state R65). -/
def writeAcc (s : State) (h : Header) (fmt : AccFmt) (en : Nat → Bool) (out : Nat → Out) : State :=
  accSet s fmt (accImplicitWrites s h fmt en out)

/-- The general registers of a destination region (70 R961). -/
def dstRegs (s : State) (h : Header) (d : Dst) : List Nat :=
  match d.loc with
  | .arf _ _ => []
  | _ => regsOf h.count (d.ty.size) (dstAddr s h d)

/-- Steps 11 to 13 and the scoreboard marks of one data instruction: `en` the enabled channels, `flags` whether the
conditional modifier writes flags, `accF` the format of the accumulator write and `accEn` its channels (R400, R456); Accumulator
Disable suppresses the last (R465). -/
def commit (s : State) (h : Header) (d : Dst) (flags : Bool) (accF : Option AccFmt) (en accEn : Nat → Bool)
    (out : Nat → Out) : State :=
  let s1 := writeDst s h d en out
  let s2 := if flags then setFlagBits s1 h.flagReg (flagWrites s h (fun n => (out n).flag)) else s1
  let s3 := match accF with
    | some fmt => if s.accDisable then s2 else writeAcc s2 h fmt accEn out
    | none => s2
  let on := (List.range h.count).any en
  markA0 (markDst s3 h on (dstRegs s h d)) h on d.isA0

/-- What a data instruction brings to the pipeline of R400 besides its restrictions. -/
structure Effect where
  hdr : Header
  dst : Dst
  /-- the conditional modifier writes flags -/
  flags : Bool
  /-- the format of the accumulator write, if there is one -/
  accF : Option AccFmt
  /-- a source is tm0 -/
  tm0 : Bool
  /-- the enabled channels -/
  en : Nat → Bool
  /-- the channels of the accumulator write -/
  accEn : Nat → Bool
  /-- the result of each channel -/
  out : Nat → Out

/-- The results written to a state whose sources have been read (R400 steps 11 to 13). -/
def Effect.write (e : Effect) (s : State) : State := commit s e.hdr e.dst e.flags e.accF e.en e.accEn e.out

/-- The state with the results of a data instruction: the sources are read, then the results written (R400 steps 6 to 13). A
tm0 source clears TmEvent whatever channels are enabled (log 79). -/
def Effect.apply (e : Effect) (s : State) : State :=
  e.write (readTm0 s e.tm0)

/-- A data instruction behind its restrictions: the writes, then the end (R400). -/
def execute (s : State) (v : Option Restriction) (e : Effect) : Host.Outcome State Fault Refusal :=
  guarded v (finish s (e.apply s))

/-- The format of the implicit accumulator write that AccWrCtrl asks for (R465). -/
def implicitFmt (h : Header) (srcs : List Src) : Option AccFmt :=
  if h.accWr then some (execTy (srcs.map Src.regType)).fmt else none

/-- The usual effect: the conditional modifier writes flags, AccWrCtrl the accumulator, WrEn gates all of it (R400). -/
def effect (s : State) (h : Header) (cm : CondMod) (d : Dst) (srcs : List Src) (out : Nat → Out) : Effect :=
  { hdr := h, dst := d, flags := cm != .none, accF := implicitFmt h srcs, tm0 := srcs.any Src.isTm0,
    en := wrEn s h, accEn := wrEn s h, out := out }

end Sys2Proof.Machine
end

