-- ==== Sys2Proof/Machine/Restrictions.lean ====
section
/-! DEFINITION. The stated restrictions every operand and header must meet, as named checks; a violation is refused (spec/93_implementation_defined.md U2, U3; spec/40_common_execution.md R426, R470; spec/10_state.md R53, R57, R61, R64, R66, R75, R76). -/

namespace Sys2Proof

def Loc.isArf : Loc → Bool
  | .arf _ _ => true
  | _ => false

def Loc.isNull : Loc → Bool
  | .arf .null _ => true
  | _ => false

/-- The field of an absent operand: null, SubRegNum 0 (30 R290). -/
def Loc.isFiller (l : Loc) : Bool := l = .arf .null 0

def Loc.isCr0 : Loc → Bool
  | .arf .cr0 _ => true
  | _ => false

def Loc.isAcc : Loc → Bool
  | .arf .acc0 _ => true
  | .arf .acc1 _ => true
  | _ => false

def Loc.isGrf : Loc → Bool
  | .grf _ _ => true
  | _ => false

def Loc.isInd : Loc → Bool
  | .ind _ _ => true
  | _ => false

/-- The register operand of a source, if it is one. -/
def Src.reg? : Src → Option RegSrc
  | .reg r => some r
  | .imm _ _ => none

def Src.isImm : Src → Bool
  | .reg _ => false
  | .imm _ _ => true

def Src.isAcc : Src → Bool
  | .reg r => r.loc.isAcc
  | .imm _ _ => false

def Src.isCr0 : Src → Bool
  | .reg r => r.loc.isCr0
  | .imm _ _ => false

/-- The source carries a modifier. -/
def Src.hasMod : Src → Bool
  | .reg r => r.mod != .none
  | .imm _ _ => false

/-- The channel enables separate the halves of a DF number (40 R428). -/
def DstRegion.splitsPair : DstRegion → Bool
  | .a1 _ => false
  | .a16 ce => ce.getLsbD 0 != ce.getLsbD 1 || ce.getLsbD 2 != ce.getLsbD 3

end Sys2Proof

namespace Sys2Proof.Machine

/-- A condition that must not hold and the name it is refused under. -/
abbrev Check := Bool × Restriction

/-! ## Header -/

/-- QtrCtrl, NibCtrl and SPF (40 R411, 10_state R76; C38). `df`: the instruction has a DF operand. -/
def headerChecks (s : State) (h : Header) (df : Bool) : List Check :=
  [ (h.size = .s16 && h.qtr.getLsbD 1, .half2),
    (h.nib && !(h.size = .s4 && df), .nibCtrl),
    (s.spf && (h.qtr != 0 || h.nib), .spfQuarter) ]

/-- Explicit cr0 access needs Switch (10_state R75). -/
def cr0Check (h : Header) (d : Dst) (srcs : List Src) : Check :=
  ((d.loc.isCr0 || srcs.any Src.isCr0) && h.thread != .switch, .cr0Switch)

/-! ## Addresses -/

/-- The addresses of a source's elements. -/
def srcElems (s : State) (h : Header) (two : Bool) (r : RegSrc) : List Int :=
  (List.range h.count).map (srcAddr s h two r)

/-- The addresses of the destination's elements. -/
def dstElems (s : State) (h : Header) (d : Dst) : List Int := (List.range h.count).map (dstAddr s h d)

/-- A reference outside the thread's registers (10_state R53, U3; log 16). -/
def outOfGrf (s : State) (size : Nat) (l : List Int) : Bool :=
  l.any fun a => a < 0 || (min s.launch.grfCount 128 : Nat) * 32 < a + size

/-- All of the addresses lie in one register. -/
def oneReg (l : List Int) : Bool :=
  match l with
  | [] => true
  | a :: l => l.all fun b => b / 32 = a / 32

/-- The least and the greatest register of the addresses. -/
def regLo (l : List Int) : Int := l.foldl (fun m a => min m (a / 32)) (l.headD 0 / 32)
def regHi (l : List Int) : Int := l.foldl (fun m a => max m (a / 32)) (l.headD 0 / 32)

/-- The rows of a region: consecutive runs of w elements. -/
def rowsOf (w : Nat) (l : List Int) : List (List Int) :=
  (List.range ((l.length + w - 1) / w)).map fun y => (l.drop (y * w)).take w

/-- How many index registers a source uses, and how many elements each one addresses (40 R423, R470 6A, 6B). -/
def srcIndexCount (h : Header) (two : Bool) (r : RegSrc) : Nat :=
  match r.region with
  | .a1 .vx w _ => h.count / w.toNat
  | _ => if two && !r.isScalar && h.count ≥ 2 then 2 else 1

/-- Index registers used together start at a multiple of their number and exist (10_state R61, 40 R423). -/
def badGroup (k : BitVec 3) (count : Nat) : Bool := k.toNat % count != 0 || 8 < k.toNat + count

/-- The region crosses its architecture register (10_state R57 a, R59). An accumulator is 32 bytes of its elements. -/
def arfOutside (a : Arf) (size : Nat) (l : List Int) : Bool :=
  match a with
  | .null => false
  | .a0 => l.any fun x => 16 < x + size
  | _ => l.any fun x => 32 < x + size

/-! ## One source -/

/-- Vertical strides 16 and 32 are for bytes and words, and for bytes (30 R261). -/
def strideTooLarge (v : VertStride) (ty : RegType) : Bool := (v = .v16 && 2 < ty.size) || (v = .v32 && 1 < ty.size)

/-- Region shape (40 R470 2A to 2F, 30 R261). An Align16 region has Width 4 and HorzStride 1 implicitly (R424): the model
does not hold ExecSize against them, so that ExecSize 1 and 2 run there (2A, 2B; DESIGN CHOICE, unsafe: log 81). -/
def badShape (h : Header) (r : RegSrc) : Bool :=
  match r.region with
  | .a1 v w hz =>
    h.count < w.toNat
      || (w = .w1 && hz != .h0)
      || (if v = .vx then !r.loc.isInd
          else
            (h.count = w.toNat && hz != .h0 && v.toNat != w.toNat * hz.toNat)
              || (h.count = 1 && (v != .v0 || hz != .h0))
              || (v = .v0 && hz = .h0 && w != .w1))
      || strideTooLarge v r.ty
  | .a16 v _ => v = .vx || strideTooLarge v r.ty

/-- The elements of one row: Width of them, four in Align16 (R422, R424). -/
def SrcRegion.width : SrcRegion → Nat
  | .a1 _ w _ => w.toNat
  | .a16 _ _ => 4

/-- Element n of the rows of a source, before a swizzle chooses among them: an Align16 row is the whole 16-byte group of four
components, whichever the channel selects name (R424; DESIGN CHOICE, safe: log 18). -/
def rowAddr (s : State) (h : Header) (two : Bool) (r : RegSrc) (n : Nat) : Int :=
  match r.region with
  | .a1 _ _ _ => srcAddr s h two r n
  | .a16 _ cs => srcAddr s h two r n - 4 * (swizzle cs n : Nat) + 4 * (n % 4 : Nat)

/-- A row leaves its register, or what one index register addresses does (40 R470 2H, 6F). -/
def rowCrosses (s : State) (h : Header) (two : Bool) (r : RegSrc) : Bool :=
  let l := (List.range h.count).map (rowAddr s h two r)
  match r.loc with
  | .grf _ _ => (rowsOf (SrcRegion.width r.region) l).any fun row => !oneReg row
  | .ind _ _ => (rowsOf (max 1 (h.count / max 1 (srcIndexCount h two r))) l).any fun row => !oneReg row
  | .arf _ _ => false

/-- The alignment an operand's origin needs (40 R401, R428, R429). -/
def originAlign (a16 : Bool) (ty : RegType) : Nat := if a16 then 16 else if ty = .df then 8 else ty.size

/-- Element addresses off their natural boundary, or an origin off the one it needs (40 R401, R427; 20_memory R205). -/
def misplaced (a16 : Bool) (ty : RegType) (origins l : List Int) : Bool :=
  origins.any (fun a => a % originAlign a16 ty != 0) || l.any fun a => a % ty.size != 0

/-- The first `count` origins of an operand: its subregister, or one for each index register that it uses (40 R423, R471). -/
def originsOf (s : State) (l : Loc) (count : Nat) : List Int :=
  match l with
  | .grf _ sub => [sub.toNat]
  | .arf _ sub => [sub.toNat]
  | .ind k imm => (List.range count).map fun i => indexAddr s (k.toNat + i) imm

/-- The origins of a source region. -/
def srcOrigins (s : State) (h : Header) (two : Bool) (r : RegSrc) : List Int := originsOf s r.loc (srcIndexCount h two r)

/-- The origin of a source region, that of its first index register. -/
def srcBase (s : State) (r : RegSrc) : Int :=
  match r.loc with
  | .grf _ sub => sub.toNat
  | .arf _ sub => sub.toNat
  | .ind k imm => indexAddr s k.toNat imm

def SrcRegion.isA16 : SrcRegion → Bool
  | .a1 _ _ _ => false
  | .a16 _ _ => true

/-- The addresses of a DF region, pair by pair: some number's halves are not 8-byte aligned and adjacent (40 R428, R470 5A,
5B). -/
def brokenPairs (l : List Int) : Bool :=
  (List.range (l.length / 2)).any fun j =>
    l.getD (2 * j) 0 % 8 != 0 || l.getD (2 * j + 1) 0 != l.getD (2 * j) 0 + 4

/-- The checks of register source k (40 R420 to R428, R470; log 18). Null can stand only as src0 (10_state R51, 20_memory
R202), and there no region restriction is applied to it (DESIGN CHOICE, unsafe: log 17). -/
def srcChecks (s : State) (h : Header) (two : Bool) (k : Nat) (r : RegSrc) : List Check :=
  let a16 := SrcRegion.isA16 r.region
  match r.loc with
  | .arf .null _ => [(k != 0, .arfSrc1)]
  | .arf a _ =>
    let l := srcElems s h two r
    [ (k != 0, .arfSrc1),
      (a16 && r.ty.size != 4, .align16Type),
      (badShape h r, .regionShape),
      (misplaced a16 r.ty (srcOrigins s h two r) l, .misaligned),
      (r.ty = .df && brokenPairs l, .dfPair),
      (arfOutside a r.ty.size l, .arfRange) ]
  | .grf _ _ =>
    let l := srcElems s h two r
    [ (a16 && r.ty.size != 4, .align16Type),
      (badShape h r, .regionShape),
      (misplaced a16 r.ty (srcOrigins s h two r) l, .misaligned),
      (r.ty = .df && brokenPairs l, .dfPair),
      (outOfGrf s r.ty.size l, .grfRange),
      (rowCrosses s h two r, .rowCross),
      (regLo l + 1 < regHi l, .srcSpan) ]
  | .ind i _ =>
    let l := srcElems s h two r
    [ (a16 && r.ty.size != 4, .align16Type),
      (badShape h r, .regionShape),
      (r.region.isVx && (two || k != 0), .indirect),
      (badGroup i (srcIndexCount h two r), .indexGroup),
      (misplaced a16 r.ty (srcOrigins s h two r) l, .misaligned),
      (r.ty = .df && brokenPairs l, .dfPair),
      (outOfGrf s r.ty.size l, .grfRange),
      (rowCrosses s h two r, .indirect) ]

/-! ## Destination -/

def DstRegion.isA16 : DstRegion → Bool
  | .a1 _ => false
  | .a16 _ => true

/-- The number of index registers of an indirect destination: one for each register it is written to (40 R470 6A). -/
def dstIndexCount (s : State) (h : Header) (d : Dst) : Nat := if dstTwoRegs s h d && h.count ≥ 2 then 2 else 1

/-- The origins of the destination: an alignment that a rule asks of the destination binds every one of them (40 R470 6A, R471;
DEDUCED, safe: log 87). -/
def dstOrigins (s : State) (h : Header) (d : Dst) : List Int := originsOf s d.loc (dstIndexCount s h d)

/-- The origin of the destination, that of its first index register. -/
def dstBase (s : State) (d : Dst) : Int :=
  match d.loc with
  | .grf _ sub => sub.toNat
  | .arf _ sub => sub.toNat
  | .ind k imm => indexAddr s k.toNat imm

/-- A result narrower than its execution type sits in an execution-sized slot, from every origin on (40 R470 1B, 3F); a byte may
sit at the second-lowest byte of its slot (R470 4B). One channel needs no stride (R470 3F ii; log 18). -/
def badSlot (h : Header) (ex : ExecTy) (ty : RegType) (step : Nat) (origins : List Int) : Bool :=
  ty.size < ex.size &&
    ((1 < h.count && step != ex.size)
      || origins.any fun a => !(a % ex.size = 0 || (ty.size = 1 && a % ex.size = 1)))

/-- The checks of the destination (40 R452, R453, R470; log 17, 18). `packed`: the instruction may write packed bytes
(R470 4A), which then need no slot of their own; bytes that are not packed do (R470 1B). A null destination has no address,
and nothing is asked of its place (DESIGN CHOICE, unsafe: log 17); its region fields are valid (10_state R58), so that its stride
is not 0 (R470 2G). A pair
of channels of a DF instruction has eight bytes, one number or the slot of a narrower result (R428, R435, R470 1B, 5A). The 16
bytes of an Align16 origin (R453, 20_memory R205) are asked of an indirect destination: a basic direct one can name no other, and
of a three-source one, whose SubRegNum counts DWords (30 R271), they are not (DESIGN CHOICE, unsafe: log 91). -/
def dstChecks (s : State) (h : Header) (d : Dst) (ex : ExecTy) (packed : Bool) : List Check :=
  let l := dstElems s h d
  let step := d.region.stride * d.ty.size
  let shared : List Check :=
    [ (step = 0, .dstStride),
      (DstRegion.isA16 d.region && d.ty.size != 4, .align16Type),
      (misplaced (DstRegion.isA16 d.region && d.loc.isInd) d.ty (dstOrigins s h d) l, .misaligned),
      (d.ty.size = 1 && step = 1 && 1 < h.count && !packed, .packedByte),
      (!(packed && step = 1) && badSlot h ex d.ty step (dstOrigins s h d), .dstExecAlign),
      ((ex = .df || d.ty = .df) && brokenPairs l, .dfPair) ]
  match d.loc with
  | .arf .null _ => [(step = 0, .dstStride)]
  | .arf a _ => shared ++ [(arfOutside a d.ty.size l, .arfRange)]
  | .grf _ _ =>
    shared ++ [ (outOfGrf s d.ty.size l, .grfRange), (regLo l + 1 < regHi l, .dstSpan) ]
  | .ind k _ =>
    let parts := dstIndexCount s h d
    shared ++
      [ (badGroup k parts, .indexGroup),
        (outOfGrf s d.ty.size l, .grfRange),
        ((rowsOf (h.count / parts) l).any fun row => !oneReg row, .dstSpan) ]

/-! ## Source against destination (40 R470 3C to 3E) -/

/-- The elements in the lower half of a register of `span` bytes. -/
def lowerCount (span : Int) (l : List Int) : Nat := (l.filter fun a => a % (2 * span) < span).length

/-- The two halves of the list lie in one register each, at the same offset (R470 3D). -/
def halvesAlike (l : List Int) : Bool :=
  let half := l.length / 2
  let lo := l.take half
  let hi := l.drop half
  oneReg lo && oneReg hi && lo.headD 0 / 32 != hi.headD 0 / 32 && lo.headD 0 % 32 = hi.headD 0 % 32

/-- A packed word source with a packed DWord destination (R470 3E ii). -/
def packedWordToDWord (h : Header) (d : Dst) (r : RegSrc) : Bool :=
  r.ty.size = 2 && d.ty.size = 4 && d.region.stride = 1 &&
    (List.range h.count).all fun n => r.region.off 2 n = 2 * n

/-- The elements lie in two registers, adjacent ones or those that two index registers name. -/
def inTwoRegs (l : List Int) : Bool :=
  regLo l != regHi l && l.all fun a => a / 32 = regLo l || a / 32 = regHi l

/-- The register spans of a source and of the destination fit together (R470 3C to 3E). The registers of an indirect operand are
those that its index registers name; a source in more than two of them (R470 6G) spans no two (DESIGN CHOICE, unsafe: log 18). -/
def spanChecks (s : State) (h : Header) (d : Dst) (r : RegSrc) : List Check :=
  if r.loc.isArf || d.loc.isArf then []
  else
    let two := dstTwoRegs s h d
    let src := srcElems s h two r
    let dst := dstElems s h d
    let srcTwo := inTwoRegs src
    let low := lowerCount 16 dst
    [ (srcTwo && !two && low != 0 && low != h.count && 2 * low != h.count, .splitOWord),
      (srcTwo && two && !(halvesAlike src && (d.loc.isInd || 2 * (dst.filter fun a => a / 32 = regLo dst).length = h.count)),
        .splitEven),
      (two && !srcTwo && !r.isScalar && !packedWordToDWord h d r, .splitSource) ]

/-- An Align16 conversion between elements of different sizes, of which one is DF, with an operand in more than one
register (R470 5C). -/
def convSpans (s : State) (h : Header) (d : Dst) (src : Src) : Bool :=
  h.access = .align16 && (src.regType = .df) != (d.ty = .df) &&
    ((!d.loc.isNull && !oneReg (dstElems s h d))
      || (match src with
          | .reg r => !r.loc.isNull && !oneReg (srcElems s h (dstTwoRegs s h d) r)
          | .imm _ _ => false))

/-! ## Accumulator operands (10_state R64, R66) -/

/-- The accumulator channels an explicit operand uses do not exist (R64, R66 d), or more than eight channels execute on
DWords or floats (00_scope R5, R66 f). -/
def accTooWide (h : Header) (ex : ExecTy) (ty : RegType) : Bool :=
  (ex != .w && 8 < h.count) ||
    match accFmt ty with
    | some .df => 8 < h.count
    | some .f => 8 < h.count
    | some .d => 8 < h.count
    | some .w => 16 < h.count
    | none => false

/-- An accumulator of a type it does not have, or with a subregister; acc1 is there for operands and operations of F alone
(R64, R66 d). -/
def badAccType (l : Loc) (ex : ExecTy) (ty : RegType) : Bool :=
  match l with
  | .arf .acc0 sub => (accFmt ty).isNone || sub != 0
  | .arf .acc1 sub => ty != .f || ex != .f || sub != 0
  | _ => false

/-- The source's region is the destination's, element for element or byte for byte (R66 c, e; log 12). -/
def accRegionMatches (h : Header) (d : Dst) (r : RegSrc) : Bool :=
  (List.range h.count).all fun n =>
    let a := r.region.off r.ty.size n
    let b := n * d.region.stride
    a = b * r.ty.size || a = b * d.ty.size

/-- The checks of an explicit accumulator source. -/
def accSrcChecks (h : Header) (d : Dst) (ex : ExecTy) (r : RegSrc) : List Check :=
  match accOperand r.loc with
  | none => []
  | some base =>
    [ (badAccType r.loc ex r.ty, .accType),
      (accTooWide h ex r.ty, .accChannels),
      (!accRegionMatches h d r, .accRegion),
      (match accOperand d.loc with
       | some other => base != other
       | none => false, .accBoth) ]

/-- The checks of an explicit accumulator destination and of the implicit update, which has eight channels for a DWord
operation (R66 d). A word operation on 32 channels and a DF operation on 16, eight numbers, run; the accumulator has 16 words
or four DF numbers of them (R64; 91 N4; DESIGN CHOICE, unsafe: log 78). -/
def accDstChecks (h : Header) (d : Dst) (ex : ExecTy) : List Check :=
  [ (badAccType d.loc ex d.ty, .accType),
    (d.loc.isAcc && accTooWide h ex d.ty, .accChannels),
    (h.accWr && ex = .d && 8 < h.count, .accChannels) ]

/-! ## Immediates (40 R426) -/

/-- A vector immediate and the destination and first source it asks for. -/
def immChecks (s : State) (h : Header) (d : Dst) (src0 : Option RegType) (src : Src) : List Check :=
  match src with
  | .reg _ => []
  | .imm ty _ =>
    let step := d.region.stride * d.ty.size
    let vector := ty = .v || ty = .uv || ty = .vf
    let word := ty = .v || ty = .uv
    [ (vector && !d.loc.isNull && ((dstOrigins s h d).any (· % 16 != 0) || step != (if word then 2 else 4)), .immVector),
      (match src0 with
       | some t => (word && !(t.isInt && t.size ≤ 2)) || (ty = .vf && t != .f)
       | none => false, .immVector) ]

/-! ## All of them -/

/-- The largest element of the operands times the channels exceeds two registers (40 R470 1A). -/
def tooLarge (h : Header) (tys : List RegType) : Bool := tys.any fun t => 64 < h.count * t.size

/-- The checks every data instruction shares. `packed`: packed byte destinations are allowed. In Align16 a DF instruction
has at most eight channels: "SIMD8 for DF" is read as eight numbers, because 40 R428 gives a legal one with four
(DEDUCED: log 62); its "DWord operations", not on 16 channels, are read as those with an operand of D or UD: F, as wide, runs
(DESIGN CHOICE, unsafe: log 85). -/
def dataChecks (s : State) (h : Header) (cm : CondMod) (d : Dst) (srcs : List Src) (packed : Bool) : List Check :=
  let tys := srcs.map Src.regType
  let ex := execTy tys
  let df := d.ty = .df || tys.any (· = .df)
  let two := dstTwoRegs s h d
  headerChecks s h df
    ++ [ cr0Check h d srcs,
         (tooLarge h (d.ty :: tys), .sizeLimit),
         (df && h.count < 2, .dfAlign),
         (h.access = .align16 && ((h.size = .s16 && (d.ty :: tys).any fun t => t = .d || t = .ud) || (16 ≤ h.count && df)),
           .align16Size),
         (df && d.region.splitsPair, .dfPair),
         (srcs.any (convSpans s h d), .convSpan),
         (cm != .none && h.size = .s32, .simd32Cmod),
         (s.altMode && df && (d.ty :: tys).any (· = .f), .altMode) ]
    ++ dstChecks s h d ex packed
    ++ accDstChecks h d ex
    ++ (srcs.zipIdx.flatMap fun p =>
          match p.1 with
          | .reg r => srcChecks s h two p.2 r ++ spanChecks s h d r ++ accSrcChecks h d ex r
          | .imm _ _ => immChecks s h d (if p.2 = 0 then none else (srcs.head?.map Src.regType)) p.1)

/-! ## Attributes that an instruction does not have -/

def noSat (h : Header) : Check := (h.sat, .saturate)
def noCmod (cm : CondMod) : Check := (cm != .none, .condModifier)
def noSrcMod (srcs : List Src) : Check := (srcs.any Src.hasMod, .srcModifier)
def noAccWr (h : Header) : Check := (h.accWr, .accWrForbidden)
def noAccSrc (srcs : List Src) : Check := (srcs.any Src.isAcc, .accOperand)
def noAccDst (d : Dst) : Check := (d.loc.isAcc, .accOperand)

/-- "No accumulator access, implicit or explicit." -/
def noAcc (h : Header) (d : Dst) (srcs : List Src) : List Check := [noAccWr h, noAccSrc srcs, noAccDst d]

/-- Integer sources: none is a float (40 R430 b). -/
def allInt (srcs : List Src) : Bool := srcs.all fun x => x.regType.isInt

/-- Sources that are all of one type. -/
def allTy (t : RegType) (srcs : List Src) : Bool := srcs.all fun x => x.regType = t

end Sys2Proof.Machine
end

