-- ==== Sys2Proof/Machine/Uses.lean ====
section
/-! DEFINITION. The message descriptor of `send`, three-source operands as regions, and the registers an instruction reads and writes, which the scoreboard checks before it issues (spec/43_misc_send_wait.md R701, spec/40_common_execution.md R425, spec/70_reset_and_hazards.md R961). -/

namespace Sys2Proof

/-- A three-source operand as a region: one DWord replicated, or Align16 groups with vertical stride 4 (40 R425). RepCtrl gives
every channel the one DWord also for DF, where R428 wants pairs kept together: so every replicated DF source is refused, as
`dfPair` (DEDUCED, safe: log 93). -/
def TriSrc.toSrc (t : TriSrc) (ty : TriType) : Src :=
  .reg { loc := .grf t.num (t.sub ++ 0#2), ty := ty.regType, mod := t.mod,
         region := if t.rep then .a1 .v0 .w1 .h0 else .a16 .v4 t.chanSel }

/-- The destination of the three-source format (30 R270, 40 R453). -/
def Tri.dst (t : Tri) : Dst :=
  { loc := .grf t.dstNum (t.dstSub ++ 0#2), ty := t.dstTy.regType, region := .a16 t.chanEn }

def Tri.srcs (t : Tri) : List Src := [t.src0.toSrc t.srcTy, t.src1.toSrc t.srcTy, t.src2.toSrc t.srcTy]

def Basic2.srcs (b : Basic2) : List Src := [.reg b.src0, b.src1]

def Math.srcs (m : Math) : List Src := [.reg m.src0, m.src1]

end Sys2Proof

namespace Sys2Proof.Machine

/-! ## Message descriptor (43 R701) -/

/-- `desc[28:0]`: the immediate, or a0.0:ud. -/
def sendDesc (s : State) (m : Send) : BitVec 29 :=
  match m.desc with
  | .imm v => v.setWidth 29
  | .reg _ => (s.a0.getD 1 0 ++ s.a0.getD 0 0 : DWord).setWidth 29

def descMlen (d : BitVec 29) : BitVec 4 := d.extractLsb' 25 4
def descRlen (d : BitVec 29) : BitVec 5 := d.extractLsb' 20 5
def descHeader (d : BitVec 29) : Bool := d.getLsbD 19
def descFunc (d : BitVec 29) : BitVec 19 := d.extractLsb' 0 19

/-- The register number of a send operand; none for an architecture register (null). -/
def sendReg (s : State) (l : Loc) : Option Nat :=
  match l with
  | .grf num _ => some num.toNat
  | .ind k imm => some (indexAddr s k.toNat imm / 32).toNat
  | .arf _ _ => none

/-! ## Registers used -/

/-- What an instruction reads and writes, as far as the scoreboard sees it. -/
structure Uses where
  /-- general registers of the sources -/
  srcs : List Nat
  /-- general registers of the destination -/
  dsts : List Nat
  /-- a0 is a source, or an operand is register-indirect -/
  a0Src : Bool
  /-- a0 is the destination -/
  a0Dst : Bool
  /-- the check of the destination is skipped -/
  noDDChk : Bool
  deriving DecidableEq, Repr

/-- The instruction touches no scoreboarded register. -/
def Uses.none : Uses := { srcs := [], dsts := [], a0Src := false, a0Dst := false, noDDChk := false }

def locUsesA0 (l : Loc) : Bool :=
  match l with
  | .arf .a0 _ => true
  | .ind _ _ => true
  | _ => false

/-- The general registers of a source region. -/
def srcRegs (s : State) (h : Header) (two : Bool) (src : Src) : List Nat :=
  match src with
  | .imm _ _ => []
  | .reg r =>
    match r.loc with
    | .arf _ _ => []
    | _ => regsOf h.count r.ty.size (srcAddr s h two r)

def srcUsesA0 (src : Src) : Bool :=
  match src with
  | .imm _ _ => false
  | .reg r => locUsesA0 r.loc

/-- The registers of a data instruction. -/
def dataUses (s : State) (h : Header) (d : Dst) (srcs : List Src) : Uses :=
  { srcs := srcs.flatMap (srcRegs s h (dstTwoRegs s h d))
    dsts := dstRegs s h d
    a0Src := srcs.any srcUsesA0 || d.loc.isInd
    a0Dst := d.isA0
    noDDChk := h.noDDChk }

/-- The register of `pln`'s u, the one of its first element (45 R787); v's are counted from it, of an indirect u on 16 channels
too (log 82). -/
def plnFirst (s : State) (b : Basic2) (r : RegSrc) : Int := srcAddr s b.hdr (dstTwoRegs s b.hdr b.dst) r 0 / 32

/-- The registers of the second vector that `pln` implies: one for eight channels, two for sixteen (45 R787). -/
def plnUses (s : State) (b : Basic2) : Uses :=
  let u := dataUses s b.hdr b.dst b.srcs
  match b.src1 with
  | .imm _ _ => u
  | .reg r =>
    { u with srcs := u.srcs ++
        (List.range (b.hdr.count / 8)).map fun i => (plnFirst s b r).toNat + b.hdr.count / 8 + i }

/-- `math` with quotient and remainder writes the next register as well (43 R719). -/
def mathUses (s : State) (m : Math) : Uses :=
  let u := dataUses s m.hdr m.dst m.srcs
  if m.fc = 0xB then { u with dsts := u.dsts ++ u.dsts.map (· + 1) } else u

/-- The register that index register e names for `movi`: bits 11:5 of the sum (41 R602). -/
def moviReg (s : State) (e : Nat) (imm : BitVec 10) : Nat := (indexAddr s e imm % 4096 / 32).toNat

/-- `movi` reads the one register that a0.0 names (41 R602). -/
def moviUses (s : State) (b : Basic1) : Uses :=
  let u := dataUses s b.hdr b.dst []
  match b.src0 with
  | .reg { loc := .ind k imm, .. } => { u with srcs := [moviReg s k.toNat imm], a0Src := true }
  | _ => u

/-- `send`: MLEN payload registers and RLEN response registers (70 R961, 20_memory R210 to R212). -/
def sendUses (s : State) (m : Send) : Uses :=
  let d := sendDesc s m
  let run (first : Option Nat) (n : Nat) : List Nat :=
    match first with
    | some r => (List.range n).map (r + ·)
    | none => []
  { srcs := run (sendReg s m.src0.loc) (descMlen d).toNat
    dsts := run (sendReg s m.dst.loc) (descRlen d).toNat
    a0Src := (match m.desc with
      | .imm _ => false
      | .reg _ => true) || m.dst.loc.isInd || m.src0.loc.isInd
    a0Dst := false
    noDDChk := m.hdr.noDDChk }

/-- The registers an instruction reads and writes (70 R961). -/
def uses (s : State) (i : Instr) : Uses :=
  match i, i.form with
  | .pln b, _ => plnUses s b
  | .movi b, _ => moviUses s b
  | _, .bare _ => Uses.none
  | _, .basic1 b => dataUses s b.hdr b.dst [b.src0]
  | _, .basic2 b => dataUses s b.hdr b.dst b.srcs
  | _, .tri t => dataUses s t.hdr t.dst t.srcs
  | _, .branch1 _ => Uses.none
  | _, .branch2 _ => Uses.none
  | _, .call c => dataUses s c.hdr c.dst []
  | _, .send m => sendUses s m
  | _, .math m => mathUses s m

/-- An instruction that uses a marked register is held (70 R961). NoDDChk waives the check of the destination (70 R962), that of
a0 too (10_state R63; log 50); sources are always checked. -/
def Uses.held (u : Uses) (s : State) : Bool :=
  u.srcs.any s.depOf
    || (!u.noDDChk && u.dsts.any s.depOf)
    || (s.depA0 && (u.a0Src || (u.a0Dst && !u.noDDChk)))

/-- Some thread that this one depends on has not retired (43 R702, 10_state R84). -/
def State.tdrPending (s : State) : Bool := s.tdr.toList.any TdrEntry.valid

/-- The instruction is not enabled: it waits for a host action (70 R954, R961; 43 R702; log 35). -/
def isHeld (s : State) (i : Instr) : Bool :=
  (uses s i).held s ||
    (match i with
     | .sendc _ => s.tdrPending
     | _ => false)

end Sys2Proof.Machine
end

