-- ==== Sys2Proof/Machine/Compute.lean ====
section
/-! DEFINITION. The computation of one channel over its sources, shared by the families: integer, F and DF values, ALT-mode inputs, results given as bits (spec/40_common_execution.md R430, R480 to R487; spec/93_implementation_defined.md U15, U23). -/

namespace Sys2Proof.Machine

/-! ## Source values -/

/-- An F source as a number, its denormals flushed (R482). -/
def valF (s : State) (h : Header) (two : Bool) (k : Nat) (src : Src) (n : Nat) : FVal :=
  (FVal.ofBits fmtF (srcF s h two k src n).toNat).flushIn (modeF s)

/-- A DF source as a number, its denormals flushed in the mode that flushes (R482). -/
def valDF (s : State) (h : Header) (two : Bool) (k : Nat) (src : Src) (n : Nat) : FVal :=
  (FVal.ofBits fmtDF (srcDF s h two k src n).toNat).flushIn (modeDF s)

/-- An accumulator channel that an instruction reads implicitly, as a number (44 R748). -/
def accValF (s : State) (h : Header) (n : Nat) : FVal := (FVal.ofBits fmtF (accIn s h .f n).toNat).flushIn (modeF s)
def accValDF (s : State) (h : Header) (n : Nat) : FVal := (FVal.ofBits fmtDF (accIn s h .df n).toNat).flushIn (modeDF s)

/-- ALT mode with an infinity or a NaN among the inputs: the result is free (R481, U15). -/
def altUndefined (s : State) (inputs : List FVal) : Bool := s.altMode && inputs.any FVal.isSpecial

/-- The result of an F computation behind the ALT-mode test (R481). -/
def fResult (s : State) (h : Header) (cm : CondMod) (ty : RegType) (inputs : List FVal) (r : FRes) (n : Nat) : Out :=
  if altUndefined s inputs then freeOut s n else fOut s h cm ty r n

/-! ## Results given as a pattern -/

/-- A DWord result that no modifier touches: bit-field and count instructions (41 R614 to R617, 44 R751 to R753). -/
def bitsOut (v : DWord) : Out := { bits := v, wide := v.setWidth 64, flag := false, acc := v.setWidth 64 }

/-- A float source copied bit for bit, with the flag of the value (41 R600, R601). -/
def copyF (s : State) (cm : CondMod) (b : DWord) : Out :=
  { bits := b, wide := b.setWidth 64, flag := condition cm (floatSignals (modeF s) (FVal.ofBits fmtF b.toNat) false),
    acc := b.setWidth 64 }

/-- A DF source copied bit for bit: channel n holds one half (R428). -/
def copyDF (s : State) (cm : CondMod) (b : QWord) (n : Nat) : Out :=
  { bits := halfOf b n, wide := b, flag := condition cm (floatSignals (modeDF s) (FVal.ofBits fmtDF b.toNat) false),
    acc := b }

/-! ## Two-source arithmetic -/

/-- One channel of a two-source instruction, by execution type: exact integers, F or DF (R430). -/
def arith2 (s : State) (b : Basic2) (fi : Int → Int → Int) (ff : FMode → FVal → FVal → FRes) (n : Nat) : Out :=
  let two := dstTwoRegs s b.hdr b.dst
  match execTy (b.srcs.map Src.regType) with
  | .f =>
    let x := valF s b.hdr two 0 (.reg b.src0) n
    let y := valF s b.hdr two 1 b.src1 n
    fResult s b.hdr b.cmod b.dst.ty [x, y] (ff (modeF s) x y) n
  | .df =>
    dfOut s b.hdr b.cmod b.dst.ty
      (ff (modeDF s) (valDF s b.hdr two 0 (.reg b.src0) n) (valDF s b.hdr two 1 b.src1 n)) n
  | ex =>
    intOut s b.hdr b.cmod b.dst.ty ex.accBits
      (fi (srcInt s b.hdr two 0 (.reg b.src0) n) (srcInt s b.hdr two 1 b.src1 n)) n

/-- One channel of a two-source integer instruction. -/
def int2 (s : State) (b : Basic2) (f : Int → Int → Int) (n : Nat) : Out :=
  let two := dstTwoRegs s b.hdr b.dst
  intOut s b.hdr b.cmod b.dst.ty (execTy (b.srcs.map Src.regType)).accBits
    (f (srcInt s b.hdr two 0 (.reg b.src0) n) (srcInt s b.hdr two 1 b.src1 n)) n

/-- One channel of a one-source F instruction (44 R743 to R747). -/
def float1 (s : State) (b : Basic1) (f : FMode → FVal → FRes) (n : Nat) : Out :=
  let x := valF s b.hdr (dstTwoRegs s b.hdr b.dst) 0 b.src0 n
  fResult s b.hdr b.cmod b.dst.ty [x] (f (modeF s) x) n

/-- A source value as the 32-bit pattern that bit-field and count instructions take: of an accumulator channel, which is
wider, its low 32 bits (10_state R64; DESIGN CHOICE, unsafe: log 72). -/
def srcBits (s : State) (h : Header) (two : Bool) (k : Nat) (src : Src) (n : Nat) : DWord :=
  BitVec.ofInt 32 (srcInt s h two k src n)

/-! ## Type lists -/

/-- {*B,*W,*D} -> {*B,*W,*D}; {*B,*W,*D} -> F; F -> F; DF -> DF (44 R740, 41 R610). -/
def arithTypes (d : Dst) (srcs : List Src) : Bool :=
  (allInt srcs && (d.ty.isInt || d.ty = .f)) || (allTy .f srcs && d.ty = .f) || (allTy .df srcs && d.ty = .df)

/-- {*B,*W,*D} -> {*B,*W,*D} (41 R603 to R609, 44 R742). -/
def intTypes (d : Dst) (srcs : List Src) : Bool := allInt srcs && d.ty.isInt

/-- F -> F (44 R743, 45 R779). -/
def floatTypes (d : Dst) (srcs : List Src) : Bool := allTy .f srcs && d.ty = .f

/-- One type throughout, out of a list (41 R614 to R617). -/
def sameTypes (tys : List RegType) (d : Dst) (srcs : List Src) : Bool := tys.contains d.ty && allTy d.ty srcs

end Sys2Proof.Machine
end

