-- ==== Sys2Proof/Machine/FlowControl.lean ====
section
/-! DEFINITION. Flow control instructions (spec/42_flow_control.md R630 to R652). -/

namespace Sys2Proof.Machine

/-! ## Common (R630 to R634) -/

/-- IP plus an offset in 8-byte units, relative to the branch itself (R630). -/
def target (s : State) (off : BitVec 16) : DWord := s.ip + (off.signExtend 32 <<< 3)

/-- The write enable of thread channel c: WrEn of the instruction channel, 0 outside the group (R632, 40 R410). -/
def chanEn (s : State) (h : Header) (c : Nat) : Bool := chOff h ≤ c && wrEn s h (c - chOff h)

/-- Some thread channel is enabled. -/
def anyChan (s : State) (h : Header) : Bool := (List.range 32).any (chanEn s h)

/-- Thread channel c belongs to the instruction's group. -/
def inGroup (h : Header) (c : Nat) : Bool := chOff h ≤ c && c < chOff h + h.count

/-- The scalar predicate of a single program flow (R633). -/
def scalarPred (s : State) (h : Header) : Bool := pmask s h (h.size = .s32) 0

/-- The per-channel IPs after a branch: `taken` for the enabled channels, `fall` for the other channels at the
instruction, no change for channels parked elsewhere (R632, D10). -/
def movePcIP (s : State) (en : Nat → Bool) (taken fall : DWord) : Vector DWord 32 :=
  Vector.ofFn fun c => if en c.val then taken else if s.pcIP[c] = s.ip then fall else s.pcIP[c]

/-- Some channel's IP is the address. -/
def someAt (p : Vector DWord 32) (a : DWord) : Bool := p.toList.contains a

/-- The state after a branch. -/
def branchTo (s : State) (p : Vector DWord 32) (ip : DWord) : State := { s with pcIP := p, ip := ip }

/-- Channels moved; IP goes on if some channel is at NextIP, and to `away` if none is. -/
def converge (s : State) (p : Vector DWord 32) (away : DWord) : State :=
  branchTo s p (if someAt p s.nextIP then s.nextIP else away)

/-- A single program flow: IP alone moves (R633). -/
def spfBranch (s : State) (dest : DWord) : State := { s with ip := dest }

/-- The restrictions of every flow-control instruction: Align1, no accumulator, no saturation (R634, 40 R470 7D). -/
def flowChecks (s : State) (h : Header) : List Check :=
  ([(h.access = .align16, .align1Only), noAccWr h, noSat h] : List Check) ++ headerChecks s h false

/-- JIP and UIP are an immediate of a given type (R634). -/
def offsetChecks (file : RegFile) (ty : BitVec 3) (codes : List (BitVec 3)) : List Check :=
  [(file != .imm, .operand), (!codes.contains ty, .types)]

/-- The codes of W, of D and of UD (30 R256). -/
def codeW : BitVec 3 := 3
def codeD : BitVec 3 := 1
def codeUD : BitVec 3 := 0

/-- "A brc / brd instruction must use the Switch instruction option." (R641, R643) -/
def needSwitch (h : Header) : Check := (h.thread != .switch, .threadCtrl)

/-- "Predication is not allowed." (R644, R645) -/
def noPred (h : Header) : Check := (h.pred != .none, .predicate)

/-- The restrictions of `brd` and `brc`: Switch, offsets of type W or D (R641, R643). R643 says D and the spec's own word
95 E12 holds W: both run (DESIGN CHOICE, unsafe: log 60). -/
def brdChecks (s : State) (h : Header) (file : RegFile) (ty : BitVec 3) : List Check :=
  flowChecks s h ++ [needSwitch h] ++ offsetChecks file ty [codeW, codeD]

/-- The restrictions of `brc` beside those of `brd`: it is not in an if-endif block (R643). The rule does not say how that is
found: the program text is walked on from the instruction, and an `else` or an `endif` of no block opened on the way closes a
block that the `brc` stands in (DEDUCED, unsafe: log 77). -/
def brcChecks (s : State) (b : Branch2) : List Check :=
  ((s.blockEnd s.nextIP).isSome, .brcInIf) :: brdChecks s b.hdr b.offFile b.offTy

/-- The restrictions that `else` and `endif` share: no predicate, an offset of type W (R644, R645). -/
def elseChecks (s : State) (h : Header) (file : RegFile) (ty : BitVec 3) : List Check :=
  flowChecks s h ++ [noPred h] ++ offsetChecks file ty [codeW]

/-- The restrictions of `if`, `while`, `break`, `cont` and `halt`: offsets of type W (R642, R647 to R650). -/
def branchChecks (s : State) (h : Header) (file : RegFile) (ty : BitVec 3) : List Check :=
  flowChecks s h ++ offsetChecks file ty [codeW]

/-! ## The parts of a block and of a loop (R642, R644, R648, R649)

"Each if instruction must have a matching endif instruction and may have up to one matching else instruction", and "the
execution size must be the same": the rules do not say how the partners of an instruction are found. The model walks the program
text on from an `if` or an `else` to the end of its part, from a `break` or a `cont` to the `while` of its loop, and from the
first instruction of a loop to its `while`; an `endif` looks for no partner, since the others have (DEDUCED, unsafe: log 74). -/

/-- The instruction whose first DWord is `q` has the opcode and another ExecSize. -/
def otherSize (h : Header) (op : Byte) (q : DWord) : Bool := headOpcode q = op && headSize q != h.size.code

/-- The part of a block that begins at an address ends with an `endif` of the same ExecSize, and with no `else` (R642, R644). -/
def endifChecks (s : State) (h : Header) (a : DWord) : List Check :=
  match s.blockEnd a with
  | none => [(true, .noEndif)]
  | some (_, q) => [(headOpcode q = 0x24#8, .secondElse), (otherSize h 0x25 q, .blockSize)]

/-- The `endif` that an `if` "must have"; where its JIP points, "to right after the matching else instruction when present, or
otherwise to the matching endif", and the ExecSize of both (R642). A single program flow does not use JIP. -/
def blockChecks (s : State) (b : Branch2) : List Check :=
  match s.blockEnd s.nextIP with
  | none => [(true, .noEndif)]
  | some (a, q) =>
    let hasElse : Bool := headOpcode q = 0x24#8
    let past := if hasElse then a + BitVec.ofNat 32 (headLength q) else a
    [ (!s.spf && target s b.jip != past, .ifTarget),
      (otherSize b.hdr 0x24 q || otherSize b.hdr 0x25 q, .blockSize) ] ++
      (if hasElse then endifChecks s b.hdr past else [])

/-- The restrictions of `if`: where JIP points, and the ExecSize of its `else` and its `endif` (R642; log 74). -/
def ifChecks (s : State) (b : Branch2) : List Check := branchChecks s b.hdr b.offFile b.offTy ++ blockChecks s b

/-- The restrictions of `else`: its `endif` (R644; log 74). -/
def elseBlockChecks (s : State) (b : Branch1) : List Check :=
  elseChecks s b.hdr b.offFile b.offTy ++ endifChecks s b.hdr s.nextIP

/-- The instruction at an address, if the launch supplied one there. -/
def State.instrAt (s : State) (a : DWord) : Option Instr :=
  match s.headAt a with
  | none => none
  | some q =>
    match Memory.readBytes s.imem a.toNat (headLength q) with
    | .error _ => none
    | .ok bs =>
      match decodeBytes bs with
      | .ok (i, _) => some i
      | .error _ => none

/-- The instruction at address a is the `while` of a loop that address i lies in: it stands behind i, and its JIP points to i or
before (R647). -/
def State.closesLoop (s : State) (i a : DWord) : Bool :=
  match s.instrAt a with
  | some (.while_ b) => i < a && target { s with ip := a } b.jip ≤ i
  | _ => false

/-- The address and the first DWord of the first `while` from address a on whose loop address i lies in: the innermost loop
around i (log 74). -/
def State.walkLoop (s : State) (i : DWord) : Nat → DWord → Option (DWord × DWord)
  | 0, _ => none
  | fuel + 1, a =>
    match s.headAt a with
    | none => none
    | some q =>
      if headOpcode q = 0x27#8 && s.closesLoop i a then some (a, q)
      else s.walkLoop i fuel (a + BitVec.ofNat 32 (headLength q))

/-- The `while` of the loop around the instruction at address i, the next one being at address a. -/
def State.loopEnd (s : State) (i a : DWord) : Option (DWord × DWord) := s.walkLoop i (s.imem.length / 8 + 1) a

/-- The first DWord of the `while` of a `break` or a `cont`: where UIP should point, or else as the text has it (R648, R649; log
74). -/
def State.loopWhile (s : State) (b : Branch2) : Option DWord :=
  if s.closesLoop s.ip (target s b.uip) then s.headAt (target s b.uip) else (s.loopEnd s.ip s.nextIP).map Prod.snd

/-- The restrictions of `break` and `cont`: the ExecSize of the `while` of the loop (R648, R649; log 74). -/
def loopChecks (s : State) (b : Branch2) : List Check :=
  branchChecks s b.hdr b.offFile b.offTy ++ [((s.loopWhile b).any (otherSize b.hdr 0x27), .blockSize)]

/-- A `break` or a `cont` of another ExecSize stands from address a on in the loop that the `while` at IP closes (R647). -/
def State.walkBody (s : State) (h : Header) : Nat → DWord → Bool
  | 0, _ => false
  | fuel + 1, a =>
    if s.ip ≤ a then false
    else
      match s.headAt a with
      | none => false
      | some q =>
        let next := a + BitVec.ofNat 32 (headLength q)
        ((otherSize h 0x28 q || otherSize h 0x29 q) && (s.loopEnd a next).any (fun e => e.1 = s.ip)) || s.walkBody h fuel next

/-- The restrictions of `while`: the ExecSize of the `break`s and `cont`s of its loop (R647; log 74). -/
def whileChecks (s : State) (b : Branch1) : List Check :=
  branchChecks s b.hdr b.offFile b.offTy ++ [(s.walkBody b.hdr (s.imem.length / 8 + 1) (target s b.jip), .blockSize)]

/-! ## jmpi (R640) -/

/-- The jump index: the low 16 bits of an immediate, or a scalar D (R640). -/
def jmpiIndex (s : State) (b : Basic2) : DWord :=
  match b.src1 with
  | .imm _ v => (v.setWidth 16).signExtend 32
  | .reg r => BitVec.ofInt 32 (regInt s b.hdr false 1 r 0)

def Loc.isIp (l : Loc) : Bool :=
  match l with
  | .arf .ip _ => true
  | _ => false

/-- The immediate of `jmpi` has bits 31:16 zero; the immediate of a compact word is sign-extended instead, so that an index
of -1 loops (R640, 30 R331). NextIP tells the form. -/
def jmpiImmOk (s : State) (v : DWord) : Bool :=
  v.extractLsb' 16 16 = 0 || (s.nextIP = s.ip + 8 && v = (v.setWidth 16).signExtend 32)

/-- The restrictions of `jmpi` (R640). -/
def jmpiChecks (s : State) (b : Basic2) : List Check :=
  flowChecks s b.hdr ++
    ([ (b.hdr.size != .s1, .execSize),
       (!b.hdr.noMask, .noMask),
       noCmod b.cmod,
       (!(Loc.isIp b.dst.loc && Loc.isIp b.src0.loc), .operand),
       (b.src0.mod != .none || b.src1.hasMod, .srcModifier),
       (badShape b.hdr b.src0, .regionShape),
       (b.dst.region.stride = 0, .dstStride),
       (b.src1.regType != .d, .types) ] : List Check) ++
    (match b.src1 with
     | .imm _ v => [(!jmpiImmOk s v, .operand)]
     | .reg r => (r.loc.isArf, .operand) :: srcChecks s b.hdr false 1 r)

/-- IP moves and takes the channels at the instruction with it (R631, R640, D15). -/
def jumpAll (s : State) (dest : DWord) : State :=
  { s with ip := dest, pcIP := if s.spf then s.pcIP else s.pcIP.map fun p => if p = s.ip then dest else p }

/-- `jmpi`: relative to NextIP (R640). -/
def execJmpi (b : Basic2) (s : State) : Host.Outcome State Fault Refusal :=
  guarded (firstViolation (jmpiChecks s b))
    (.next (jumpAll s (if wrEn s b.hdr 0 then s.nextIP + (jmpiIndex s b <<< 3) else s.nextIP)))

/-! ## brd, brc (R641, R643) -/

/-- `brd` (R641). -/
def execBrd (b : Branch1) (s : State) : Host.Outcome State Fault Refusal :=
  let dest := target s b.jip
  guarded (firstViolation (brdChecks s b.hdr b.offFile b.offTy))
    (.next
      (if s.spf then spfBranch s (if scalarPred s b.hdr then dest else s.nextIP)
       else
         let p := movePcIP s (chanEn s b.hdr) dest s.nextIP
         branchTo s p (if someAt p dest then dest else s.nextIP)))

/-- `brc` (R643). -/
def execBrc (b : Branch2) (s : State) : Host.Outcome State Fault Refusal :=
  guarded (firstViolation (brcChecks s b))
    (.next
      (if s.spf then spfBranch s (if scalarPred s b.hdr then target s b.uip else s.nextIP)
       else converge s (movePcIP s (chanEn s b.hdr) (target s b.uip) s.nextIP) (target s b.jip)))

/-! ## if, else, endif (R642, R644, R645) -/

/-- The channels of an `if`: enabled ones enter the block, the others at the `if` go to JIP. "With MaskCtrl = NoMask every
channel below exec_size counts as being at the if" (R642): the channels of the instruction's group (log 39). -/
def ifPcIP (s : State) (h : Header) (park : DWord) : Vector DWord 32 :=
  Vector.ofFn fun c =>
    if chanEn s h c.val then s.nextIP
    else if s.pcIP[c] = s.ip || (h.noMask && inGroup h c.val) then park
    else s.pcIP[c]

/-- `if` (R642). -/
def execIf (b : Branch2) (s : State) : Host.Outcome State Fault Refusal :=
  guarded (firstViolation (ifChecks s b))
    (.next
      (if s.spf then spfBranch s (if scalarPred s b.hdr then s.nextIP else target s b.uip)
       else converge s (ifPcIP s b.hdr (target s b.jip)) (target s b.jip)))

/-- The enabled channels alone move; the others keep their IP, those at the instruction too (R644, R648, R649; log 39). -/
def moveEnabled (s : State) (en : Nat → Bool) (taken : DWord) : Vector DWord 32 :=
  Vector.ofFn fun c => if en c.val then taken else s.pcIP[c]

/-- `else` (R644). -/
def execElse (b : Branch1) (s : State) : Host.Outcome State Fault Refusal :=
  guarded (firstViolation (elseBlockChecks s b))
    (.next
      (if s.spf then spfBranch s (target s b.jip)
       else converge s (moveEnabled s (chanEn s b.hdr) (target s b.jip)) (target s b.jip)))

/-- `endif` (R645; log 39 for SPF). -/
def execEndif (b : Branch1) (s : State) : Host.Outcome State Fault Refusal :=
  guarded (firstViolation (elseChecks s b.hdr b.offFile b.offTy))
    (.next
      (if s.spf then spfBranch s s.nextIP
       else if anyChan s b.hdr then advance false s
       else spfBranch s (target s b.jip)))

/-! ## case (R646) -/

/-- `case`: "The spec gives it no semantics" (R646, D19, U1). -/
def execCase (_b : Branch2) (_s : State) : Host.Outcome State Fault Refusal := .refused .caseUndefined

/-! ## while, break, cont, halt (R647 to R650) -/

/-- `while` (R647). -/
def execWhile (b : Branch1) (s : State) : Host.Outcome State Fault Refusal :=
  let dest := target s b.jip
  guarded (firstViolation (whileChecks s b))
    (.next
      (if s.spf then spfBranch s (if wrEn s b.hdr 0 then dest else s.nextIP)
       else branchTo s (movePcIP s (chanEn s b.hdr) dest s.nextIP) (if anyChan s b.hdr then dest else s.nextIP)))

/-- The channels of a group: enabled ones to `taken`, the group's others at the instruction to NextIP; channels outside
the group keep their IP (R648, R649; log 39). -/
def moveGroup (s : State) (h : Header) (taken : DWord) : Vector DWord 32 :=
  Vector.ofFn fun c =>
    if chanEn s h c.val then taken
    else if inGroup h c.val && s.pcIP[c] = s.ip then s.nextIP else s.pcIP[c]

/-- Some channel of the group is at the address (R648). -/
def someOfGroupAt (h : Header) (p : Vector DWord 32) (a : DWord) : Bool :=
  (List.range 32).any fun c => inGroup h c && p.getD c 0 == a

/-- `break` (R648). -/
def execBreak (b : Branch2) (s : State) : Host.Outcome State Fault Refusal :=
  guarded (firstViolation (loopChecks s b))
    (.next
      (if s.spf then spfBranch s (if scalarPred s b.hdr then target s b.uip else s.nextIP)
       else
         let p := moveGroup s b.hdr (target s b.uip)
         branchTo s p (if someOfGroupAt b.hdr p s.nextIP then s.nextIP else target s b.jip)))

/-- `cont` (R649). -/
def execCont (b : Branch2) (s : State) : Host.Outcome State Fault Refusal :=
  guarded (firstViolation (loopChecks s b))
    (.next
      (if s.spf then spfBranch s (if scalarPred s b.hdr then target s b.uip else s.nextIP)
       else converge s (moveGroup s b.hdr (target s b.uip)) (target s b.jip)))

/-- The restrictions of `halt`: with SPF = 1 the JIP points to a `nop` (R650, 70 R972 c). -/
def haltChecks (s : State) (b : Branch2) : List Check :=
  branchChecks s b.hdr b.offFile b.offTy ++ [(s.spf && !nopAt s (target s b.jip), .haltNop)]

/-- `halt` (R650). -/
def execHalt (b : Branch2) (s : State) : Host.Outcome State Fault Refusal :=
  guarded (firstViolation (haltChecks s b))
    (.next
      (if s.spf then spfBranch s (if scalarPred s b.hdr then target s b.uip else s.nextIP)
       else converge s (movePcIP s (chanEn s b.hdr) (target s b.uip) s.nextIP) (target s b.jip)))

/-! ## call, ret (R651, R652) -/

/-- The number of channels that `call` and `ret` loop over (R651, D11). -/
def callWidth (s : State) : Nat := if s.launch.callMaskFull then 32 else 2

/-- The predicate of thread channel n, ChOff 0 (R651; log 41). -/
def callPred (s : State) (h : Header) (n : Nat) : Bool :=
  pmask s { h with qtr := 0, nib := false } s.launch.callMaskFull n

/-- WrEn of thread channel n with W in the place of ExecSize, ChOff 0 and no folding of the mask (R651; log 41). -/
def callEn (s : State) (h : Header) (n : Nat) : Bool := n < callWidth s && execEnable s h n n && callPred s h n

/-- "When SPF is on, the predication control must be scalar" (R651, R652): the channels that execute have one predicate
(DEDUCED: log 65). -/
def scalarPredCheck (s : State) (h : Header) : Check :=
  let live := (List.range (callWidth s)).filter fun n => execEnable s h n n
  (s.spf && live.any (callPred s h) && live.any (fun n => !callPred s h n), .spfPredicate)

/-- A 32-bit mask from its bits. -/
def maskOf (f : Nat → Bool) : DWord :=
  (List.range 32).foldl (fun m i => if f i then m ||| (1#32 <<< i) else m) 0

/-- The channel IPs after `call` and `ret`; with SPF they are not used (R633, R651). -/
def callPcIP (s : State) (h : Header) (dest : DWord) : Vector DWord 32 :=
  if s.spf then s.pcIP else movePcIP s (callEn s h) dest s.nextIP

/-- The restrictions of `call` (R651). "Must have DWord source and destination type": the source type is taken to be that of
the offset, src1; the type bits of the null src0 are not judged (DESIGN CHOICE, unsafe: log 83). -/
def callChecks (s : State) (c : Call) : List Check :=
  flowChecks s c.hdr ++
    [ (c.hdr.size != .s2, .execSize),
      scalarPredCheck s c.hdr,
      (c.dst.loc.isArf, .operand),
      (c.dst.region.stride = 0, .dstStride),
      (!(c.dst.ty = .d || c.dst.ty = .ud), .types),
      (dstBase s c.dst % 8 != 0, .misaligned),
      (outOfGrf s 8 [dstAddr s c.hdr c.dst 0], .grfRange) ] ++
    offsetChecks c.offFile c.offTy [codeD, codeUD]

/-- Two consecutive DWords of the GRF (R651). -/
def storePair (s : State) (addr : Nat) (lo hi : DWord) : State :=
  let ws := (List.range 4).map (fun i => (addr + i, lo.extractLsb' (8 * i) 8)) ++
    (List.range 4).map (fun i => (addr + 4 + i, hi.extractLsb' (8 * i) 8))
  { s with grf := setGrfBytes s.grf ws }

/-- `call` (R651). -/
def execCall (c : Call) (s : State) : Host.Outcome State Fault Refusal :=
  let en := callEn s c.hdr
  let jumped := (List.range 32).any en
  let mask := maskOf fun n => if n < callWidth s then en n else s.callMask.getLsbD n
  let dest := target s c.jip
  let addr := (dstAddr s c.hdr c.dst 0).toNat
  let s1 := { branchTo s (callPcIP s c.hdr dest) (if jumped then dest else s.nextIP) with callMask := mask }
  let s2 := if jumped then storePair s1 addr s.nextIP mask else s1
  guarded (firstViolation (callChecks s c)) (.next (markDst s2 c.hdr jumped [addr / 32]))

/-- The region `<2;2,1>` (R652). -/
def isPairRegion (r : SrcRegion) : Bool := r = .a1 .v2 .w2 .h1

/-- The restrictions of `ret` (R652). -/
def retChecks (s : State) (b : Basic1) : List Check :=
  flowChecks s b.hdr ++
    ([ noCmod b.cmod,
       scalarPredCheck s b.hdr,
       (!b.dst.loc.isFiller, .operand),
       (b.src0.hasMod, .srcModifier),
       (!(b.src0.regType = .d || b.src0.regType = .ud), .types) ] : List Check) ++
    (match b.src0 with
     | .imm _ _ => [(true, .immediate)]
     | .reg r => [(r.loc.isArf, .operand), (!isPairRegion r.region, .regionShape)] ++ srcChecks s b.hdr false 0 r)

/-- Element k of the saved return pair (R652). -/
def retElem (s : State) (b : Basic1) (k : Nat) : DWord := srcBits s b.hdr false 0 b.src0 k

/-- `ret` (R652, D18). -/
def execRet (b : Basic1) (s : State) : Host.Outcome State Fault Refusal :=
  let en := callEn s b.hdr
  let dest := alignIP (retElem s b 0)
  let mask := maskOf fun n => s.callMask.getLsbD n && !en n
  let s1 := { s with pcIP := callPcIP s b.hdr dest }
  guarded (firstViolation (retChecks s b))
    (.next (if mask = 0 then { s1 with ip := dest, callMask := retElem s b 1 } else { s1 with ip := s.nextIP, callMask := mask }))

end Sys2Proof.Machine
end

