-- ==== Sys2Proof/Machine/Math.lean ====
section
/-! DEFINITION. `math` (spec/43_misc_send_wait.md R703, R710 to R719): special-value tables, and for every other input the uninterpreted result inside the rule's precision bound (spec/93_implementation_defined.md U12; log 31). -/

namespace Sys2Proof.Machine

/-! ## Exact numbers -/

/-- 2^e. -/
def pow2 (e : Int) : Rat := if 0 ≤ e then ((2 ^ e.toNat : Nat) : Rat) else 1 / ((2 ^ (-e).toNat : Nat) : Rat)

/-- A float as a rational; an infinity stands at 2^128, the first value above the largest F. -/
def FVal.toRat (v : FVal) : Rat :=
  match v with
  | .nan => 0
  | .inf neg => if neg then -(pow2 128) else pow2 128
  | .fin neg m e => if neg then -(m * pow2 e) else m * pow2 e

/-- One unit in the last place of an F value in [2^k, 2^(k+1)). The spec does not define the "relative error" in ULP of R712 to
R714, nor the "1 ULP" of R710: a bound of n ULP is n of these units of the exact value (DESIGN CHOICE, unsafe: log 94). -/
def ulpF (k : Int) : Rat := pow2 (max k (-126) - 23)

def absRat (x : Rat) : Rat := if x < 0 then -x else x

/-- The result c is within `tol` of v; a flushed result counts as near what the flush replaced (40 R482). -/
def near (c : FVal) (v tol : Rat) : Bool :=
  !c.isNan && (absRat (c.toRat - v) ≤ tol || (c.isZero && absRat v < pow2 (-126) + tol))

/-- The binary exponent of m * 2^e. -/
def log2Floor (m : Nat) (e : Int) : Int := e + Nat.log2 m

/-- The integer square root, by its bits from 2^k down. -/
def isqrtBits (n : Nat) : Nat → Nat → Nat
  | 0, r => if (r + 1) * (r + 1) ≤ n then r + 1 else r
  | k + 1, r =>
    let t := r + 2 ^ (k + 1)
    isqrtBits n k (if t * t ≤ n then t else r)

def isqrt (n : Nat) : Nat := isqrtBits n (Nat.log2 n / 2 + 1) 0

/-! ## Enclosures: the exact function to more bits than any bound asks for (log 31) -/

/-- `fuel` bits of log2 of y / 2^100 in [1, 2), most significant first. -/
def log2Bits : Nat → Nat → Nat → Nat
  | 0, _, acc => acc
  | n + 1, y, acc =>
    let z := y * y / 2 ^ 100
    if 2 ^ 101 ≤ z then log2Bits n (z / 2) (2 * acc + 1) else log2Bits n z (2 * acc)

/-- log2 of m * 2^e in units of 2^-48, rounded down. -/
def log2Fixed (m : Nat) (e : Int) : Int :=
  log2Floor m e * 2 ^ 48 + log2Bits 48 (m * 2 ^ (100 - Nat.log2 m)) 0

/-- 2^(f / 2^64) in units of 2^-100 for f below 2^64: `c` is 2^(2^-k), bit after bit of f. -/
def exp2Bits : Nat → Nat → Nat → Nat → Nat
  | 0, _, _, acc => acc
  | n + 1, c, f, acc =>
    let c' := isqrt (c * 2 ^ 100)
    exp2Bits n c' (f % 2 ^ n) (if 2 ^ n ≤ f then acc * c' / 2 ^ 100 else acc)

/-- 2^(f / 2^64) in units of 2^-100. -/
def exp2Fixed (f : Nat) : Nat := exp2Bits 64 (2 * 2 ^ 100) f (2 ^ 100)

/-- pi in units of 2^-100. -/
def piFixed : Int := 3982441812995697363688351113952

/-- The terms of the power series of sine or cosine at r (units of 2^-100): `t` the current term, `k` its order. -/
def trigSeries (r : Int) : Nat → Int → Int → Int → Int
  | 0, _, _, acc => acc
  | n + 1, k, t, acc => trigSeries r n (k + 2) (-(t * r / 2 ^ 100 * r / 2 ^ 100) / ((k + 1) * (k + 2))) (acc + t)

/-- An angle reduced to [-pi, pi). -/
def reduceAngle (x : Int) : Int := (x + piFixed) % (2 * piFixed) - piFixed

def sinFixed (x : Int) : Int :=
  let r := reduceAngle x
  trigSeries r 24 1 r 0

def cosFixed (x : Int) : Int := trigSeries (reduceAngle x) 24 0 (2 ^ 100) 0

/-! ## Functions of one F source -/

/-- How `math` computes: round to nearest even (R703). -/
def mathMode (s : State) : FMode := { modeF s with rm := .rne }

/-- The candidate if it meets the bound, else a value that does. -/
def bounded (cand : FVal) (ok : FVal → Bool) (other : FRes) : FVal := if ok cand then cand else other.val

/-- INV of a non-zero number: 1 ULP (R710). -/
def invFin (md : FMode) (cand : FVal) (neg : Bool) (m : Nat) (e : Int) : FVal :=
  let v := 1 / (FVal.fin neg m e).toRat
  let k := -(log2Floor m e) - (if m = 2 ^ Nat.log2 m then 0 else 1)
  bounded cand (fun c => near c v (ulpF k) && c.sign = neg) (fdiv md (.fin false 1 0) (.fin neg m e))

/-- LOG of a positive number: absolute error 2^-21 in [0.5, 2], relative error 2^-21 elsewhere (R711). -/
def logFin (md : FMode) (cand : FVal) (m : Nat) (e : Int) : FVal :=
  let l := log2Fixed m e
  let v : Rat := (l : Rat) * pow2 (-48)
  let x := (FVal.fin false m e).toRat
  let tol := if pow2 (-1) ≤ x && x ≤ 2 then pow2 (-21) else pow2 (-21) * absRat v
  bounded cand (fun c => near c v (tol + pow2 (-40))) (roundInt md false l (-48))

/-- EXP of a number: 3 ULP; base 2 (R712; G5, log 24). -/
def expFin (md : FMode) (cand : FVal) (neg : Bool) (m : Nat) (e : Int) : FVal :=
  let i := floorInt neg m e
  if i ≥ 200 then (roundFin md false 1 200).val
  else if i ≤ -200 then .fin false 0 md.fmt.emin
  else
    let f := (floorInt neg m (e + 64) - i * 2 ^ 64).toNat
    let p := exp2Fixed f
    let v := (p : Rat) * pow2 (i - 100)
    bounded cand (fun c => near c v (3 * ulpF i + v * pow2 (-50)) && !c.sign) (roundFin md false p (i - 100))

/-- SQRT of a positive number: 1 ULP (R713). -/
def sqrtFin (md : FMode) (cand : FVal) (m : Nat) (e : Int) : FVal :=
  let x := (FVal.fin false m e).toRat
  let u := ulpF (log2Floor m e / 2)
  let sh := 80 + (e % 2).toNat
  let r := isqrt (m * 2 ^ sh)
  let sticky := if r * r = m * 2 ^ sh then 0 else 1
  bounded cand
    (fun c => !c.isNan && !c.sign &&
      (c.toRat ≤ u || (c.toRat - u) * (c.toRat - u) ≤ x) && x ≤ (c.toRat + u) * (c.toRat + u))
    (roundFin md false (2 * r + sticky) ((e - sh) / 2 - 1))

/-- RSQ of a positive number: 3 ULP (R714). -/
def rsqFin (md : FMode) (cand : FVal) (m : Nat) (e : Int) : FVal :=
  let x := (FVal.fin false m e).toRat
  let k0 := -(log2Floor m e) / 2
  let k := if pow2 (2 * k0) * x ≤ 1 then k0 else k0 - 1
  let u := 3 * ulpF k
  let odd := (e % 2).toNat
  let r := isqrt (2 ^ 140 / (m * 2 ^ odd))
  bounded cand
    (fun c => !c.isNan && !c.sign &&
      (c.toRat ≤ u || (c.toRat - u) * (c.toRat - u) * x ≤ 1) && 1 ≤ (c.toRat + u) * (c.toRat + u) * x)
    (roundFin md false (2 * r + 1) (-71 - (e - odd) / 2))

/-- SIN or COS of a number: absolute error 0.0008 within 100 pi, a value in [-1, 1] beyond (R716, R717). -/
def trigFin (md : FMode) (cand : FVal) (fixed : Int → Int) (neg : Bool) (m : Nat) (e : Int) : FVal :=
  let x := floorInt neg m (e + 100)
  let inRange := -(100 * piFixed) ≤ x && x ≤ 100 * piFixed
  let v := fixed x
  bounded cand
    (fun c => !c.isNan && absRat c.toRat ≤ 1 &&
      (!inRange || near c ((v : Rat) * pow2 (-100)) (8 / 10000 + pow2 (-40))))
    (if inRange then roundInt md false v (-100) else exactRes (.fin false 0 md.fmt.emin))

/-- One function of one F source, after the flush of its denormals: `none` is a free result (R710 to R717; log 32). -/
def mathUnary (md : FMode) (fc : BitVec 4) (cand x : FVal) : Option FVal :=
  match x with
  | .nan => some .nan
  | .inf neg =>
    if md.alt then none
    else
      match fc.toNat with
      | 1 => some (.fin neg 0 md.fmt.emin)
      | 2 => some (if neg then .nan else .inf false)
      | 3 => some (if neg then .fin false 0 md.fmt.emin else .inf false)
      | 4 => some (if neg then .nan else .inf false)
      | 5 => some (if neg then .nan else .fin false 0 md.fmt.emin)
      | _ => some .nan
  | .fin neg m e =>
    if m = 0 then
      match fc.toNat with
      | 1 => some (infRes md neg).val
      | 2 => some (infRes md true).val
      | 3 => some (.fin false 1 0)
      | 4 => some (.fin (neg && !md.alt) 0 md.fmt.emin)
      | 5 => some (infRes md (neg && !md.alt)).val
      | 6 => some (.fin neg 0 md.fmt.emin)
      | _ => some (.fin false 1 0)
    else
      match fc.toNat with
      | 1 => some (invFin md cand neg m e)
      | 2 => some (if neg && !md.alt then .nan else logFin md cand m e)
      | 3 => some (expFin md cand neg m e)
      | 4 => some (if neg && !md.alt then .nan else sqrtFin md cand m e)
      | 5 => some (if neg && !md.alt then .nan else rsqFin md cand m e)
      | 6 => some (trigFin md cand sinFixed neg m e)
      | _ => some (trigFin md cand cosFixed neg m e)

/-! ## POW (R715) -/

/-- "+F": a positive finite number that is not zero, without a precision bound. -/
def powPositive (cand : FVal) : FVal :=
  if !cand.isSpecial && !cand.sign && !cand.isZero then cand else .fin false 1 0

/-- POW in IEEE mode: rows src1, columns src0; a blank cell and a negative base are free (R715, 91 N35). -/
def powIEEE (md : FMode) (cand x y : FVal) : Option FVal :=
  let zero : FVal := .fin false 0 md.fmt.emin
  match x, y with
  | .nan, _ => some .nan
  | _, .nan => some .nan
  | .inf neg, .inf yneg => some (if yneg then zero else if neg then .inf false else .inf false)
  | .inf neg, .fin yneg n _ =>
    if n = 0 then some .nan
    else if yneg then some zero
    else some (if neg then .nan else .inf false)
  | .fin _ 0 _, .inf yneg => some (if yneg then .inf false else zero)
  | .fin _ 0 _, .fin yneg n _ => if n = 0 then some .nan else some (if yneg then .inf false else zero)
  | .fin true _ _, _ => none
  | .fin false m e, .inf yneg =>
    let c := cmpFin false m e false 1 0
    if c = 0 then some .nan
    else if (c = 1) = yneg then some zero
    else some (.inf false)
  | .fin false m e, .fin yneg n _ =>
    if n = 0 then some (.fin false 1 0)
    else if yneg || cmpFin false m e false 1 0 = 1 then some (powPositive cand)
    else none

/-- POW in ALT mode: a blank cell is free (R715). -/
def powALT (md : FMode) (cand x y : FVal) : Option FVal :=
  match x, y with
  | .inf _, _ => none
  | _, .inf _ => none
  | .nan, _ => some .nan
  | .fin neg m _, .nan => if m = 0 || neg then some .nan else none
  | .fin _ m _, .fin yneg n _ =>
    if n = 0 then some (.fin false 1 0)
    else if m = 0 then some (if yneg then md.fmt.maxVal false else .fin false 0 md.fmt.emin)
    else some (powPositive cand)

/-! ## The instruction -/

/-- The functions of one source (R703). -/
def isUnaryFC (fc : BitVec 4) : Bool := 1 ≤ fc.toNat && fc.toNat ≤ 7

/-- The integer divisions (R703). -/
def isIntDivFC (fc : BitVec 4) : Bool := 0xB ≤ fc.toNat && fc.toNat ≤ 0xD

/-- "Reserved" (R703). -/
def isReservedFC (fc : BitVec 4) : Bool := fc.toNat = 0 || fc.toNat = 8 || 0xE ≤ fc.toNat

/-- The sources that a function has. -/
def mathSrcs (m : Math) : List Src := if isUnaryFC m.fc then [.reg m.src0] else m.srcs

/-- The result of a float function on channel n. -/
def mathFloat (s : State) (m : Math) (n : Nat) : Option FVal :=
  let two := dstTwoRegs s m.hdr m.dst
  let md := mathMode s
  let a := srcF s m.hdr two 0 (.reg m.src0) n
  let b := if isUnaryFC m.fc then 0 else srcF s m.hdr two 1 m.src1 n
  let x := (FVal.ofBits fmtF a.toNat).flushIn md
  let y := (FVal.ofBits fmtF b.toNat).flushIn md
  let cand0 := (FVal.ofBits fmtF (Config.mathValue m.fc s.altMode a b).toNat).flushIn md
  let cand := match cand0 with
    | .inf neg => (infRes md neg).val
    | c => c
  if m.fc = 9 then some (fdiv md x y).val
  else if m.fc = 0xA then (if s.altMode then powALT md cand x y else powIEEE md cand x y)
  else mathUnary md m.fc cand x

/-- One channel of a float function. -/
def mathFloatOut (s : State) (m : Math) (n : Nat) : Out :=
  match mathFloat s m n with
  | none => freeOut s n
  | some v => fOut s m.hdr .none .f (exactRes v) n

/-- Quotient toward zero and remainder with the numerator's sign; none where the spec describes no result (R719, U13). -/
def intDiv (ty : RegType) (x y : Int) : Option (Int × Int) :=
  if y = 0 || (ty = .d && x = -2147483648 && y = -1) then none else some (x.tdiv y, x.tmod y)

/-- One channel of an integer division: the remainder if `rem`, else the quotient. `slot` is the free value of an
undescribed case. -/
def intDivOut (s : State) (m : Math) (rem : Bool) (slot : Nat → FreeSlot) (n : Nat) : Out :=
  let two := dstTwoRegs s m.hdr m.dst
  match intDiv m.dst.ty (srcInt s m.hdr two 0 (.reg m.src0) n) (srcInt s m.hdr two 1 m.src1 n) with
  | none => bitsOut ((Config.free s.draw (slot n)).setWidth 32)
  | some (q, r) => intOut s m.hdr .none m.dst.ty 64 (if rem then r else q) n

/-- One channel of the destination. -/
def mathOut (s : State) (m : Math) (n : Nat) : Out :=
  if isIntDivFC m.fc then intDivOut s m (m.fc = 0xD) .dst n else mathFloatOut s m n

/-- The second destination register of quotient and remainder (R703, R719). -/
def mathDst2 (m : Math) : Dst :=
  match m.dst.loc with
  | .grf num sub => { m.dst with loc := .grf (num + 1) sub }
  | _ => m.dst

/-- The restrictions of `math` (R703). -/
def mathChecks (s : State) (m : Math) : List Check :=
  let srcs := mathSrcs m
  [ (!(m.dst.loc.isGrf && m.src0.loc.isGrf), .operand),
    (match m.src1 with
     | .imm _ _ => true
     | .reg r => if isUnaryFC m.fc then !(r.loc.isFiller && r.ty = m.src0.ty) else !r.loc.isGrf, .operand),
    noSrcMod m.srcs,
    (if isIntDivFC m.fc then !sameTypes [.d, .ud] m.dst srcs else !floatTypes m.dst srcs, .types),
    (isIntDivFC m.fc && 16 ≤ m.hdr.count, .execSize),
    (m.fc = 9 && s.altMode, .altMode),
    (m.fc = 0xB && outOfGrf s m.dst.ty.size ((dstElems s m.hdr m.dst).map (· + 32)), .grfRange) ]
    ++ noAcc m.hdr m.dst srcs ++ dataChecks s m.hdr .none m.dst srcs false

/-- The bytes of quotient and remainder in the order of R703: channel by channel, the quotient to the destination, then the
remainder to the next register. -/
def divWrites (s : State) (m : Math) : List (Nat × Byte) :=
  (List.range m.hdr.count).flatMap fun n =>
    let en := fun k => k = n && wrEn s m.hdr k
    dstWrites s m.hdr m.dst en (fun k => (intDivOut s m false .dst k).bits) ++
      dstWrites s m.hdr (mathDst2 m) en (fun k => (intDivOut s m true .dst2 k).bits)

/-- Function Bh: both results, and the marks of both destinations (R703, R719; 70 R961). -/
def divBoth (s : State) (m : Math) : State :=
  markDst { s with grf := setGrfBytes s.grf (divWrites s m) } m.hdr (anyWrEn s m.hdr)
    (dstRegs s m.hdr m.dst ++ dstRegs s m.hdr (mathDst2 m))

/-- `math` (R703, R710 to R719). -/
def execMath (m : Math) (s : State) : Host.Outcome State Fault Refusal :=
  if isReservedFC m.fc then .refused (.reservedFunction m.fc)
  else
    guarded (firstViolation (mathChecks s m))
      (finish s
        (if m.fc = 0xB then divBoth s m
         else (effect s m.hdr .none m.dst (mathSrcs m) (mathOut s m)).apply s))

end Sys2Proof.Machine
end

