-- ==== Sys2Proof/Machine/Misc.lean ====
section
/-! DEFINITION. The miscellaneous instructions illegal, nop, wait, send and sendc (spec/43_misc_send_wait.md R700 to R705). -/

namespace Sys2Proof.Machine

/-! ## illegal, nop (R705, R704) -/

/-- `illegal`: the status bit is set; the exception is taken if it is enabled and the thread is not in the System Routine
(R705, 60 R907, R910). -/
def execIllegal (s : State) : Host.Outcome State Fault Refusal :=
  let s1 := { s with cr01 := s.cr01 ||| 0x10000000 }
  if !s.inSR && s.cr01.getLsbD 12 then .next (raise s1 s.ip) else .next (advance s.spf s1)

/-- `nop`: the breakpoint bit acts before it executes (R704, 60 R913). -/
def execNop (_debug : Bool) (s : State) : Host.Outcome State Fault Refusal := .next (advance s.spf s)

/-! ## wait (R700) -/

/-- n0.k from the subregister byte offset (10_state R80). -/
def notifyIndex (l : Loc) : Option (Fin 3) :=
  match l with
  | .arf .n0 sub =>
    match sub.toNat with
    | 0 => some 0
    | 4 => some 1
    | 8 => some 2
    | _ => none
  | _ => none

/-- The notification subregister that both operands name. -/
def waitIndex (b : Basic1) : Option (Fin 3) :=
  match b.src0 with
  | .reg r => if r.loc = b.dst.loc then notifyIndex r.loc else none
  | .imm _ _ => none

/-- The restrictions of `wait` (R700). -/
def waitChecks (s : State) (b : Basic1) : List Check :=
  headerChecks s b.hdr false ++
    ([ (b.hdr.size != .s1, .execSize),
       (b.hdr.pred != .none, .predicate),
       noSat b.hdr, noCmod b.cmod, noSrcMod [b.src0], noAccWr b.hdr,
       (!(b.src0.regType = .ud && b.dst.ty = .ud), .types),
       (waitIndex b = none, .operand),
       (match b.src0 with
        | .reg r => badShape b.hdr r
        | .imm _ _ => false, .regionShape),
       (b.dst.region.stride = 0, .dstStride),
       (s.prevWait, .waitTwice) ] : List Check)

/-- `wait`: a notification is consumed, or the thread is suspended at the instruction (R700). -/
def execWait (b : Basic1) (s : State) : Host.Outcome State Fault Refusal :=
  guarded (firstViolation (waitChecks s b))
    (match waitIndex b with
     | none => .refused (.restriction .operand)
     | some k =>
       if s.notify k != 0 then .next (advance s.spf (s.addNotify k false)) else .next { s with run := .waiting k })

/-! ## send, sendc (R701, R702) -/

/-- `a0.0<0;1,0>:ud` and no other region (10_state R62). -/
def isDescReg (r : RegSrc) : Bool :=
  r.loc = .arf .a0 0 && r.ty = .ud && r.mod = .none && r.region = .a1 .v0 .w1 .h0

/-- A range of registers beyond the thread's allocation (10_state R53, U3). -/
def rangeOutside (s : State) (first : Option Nat) (n : Nat) : Bool :=
  match first with
  | some r => n != 0 && min s.launch.grfCount 128 < r + n
  | none => false

/-- RLEN "must be 0" for a null destination and "cannot be zero" for a register (R701). Any other length goes into the
message as it is, an MLEN of 0 and an RLEN above 16 too: "lengths ... are not interpreted in any way by the execution unit"
(60 R933; log 36). -/
def badLength (m : Send) (d : BitVec 29) : Bool := (descRlen d = 0) != m.dst.loc.isNull

/-- A DF operand, in whose instructions NibCtrl names the channels (R701; 30 R267, 40 R411). -/
def Send.isDF (m : Send) : Bool := m.dst.ty = .df || m.src0.ty = .df

/-- "The send with EOT should use register space R112-R127 for <src>" (R701), a requirement on the final `send` (70 R953): the
payload begins there, and no allocation goes beyond r127. -/
def eotOutside (m : Send) : Bool :=
  m.eot &&
    match m.src0.loc with
    | .grf num _ => num.toNat < 112
    | _ => true

/-- The restrictions of `send` (R701, 70 R953; log 36). -/
def sendChecks (s : State) (m : Send) : List Check :=
  let d := sendDesc s m
  headerChecks s m.hdr (Send.isDF m) ++
    ([ (m.hdr.noDDChk, .sendNoDDChk),
       (m.hdr.thread != .normal, .threadCtrl),
       noSat m.hdr, noAccWr m.hdr,
       (m.dst.loc.isArf && !m.dst.loc.isNull, .operand),
       (m.eot && !m.dst.loc.isNull, .operand),
       (eotOutside m, .eotSource),
       (badLength m d, .sendLength),
       (m.src0.mod != .none, .srcModifier),
       (badShape m.hdr m.src0, .regionShape),
       (m.dst.region.stride = 0, .dstStride),
       (match m.src0.loc with
        | .grf _ sub => sub != 0
        | _ => true, .operand),
       (match m.desc with
        | .imm v => v.extractLsb' 29 2 != 0
        | .reg r => !isDescReg r, .operand),
       (m.dst.loc.isInd && dstBase s m.dst < 0, .grfRange),
       (rangeOutside s (sendReg s m.src0.loc) (descMlen d).toNat, .grfRange),
       (rangeOutside s (sendReg s m.dst.loc) (max 1 (descRlen d).toNat), .grfRange) ] : List Check)

/-- The 16 channel enables of the sideband: WrEn under the destination mask. The rule says that subregister, stride and
type of the destination are "used in part" too, and not how: they enter nothing (R701; DESIGN CHOICE, unsafe: log 36). -/
def channelEnables (s : State) (m : Send) : BitVec 16 :=
  (List.range 16).foldl (fun v i => if wrEn s m.hdr i && m.dst.region.chanOn i then v ||| (1#16 <<< i) else v) 0

/-- The record that the enqueue hands to the host (R701, 20_memory R210, R211). -/
def messageOf (s : State) (m : Send) : Message :=
  let d := sendDesc s m
  { eot := m.eot
    sfid := m.sfid
    mlen := descMlen d
    rlen := descRlen d
    funcCtrl := descFunc d
    header := descHeader d
    reg := (sendReg s m.dst.loc).map (BitVec.ofNat 7)
    channelEnable := channelEnables s m
    clear := !m.hdr.noDDClr
    ffid := s.sr00.extractLsb' 24 4
    priorityClass := s.sr00.getLsbD 23
    euid := s.sr00.extractLsb' 8 4
    tid := s.sr00.extractLsb' 0 3
    altMode := s.altMode
    payload := (List.range (descMlen d).toNat).map fun i => grfReg s.grf ((sendReg s m.src0.loc).getD 0 + i) }

/-- The marks on the registers of a response: set (70 R961), or free where NoDDClr stands on an instruction without an
enabled channel (70 R964, U17). -/
def markResponse (s : State) (h : Header) (first count : Nat) : BitVec 128 :=
  if h.noDDClr && !anyWrEn s h then
    (List.range count).foldl (fun d i => setDep d (first + i) ((Config.free s.draw (.dep (first + i))).getLsbD 0)) s.dep
  else markRange s.dep first count true

/-- The response that a message with a GRF destination and RLEN > 0 is owed, and the marks on its registers (20_memory
R212, 70 R961). -/
def expectResponse (s : State) (h : Header) (msg : Message) : State :=
  match msg.reg with
  | none => s
  | some r =>
    if msg.rlen = 0 then s
    else
      { s with
        outstanding := s.outstanding ++ [{ reg := r, rlen := msg.rlen, clear := msg.clear, landed := 0 }]
        dep := markResponse s h r.toNat msg.rlen.toNat }

/-- The state after a message is enqueued: at an EOT the thread ends and what is outstanding is dropped (R701, 70 R953,
D34); otherwise IP advances. -/
def sendState (s : State) (m : Send) : State :=
  let msg := messageOf s m
  let s1 := expectResponse { s with messages := s.messages ++ [msg] } m.hdr msg
  if m.eot then { s1 with run := .ended, outstanding := [] } else advance s.spf s1

/-- `send` (R701). -/
def execSend (m : Send) (s : State) : Host.Outcome State Fault Refusal :=
  guarded (firstViolation (sendChecks s m)) (.next (sendState s m))

/-- `sendc`: waits for the threads in tdr0, then sends (R702; log 35). -/
def execSendc (m : Send) (s : State) : Host.Outcome State Fault Refusal :=
  guarded (firstViolation (sendChecks s m)) (.next (if s.tdrPending then s else sendState s m))

end Sys2Proof.Machine
end

