-- ==== Sys2Proof/Machine/MoveLogic.lean ====
section
/-! DEFINITION. Move and logic instructions (spec/41_move_logic.md R600 to R617). -/

namespace Sys2Proof.Machine

/-! ## mov (R600) -/

/-- "Same source and destination type, no source modifier, and no saturation" (R600). -/
def isRawMov (b : Basic1) : Bool := b.src0.regType = b.dst.ty && !b.src0.hasMod && !b.hdr.sat

/-- A float that a move passes on other than raw: the spec places denormals of a modified move between "format
conversion" (kept) and "mathematical operation" (flushed); which one is free (R482; log 26). -/
def movedFloat (s : State) (md : FMode) (n : Nat) (v : FVal) : FVal :=
  if (Config.free s.draw (.choice n)).getLsbD 0 then v.flushIn md else v

/-- One channel of `mov`. -/
def movOut (s : State) (b : Basic1) (n : Nat) : Out :=
  let h := b.hdr
  let two := dstTwoRegs s h b.dst
  match b.src0.regType with
  | .f =>
    let c := pairBase (b.dst.ty = .df) n
    let p := srcF s h two 0 b.src0 c
    let x := FVal.ofBits fmtF p.toNat
    if altUndefined s [x] then freeOut s n
    else if isRawMov b then copyF s b.cmod p
    else if b.dst.ty = .f then fOut s h b.cmod .f (exactRes (movedFloat s (modeF s) n x)) n
    else fOut s h b.cmod b.dst.ty (exactRes x) n
  | .df =>
    let p := srcDF s h two 0 b.src0 n
    let x := FVal.ofBits fmtDF p.toNat
    if isRawMov b then copyDF s b.cmod p n
    else if b.dst.ty = .df then dfOut s h b.cmod .df (exactRes (movedFloat s (modeDF s) (2 * (n / 2)) x)) n
    else dfOut s h b.cmod b.dst.ty (exactRes x) n
  | ty =>
    intOut s h b.cmod b.dst.ty (execTy [ty]).accBits (srcInt s h two 0 b.src0 (pairBase (b.dst.ty = .df) n)) n

/-- The restrictions of `mov`: no byte to or from DF; a conditional modifier only without a type change; an accumulator
on one side only (R600). -/
def movChecks (s : State) (b : Basic1) : List Check :=
  [ ((b.src0.regType = .df && b.dst.ty.size = 1) || (b.dst.ty = .df && b.src0.regType.size = 1), .types),
    (b.cmod != .none && b.src0.regType != b.dst.ty, .condModifier),
    (b.src0.isAcc && b.dst.loc.isAcc, .accBoth) ]
    ++ dataChecks s b.hdr b.cmod b.dst [b.src0] (isRawMov b)

/-- `mov` (R600). -/
def execMov (b : Basic1) (s : State) : Host.Outcome State Fault Refusal :=
  execute s (firstViolation (movChecks s b)) (effect s b.hdr b.cmod b.dst [b.src0] (movOut s b))

/-! ## sel (R601) -/

/-- The order of the sources of a comparison, and which of them is a NaN (40 R462, R485). -/
structure Comparison where
  nan0 : Bool
  nan1 : Bool
  ord : Option Int
  deriving DecidableEq, Repr

/-- Two floats compared (40 R485). -/
def compareF (x y : FVal) : Comparison := { nan0 := x.isNan, nan1 := y.isNan, ord := fcompare x y }

/-- The comparison of channel n: exact integers, F or DF with denormals as their mode has them (40 R462, R485). -/
def compareSrcs (s : State) (b : Basic2) (n : Nat) : Comparison :=
  let two := dstTwoRegs s b.hdr b.dst
  match execTy (b.srcs.map Src.regType) with
  | .f => compareF (valF s b.hdr two 0 (.reg b.src0) n) (valF s b.hdr two 1 b.src1 n)
  | .df => compareF (valDF s b.hdr two 0 (.reg b.src0) n) (valDF s b.hdr two 1 b.src1 n)
  | _ =>
    { nan0 := false, nan1 := false
      ord := some (srcInt s b.hdr two 0 (.reg b.src0) n - srcInt s b.hdr two 1 b.src1 n).sign }

/-- An F input of ALT mode that the spec gives no result for, on either side (U15). -/
def compareUndefined (s : State) (b : Basic2) (n : Nat) : Bool :=
  let two := dstTwoRegs s b.hdr b.dst
  execTy (b.srcs.map Src.regType) = .f
    && altUndefined s [valF s b.hdr two 0 (.reg b.src0) n, valF s b.hdr two 1 b.src1 n]

/-- Does channel n take src0? The predicate decides, or the conditional modifier (R601); `.o` and `.u` select src1 (log 58). -/
def selTakes0 (s : State) (b : Basic2) (n : Nat) : Bool :=
  if b.cmod = .none then pmask s b.hdr false n
  else
    let c := compareSrcs s b n
    selectCond b.cmod c.nan0 c.nan1 c.ord

/-- A selected F or DF pattern: with a conditional modifier any denormal becomes a zero of its sign, whatever cr0 does with
denormals of DF arithmetic (R601). -/
def selF (s : State) (b : Basic2) (p : DWord) : DWord :=
  if b.cmod != .none && ((FVal.ofBits fmtF p.toNat).flushIn (modeF s)).isZero then p &&& 0x80000000 else p

def selDF (s : State) (b : Basic2) (p : QWord) : QWord :=
  if b.cmod != .none && ((FVal.ofBits fmtDF p.toNat).flushIn { modeDF s with flush := true }).isZero then p &&& 0x8000000000000000 else p

/-- One channel of `sel`: floats are copied as by a raw move (R601). -/
def selOut (s : State) (b : Basic2) (n : Nat) : Out :=
  let h := b.hdr
  let two := dstTwoRegs s h b.dst
  let first := selTakes0 s b n
  let k := if first then 0 else 1
  let src := if first then .reg b.src0 else b.src1
  match execTy (b.srcs.map Src.regType) with
  | .f =>
    let p := selF s b (srcF s h two k src n)
    if compareUndefined s b n then freeOut s n
    else if h.sat then fOut s h .none .f (exactRes (FVal.ofBits fmtF p.toNat)) n
    else copyF s .none p
  | .df =>
    let p := selDF s b (srcDF s h two k src n)
    if h.sat then dfOut s h .none .df (exactRes (FVal.ofBits fmtDF p.toNat)) n else copyDF s .none p n
  | ex => intOut s h .none b.dst.ty ex.accBits (srcInt s h two k src n) n

/-- The restrictions of `sel`: a predicate or a conditional modifier, not both; one type throughout, because "Format
conversion is not allowed"; at most 16 channels (R601; log 51). -/
def selChecks (s : State) (b : Basic2) : List Check :=
  [ ((b.cmod = .none) == (b.hdr.pred = .none), .predicate),
    (b.hdr.size = .s32, .execSize),
    (!allTy b.dst.ty b.srcs, .types) ]
    ++ dataChecks s b.hdr b.cmod b.dst b.srcs false

/-- `sel` (R601): WrEn without the predicate; no flag is written. -/
def execSel (b : Basic2) (s : State) : Host.Outcome State Fault Refusal :=
  execute s (firstViolation (selChecks s b))
    { effect s b.hdr .none b.dst b.srcs (selOut s b) with en := wrEnNoPred s b.hdr, accEn := wrEnNoPred s b.hdr }

/-! ## movi (R602) -/

/-- Which index register supplies the destination element of channel n: the one of its place in the register (R602 "HW
Implementation Details"; log 49). -/
def moviIndex (s : State) (b : Basic1) (n : Nat) : Nat := dstSub s b.dst / b.dst.ty.size + n

/-- The byte address that index register e selects, inside the register that a0.0 names, aligned down to the element. -/
def moviAddr (s : State) (imm : BitVec 10) (size e : Nat) : Int :=
  let reg : Int := moviReg s 0 imm
  let sub := indexAddr s e imm % 32
  reg * 32 + sub / size * size

/-- One channel of `movi`: elements beyond the eighth are free (R602, U20). -/
def moviOut (s : State) (b : Basic1) (n : Nat) : Out :=
  match b.src0 with
  | .reg { loc := .ind _ imm, ty := ty, mod := m, .. } =>
    let e := moviIndex s b n
    let p := grfElem s.grf (moviAddr s imm ty.size e).toNat ty.size
    if 8 ≤ e then freeOut s n
    else
      match ty with
      | .f =>
        let q := modBits m p
        let x := FVal.ofBits fmtF q.toNat
        if altUndefined s [x] then freeOut s n
        else if m = .none && !b.hdr.sat then copyF s .none q
        else fOut s b.hdr .none .f (exactRes (movedFloat s (modeF s) n x)) n
      | ty => intOut s b.hdr .none ty (execTy [ty]).accBits (modInt m (intOfRaw ty p)) n
  | _ => freeOut s n

/-- The index registers that `movi` uses name one register (R602). What is compared is the register of a0.k plus the address
immediate, as R602 takes the address, and not that of a0.k alone: a carry out of the low five bits on one channel
refuses the `movi` (DESIGN CHOICE, unsafe: log 89). -/
def moviOneReg (s : State) (b : Basic1) (imm : BitVec 10) : Bool :=
  (List.range b.hdr.count).all fun n =>
    let e := moviIndex s b n
    8 ≤ e || moviReg s e imm = moviReg s 0 imm

/-- The restrictions of `movi` (R602): an indirect source at a0.0, one type without DF, at most 8 channels, Align1, a
destination that is 16-byte aligned and has the source's stride. "The instruction must use 1x1 indirect regioning": a
VertStride of 1111b is none (40 R423), although the vector 95 M33 is written `r[a0.0]<1,0>` (DEDUCED, safe: log 66). -/
def moviChecks (s : State) (b : Basic1) : List Check :=
  headerChecks s b.hdr false ++
    ([ cr0Check b.hdr b.dst [],
      (b.hdr.access = .align16, .align1Only),
      (8 < b.hdr.count, .execSize),
      noCmod b.cmod,
      (b.src0.regType != b.dst.ty || b.dst.ty = .df, .types),
      (!b.dst.loc.isNull && (dstOrigins s b.hdr b.dst).any (· % 16 != 0), .misaligned),
      (!b.dst.loc.isNull && b.dst.region.stride != 1, .dstStride) ] : List Check) ++
    (match b.src0 with
     | .reg r@{ loc := .ind k imm, .. } =>
       [ (k != 0, .indexGroup),
         (r.region.isVx, .indirect),
         (badShape b.hdr r, .regionShape),
         (!moviOneReg s b imm, .indirect),
         (outOfGrf s 32 [(moviReg s 0 imm * 32 : Nat)], .grfRange) ]
     | _ => [(true, .operand)]) ++
    dstChecks s b.hdr b.dst (execTy [b.src0.regType]) true ++
    accDstChecks b.hdr b.dst (execTy [b.src0.regType])

/-- `movi` (R602). -/
def execMovi (b : Basic1) (s : State) : Host.Outcome State Fault Refusal :=
  execute s (firstViolation (moviChecks s b)) (effect s b.hdr .none b.dst [b.src0] (moviOut s b))

/-! ## not, and, or, xor (R603 to R606) -/

/-- A bitwise operation on integers in two's complement: 64 bits hold every source (40 R430). A destination wider than the
execution type takes the bits above it too: no rule gives a width at which the operation would end (DESIGN CHOICE, unsafe:
log 68). -/
def bitwise2 (f : QWord → QWord → QWord) (x y : Int) : Int := (f (BitVec.ofInt 64 x) (BitVec.ofInt 64 y)).toInt

/-- The restrictions of the logic instructions: no saturation, only `.z` and `.nz`, integer types, no modifier on an
accumulator source (R603 to R606). -/
def logicChecks (s : State) (h : Header) (cm : CondMod) (d : Dst) (srcs : List Src) : List Check :=
  [ noSat h,
    (!(cm = .none || cm = .z || cm = .nz), .condModifier),
    (!intTypes d srcs, .types),
    (srcs.any (fun x => x.isAcc && x.hasMod), .srcModifier) ]
    ++ dataChecks s h cm d srcs false

/-- The bitwise complement of an integer in two's complement, of no fixed width, as `bitwise2` (R603; DESIGN CHOICE, unsafe:
log 68). -/
def complement (v : Int) : Int := -v - 1

/-- One channel of `not`: a source modifier is numeric, before the operation (R603; log 27, 68). -/
def notOut (s : State) (b : Basic1) (n : Nat) : Out :=
  intOut s b.hdr b.cmod b.dst.ty (execTy [b.src0.regType]).accBits
    (complement (srcInt s b.hdr (dstTwoRegs s b.hdr b.dst) 0 b.src0 n)) n

/-- One channel of `and`, `or` or `xor`: source modifiers are numeric, before the operation (R604 to
R606; log 27, 68). -/
def logicOut (s : State) (b : Basic2) (f : QWord → QWord → QWord) (n : Nat) : Out :=
  let two := dstTwoRegs s b.hdr b.dst
  intOut s b.hdr b.cmod b.dst.ty (execTy (b.srcs.map Src.regType)).accBits
    (bitwise2 f (srcInt s b.hdr two 0 (.reg b.src0) n) (srcInt s b.hdr two 1 b.src1 n)) n

/-- `not` (R603). -/
def execNot (b : Basic1) (s : State) : Host.Outcome State Fault Refusal :=
  execute s (firstViolation (logicChecks s b.hdr b.cmod b.dst [b.src0]))
    (effect s b.hdr b.cmod b.dst [b.src0] (notOut s b))

/-- `and` (R604). -/
def execAnd (b : Basic2) (s : State) : Host.Outcome State Fault Refusal :=
  execute s (firstViolation (logicChecks s b.hdr b.cmod b.dst b.srcs))
    (effect s b.hdr b.cmod b.dst b.srcs (logicOut s b (· &&& ·)))

/-- `or` (R605). -/
def execOr (b : Basic2) (s : State) : Host.Outcome State Fault Refusal :=
  execute s (firstViolation (logicChecks s b.hdr b.cmod b.dst b.srcs))
    (effect s b.hdr b.cmod b.dst b.srcs (logicOut s b (· ||| ·)))

/-- `xor` (R606). -/
def execXor (b : Basic2) (s : State) : Host.Outcome State Fault Refusal :=
  execute s (firstViolation (logicChecks s b.hdr b.cmod b.dst b.srcs))
    (effect s b.hdr b.cmod b.dst b.srcs (logicOut s b (· ^^^ ·)))

/-! ## Shifts (R607 to R609) -/

/-- The shift count: the low five bits of src1, whatever its type (R607 to R609). -/
def shiftCount (y : Int) : Nat := (y % 32).toNat

/-- The width a logical right shift works at: the execution width, or the channel of an accumulator source (R607, C23; 10_state R64; log 34). -/
def shiftWidth (b : Basic2) : Nat :=
  let ex := execTy (b.srcs.map Src.regType)
  if b.src0.loc.isAcc then ex.accBits
  else match ex with
    | .w => 16
    | _ => 32

/-- `shr`: zeros enter at the MSBs of the width (R607). A count of 0 gives src0 itself: R609 says so of `asr`, to which `shr` of
an unsigned source is equal; of a signed one it is the model's choice (DESIGN CHOICE, unsafe: log 34). -/
def shiftRightLogical (width : Nat) (x y : Int) : Int :=
  if shiftCount y = 0 then x else (x % 2 ^ width) / 2 ^ shiftCount y

/-- `asr`: the sign of a signed source enters at the MSBs, zeros for an unsigned one; a count of 0 gives src0 (R609). -/
def shiftRightArith (signed : Bool) (width : Nat) (x y : Int) : Int :=
  if signed then x / 2 ^ shiftCount y else shiftRightLogical width x y

/-- `shl`, exact (R608). -/
def shiftLeft (x y : Int) : Int := x * 2 ^ shiftCount y

/-- The restrictions of `shr` and `asr`. -/
def shiftChecks (s : State) (b : Basic2) : List Check :=
  [(!intTypes b.dst b.srcs, .types)] ++ dataChecks s b.hdr b.cmod b.dst b.srcs false

/-- `shr` (R607). -/
def execShr (b : Basic2) (s : State) : Host.Outcome State Fault Refusal :=
  execute s (firstViolation (shiftChecks s b))
    (effect s b.hdr b.cmod b.dst b.srcs (int2 s b (shiftRightLogical (shiftWidth b))))

/-- "Packed-DWord mode" (R608): a DWord operation whose destination elements are DWords, more than one and adjacent ("packed",
00_scope R12; the mode is not defined further: DEDUCED, unsafe: log 30). -/
def packedDWords (b : Basic2) : Bool :=
  execTy (b.srcs.map Src.regType) = .d && (b.dst.ty = .d || b.dst.ty = .ud) && b.dst.region.stride = 1 && 1 < b.hdr.count

/-- One channel of `shl`: the result is within 33 bits or, with saturation or a condition, free; saturation in packed-DWord
mode is unpredictable (R608, U23; log 30). "Within 33 bits" is judged in two's complement, of a UD source too, so that a UD
result of 2^32 or more counts as beyond (DESIGN CHOICE, unsafe: log 88). -/
def shlOut (s : State) (b : Basic2) (n : Nat) : Out :=
  let two := dstTwoRegs s b.hdr b.dst
  if b.hdr.sat && packedDWords b then freeOut s n
  else
    intOut s b.hdr b.cmod b.dst.ty 33
      (shiftLeft (srcInt s b.hdr two 0 (.reg b.src0) n) (srcInt s b.hdr two 1 b.src1 n)) n

/-- The restrictions of `shl` (R608): the accumulator cannot be a destination. -/
def shlChecks (s : State) (b : Basic2) : List Check := [noAccWr b.hdr, noAccDst b.dst] ++ shiftChecks s b

/-- `shl` (R608). -/
def execShl (b : Basic2) (s : State) : Host.Outcome State Fault Refusal :=
  execute s (firstViolation (shlChecks s b))
    (effect s b.hdr b.cmod b.dst b.srcs (shlOut s b))

/-- `asr` (R609). -/
def execAsr (b : Basic2) (s : State) : Host.Outcome State Fault Refusal :=
  execute s (firstViolation (shiftChecks s b))
    (effect s b.hdr b.cmod b.dst b.srcs (int2 s b (shiftRightArith b.src0.ty.isSigned (shiftWidth b))))

/-! ## cmp, cmpn (R610, R611) -/

/-- The result of a comparison: all bits of the destination channel hold it (R610). -/
def flagOut (bit : Bool) : Out :=
  { bits := if bit then 0xFFFFFFFF else 0, wide := if bit then 0xFFFFFFFFFFFFFFFF else 0, flag := bit,
    acc := if bit then 0xFFFFFFFFFFFFFFFF else 0 }

/-- One channel of `cmp`. -/
def cmpOut (s : State) (b : Basic2) (n : Nat) : Out :=
  if compareUndefined s b n then freeOut s n else flagOut (compareCond b.cmod (compareSrcs s b n).ord)

/-- One channel of `cmpn`. -/
def cmpnOut (s : State) (b : Basic2) (n : Nat) : Out :=
  let c := compareSrcs s b n
  if compareUndefined s b n then freeOut s n else flagOut (compareNaN b.cmod c.nan1 c.ord)

/-- The restrictions of `cmp` and `cmpn` (R610, R611, 40 R462). -/
def cmpChecks (s : State) (b : Basic2) : List Check :=
  [ noSat b.hdr,
    noAccWr b.hdr,
    (b.cmod = .none || b.cmod = .o || b.cmod = .u, .condModifier),
    (!arithTypes b.dst b.srcs, .types),
    (b.dst.loc.isArf && !b.dst.loc.isNull, .operand),
    (b.dst.loc.isNull && b.hdr.thread != .switch, .threadCtrl),
    (b.hdr.size = .s16 && (b.dst.ty :: b.srcs.map Src.regType).any (fun t => t = .d || t = .ud), .execSize) ]
    ++ dataChecks s b.hdr b.cmod b.dst b.srcs false

/-- `cmp` (R610). -/
def execCmp (b : Basic2) (s : State) : Host.Outcome State Fault Refusal :=
  execute s (firstViolation (cmpChecks s b)) (effect s b.hdr b.cmod b.dst b.srcs (cmpOut s b))

/-- `cmpn` (R611). -/
def execCmpn (b : Basic2) (s : State) : Host.Outcome State Fault Refusal :=
  execute s (firstViolation (cmpChecks s b)) (effect s b.hdr b.cmod b.dst b.srcs (cmpnOut s b))

/-! ## Half precision (R612, R613; G4, log 24) -/

/-- A value rounded to half precision: the input's denormals are flushed, the result's are not (R612, D13). -/
def toHalf (s : State) (x : FVal) : FRes := fconvert fmtHalf (Round.ofBits s.roundBits) x

/-- One channel of `f32to16` (R612; log 33). -/
def f32to16Out (s : State) (b : Basic1) (n : Nat) : Out :=
  let r := toHalf s (valF s b.hdr (dstTwoRegs s b.hdr b.dst) 0 b.src0 n)
  let nanBits := nanPattern fmtHalf (Config.free s.draw (.nan n)).toNat
  let v : DWord := BitVec.ofNat 32 ((if b.hdr.sat then fsat fmtHalf r.val else r.val).toBits fmtHalf nanBits)
  { bitsOut v with
    flag := condition b.cmod { neg := r.val.sign, zero := r.val.isZero, ov := r.ov, nan := r.val.isNan } }

/-- The restrictions of `f32to16` (R612): IEEE mode, F to a DWord-aligned W with stride 2, no accumulator. -/
def f32to16Checks (s : State) (b : Basic1) : List Check :=
  [ (s.altMode, .altMode),
    (!(b.src0.regType = .f && b.dst.ty = .w), .types),
    (!b.dst.loc.isNull && (dstOrigins s b.hdr b.dst).any (· % 4 != 0), .misaligned),
    (!b.dst.loc.isNull && b.dst.region.stride != 2, .dstStride) ]
    ++ noAcc b.hdr b.dst [b.src0] ++ dataChecks s b.hdr b.cmod b.dst [b.src0] false

/-- `f32to16` (R612). -/
def execF32to16 (b : Basic1) (s : State) : Host.Outcome State Fault Refusal :=
  execute s (firstViolation (f32to16Checks s b))
    (effect s b.hdr b.cmod b.dst [b.src0] (f32to16Out s b))

/-- One channel of `f16to32`: the half that the source word denotes; what a source modifier makes of it is not stated
and is free (R613, 91 N32; log 33). -/
def f16to32Out (s : State) (b : Basic1) (n : Nat) : Out :=
  let w := (srcBits s b.hdr (dstTwoRegs s b.hdr b.dst) 0 b.src0 n).setWidth 16
  if b.src0.hasMod then freeOut s n else fOut s b.hdr b.cmod .f (exactRes (FVal.ofBits fmtHalf w.toNat)) n

/-- The restrictions of `f16to32` (R613): IEEE mode, W to F, no accumulator. -/
def f16to32Checks (s : State) (b : Basic1) : List Check :=
  [(s.altMode, .altMode), (!(b.src0.regType = .w && b.dst.ty = .f), .types)]
    ++ noAcc b.hdr b.dst [b.src0] ++ dataChecks s b.hdr b.cmod b.dst [b.src0] false

/-- `f16to32` (R613). -/
def execF16to32 (b : Basic1) (s : State) : Host.Outcome State Fault Refusal :=
  execute s (firstViolation (f16to32Checks s b))
    (effect s b.hdr b.cmod b.dst [b.src0] (f16to32Out s b))

/-! ## Bit fields (R614 to R617) -/

/-- The restrictions of the bit-field instructions: one type, no saturation, condition, modifier or accumulator. -/
def bitChecks (s : State) (h : Header) (cm : CondMod) (d : Dst) (tys : List RegType) (srcs : List Src) : List Check :=
  [noSat h, noCmod cm, noSrcMod srcs, (!sameTypes tys d srcs, .types)] ++ noAcc h d srcs ++
    dataChecks s h cm d srcs false

/-- The 32 bits in reverse order (R614). -/
def reverseBits (v : DWord) : DWord :=
  (List.range 32).foldl (fun r i => if v.getLsbD (31 - i) then r ||| (1#32 <<< i) else r) 0

/-- `bfrev` (R614). -/
def execBfrev (b : Basic1) (s : State) : Host.Outcome State Fault Refusal :=
  execute s (firstViolation (bitChecks s b.hdr b.cmod b.dst [.ud] [b.src0]))
    (effect s b.hdr .none b.dst [b.src0] fun n =>
      bitsOut (reverseBits (srcBits s b.hdr (dstTwoRegs s b.hdr b.dst) 0 b.src0 n)))

/-- The bit field of `width` bits at `offset`, extended by the type (R615). -/
def extractField (signed : Bool) (width offset value : DWord) : DWord :=
  let w := (width &&& 31).toNat
  let o := (offset &&& 31).toNat
  if w = 0 then 0
  else if w + o < 32 then
    let t := value <<< (32 - w - o)
    if signed then t.sshiftRight (32 - w) else t >>> (32 - w)
  else if signed then value.sshiftRight o else value >>> o

/-- The restrictions of a three-source instruction: Align16, an unreplicated source at the start of a group of four
(30 R271, 40 R425). -/
def triChecks (t : Tri) : List Check :=
  [ (t.hdr.access = .align1, .align16Only),
    ([t.src0, t.src1, t.src2].any (fun x => !x.rep && x.sub.extractLsb' 0 2 != 0), .misaligned) ]

/-- Three sources of channel n as bit patterns (40 R425). -/
def triBits (s : State) (t : Tri) (n : Nat) : DWord × DWord × DWord :=
  let two := dstTwoRegs s t.hdr t.dst
  (srcBits s t.hdr two 0 (t.src0.toSrc t.srcTy) n, srcBits s t.hdr two 1 (t.src1.toSrc t.srcTy) n,
    srcBits s t.hdr two 2 (t.src2.toSrc t.srcTy) n)

/-- `bfe` (R615): src0 the width, src1 the offset, src2 the value. -/
def execBfe (t : Tri) (s : State) : Host.Outcome State Fault Refusal :=
  execute s (firstViolation (triChecks t ++ bitChecks s t.hdr t.cmod t.dst [.ud, .d] t.srcs))
    (effect s t.hdr .none t.dst t.srcs fun n =>
      let v := triBits s t n
      bitsOut (extractField (t.srcTy = .d) v.1 v.2.1 v.2.2))

/-- The mask of `width` bits at `offset` (R616). -/
def fieldMask (width offset : DWord) : DWord :=
  ((1#32 <<< (width &&& 31).toNat) - 1) <<< (offset &&& 31).toNat

/-- `bfi1` (R616). -/
def execBfi1 (b : Basic2) (s : State) : Host.Outcome State Fault Refusal :=
  execute s (firstViolation (bitChecks s b.hdr b.cmod b.dst [.ud, .d] b.srcs))
    (effect s b.hdr .none b.dst b.srcs fun n =>
      let two := dstTwoRegs s b.hdr b.dst
      bitsOut (fieldMask (srcBits s b.hdr two 0 (.reg b.src0) n) (srcBits s b.hdr two 1 b.src1 n)))

/-- The number of zero bits below the lowest 1 bit; 32 for zero. -/
def trailingZeros (v : DWord) : Nat := ((List.range 32).find? fun i => v.getLsbD i).getD 32

/-- src1 inserted under the mask src0 into src2 (R617, C15). -/
def insertField (mask value base : DWord) : DWord :=
  ((value <<< trailingZeros mask) &&& mask) ||| (base &&& ~~~mask)

/-- `bfi2` (R617). -/
def execBfi2 (t : Tri) (s : State) : Host.Outcome State Fault Refusal :=
  execute s (firstViolation (triChecks t ++ bitChecks s t.hdr t.cmod t.dst [.ud, .d] t.srcs))
    (effect s t.hdr .none t.dst t.srcs fun n =>
      let v := triBits s t n
      bitsOut (insertField v.1 v.2.1 v.2.2))

end Sys2Proof.Machine
end

