-- ==== Sys2Proof/Machine/ParallelArith.lean ====
section
/-! DEFINITION. Parallel arithmetic instructions (spec/44_parallel_arith.md R740 to R755). -/

namespace Sys2Proof.Machine

/-- A DWord type, signed or unsigned. -/
def isDWord (t : RegType) : Bool := t = .d || t = .ud

/-! ## add, mul, avg (R740 to R742) -/

/-- The restrictions of `add` (R740). -/
def addChecks (s : State) (b : Basic2) : List Check :=
  (!arithTypes b.dst b.srcs, .types) :: dataChecks s b.hdr b.cmod b.dst b.srcs false

/-- `add` (R740). -/
def execAdd (b : Basic2) (s : State) : Host.Outcome State Fault Refusal :=
  execute s (firstViolation (addChecks s b))
    (effect s b.hdr b.cmod b.dst b.srcs (arith2 s b (· + ·) fadd))

/-- Both sources are DWords: only the low 16 bits of src1 are used (R741, C20). -/
def mulBothDWord (b : Basic2) : Bool := isDWord b.src0.ty && isDWord b.src1.regType

/-- The exact integer product (R741). -/
def mulInt (b : Basic2) (x y : Int) : Int := if mulBothDWord b then x * (y % 65536) else x * y

/-- Some channel of the instruction is disabled. -/
def someDisabled (s : State) (h : Header) : Bool := (List.range h.count).any fun n => !wrEn s h n

/-- The `mul` of the pair `mul` and `mach`: it multiplies two DWords into an explicit accumulator (R741, R749; log 52). -/
def isMacroMul (b : Basic2) : Bool := mulBothDWord b && b.dst.loc.isAcc

/-- The restrictions of `mul` (R741): a DWord source excludes a float destination, a condition and saturation, and of a DWord
and a W the DWord stands on src0; in the pair with `mach` all channels are enabled (R749). The order restriction names a W
alone: a byte on src0 runs beside a DWord on src1 (DEDUCED, unsafe: log 71). -/
def mulChecks (s : State) (b : Basic2) : List Check :=
  let dw := isDWord b.src0.ty || isDWord b.src1.regType
  [ (isMacroMul b && someDisabled s b.hdr, .allChannels),
    (!arithTypes b.dst b.srcs, .types),
    noAccSrc b.srcs,
    (dw && b.dst.ty = .f, .types),
    (dw && b.cmod != .none, .condModifier),
    (dw && b.hdr.sat, .saturate),
    (isDWord b.src1.regType && (b.src0.ty = .w || b.src0.ty = .uw), .types) ]
    ++ dataChecks s b.hdr b.cmod b.dst b.srcs false

/-- `mul` (R741). -/
def execMul (b : Basic2) (s : State) : Host.Outcome State Fault Refusal :=
  execute s (firstViolation (mulChecks s b))
    (effect s b.hdr b.cmod b.dst b.srcs (arith2 s b (mulInt b) fmulAlt))

/-- The average, rounded up (R742). -/
def avgInt (x y : Int) : Int := (x + y + 1) / 2

/-- The restrictions of `avg` (R742). -/
def avgChecks (s : State) (b : Basic2) : List Check :=
  (!intTypes b.dst b.srcs, .types) :: dataChecks s b.hdr b.cmod b.dst b.srcs false

/-- `avg` (R742). -/
def execAvg (b : Basic2) (s : State) : Host.Outcome State Fault Refusal :=
  execute s (firstViolation (avgChecks s b))
    (effect s b.hdr b.cmod b.dst b.srcs (int2 s b avgInt))

/-! ## frc and the rounding instructions (R743 to R747) -/

/-- The fraction; negated under Round Down by hardware with the erratum (R743, D14). -/
def frcValue (s : State) (md : FMode) (x : FVal) : FRes :=
  let r := ffrc md x
  if s.launch.frcErratum && md.rm = .rd then
    { r with val := match r.val with
      | .fin neg m e => .fin (!neg) m e
      | v => v }
  else r

/-- The restrictions of `frc` (R743). -/
def frcChecks (s : State) (b : Basic1) : List Check :=
  [noSat b.hdr, (!floatTypes b.dst [b.src0], .types)] ++ dataChecks s b.hdr b.cmod b.dst [b.src0] false

/-- `frc` (R743). -/
def execFrc (b : Basic1) (s : State) : Host.Outcome State Fault Refusal :=
  execute s (firstViolation (frcChecks s b))
    (effect s b.hdr b.cmod b.dst [b.src0] (float1 s b (frcValue s)))

/-- The restrictions of the rounding instructions: F only, no accumulator (R744 to R747). -/
def roundChecks (s : State) (b : Basic1) : List Check :=
  [(!floatTypes b.dst [b.src0], .types)] ++ noAcc b.hdr b.dst [b.src0] ++ dataChecks s b.hdr b.cmod b.dst [b.src0] false

/-- `rndu` (R744). -/
def execRndu (b : Basic1) (s : State) : Host.Outcome State Fault Refusal :=
  execute s (firstViolation (roundChecks s b))
    (effect s b.hdr b.cmod b.dst [b.src0] (float1 s b fun md => fround md .ru))

/-- `rndd` (R745). -/
def execRndd (b : Basic1) (s : State) : Host.Outcome State Fault Refusal :=
  execute s (firstViolation (roundChecks s b))
    (effect s b.hdr b.cmod b.dst [b.src0] (float1 s b fun md => fround md .rd))

/-- `rnde` (R746, C22). -/
def execRnde (b : Basic1) (s : State) : Host.Outcome State Fault Refusal :=
  execute s (firstViolation (roundChecks s b))
    (effect s b.hdr b.cmod b.dst [b.src0] (float1 s b fun md => fround md .rne))

/-- `rndz` (R747). -/
def execRndz (b : Basic1) (s : State) : Host.Outcome State Fault Refusal :=
  execute s (firstViolation (roundChecks s b))
    (effect s b.hdr b.cmod b.dst [b.src0] (float1 s b fun md => fround md .rz))

/-! ## mac, mach (R748, R749) -/

/-- One channel of `mac`: the accumulator at its full width (R748, N33); of 32 word channels the upper half reads free values,
and so do the numbers 4 to 7 of DF on 16 channels (DESIGN CHOICE: log 78). -/
def macOut (s : State) (b : Basic2) (n : Nat) : Out :=
  let two := dstTwoRegs s b.hdr b.dst
  match execTy (b.srcs.map Src.regType) with
  | .f =>
    let x := valF s b.hdr two 0 (.reg b.src0) n
    let y := valF s b.hdr two 1 b.src1 n
    let a := accValF s b.hdr n
    fResult s b.hdr b.cmod b.dst.ty [x, y, a] (fmadd (modeF s) s.launch.madFused x y a) n
  | .df =>
    let x := valDF s b.hdr two 0 (.reg b.src0) n
    let y := valDF s b.hdr two 1 b.src1 n
    dfOut s b.hdr b.cmod b.dst.ty (fmadd (modeDF s) s.launch.madFused x y (accValDF s b.hdr n)) n
  | ex =>
    intOut s b.hdr b.cmod b.dst.ty ex.accBits
      (srcInt s b.hdr two 0 (.reg b.src0) n * srcInt s b.hdr two 1 b.src1 n + (accIn s b.hdr ex.fmt n).toInt) n

/-- {*B,*W} -> {*B,*W,*D}; F -> F; DF -> DF (R748). -/
def macTypes (d : Dst) (srcs : List Src) : Bool :=
  (intTypes d srcs && srcs.all fun x => !isDWord x.regType) || floatTypes d srcs || (allTy .df srcs && d.ty = .df)

/-- The restrictions of `mac` (R748). -/
def macChecks (s : State) (b : Basic2) : List Check :=
  [(!macTypes b.dst b.srcs, .types), noAccSrc b.srcs]
    ++ dataChecks s b.hdr b.cmod b.dst b.srcs false

/-- `mac` (R748). -/
def execMac (b : Basic2) (s : State) : Host.Outcome State Fault Refusal :=
  execute s (firstViolation (macChecks s b))
    (effect s b.hdr b.cmod b.dst b.srcs (macOut s b))

/-- A D source beside a UD destination carries `(abs)` (R749). -/
def machSrcOk (dstTy : RegType) (src : Src) : Bool :=
  match dstTy with
  | .d => src.regType = .d
  | .ud => src.regType = .ud || (match src with
      | .reg r => r.ty = .d && r.mod = .abs
      | .imm _ _ => false)
  | _ => false

/-- The high word of a DWord, signed or unsigned as the value is: 0 to 65535, or -32768 to 32767 (R749; log 53). -/
def highWord (y : Int) : Int := y / 65536

/-- The 64-bit sum that `mach` leaves in the accumulator (R749). -/
def machSum (s : State) (b : Basic2) (n : Nat) : QWord :=
  let two := dstTwoRegs s b.hdr b.dst
  accIn s b.hdr .d n +
    BitVec.ofInt 64 (srcInt s b.hdr two 0 (.reg b.src0) n * highWord (srcInt s b.hdr two 1 b.src1 n) * 65536)

/-- The negation of an unsigned DWord, whose product needs 65 bits (10_state R66 g). -/
def negatedUD (src : Src) : Bool :=
  match src with
  | .reg r => r.ty = .ud && (r.mod = .neg || r.mod = .negAbs)
  | .imm _ _ => false

/-- One channel of `mach`: the high DWord of the sum (R749); with a conditional modifier a negated unsigned source gives
free values (U23). OF is never set, not even where the 64-bit sum wraps: R460's "overflow in any of the computation" is not
defined further (91 N44) (DESIGN CHOICE, unsafe: log 57). -/
def machOut (s : State) (b : Basic2) (n : Nat) : Out :=
  let sum := machSum s b n
  let v := sum.extractLsb' 32 32
  let r := intOfRaw b.dst.ty v
  if b.cmod != .none && b.srcs.any negatedUD then freeOut s n
  else
    { bits := v, wide := v.setWidth 64, acc := sum,
      flag := condition b.cmod { neg := r < 0, zero := r = 0, ov := false, nan := false } }

/-- The restrictions of `mach`: "must have all channels enabled" (R749). The rule reports conflicting attributes for
saturation; `.sat`, which "should not be used", is refused (DESIGN CHOICE, safe: log 70). -/
def machChecks (s : State) (b : Basic2) : List Check :=
  [ (someDisabled s b.hdr, .allChannels),
    noSat b.hdr,
    (!b.hdr.accWr, .accWrRequired),
    noAccSrc b.srcs,
    noAccDst b.dst,
    (!(b.srcs.all (machSrcOk b.dst.ty)), .types) ] ++ dataChecks s b.hdr b.cmod b.dst b.srcs false

/-- `mach` (R749). -/
def execMach (b : Basic2) (s : State) : Host.Outcome State Fault Refusal :=
  execute s (firstViolation (machChecks s b)) (effect s b.hdr b.cmod b.dst b.srcs (machOut s b))

/-! ## Counting bits (R750 to R753) -/

/-- The number of zero bits above the highest 1 bit; 32 for zero. -/
def leadingZeros (v : DWord) : Nat := ((List.range 32).find? fun i => v.getLsbD (31 - i)).getD 32

/-- The number of 1 bits. -/
def countBits (v : DWord) : Nat := (List.range 32).countP fun i => v.getLsbD i

/-- First bit from the MSB side, of an unsigned or signed pattern (R751, C18). -/
def firstBitHigh (signed : Bool) (v : DWord) : DWord :=
  if v = 0 || (signed && v = 0xFFFFFFFF) then 0xFFFFFFFF
  else BitVec.ofNat 32 (leadingZeros (if signed && v.getLsbD 31 then ~~~v else v))

/-- First 1 bit from the LSB side (R752). -/
def firstBitLow (v : DWord) : DWord := if v = 0 then 0xFFFFFFFF else BitVec.ofNat 32 (trailingZeros v)

/-- The restrictions of `lzd` (R750): the accumulator is no destination. -/
def lzdChecks (s : State) (b : Basic1) : List Check :=
  [(!(isDWord b.src0.regType && b.dst.ty = .ud), .types), noAccWr b.hdr, noAccDst b.dst] ++
    dataChecks s b.hdr b.cmod b.dst [b.src0] false

/-- `lzd` (R750). Of an accumulator, whose channels are 64 bits wide (10_state R64), it counts on the low 32 bits (DESIGN
CHOICE, unsafe: log 72). -/
def execLzd (b : Basic1) (s : State) : Host.Outcome State Fault Refusal :=
  execute s (firstViolation (lzdChecks s b))
    (effect s b.hdr b.cmod b.dst [b.src0] fun n =>
      intOut s b.hdr b.cmod .ud 64 (leadingZeros (srcBits s b.hdr (dstTwoRegs s b.hdr b.dst) 0 b.src0 n)) n)

/-- The restrictions of `fbh`, `fbl` and `cbit`: a UD destination, no attributes, no accumulator (R751 to R753). -/
def countChecks (s : State) (b : Basic1) (tys : List RegType) : List Check :=
  [noSat b.hdr, noCmod b.cmod, noSrcMod [b.src0], (!(tys.contains b.src0.regType && b.dst.ty = .ud), .types)]
    ++ noAcc b.hdr b.dst [b.src0] ++ dataChecks s b.hdr b.cmod b.dst [b.src0] false

/-- `fbh` (R751). -/
def execFbh (b : Basic1) (s : State) : Host.Outcome State Fault Refusal :=
  execute s (firstViolation (countChecks s b [.d, .ud]))
    (effect s b.hdr .none b.dst [b.src0] fun n =>
      bitsOut (firstBitHigh (b.src0.regType = .d) (srcBits s b.hdr (dstTwoRegs s b.hdr b.dst) 0 b.src0 n)))

/-- `fbl` (R752). -/
def execFbl (b : Basic1) (s : State) : Host.Outcome State Fault Refusal :=
  execute s (firstViolation (countChecks s b [.ud]))
    (effect s b.hdr .none b.dst [b.src0] fun n =>
      bitsOut (firstBitLow (srcBits s b.hdr (dstTwoRegs s b.hdr b.dst) 0 b.src0 n)))

/-- `cbit` (R753). -/
def execCbit (b : Basic1) (s : State) : Host.Outcome State Fault Refusal :=
  execute s (firstViolation (countChecks s b [.ub, .uw, .ud]))
    (effect s b.hdr .none b.dst [b.src0] fun n =>
      bitsOut (BitVec.ofNat 32 (countBits (srcBits s b.hdr (dstTwoRegs s b.hdr b.dst) 0 b.src0 n))))

/-! ## addc, subb (R754, R755) -/

/-- The restrictions of `addc` and `subb`: UD, the accumulator only as the implicit destination (R754, R755). -/
def carryChecks (s : State) (b : Basic2) : List Check :=
  [ noSat b.hdr,
    (!b.hdr.accWr, .accWrRequired),
    noSrcMod b.srcs,
    noAccDst b.dst,
    (!sameTypes [.ud] b.dst b.srcs, .types) ] ++ dataChecks s b.hdr b.cmod b.dst b.srcs false

/-- A 32-bit result with its carry or borrow in the accumulator; the carry is the overflow (40 R460). -/
def carryOut (cm : CondMod) (v : Int) : Out :=
  let r : DWord := BitVec.ofInt 32 v
  let c : Bool := v < 0 || 4294967295 < v
  { bits := r, wide := r.setWidth 64, acc := if c then 1 else 0,
    flag := condition cm { neg := false, zero := r = 0, ov := c, nan := false } }

/-- The DWord of channel n of source k as an unsigned number. Of an accumulator, whose channels are 64 bits wide (10_state
R64), these are the low 32 bits: R754 and R755 do not say how the others enter (DESIGN CHOICE, unsafe: log 72). -/
def srcUD (s : State) (b : Basic2) (k : Nat) (n : Nat) : Int :=
  (srcBits s b.hdr (dstTwoRegs s b.hdr b.dst) k (if k = 0 then .reg b.src0 else b.src1) n).toNat

/-- `addc` (R754). -/
def execAddc (b : Basic2) (s : State) : Host.Outcome State Fault Refusal :=
  execute s (firstViolation (carryChecks s b))
    (effect s b.hdr b.cmod b.dst b.srcs fun n => carryOut b.cmod (srcUD s b 0 n + srcUD s b 1 n))

/-- `subb` (R755). -/
def execSubb (b : Basic2) (s : State) : Host.Outcome State Fault Refusal :=
  execute s (firstViolation (carryChecks s b))
    (effect s b.hdr b.cmod b.dst b.srcs fun n => carryOut b.cmod (srcUD s b 0 n - srcUD s b 1 n))

end Sys2Proof.Machine
end

