-- ==== Sys2Proof/Machine/VectorArith.lean ====
section
/-! DEFINITION. Vector arithmetic instructions (spec/45_vector_arith.md R779 to R789). -/

namespace Sys2Proof.Machine

/-! ## sad2, sada2 (R780, R781) -/

/-- The sum of the absolute differences of the 2-tuple that starts at channel n. -/
def sadSum (s : State) (b : Basic2) (n : Nat) : Int :=
  let two := dstTwoRegs s b.hdr b.dst
  let d := fun i => ((srcInt s b.hdr two 0 (.reg b.src0) i - srcInt s b.hdr two 1 b.src1 i).natAbs : Int)
  d n + d (n + 1)

/-- The result of one channel: the sum at even channels; at odd channels a free word and its flag (U18). R780 has destination
and accumulator "maintain 16 bits per channel precision", 10_state R64 gives a word channel 33, as R781 says of `sada2`: a sum of
`sad2` past 16 bits keeps 33 in the accumulator (DESIGN CHOICE, unsafe: log 95). -/
def sadOut (s : State) (b : Basic2) (v : Int) (n : Nat) : Out :=
  if n % 2 = 0 then intOut s b.hdr b.cmod b.dst.ty 33 v n
  else
    let free := freeOut s n
    let r := intOfRaw b.dst.ty free.bits
    { free with
      flag := if b.cmod = .o then free.flag
        else condition b.cmod { neg := r < 0, zero := r = 0, ov := false, nan := false } }

/-- One channel of `sad2`. -/
def sad2Out (s : State) (b : Basic2) (n : Nat) : Out := sadOut s b (sadSum s b n) n

/-- One channel of `sada2`: the accumulator at its full width is added (R781). -/
def sada2Out (s : State) (b : Basic2) (n : Nat) : Out :=
  sadOut s b ((accIn s b.hdr .w n).toInt + sadSum s b n) n

/-- A source of `sad2` and `sada2`: a byte region, or an immediate. No immediate type is a byte (30 R256, 40 R421), and the
rules name "src1 register or imm32": the word types, whose execution type is that of a byte, are accepted (DESIGN CHOICE,
unsafe: log 64). -/
def sadSource (src : Src) : Bool := src.regType.size = 1 || (src.isImm && src.regType.size = 2)

/-- The restrictions of `sad2` and `sada2` (R780, R781): bytes to words, at least two channels, a DWord-aligned
destination, from every index register of an indirect one (log 87), no accumulator source. They run on 32 channels, of which
the accumulator has 16 (log 78). -/
def sadChecks (s : State) (b : Basic2) : List Check :=
  [ (!(b.srcs.all sadSource && (b.dst.ty = .w || b.dst.ty = .uw)), .types),
    (b.hdr.size = .s1, .execSize),
    (!b.dst.loc.isNull && (dstOrigins s b.hdr b.dst).any (· % 4 != 0), .misaligned),
    noAccSrc b.srcs ] ++ dataChecks s b.hdr b.cmod b.dst b.srcs false

/-- The effect of `sad2` and `sada2`: the even channels always go to the accumulator too (R780; log 46). -/
def sadEffect (s : State) (b : Basic2) (out : Nat → Out) : Effect :=
  { effect s b.hdr b.cmod b.dst b.srcs out with
    accF := some .w
    accEn := fun n => wrEn s b.hdr n && n % 2 = 0 }

/-- `sad2` (R780). -/
def execSad2 (b : Basic2) (s : State) : Host.Outcome State Fault Refusal :=
  execute s (firstViolation (sadChecks s b)) (sadEffect s b (sad2Out s b))

/-- `sada2` (R781). -/
def execSada2 (b : Basic2) (s : State) : Host.Outcome State Fault Refusal :=
  execute s (firstViolation (sadChecks s b)) (sadEffect s b (sada2Out s b))

/-! ## Dot products (R779, R782 to R785) -/

/-- The terms a dot product sums, in the tree of `DOT_ORDER`; absent terms drop out (D12). -/
def sumTerms (md : FMode) (t : Fin 4 → Option FRes) : SumOrder → Option FRes
  | .term i => t i
  | .add l r =>
    match sumTerms md t l, sumTerms md t r with
    | none, y => y
    | some x, none => some x
    | some x, some y =>
      let q := fadd md x.val y.val
      some { val := q.val, ov := x.ov || y.ov || q.ov }

/-- How many components of src0 a dot product uses, and whether its fourth is 1.0 (R782 to R785). -/
inductive DotKind where
  | dp4 | dph | dp3 | dp2
  deriving DecidableEq, Repr

def DotKind.terms : DotKind → Nat
  | .dp4 => 4 | .dph => 4 | .dp3 => 3 | .dp2 => 2

/-- Component i of src0 in the group of channel n; `dph` forces the fourth to 1.0 (R783). -/
def dotSrc0 (s : State) (b : Basic2) (k : DotKind) (n i : Nat) : FVal :=
  if k = .dph && i = 3 then .fin false 1 0
  else valF s b.hdr (dstTwoRegs s b.hdr b.dst) 0 (.reg b.src0) (4 * (n / 4) + i)

def dotSrc1 (s : State) (b : Basic2) (n i : Nat) : FVal :=
  valF s b.hdr (dstTwoRegs s b.hdr b.dst) 1 b.src1 (4 * (n / 4) + i)

/-- One channel of a dot product: the scalar of its group, one pattern for its four channels (R779). -/
def dotOut (s : State) (b : Basic2) (k : DotKind) (n : Nat) : Out :=
  let md := modeF s
  let inputs := (List.range k.terms).flatMap fun i => [dotSrc0 s b k n i, dotSrc1 s b n i]
  let term : Fin 4 → Option FRes := fun i =>
    if i.val < k.terms then some (fmul md (dotSrc0 s b k n i) (dotSrc1 s b n i)) else none
  fResult s b.hdr b.cmod b.dst.ty inputs
    ((sumTerms md term s.launch.dotOrder).getD (exactRes (.fin false 0 md.fmt.emin))) (4 * (n / 4))

/-- A register operand with a horizontal stride other than 1 (R779). -/
def badDotStride (src : Src) : Bool :=
  match src with
  | .reg { region := .a1 _ _ hz, .. } => hz != .h1
  | _ => false

/-- The restrictions of the dot products (R779). -/
def dotChecks (s : State) (b : Basic2) : List Check :=
  [ (!floatTypes b.dst b.srcs, .types),
    (b.hdr.count < 4, .execSize),
    (b.srcs.any badDotStride, .regionShape),
    (!b.dst.loc.isNull && b.dst.region.stride != 1, .dstStride),
    noAccSrc b.srcs ] ++ dataChecks s b.hdr b.cmod b.dst b.srcs false

/-- `dp4` (R782). -/
def execDp4 (b : Basic2) (s : State) : Host.Outcome State Fault Refusal :=
  execute s (firstViolation (dotChecks s b)) (effect s b.hdr b.cmod b.dst b.srcs (dotOut s b .dp4))

/-- `dph` (R783). -/
def execDph (b : Basic2) (s : State) : Host.Outcome State Fault Refusal :=
  execute s (firstViolation (dotChecks s b)) (effect s b.hdr b.cmod b.dst b.srcs (dotOut s b .dph))

/-- `dp3` (R784). -/
def execDp3 (b : Basic2) (s : State) : Host.Outcome State Fault Refusal :=
  execute s (firstViolation (dotChecks s b)) (effect s b.hdr b.cmod b.dst b.srcs (dotOut s b .dp3))

/-- `dp2` (R785). -/
def execDp2 (b : Basic2) (s : State) : Host.Outcome State Fault Refusal :=
  execute s (firstViolation (dotChecks s b)) (effect s b.hdr b.cmod b.dst b.srcs (dotOut s b .dp2))

/-! ## line, pln (R786, R787) -/

/-- The byte address of the scalar that src0 names: in the GRF, directly or through an index register (40 R423), or in its
architecture register. -/
def planeBase (s : State) (r : RegSrc) : Nat :=
  match r.loc with
  | .grf num sub => num.toNat * 32 + sub.toNat
  | .ind k imm => (indexAddr s k.toNat imm).toNat
  | .arf _ sub => sub.toNat

/-- DWord i of the 128-bit tuple that src0's scalar begins (R786, R787); of an architecture register what a read sees
(10_state R51, R57, R58). p is DWord 0, at the byte SubRegNum names: the channel selects of an Align16 src0 choose no
other component (DESIGN CHOICE, unsafe: log 86). -/
def planeBits (s : State) (r : RegSrc) (i : Nat) : DWord :=
  let addr := planeBase s r / 16 * 16 + 4 * i
  match r.loc with
  | .arf .null _ => (Config.free s.draw (.nullSrc 0 i)).setWidth 32
  | .arf a _ => (arfSeen s a (.arf 0 0) >>> (8 * addr)).setWidth 32
  | _ => grfElem s.grf addr 4

/-- Component i of src0's tuple as a number; src0's modifier applies, to the implied q as well (R786). R787 does not say it of
the implied q and r of `pln`: there it applies too (DEDUCED, unsafe: log 96). -/
def planeCoeff (s : State) (r : RegSrc) (i : Nat) : FVal :=
  (FVal.ofBits fmtF (modBits r.mod (planeBits s r i)).toNat).flushIn (modeF s)

/-- One channel of `line`: p * u + q (R786). -/
def lineOut (s : State) (b : Basic2) (n : Nat) : Out :=
  let p := planeCoeff s b.src0 0
  let q := planeCoeff s b.src0 3
  let u := valF s b.hdr (dstTwoRegs s b.hdr b.dst) 1 b.src1 n
  fResult s b.hdr b.cmod b.dst.ty [p, u, q] (fmadd (modeF s) s.launch.madFused p u q) n

/-- The restrictions of `line` and `pln` (R786, R787): 8 or 16 channels, a scalar src0 at byte 0 or 16 of its register, no
accumulator source. An Align16 src0 with vertical stride 0 and one component throughout its channel selects stands for the
replicated scalar, although Align16 has a horizontal stride of 1 implicitly (40 R424; DESIGN CHOICE, unsafe: log 86). -/
def lineChecks (s : State) (b : Basic2) : List Check :=
  [ (!floatTypes b.dst b.srcs, .types),
    (!(b.hdr.size = .s8 || b.hdr.size = .s16), .execSize),
    (!b.src0.isScalar, .regionShape),
    (srcBase s b.src0 % 16 != 0, .operand),
    noAccSrc b.srcs ] ++ dataChecks s b.hdr b.cmod b.dst b.srcs false

/-- `line` (R786). -/
def execLine (b : Basic2) (s : State) : Host.Outcome State Fault Refusal :=
  execute s (firstViolation (lineChecks s b)) (effect s b.hdr b.cmod b.dst b.srcs (lineOut s b))

/-- The address of v's element n: element n of the registers after those of u, without u's region (R787). The rule places v by
register numbers: of an indirect src1 on 16 channels, whose second half of u comes from the next index register (40 R471), v is
in the second and third register after that of u's first element (DESIGN CHOICE, unsafe: log 82). -/
def plnAddr (s : State) (b : Basic2) (r : RegSrc) (n : Nat) : Int :=
  (plnFirst s b r + b.hdr.count / 8) * 32 + 4 * n

/-- The second input vector of `pln`. R787 does not say whether src1's modifier applies to v: it does, v being the second
half of what src1 names (DEDUCED, unsafe: log 73). -/
def plnV (s : State) (b : Basic2) (n : Nat) : FVal :=
  match b.src1 with
  | .reg r => (FVal.ofBits fmtF (modBits r.mod (grfElem s.grf (plnAddr s b r n).toNat 4)).toNat).flushIn (modeF s)
  | .imm _ _ => .nan

/-- One channel of `pln`: (p * u + q * v) + r (R787; log 45, 73). -/
def plnOut (s : State) (b : Basic2) (n : Nat) : Out :=
  let p := planeCoeff s b.src0 0
  let q := planeCoeff s b.src0 1
  let r := planeCoeff s b.src0 3
  let u := valF s b.hdr (dstTwoRegs s b.hdr b.dst) 1 b.src1 n
  let v := plnV s b n
  fResult s b.hdr b.cmod b.dst.ty [p, q, r, u, v] (fplane (modeF s) s.launch.madFused p u q v r) n

/-- The restrictions of `pln` beside those of `line`: src1 is a general register, and v's registers exist (R787). -/
def plnChecks (s : State) (b : Basic2) : List Check :=
  (match b.src1 with
   | .imm _ _ => [(true, .immediate)]
   | .reg r =>
     [ (r.loc.isArf, .operand),
       (outOfGrf s 4 ((List.range b.hdr.count).map (plnAddr s b r)), .grfRange) ]) ++ lineChecks s b

/-- `pln` (R787). -/
def execPln (b : Basic2) (s : State) : Host.Outcome State Fault Refusal :=
  execute s (firstViolation (plnChecks s b)) (effect s b.hdr b.cmod b.dst b.srcs (plnOut s b))

/-! ## mad, lrp (R788, R789) -/

/-- Source k of channel n of a three-source instruction, as an F or DF number. -/
def triF (s : State) (t : Tri) (k : Nat) (src : TriSrc) (n : Nat) : FVal :=
  valF s t.hdr (dstTwoRegs s t.hdr t.dst) k (src.toSrc t.srcTy) n
def triDF (s : State) (t : Tri) (k : Nat) (src : TriSrc) (n : Nat) : FVal :=
  valDF s t.hdr (dstTwoRegs s t.hdr t.dst) k (src.toSrc t.srcTy) n

/-- One channel of `mad`: s1 * s2 + s0 (R788). -/
def madOut (s : State) (t : Tri) (n : Nat) : Out :=
  if t.srcTy = .df then
    dfOut s t.hdr t.cmod t.dst.ty
      (fmadd (modeDF s) s.launch.madFused (triDF s t 1 t.src1 n) (triDF s t 2 t.src2 n) (triDF s t 0 t.src0 n)) n
  else
    let a := triF s t 0 t.src0 n
    let x := triF s t 1 t.src1 n
    let y := triF s t 2 t.src2 n
    fResult s t.hdr t.cmod t.dst.ty [a, x, y] (fmadd (modeF s) s.launch.madFused x y a) n

/-- The restrictions of `mad` (R788): F or DF throughout. -/
def madChecks (s : State) (t : Tri) : List Check :=
  [(!(floatTypes t.dst t.srcs || (allTy .df t.srcs && t.dst.ty = .df)), .types)]
    ++ triChecks t ++ dataChecks s t.hdr t.cmod t.dst t.srcs false

/-- `mad` (R788). -/
def execMad (t : Tri) (s : State) : Host.Outcome State Fault Refusal :=
  execute s (firstViolation (madChecks s t))
    (effect s t.hdr t.cmod t.dst t.srcs (madOut s t))

/-- One channel of `lrp`: s1 * s0 + s2 * (1 - s0) (R789; log 45). -/
def lrpOut (s : State) (t : Tri) (n : Nat) : Out :=
  let a := triF s t 0 t.src0 n
  let u := triF s t 1 t.src1 n
  let v := triF s t 2 t.src2 n
  fResult s t.hdr t.cmod t.dst.ty [a, u, v] (flerp (modeF s) s.launch.madFused a u v) n

/-- The restrictions of `lrp` (R789): F, no saturation, no `.o`. -/
def lrpChecks (s : State) (t : Tri) : List Check :=
  [noSat t.hdr, (t.cmod = .o, .condModifier), (!floatTypes t.dst t.srcs, .types)]
    ++ triChecks t ++ dataChecks s t.hdr t.cmod t.dst t.srcs false

/-- `lrp` (R789). -/
def execLrp (t : Tri) (s : State) : Host.Outcome State Fault Refusal :=
  execute s (firstViolation (lrpChecks s t))
    (effect s t.hdr t.cmod t.dst t.srcs (lrpOut s t))

end Sys2Proof.Machine
end

