-- ==== Sys2Proof/Machine/Dispatch.lean ====
section
/-! DEFINITION. `exec`: one arm per constructor of `Instr`, one meaning each (spec/30_encoding.md R300). -/

namespace Sys2Proof.Machine

/-- The meaning of an instruction. -/
def exec (i : Instr) (s : State) : Host.Outcome State Fault Refusal :=
  match i with
  | .illegal => Sys2Proof.Machine.execIllegal s
  | .mov b => Sys2Proof.Machine.execMov b s
  | .sel b => Sys2Proof.Machine.execSel b s
  | .movi b => Sys2Proof.Machine.execMovi b s
  | .not_ b => Sys2Proof.Machine.execNot b s
  | .and_ b => Sys2Proof.Machine.execAnd b s
  | .or_ b => Sys2Proof.Machine.execOr b s
  | .xor_ b => Sys2Proof.Machine.execXor b s
  | .shr b => Sys2Proof.Machine.execShr b s
  | .shl b => Sys2Proof.Machine.execShl b s
  | .asr b => Sys2Proof.Machine.execAsr b s
  | .cmp b => Sys2Proof.Machine.execCmp b s
  | .cmpn b => Sys2Proof.Machine.execCmpn b s
  | .f32to16 b => Sys2Proof.Machine.execF32to16 b s
  | .f16to32 b => Sys2Proof.Machine.execF16to32 b s
  | .bfrev b => Sys2Proof.Machine.execBfrev b s
  | .bfe b => Sys2Proof.Machine.execBfe b s
  | .bfi1 b => Sys2Proof.Machine.execBfi1 b s
  | .bfi2 b => Sys2Proof.Machine.execBfi2 b s
  | .jmpi b => Sys2Proof.Machine.execJmpi b s
  | .brd b => Sys2Proof.Machine.execBrd b s
  | .if_ b => Sys2Proof.Machine.execIf b s
  | .brc b => Sys2Proof.Machine.execBrc b s
  | .else_ b => Sys2Proof.Machine.execElse b s
  | .endif b => Sys2Proof.Machine.execEndif b s
  | .case_ b => Sys2Proof.Machine.execCase b s
  | .while_ b => Sys2Proof.Machine.execWhile b s
  | .break_ b => Sys2Proof.Machine.execBreak b s
  | .cont b => Sys2Proof.Machine.execCont b s
  | .halt b => Sys2Proof.Machine.execHalt b s
  | .call b => Sys2Proof.Machine.execCall b s
  | .ret b => Sys2Proof.Machine.execRet b s
  | .wait b => Sys2Proof.Machine.execWait b s
  | .send b => Sys2Proof.Machine.execSend b s
  | .sendc b => Sys2Proof.Machine.execSendc b s
  | .math b => Sys2Proof.Machine.execMath b s
  | .add b => Sys2Proof.Machine.execAdd b s
  | .mul b => Sys2Proof.Machine.execMul b s
  | .avg b => Sys2Proof.Machine.execAvg b s
  | .frc b => Sys2Proof.Machine.execFrc b s
  | .rndu b => Sys2Proof.Machine.execRndu b s
  | .rndd b => Sys2Proof.Machine.execRndd b s
  | .rnde b => Sys2Proof.Machine.execRnde b s
  | .rndz b => Sys2Proof.Machine.execRndz b s
  | .mac b => Sys2Proof.Machine.execMac b s
  | .mach b => Sys2Proof.Machine.execMach b s
  | .lzd b => Sys2Proof.Machine.execLzd b s
  | .fbh b => Sys2Proof.Machine.execFbh b s
  | .fbl b => Sys2Proof.Machine.execFbl b s
  | .cbit b => Sys2Proof.Machine.execCbit b s
  | .addc b => Sys2Proof.Machine.execAddc b s
  | .subb b => Sys2Proof.Machine.execSubb b s
  | .sad2 b => Sys2Proof.Machine.execSad2 b s
  | .sada2 b => Sys2Proof.Machine.execSada2 b s
  | .dp4 b => Sys2Proof.Machine.execDp4 b s
  | .dph b => Sys2Proof.Machine.execDph b s
  | .dp3 b => Sys2Proof.Machine.execDp3 b s
  | .dp2 b => Sys2Proof.Machine.execDp2 b s
  | .line b => Sys2Proof.Machine.execLine b s
  | .pln b => Sys2Proof.Machine.execPln b s
  | .mad b => Sys2Proof.Machine.execMad b s
  | .lrp b => Sys2Proof.Machine.execLrp b s
  | .nop d => Sys2Proof.Machine.execNop d s

end Sys2Proof.Machine
end

