-- ==== Sys2Proof/Machine/Run.lean ====
section
/-! DEFINITION. One step of the thread and of the host: host actions, pending exceptions, fetch, the breakpoint check, the scoreboard, issue (spec/60_exceptions.md R904 to R913, R920; spec/70_reset_and_hazards.md R954, R961; spec/20_memory.md R203, R212, R219). -/

namespace Sys2Proof.Machine

/-! ## The host agent (20_memory R212, R219; log 7) -/

/-- DWords of `data` under an 8-bit mask into a register. -/
def maskedDWords (old data : Reg256) (mask : BitVec 8) : Reg256 :=
  (List.range 8).foldl
    (fun r j => if mask.getLsbD j then
        (r &&& ~~~(0xFFFFFFFF#256 <<< (32 * j))) ||| (data &&& (0xFFFFFFFF#256 <<< (32 * j)))
      else r) old

/-- Every one of the first n phases has landed. -/
def Response.complete (r : Response) : Bool := (List.range r.rlen.toNat).all fun k => r.landed.getLsbD k

/-- A response phase lands; the last one clears the marks if CLEAR is set and ends the response (R212). -/
def deliver (s : State) (idx : Nat) (phase : BitVec 5) (data : Reg256) (mask : BitVec 8) : State :=
  match s.outstanding[idx]? with
  | none => s
  | some r =>
    if r.landed.getLsbD phase.toNat || r.rlen.toNat ≤ phase.toNat then s
    else
      let a := r.reg.toNat + phase.toNat
      let g := if h : a < 128 then s.grf.set a (maskedDWords s.grf[a] data mask) else s.grf
      let r' := { r with landed := r.landed ||| (1#32 <<< phase.toNat) }
      if r'.complete then
        { s with
          grf := g
          outstanding := s.outstanding.eraseIdx idx
          dep := if r.clear then markRange s.dep r.reg.toNat r.rlen.toNat false else s.dep }
      else { s with grf := g, outstanding := s.outstanding.set idx r' }

/-- Entry to the System Routine at an instruction boundary (R905); the instruction before the routine's first is not a
`wait` of the routine (log 37). -/
def takeException (s : State) : State := { raise s s.ip with curWait := false }

/-- A preemption: where `PREEMPTION` lets the host generate one, the System Routine is entered when all in-flight registers
have retired; the source gives no AIP rule, and the model takes the one of the External Halt, to which the routine's return
goes back (60 R915, U16; 91 N50; log 67). -/
def preempt (s : State) : State :=
  if s.launch.preemption && !s.inSR && s.outstanding.isEmpty then takeException { s with run := .running } else s

/-- One action of the host on a live thread (R219). -/
def hostAct (s : State) (a : HostAction) : State :=
  match a with
  | .run => s
  | .deliver idx phase data mask => deliver s idx phase data mask
  | .notify k => s.addNotify k true
  | .externalHalt => { s with cr01 := s.cr01 ||| 0x40000000 }
  | .retire id => { s with tdr := s.tdr.map fun e => if e.fftid = id then { e with valid := false } else e }
  | .setPriority p => { s with sr00 := (s.sr00 &&& 0xFFF8FFFF) ||| (p.zeroExtend 32 <<< 16) }
  | .timeEvent => { s with tmEvent := true }
  | .preempt => preempt s

/-- One action of the host: none reaches a thread that has ended (70 R953, D34). -/
def hostApply (s : State) (a : HostAction) : State := if s.run = .ended then s else hostAct s a

/-! ## Fetch (20_memory R203) -/

/-- The bytes of the instruction at IP: 8, or 16 if CmptCtrl (bit 29) is 0. -/
def fetchBytes (s : State) : Except Nat (List Byte) :=
  match Memory.readBytes s.imem s.ip.toNat 8 with
  | .error a => .error a
  | .ok q0 => if (q0.getD 3 0).getLsbD 5 then .ok q0 else Memory.readBytes s.imem s.ip.toNat 16

/-! ## Breakpoints (60 R913) -/

/-- DebugCtrl of an instruction; `illegal` ignores it (30 R254, R269). -/
def debugBit (i : Instr) : Bool :=
  match i.form with
  | .bare d => d
  | .basic1 b => b.hdr.debug
  | .basic2 b => b.hdr.debug
  | .tri t => t.hdr.debug
  | .branch1 b => b.hdr.debug
  | .branch2 b => b.hdr.debug
  | .call c => c.hdr.debug
  | .send m => m.hdr.debug
  | .math m => m.hdr.debug

/-- A comparator matches where each part it has does (R913; log 48). -/
def Comparator.hits (c : Comparator) (ip : DWord) (op : Byte) : Bool :=
  c.addr.all (· == ip) && c.op.all (· == op)

/-- `HostBreak(IP, opcode)` (R913, 00_scope R6). -/
def hostBreak (l : Launch) (ip : DWord) (op : Byte) : Bool := l.breaks.any (·.hits ip op)

/-- The breakpoint bit of the instruction, or the host's comparators (R913). -/
def breakTrigger (s : State) (op : Byte) (i : Instr) : Bool := debugBit i || hostBreak s.launch s.ip op

/-- cr0.1[31] set: the breakpoint status (G1, log 22). -/
def latchBreak (s : State) : State := { s with cr01 := s.cr01 ||| 0x80000000 }

/-- The check before an instruction: `none` raises the breakpoint exception, `some s'` executes it in s' (R913, D30). -/
def breakCheck (s : State) (trig : Bool) : Option State :=
  if s.inSR then some (if trig then latchBreak s else s)
  else if (trig || s.cr01.getLsbD 31) && s.cr01.getLsbD 15 then
    (if s.cr00.getLsbD 15 then some { s with cr00 := s.cr00 &&& 0xFFFF7FFF } else none)
  else some (if trig then latchBreak s else s)

/-! ## Issue -/

def Instr.isWait : Instr → Bool
  | .wait _ => true
  | _ => false

/-- The state an instruction executes in: NextIP from its length, fresh free values, the timestamp of this instant
(42 R630; log 1, 37, 38). -/
def issue (s : State) (i : Instr) (len : Nat) : State :=
  { s with
    nextIP := s.ip + BitVec.ofNat 32 len
    draw := s.draw + 1
    tm0 := Config.timestamp s.draw
    prevWait := s.curWait
    curWait := Instr.isWait i }

/-- A decoded instruction: the breakpoint check, then the scoreboard, then its meaning (60 R913, R920; 70 R961). A held
instruction leaves the state as it is (log 35). -/
def runInstr (s : State) (op : Byte) (i : Instr) (len : Nat) : Host.Outcome State Fault Refusal :=
  match breakCheck s (breakTrigger s op i) with
  | none => .next (takeException (latchBreak s))
  | some s1 => if isHeld s i then .next s else exec i (issue s1 i len)

/-- The thread at an instruction boundary (60 R920). -/
def runBoundary (s : State) : Host.Outcome State Fault Refusal :=
  if !s.inSR && (s.pendHalt || s.pendSW) then .next (takeException s)
  else
    match fetchBytes s with
    | .error a => .fault (.fetchUnmapped a)
    | .ok bs =>
      match decodeBytes bs with
      | .error e => .refused (.decode e)
      | .ok (i, len) => runInstr s (bs.getD 0 0) i len

/-- A thread in `wait_for_notification` (43 R700, 60 R912, R916; log 37): an asynchronous exception with AIP at the
`wait`, a notification that it consumes, or nothing. -/
def runWaiting (s : State) (k : Fin 3) : Host.Outcome State Fault Refusal :=
  if !s.inSR && (s.pendHalt || s.pendSW) then .next (takeException { s with run := .running })
  else if s.notify k != 0 then .next (advance s.spf { s.addNotify k false with run := .running })
  else .next s

/-- One step of the thread (70 R954). -/
def threadStep (s : State) : Host.Outcome State Fault Refusal :=
  match s.run with
  | .ended => .fault .threadEnded
  | .waiting k => runWaiting s k
  | .running => runBoundary s

/-- One step of the machine: the next host action, or the thread (92 D1; log 7). -/
def machineStep (s : State) : Host.Outcome State Fault Refusal :=
  match s.host with
  | [] => threadStep s
  | .run :: rest => threadStep { s with host := rest }
  | a :: rest => .next (hostApply { s with host := rest } a)

end Sys2Proof.Machine
end

