-- ==== Sys2Proof/Machine/Step.lean ====
section
/-! DEFINITION. The step of the machine and the host's probe of one instruction. -/

namespace Sys2Proof.Machine

/-- One step (spec/92_eei_decisions.md D1). -/
def step (s : State) : Host.Outcome State Fault Refusal := machineStep s

/-- The state with the instruction w in instruction memory at IP (spec/20_memory.md R201, R203; log 6): what the launch
supplies (92 D2). -/
def State.withFetchWord (s : State) (nbits w : Nat) : State :=
  { s with imem := Memory.writeBytes s.imem s.ip.toNat (leBytes 16 (w % 2 ^ nbits)) }

end Sys2Proof.Machine
end

