-- ==== Sys2Proof/Safety.lean ====
section
/-! DEFINITION. The terms that claims about the machine use: the legal states, and what a data instruction leaves in every part of the state (spec/40_common_execution.md R400, R452 to R465; spec/10_state.md R52, R59 to R91). -/

namespace Sys2Proof

/-- The operand names an architecture register. -/
def Loc.names (a : Arf) (l : Loc) : Bool :=
  match l with
  | .arf r _ => r = a
  | _ => false

end Sys2Proof

namespace Sys2Proof.Machine

/-! ## Legal states -/

/-- An instruction address: bits 2:0 are zero (10_state R78, R82; 20_memory R202). -/
def aligned8 (a : DWord) : Bool := a &&& 7 = 0

/-- What every step keeps: instruction memory in its canonical form, every instruction address aligned (SIP to 16 bytes),
the unpopulated bits of a0, sr0 and cr0 zero (20_memory R203, R205, R208; 10_state R60, R72, R73, R76 to R79, R82, R83). -/
structure State.Inv (s : State) : Prop where
  imem : Memory.wf s.imem = true
  ip : aligned8 s.ip = true
  nextIP : aligned8 s.nextIP = true
  sip : s.launch.sip &&& 15 = 0
  aip : aligned8 s.cr02 = true
  pcIP : ∀ n : Fin 32, aligned8 s.pcIP[n] = true
  a0 : ∀ k : Fin 8, 2 ≤ k.val → s.a0[k].toNat < 4096
  cr00 : s.cr00 &&& ~~~cr00Mask = 0
  cr01 : s.cr01 &&& ~~~cr01Mask = 0
  sr00 : s.sr00 &&& ~~~sr00Stored = 0
  sr01 : s.sr01 &&& ~~~sr01Mask = 0

/-- The step ends in a next state: no fault, no refusal. -/
def safeStep (s : State) : Bool :=
  match step s with
  | .next _ => true
  | _ => false

/-! ## What a data instruction leaves -/

/-- The GRF byte address of the destination element of channel n. -/
def dstByte (s : State) (h : Header) (d : Dst) (n : Nat) : Nat := (dstAddr s h d n).toNat

/-- Channel n's destination element overlaps no other channel's: always so in a direct region, whose stride is not 0. -/
def dstAlone (s : State) (h : Header) (d : Dst) (n : Nat) : Prop :=
  ∀ m, m < h.count → m ≠ n →
    dstByte s h d m + d.ty.size ≤ dstByte s h d n ∨ dstByte s h d n + d.ty.size ≤ dstByte s h d m

/-- Channel n writes its destination element: enabled, and its Align16 component too (40 R452, R453). -/
def dstOn (d : Dst) (en : Nat → Bool) (n : Nat) : Prop := en n = true ∧ d.region.chanOn n = true

/-- What a write of accumulator channels in a format leaves (10_state R64, R65): the channels of `ch` hold what the format
keeps of their values `v`, in every later view; the other channels of an accumulator that was written hold what they held; an
accumulator that was not written is unchanged. `draw` numbers the free values of a view in another format (log 12). -/
def AccPost (a b : Acc) (draw : Nat) (fmt : AccFmt) (ch : Nat → Prop) (v : Nat → QWord) : Prop :=
  (∀ j, j < fmt.channels → ch j → ∀ k, b.get fmt k j = fmt.keep (v j)) ∧
  (∀ j, j < fmt.channels → ¬ ch j → (∃ i, i < fmt.channels ∧ ch i ∧ fmt.inAcc1 i = fmt.inAcc1 j) →
    ∀ k, b.get fmt k j = a.get fmt draw j) ∧
  ((∀ i, i < fmt.channels → ch i → fmt.inAcc1 i = true) → b.acc0 = a.acc0) ∧
  ((∀ i, i < fmt.channels → ch i → fmt.inAcc1 i = false) → b.acc1 = a.acc1)

/-- The accumulators after those elements of an instruction that are `on` are written to them, element n with value `val n` to
channel `chan n`; a DF channel is written half by half (10_state R64, R65; 40 R428, log 29). -/
def AccWritten (s t : State) (h : Header) (fmt : AccFmt) (on : Nat → Bool) (chan : Nat → Nat) (val : Nat → QWord) : Prop :=
  (fmt = .df → 2 ≤ h.count) → ∀ v : Nat → QWord,
    (∀ n, n < h.count → on n = true → v (chan n) = if fmt = .df then accPair s on val (chan n) else val n) →
    AccPost s.acc t.acc s.draw fmt (fun j => ∃ n, n < h.count ∧ on n = true ∧ chan n = j) v

/-- The channels of an explicit accumulator destination (10_state R57, R64; log 55). -/
def accDstOn (d : Dst) (en : Nat → Bool) (n : Nat) : Bool := en n && d.region.chanOn n
def accDstChannel (d : Dst) (base : Nat) (fmt : AccFmt) (n : Nat) : Nat :=
  if fmt = .df then n / 2 else base + n * d.region.stride

/-- The state after a data instruction (40 R400 steps 11 to 14), in terms of what each enabled channel n computes:
`bits n` for the destination element, `flag n` for the flag bit, `accv n` for the implicit accumulator write, `wide n` for an
explicit accumulator destination. `flags`: the conditional modifier writes flags; `acc`: the format of the implicit accumulator
write; `en`, `accEn`: the enabled channels; `tm0`: a source is tm0. -/
structure DataPost (s t : State) (h : Header) (d : Dst) (flags : Bool) (acc : Option AccFmt) (tm0 : Bool)
    (en accEn : Nat → Bool) (bits : Nat → DWord) (flag : Nat → Bool) (accv wide : Nat → QWord) : Prop where
  /-- an enabled channel's element of a GRF destination (R452) -/
  written : d.loc.isArf = false → ∀ n, n < h.count → dstOn d en n → dstAlone s h d n →
    ∀ i, i < d.ty.size → grfByte t.grf (dstByte s h d n + i) = (bits n).extractLsb' (8 * i) 8
  /-- every other byte of the GRF (10_state R52) -/
  kept : ∀ a, (d.loc.isArf = false → ∀ n, n < h.count → dstOn d en n →
      a < dstByte s h d n ∨ dstByte s h d n + d.ty.size ≤ a) →
    grfByte t.grf a = grfByte s.grf a
  /-- the flag bits of the enabled channels (R463) -/
  flagWritten : flags = true → ∀ n, n < h.count → wrEn s h n = true →
    (t.flagReg h.flagReg).getLsbD (flagIndex h n) = flag n
  /-- every other flag bit, unless the destination is a flag register (10_state R69) -/
  flagKept : d.loc.names .f0 = false → d.loc.names .f1 = false → ∀ (r : Bool) (i : Nat),
    (flags = true → r = h.flagReg → ∀ n, n < h.count → wrEn s h n = true → flagIndex h n ≠ i) →
    (t.flagReg r).getLsbD i = (s.flagReg r).getLsbD i
  /-- the accumulator channels of an implicit write, whatever the destination (R465, 10_state R65) -/
  accWritten : ∀ fmt, acc = some fmt → fmt ≠ .df → s.accDisable = false → ∀ n, n < h.count → accEn n = true →
    accChannel h fmt n < fmt.channels → ∀ k, t.acc.get fmt k (accChannel h fmt n) = fmt.keep (accv n)
  /-- an implicit write and what it leaves out (10_state R65: "Data in disabled channels is not updated") -/
  accImplicit : ∀ fmt, acc = some fmt → s.accDisable = false → d.loc.isAcc = false →
    AccWritten s t h fmt accEn (accChannel h fmt) accv
  /-- an explicit accumulator destination and what it leaves out (10_state R57, R64; 41 R600, 44 R741) -/
  accExplicit : ∀ base fmt, accOperand d.loc = some base → accFmt d.ty = some fmt →
    (acc = none ∨ s.accDisable = true ∨ ∀ n, n < h.count → accEn n = false) →
    AccWritten s t h fmt (accDstOn d en) (accDstChannel d base fmt) wide
  /-- without an accumulator write the accumulators stay (10_state R65) -/
  accKept : (acc = none ∨ s.accDisable = true ∨ ∀ n, n < h.count → accEn n = false) → d.loc.isAcc = false → t.acc = s.acc
  /-- the scoreboard marks (70 R961) -/
  depMarked : ∀ r ∈ dstRegs s h d, r < 128 → (∃ n, n < h.count ∧ en n = true) → t.depOf r = h.noDDClr
  depKept : ∀ r, r ∉ dstRegs s h d → t.depOf r = s.depOf r
  /-- the mark of a0 (10_state R63; log 50) -/
  a0Marked : d.isA0 = true → (∃ n, n < h.count ∧ en n = true) → t.depA0 = h.noDDClr
  depA0Kept : d.isA0 = false → t.depA0 = s.depA0
  a0Kept : d.isA0 = false → t.a0 = s.a0
  sr0Kept : d.loc.names .sr0 = false → t.sr00 = s.sr00 ∧ t.sr01 = s.sr01 ∧ t.sr02 = s.sr02 ∧ t.sr03 = s.sr03
  cr0Kept : d.loc.names .cr0 = false → t.cr00 = s.cr00 ∧ t.cr01 = s.cr01 ∧ t.cr02 = s.cr02
  tdrKept : d.loc.names .tdr0 = false → t.tdr = s.tdr
  /-- IP and the channels at the instruction advance (42 R631) -/
  next : d.loc.names .ip = false → t.nextIP = s.nextIP ∧ t.ip = s.nextIP ∧
    t.pcIP = (if s.spf then s.pcIP else s.pcIP.map fun p => if p = s.ip then s.nextIP else p)
  /-- the notification counts: writable during a context restore only (10_state R80, R81; log 76) -/
  n0Kept : d.loc.names .n0 = false ∨ s.restoring = false → t.n00 = s.n00 ∧ t.n01 = s.n01 ∧ t.n02 = s.n02
  /-- a read of tm0 clears TmEvent (10_state R85) -/
  event : d.loc.names .tm0 = false ∨ s.restoring = false → t.tmEvent = (if tm0 then false else s.tmEvent)
  /-- nothing else changes -/
  frame : t = { s with
    grf := t.grf, a0 := t.a0, acc := t.acc, f0 := t.f0, f1 := t.f1,
    sr00 := t.sr00, sr01 := t.sr01, sr02 := t.sr02, sr03 := t.sr03,
    cr00 := t.cr00, cr01 := t.cr01, cr02 := t.cr02, n00 := t.n00, n01 := t.n01, n02 := t.n02,
    ip := t.ip, pcIP := t.pcIP, tdr := t.tdr, tmEvent := t.tmEvent, dep := t.dep, depA0 := t.depA0,
    nextIP := t.nextIP }

/-- The instruction meets every restriction the spec states for it. -/
abbrev Allowed (l : List Check) : Prop := firstViolation l = none

/-- The instruction does not leave the System Routine: it is outside it, or its destination is not cr0 (60 R908). -/
abbrev StaysIn (s : State) (d : Dst) : Prop := s.inSR = false ∨ d.loc.isCr0 = false

/-- `exec i s` answers a next state that holds, on every enabled channel n, the values that `val n` allows: the bits of
the destination element, the flag bit, the accumulator value, and what an accumulator destination takes. -/
def DataNext (s : State) (i : Instr) (h : Header) (d : Dst) (flags : Bool) (acc : Option AccFmt) (tm0 : Bool)
    (en accEn : Nat → Bool) (val : Nat → DWord → Bool → QWord → QWord → Prop) : Prop :=
  ∃ t bits flag accv wide, exec i s = .next t ∧ DataPost s t h d flags acc tm0 en accEn bits flag accv wide ∧
    ∀ n, n < h.count → en n = true → val n (bits n) (flag n) (accv n) (wide n)

/-- The usual case: WrEn enables, the conditional modifier writes flags, AccWrCtrl the accumulator (40 R400). -/
def DataStep (s : State) (i : Instr) (h : Header) (cm : CondMod) (d : Dst) (srcs : List Src)
    (val : Nat → DWord → Bool → QWord → QWord → Prop) : Prop :=
  DataNext s i h d (cm != .none) (implicitFmt h srcs) (srcs.any Src.isTm0) (wrEn s h) (wrEn s h) val

/-! ## Values -/

/-- An integer v as the result of channel n, in the type of the destination (40 R433, R434, R450, R460, R465). -/
def IntAs (s : State) (h : Header) (cm : CondMod) (ty : RegType) (v : Int) (n : Nat)
    (bits : DWord) (flag : Bool) (accv wide : QWord) : Prop :=
  match ty with
  | .f =>
    let r := ofIntSigned { modeF s with flush := false } false v
    bits = BitVec.ofNat 32 ((if h.sat then fsat fmtF r.val else r.val).toBits fmtF 0) ∧
      flag = condition cm { neg := r.val.sign, zero := (r.val.flushIn (modeF s)).isZero, ov := r.ov, nan := r.val.isNan } ∧
      accv = BitVec.ofInt 64 v ∧ wide = bits.setWidth 64
  | .df =>
    let r := ofIntSigned { modeDF s with flush := false } false v
    wide = BitVec.ofNat 64 ((if h.sat then fsat fmtDF r.val else r.val).toBits fmtDF 0) ∧ bits = halfOf wide n ∧
      flag = condition cm { neg := r.val.sign, zero := (r.val.flushIn (modeDF s)).isZero, ov := r.ov, nan := r.val.isNan } ∧
      accv = BitVec.ofInt 64 v
  | ty =>
    bits = BitVec.ofInt 32 (if h.sat then clampInt ty v else v) ∧
    flag = condition cm
      { neg := wrapInt ty v < 0, zero := wrapInt ty v = 0, ov := v < ty.lo || ty.hi < v, nan := false } ∧
    accv = BitVec.ofInt 64 v ∧ wide = BitVec.ofInt 64 (if h.sat then clampInt ty v else v)

/-- An exact integer v as the result of channel n of an integer instruction: within the accumulator width it is v; beyond it
`.sat` and a condition leave it free (U23), and without them it is what the width keeps of v (10_state R66 g). -/
def IntValue (s : State) (h : Header) (cm : CondMod) (ty : RegType) (width : Nat) (v : Int) (n : Nat)
    (bits : DWord) (flag : Bool) (accv wide : QWord) : Prop :=
  (fitsInt width v = true → IntAs s h cm ty v n bits flag accv wide) ∧
  (fitsInt width v = false → h.sat = false → cm = .none →
    IntAs s h cm ty ((BitVec.ofInt width v).toInt) n bits flag accv wide)

/-- A DWord result that neither saturation nor a condition touches. -/
def PlainBits (v : DWord) (bits : DWord) (_flag : Bool) (_accv wide : QWord) : Prop := bits = v ∧ wide = v.setWidth 64

/-- A bit pattern holds a float value: the value's own pattern, or any NaN pattern for a NaN (40 R480, U22). -/
def HoldsFloat {w : Nat} (f : FFmt) (v : FVal) (bits : BitVec w) : Prop :=
  if v.isNan then (FVal.ofBits f bits.toNat).isNan = true else bits = BitVec.ofNat w (v.toBits f 0)

/-- A float result of an F instruction with an F destination (40 R450, R460, R481): free if an input of ALT mode is an
infinity or a NaN. -/
def FloatValue (s : State) (h : Header) (cm : CondMod) (inputs : List FVal) (r : FRes)
    (bits : DWord) (flag : Bool) (accv wide : QWord) : Prop :=
  altUndefined s inputs = false →
    HoldsFloat fmtF (if h.sat then fsat fmtF r.val else r.val) bits ∧
    flag = condition cm { neg := r.val.sign, zero := (r.val.flushIn (modeF s)).isZero, ov := r.ov, nan := r.val.isNan } ∧
    accv = bits.setWidth 64 ∧ wide = bits.setWidth 64

/-- A DF result of channel n's pair with a DF destination: the half that the channel holds (40 R428, R450, R460). -/
def DFValue (s : State) (h : Header) (cm : CondMod) (r : FRes) (n : Nat) (bits : DWord) (flag : Bool)
    (accv wide : QWord) : Prop :=
  HoldsFloat fmtDF (if h.sat then fsat fmtDF r.val else r.val) accv ∧
  wide = accv ∧ bits = halfOf accv n ∧
  flag = condition cm { neg := r.val.sign, zero := (r.val.flushIn (modeDF s)).isZero, ov := r.ov, nan := r.val.isNan }

/-! ## The source values of a channel -/

/-- The sources of channel n of a two-source instruction, as integers, F numbers and DF numbers (40 R400 step 6). -/
def int0 (s : State) (b : Basic2) (n : Nat) : Int := srcInt s b.hdr (dstTwoRegs s b.hdr b.dst) 0 (.reg b.src0) n
def int1 (s : State) (b : Basic2) (n : Nat) : Int := srcInt s b.hdr (dstTwoRegs s b.hdr b.dst) 1 b.src1 n
def flt0 (s : State) (b : Basic2) (n : Nat) : FVal := valF s b.hdr (dstTwoRegs s b.hdr b.dst) 0 (.reg b.src0) n
def flt1 (s : State) (b : Basic2) (n : Nat) : FVal := valF s b.hdr (dstTwoRegs s b.hdr b.dst) 1 b.src1 n
def dbl0 (s : State) (b : Basic2) (n : Nat) : FVal := valDF s b.hdr (dstTwoRegs s b.hdr b.dst) 0 (.reg b.src0) n
def dbl1 (s : State) (b : Basic2) (n : Nat) : FVal := valDF s b.hdr (dstTwoRegs s b.hdr b.dst) 1 b.src1 n

/-- The 32-bit source patterns of channel n. -/
def bits0 (s : State) (b : Basic2) (n : Nat) : DWord := srcBits s b.hdr (dstTwoRegs s b.hdr b.dst) 0 (.reg b.src0) n
def bits1 (s : State) (b : Basic2) (n : Nat) : DWord := srcBits s b.hdr (dstTwoRegs s b.hdr b.dst) 1 b.src1 n

/-- The source of channel n of a one-source instruction. -/
def intS (s : State) (b : Basic1) (n : Nat) : Int := srcInt s b.hdr (dstTwoRegs s b.hdr b.dst) 0 b.src0 n
def fltS (s : State) (b : Basic1) (n : Nat) : FVal := valF s b.hdr (dstTwoRegs s b.hdr b.dst) 0 b.src0 n
def bitsS (s : State) (b : Basic1) (n : Nat) : DWord := srcBits s b.hdr (dstTwoRegs s b.hdr b.dst) 0 b.src0 n

/-- The sources of channel n of a three-source instruction (40 R425). -/
def triInt (s : State) (t : Tri) (k : Nat) (src : TriSrc) (n : Nat) : DWord :=
  srcBits s t.hdr (dstTwoRegs s t.hdr t.dst) k (src.toSrc t.srcTy) n

/-- The accumulator channel width of a two-source integer instruction (10_state R64). -/
def accWidth (b : Basic2) : Nat := (execTy (b.srcs.map Src.regType)).accBits

/-! ## Steps by kind of result -/

/-- Every enabled channel n of a two-source instruction holds the exact integer `v n` as its result. -/
def IntStep (s : State) (i : Instr) (b : Basic2) (width : Nat) (v : Nat → Int) : Prop :=
  DataStep s i b.hdr b.cmod b.dst b.srcs (fun n => IntValue s b.hdr b.cmod b.dst.ty width (v n) n)

/-- Every enabled channel n of a two-source instruction holds the F result `r n` of its inputs. -/
def FloatStep (s : State) (i : Instr) (b : Basic2) (inputs : Nat → List FVal) (r : Nat → FRes) : Prop :=
  DataStep s i b.hdr b.cmod b.dst b.srcs (fun n => FloatValue s b.hdr b.cmod (inputs n) (r n))

/-- Every enabled channel n of a two-source instruction holds its half of the DF result `r n`. -/
def DFStep (s : State) (i : Instr) (b : Basic2) (r : Nat → FRes) : Prop :=
  DataStep s i b.hdr b.cmod b.dst b.srcs (fun n => DFValue s b.hdr b.cmod (r n) n)

/-- Every enabled channel n of an instruction without modifiers holds the pattern `v n`; no flag is written. -/
def BitsStep (s : State) (i : Instr) (h : Header) (d : Dst) (srcs : List Src) (v : Nat → DWord) : Prop :=
  DataStep s i h .none d srcs (fun n => PlainBits (v n))

/-! ## Plain meanings of values -/

/-- A rational truncated toward zero. -/
def truncRat (q : Rat) : Int := if 0 ≤ q then q.floor else -((-q).floor)

/-- The six integer relations of a conditional modifier (40 R460, R462). -/
def relates (c : CondMod) (x y : Rat) : Bool :=
  match c with
  | .z => x = y
  | .nz => x ≠ y
  | .g => y < x
  | .ge => y ≤ x
  | .l => x < y
  | .le => x ≤ y
  | .none | .o | .u => false

/-- k bits stand above the highest 1 bit of a pattern. -/
def IsLeadingZeros (v : DWord) (k : Nat) : Prop :=
  k < 32 ∧ v.getLsbD (31 - k) = true ∧ ∀ i, 31 - k < i → v.getLsbD i = false

/-- k bits stand below the lowest 1 bit of a pattern. -/
def IsTrailingZeros (v : DWord) (k : Nat) : Prop :=
  k < 32 ∧ v.getLsbD k = true ∧ ∀ i, i < k → v.getLsbD i = false

/-- Two F results added, an overflow of either kept. -/
def plusF (md : FMode) (x y : FRes) : FRes :=
  { val := (fadd md x.val y.val).val, ov := x.ov || y.ov || (fadd md x.val y.val).ov }

/-- The F or DF result of an exact number x: rounded once, a zero if x is 0 (40 R483). -/
def RoundedOnce (md : FMode) (x : Rat) (r : FRes) : Prop :=
  (x ≠ 0 → ∃ neg m e, (FVal.fin neg m e).toRat = x ∧ r = roundFin md neg m e) ∧
  (x = 0 → r.val.isZero = true ∧ r.ov = false)

/-- None of the inputs is an infinity or a NaN. -/
def AllFinite (l : List FVal) : Prop := ∀ v, v ∈ l → v.isSpecial = false

/-! ## Branches -/

/-- IP plus an offset in 8-byte units (42 R630). -/
def off8 (ip : DWord) (k : BitVec 16) : DWord := ip + BitVec.ofInt 32 (8 * k.toInt)

/-- After a branch only IP and the channel IPs differ: enabled channels are at `taken`, the others that were at the
branch at `fall`, channels parked elsewhere where they were (42 R631, R632). -/
def BranchPost (s t : State) (en : Nat → Bool) (taken fall : DWord) : Prop :=
  t = { s with pcIP := t.pcIP, ip := t.ip } ∧
  ∀ c : Fin 32, t.pcIP[c] = if en c.val then taken else if s.pcIP[c] = s.ip then fall else s.pcIP[c]

/-- Some channel's IP is the address. -/
def ChannelAt (t : State) (a : DWord) : Prop := ∃ c : Fin 32, t.pcIP[c] = a

/-- The instruction completes: `exec` answers a next state with the given property. -/
def Completes (i : Instr) (s : State) (p : State → Prop) : Prop := ∃ t, exec i s = .next t ∧ p t

/-- The thread at an instruction boundary, with no host action and no pending exception before it, fetches the
instruction i of `len` bytes; `op` is its opcode byte (20_memory R203, 30_encoding R253, 60 R920). -/
def Fetches (s : State) (i : Instr) (len : Nat) (op : Byte) : Prop :=
  s.host = [] ∧ s.run = .running ∧ (s.inSR = true ∨ (s.pendHalt = false ∧ s.pendSW = false)) ∧
    ∃ bs, fetchBytes s = .ok bs ∧ decodeBytes bs = .ok (i, len) ∧ op = bs.getD 0 0

/-- No breakpoint condition that the thread recognises stands before the instruction, and none is latched (60 R913). -/
def NoBreak (s : State) (i : Instr) (op : Byte) : Prop :=
  breakTrigger s op i = false ∧ (s.inSR = true ∨ s.cr01.getLsbD 31 = false ∨ s.cr01.getLsbD 15 = false)

/-- The system routine entered at an instruction boundary: AIP, Master Exception State and IP are written (60 R905); the
run state is `running`, and the next instruction does not follow a `wait` of the routine. -/
def EnteredFrom (s : State) : State :=
  { s with cr02 := alignIP s.ip, cr00 := s.cr00 ||| 0x80000000, ip := s.launch.sip, run := .running, curWait := false }

/-- A scalar UD `mov` of an immediate to an architecture register (41 R600). -/
def scalarMov (h : Header) (r : Arf) (sub : BitVec 5) (v : DWord) : Basic1 :=
  { hdr := h, cmod := .none, dst := { loc := .arf r sub, ty := .ud, region := .a1 .h1 }, src0 := .imm .ud v }

/-- The header and the conditional modifier of an instruction that writes flags by it: neither `sel` nor a format without
one (40 R463). -/
def flagWriter : Instr → Option (Header × CondMod)
  | .sel _ | .jmpi _ | .ret _ | .wait _ | .movi _ => none
  | i =>
    match i.form with
    | .basic1 b => some (b.hdr, b.cmod)
    | .basic2 b => some (b.hdr, b.cmod)
    | .tri t => some (t.hdr, t.cmod)
    | _ => none

/-- The instruction names a flag register as its destination. -/
def flagDst (i : Instr) : Bool :=
  match i.form with
  | .basic1 b => b.dst.loc.names .f0 || b.dst.loc.names .f1
  | .basic2 b => b.dst.loc.names .f0 || b.dst.loc.names .f1
  | _ => false

end Sys2Proof.Machine
end

