-- ==== Sys2Proof/Certificates/Slice0/Obligations.lean ====
section
/-! DEFINITION. The statements about the machine, for the provers (spec/ rule by rule; OBLIGATIONS.json lists them). -/

open Sys2Proof Sys2Proof.Machine

/-! ## Encoding -/

/-- Decoding the encoding of a well-formed instruction gives it back, with every operand at every value (30 R250 to R300). -/
def Obligations.EncodingRoundTrip : Prop :=
  ∀ i : Instr, i.wf = true → decodeBytes (encode i) = .ok (i, 16)

/-- Whatever bytes the decoder accepts, the instruction it reads has a native encoding; the opcode byte selects its row of
the opcode table, an unassigned one is `illegal`, and CmptCtrl (bit 29) selects the length (30 R253 to R302). -/
def Obligations.DecodedInstruction : Prop :=
  (∀ (bs : List Byte) (i : Instr) (len : Nat), decodeBytes bs = .ok (i, len) →
    i.wf = true ∧ (i.opcode = bs.getD 0 0 ∨ (i = .illegal ∧ ∀ j : Instr, j.opcode ≠ bs.getD 0 0)) ∧
    len = (if (bs.getD 3 0).getLsbD 5 then 8 else 16)) ∧
  (∀ bs : List Byte, 16 ≤ bs.length → (∀ j : Instr, j.opcode ≠ bs.getD 0 0) →
    ∃ len, decodeBytes bs = .ok (.illegal, len))

/-- A compact word stands for the native word that the map of R331 and the tables of R333 to R336 give, and decodes as it
(30 R330 to R336); where the instruction has no src1, the null src1's type is read as src0's, whatever the table gives
(DESIGN CHOICE: log 75). -/
def Obligations.CompactFieldsLand : Prop :=
  ∀ c : CompactWord,
    let w := expandCompact c
    let ct := tableRow controlIndexTable (c.extractLsb' 8 5)
    let dt := tableRow dataTypeIndexTable (c.extractLsb' 13 5)
    let sr := tableRow subRegIndexTable (c.extractLsb' 18 5)
    w.extractLsb' 0 8 = c.extractLsb' 0 8 ∧
    w.extractLsb' 8 16 = ct.extractLsb' 0 16 ∧
    w.getLsbD 31 = ct.getLsbD 16 ∧
    w.extractLsb' 89 2 = ct.extractLsb' 17 2 ∧
    w.extractLsb' 24 4 = c.extractLsb' 24 4 ∧
    w.getLsbD 28 = c.getLsbD 23 ∧
    w.extractLsb' 32 15 = dt.extractLsb' 0 15 ∧
    w.extractLsb' 61 3 = dt.extractLsb' 15 3 ∧
    w.extractLsb' 48 5 = sr.extractLsb' 0 5 ∧
    w.extractLsb' 53 8 = c.extractLsb' 40 8 ∧
    w.extractLsb' 64 5 = sr.extractLsb' 5 5 ∧
    w.extractLsb' 69 8 = c.extractLsb' 48 8 ∧
    w.extractLsb' 77 12 = tableRow srcIndexTable (c.extractLsb' 30 5) ∧
    w.getLsbD 29 = false ∧ w.getLsbD 30 = false ∧ w.getLsbD 47 = false ∧ w.extractLsb' 91 5 = 0 ∧
    (if w.extractLsb' 37 2 = 3 ∨ w.extractLsb' 42 2 = 3 then
      w.extractLsb' 96 32 = (c.extractLsb' 35 5 ++ c.extractLsb' 56 8).signExtend 32
     else
      w.extractLsb' 96 5 = sr.extractLsb' 10 5 ∧ w.extractLsb' 101 8 = c.extractLsb' 56 8 ∧
      w.extractLsb' 109 12 = tableRow srcIndexTable (c.extractLsb' 35 5) ∧ w.extractLsb' 121 7 = 0) ∧
    (c.extractLsb' 0 8 ≠ 0x7E#8 → isTriOpcode (c.extractLsb' 0 8) = false → c.getLsbD 28 = false →
      ∃ v : NativeWord, decodeCompact c = decodeNative v ∧
        v.extractLsb' 0 44 = w.extractLsb' 0 44 ∧ v.extractLsb' 47 81 = w.extractLsb' 47 81 ∧
        (lacksSrc1 w = true → v.extractLsb' 44 3 = w.extractLsb' 39 3) ∧ (lacksSrc1 w = false → v = w))

/-- Words written out from the encoding tables decode to the instructions they stand for (95 E1, E12, E17, E20, E23), and the
32 rows of each compaction table are those printed (30 R333 to R336). -/
def Obligations.KnownWords : Prop :=
  (∃ b, decodeTableWord 128 0x00000000_008D0040_21400021_00600001 = some (.mov b) ∧ b.hdr.size = .s8 ∧
    b.dst = { loc := .grf 10 0, ty := .ud, region := .a1 .h1 } ∧
    b.src0 = .reg { loc := .grf 2 0, ty := .ud, mod := .none, region := .a1 .v8 .w8 .h1 }) ∧
  (∃ b, decodeTableWord 128 0x000A0004_00000000_20003C84_00618023 = some (.brc b) ∧ b.hdr.thread = .switch ∧
    b.hdr.pred = .seq ∧ b.jip = 4 ∧ b.uip = 10) ∧
  (∃ b, decodeTableWord 128 0x00000004_00001400_34001C00_00000220 = some (.jmpi b) ∧ b.hdr.noMask = true ∧
    b.src1 = .imm .d 4) ∧
  (∃ b, decodeTableWord 128 0x00000000_00001204_32040000_00000030 = some (.wait b) ∧ b.dst.loc = .arf .n0 4) ∧
  decodeTableWord 128 0x00000000_00000000_00000000_0080007E = some (.nop false) ∧
  ((List.range 32).map (fun k => (tableRow controlIndexTable (BitVec.ofNat 5 k)).toNat) =
     [0x2, 0x4000, 0x4001, 0x4002, 0x4003, 0x4004, 0x4005, 0x4007, 0x4008, 0x4009, 0x400D, 0x6000, 0x6001, 0x6002,
      0x6003, 0x6004, 0x6005, 0x6007, 0x6009, 0x600D, 0x6010, 0x6100, 0x8000, 0x8002, 0x8004, 0x8100, 0x16000,
      0x16010, 0x18000, 0x18100, 0x28000, 0x28100]) ∧
  ((List.range 32).map (fun k => (tableRow dataTypeIndexTable (BitVec.ofNat 5 k)).toNat) =
     [0x8001, 0x8020, 0x8021, 0x8061, 0x80BD, 0x82FD, 0x83A1, 0x83A5, 0x83BD, 0x8421, 0x8C20, 0x8C21, 0x94A5, 0x9CA4,
      0x9CA5, 0xF3BD, 0xF79D, 0xF7BC, 0xF7BD, 0xFFBC, 0x20C, 0x803D, 0x80A5, 0x8420, 0x94A4, 0x9C84, 0xA509, 0xDFBD,
      0xFFBD, 0xBDAC, 0xA528, 0xAD28]) ∧
  ((List.range 32).map (fun k => (tableRow subRegIndexTable (BitVec.ofNat 5 k)).toNat) =
     [0x0, 0x1, 0x8, 0xF, 0x10, 0x80, 0x100, 0x180, 0x200, 0x210, 0x280, 0x1000, 0x1001, 0x1081, 0x1082, 0x1083,
      0x1084, 0x1087, 0x1088, 0x108E, 0x108F, 0x1180, 0x11E8, 0x2000, 0x2180, 0x3000, 0x3C87, 0x4000, 0x5000, 0x6000,
      0x7000, 0x701C]) ∧
  ((List.range 32).map (fun k => (tableRow srcIndexTable (BitVec.ofNat 5 k)).toNat) =
     [0x0, 0x2, 0x10, 0x12, 0x18, 0x20, 0x28, 0x48, 0x50, 0x70, 0x78, 0x300, 0x302, 0x308, 0x310, 0x312, 0x320, 0x328,
      0x338, 0x340, 0x342, 0x348, 0x350, 0x360, 0x368, 0x370, 0x371, 0x378, 0x468, 0x469, 0x46A, 0x588])

/-! ## The step -/

/-- The state after reset is legal (10_state R59 to R91, 70 R950). -/
def Obligations.ResetInv : Prop := State.reset.Inv

/-- Every step keeps the legal states: aligned instruction addresses, unpopulated bits zero, canonical instruction memory
(10_state R60, R72, R73, R76 to R78, R82, R83; 20_memory R203). -/
def Obligations.StepKeepsInv : Prop :=
  ∀ s t : State, s.Inv → step s = .next t → t.Inv

/-- No step writes instruction memory, SIP or another launch parameter; a step enqueues at most one message and takes none
back (20_memory R206, R210; 10_state R79). -/
def Obligations.CodeLaunchAndSentMessagesStay : Prop :=
  ∀ s t : State, step s = .next t →
    t.imem = s.imem ∧ t.launch = s.launch ∧ (t.messages = s.messages ∨ ∃ msg, t.messages = s.messages ++ [msg])

/-- The only way into the System Routine is the entry of R905: IP becomes SIP, AIP is the instruction it was entered at,
and every register of the application keeps its value (60 R905, R906, R921). -/
def Obligations.OnlyRaiseEntersSystemRoutine : Prop :=
  ∀ s t : State, step s = .next t → s.inSR = false → t.inSR = true →
    t.ip = s.launch.sip ∧ t.cr02 = alignIP s.ip ∧ t.pcIP = s.pcIP ∧ t.callMask = s.callMask ∧
    t.cr00 &&& 0x7FFF7FFF = s.cr00 &&& 0x7FFF7FFF ∧
    t.grf = s.grf ∧ t.a0 = s.a0 ∧ t.acc = s.acc ∧ t.f0 = s.f0 ∧ t.f1 = s.f1 ∧
    t.sr00 = s.sr00 ∧ t.sr01 = s.sr01 ∧ t.sr02 = s.sr02 ∧ t.sr03 = s.sr03 ∧
    t.n00 = s.n00 ∧ t.n01 = s.n01 ∧ t.n02 = s.n02 ∧ t.tdr = s.tdr ∧ t.dep = s.dep ∧ t.messages = s.messages

/-- Leaving the System Routine takes IP from AIP and restores nothing else (60 R908). -/
def Obligations.LeavingRestoresIPFromAIP : Prop :=
  ∀ s t : State, step s = .next t → s.inSR = true → t.inSR = false →
    t.ip = alignIP t.cr02 ∧ t.pcIP = s.pcIP ∧ t.callMask = s.callMask

/-- No instruction changes a general register beyond the thread's allocation: the isolation of register spaces
(60 R934, 10_state R53). -/
def Obligations.WritesStayInAllocation : Prop :=
  ∀ (i : Instr) (s t : State), exec i s = .next t →
    ∀ a, 32 * s.launch.grfCount ≤ a → grfByte t.grf a = grfByte s.grf a

/-- A conditional modifier changes the flag bits of the enabled channels only, and no other instruction, `sel` among
them, changes a flag unless a flag register is its destination (10_state R69). -/
def Obligations.FlagsChangeOnlyOnEnabledChannels : Prop :=
  ∀ (i : Instr) (s t : State), exec i s = .next t → flagDst i = false → ∀ (r : Bool) (k : Nat),
    (∀ h cm, flagWriter i = some (h, cm) → cm ≠ .none → r = h.flagReg →
      ∀ n, n < h.count → wrEn s h n = true → flagIndex h n ≠ k) →
    (t.flagReg r).getLsbD k = (s.flagReg r).getLsbD k

/-- A step runs the decoded instruction: NextIP follows from its length, and the model's counters of free values, of the
timestamp and of `wait` move (42 R630; 60 R920). -/
def Obligations.StepRunsDecoded : Prop :=
  ∀ (s : State) (i : Instr) (len : Nat) (op : Byte), Fetches s i len op → NoBreak s i op → isHeld s i = false →
    step s = exec i { s with
      nextIP := s.ip + BitVec.ofNat 32 len, draw := s.draw + 1, tm0 := Config.timestamp s.draw,
      prevWait := s.curWait, curWait := Instr.isWait i }

/-- An instruction placed at IP is what the next step runs: encoding, memory, fetch and decoding agree
(20_memory R201, R203; 30 R253). -/
def Obligations.PlacedInstructionRuns : Prop :=
  ∀ (s : State) (i : Instr), i.wf = true →
    let s' := s.withFetchWord 128 (encodeWord i).toNat
    s.host = [] → s.run = .running → (s.inSR = true ∨ (s.pendHalt = false ∧ s.pendSW = false)) →
    NoBreak s' i i.opcode → isHeld s' i = false → step s' = exec i (issue s' i 16)

/-- An instruction that reads or writes a marked register, a0 among them, or `sendc` with a dependent thread alive, is held:
the state stays (70 R961; 43 R702). NoDDChk waives the check of the destination (70 R962, 10_state R63). Model's choices: the
stutter is log 35, and that the hints bear on the mark of a0 as on that of a general register is log 50 (DEDUCED). -/
def Obligations.HeldInstructionWaits : Prop :=
  ∀ (s : State) (i : Instr) (len : Nat) (op : Byte), Fetches s i len op → NoBreak s i op →
    ((∃ r, r ∈ (uses s i).srcs ∧ s.depOf r = true) ∨
     (∃ r, r ∈ (uses s i).dsts ∧ s.depOf r = true ∧ (uses s i).noDDChk = false) ∨
     (s.depA0 = true ∧ (uses s i).a0Src = true) ∨
     (s.depA0 = true ∧ (uses s i).a0Dst = true ∧ (uses s i).noDDChk = false) ∨
     ((∃ m, i = .sendc m) ∧ ∃ e, e ∈ s.tdr.toList ∧ e.valid = true)) →
    step s = .next s

/-! ## Exceptions -/

/-- A pending External Halt or software exception is taken before the next instruction, also by a thread in `wait`
(60 R904, R905, R912, R920). Model's choices: cr0.1[30] and [14] as status and enable of the External Halt are general
knowledge (G2; PRESUMED, log 22), and that the entry ends the `wait` before it is log 37. -/
def Obligations.PendingExceptionTaken : Prop :=
  ∀ s : State, s.host = [] → s.run ≠ .ended → s.inSR = false →
    ((s.cr01.getLsbD 30 = true ∧ s.cr01.getLsbD 14 = true) ∨ (s.cr01.getLsbD 29 = true ∧ s.cr01.getLsbD 13 = true)) →
    step s = .next (EnteredFrom s)

/-- `illegal` sets its status bit; it enters the System Routine with AIP at itself if it is enabled outside the routine,
and is a no-operation otherwise. `nop` advances and does nothing else (43 R704, R705; 60 R907, R910; 42 R631). -/
def Obligations.IllegalAndNop : Prop :=
  ∀ s : State,
    (s.inSR = false → s.cr01.getLsbD 12 = true →
      exec .illegal s = .next { s with
        cr01 := s.cr01 ||| 0x10000000, cr02 := alignIP s.ip, cr00 := s.cr00 ||| 0x80000000, ip := s.launch.sip }) ∧
    (s.inSR = true ∨ s.cr01.getLsbD 12 = false →
      exec .illegal s = .next { s with
        cr01 := s.cr01 ||| 0x10000000, ip := s.nextIP,
        pcIP := if s.spf then s.pcIP else s.pcIP.map fun p => if p = s.ip then s.nextIP else p }) ∧
    (∀ d : Bool, exec (.nop d) s = .next { s with
      ip := s.nextIP, pcIP := if s.spf then s.pcIP else s.pcIP.map fun p => if p = s.ip then s.nextIP else p })

/-- The breakpoint check before an instruction, by DebugCtrl or a comparator of the host: taken with AIP at it, suppressed
once, or latched only (60 R913). Model's choices: cr0.1[31] as the status bit is general knowledge (G1; PRESUMED, log 22),
and the form of a comparator is log 48. -/
def Obligations.Breakpoint : Prop :=
  ∀ (s : State) (i : Instr) (len : Nat) (op : Byte), Fetches s i len op →
    let trig : Prop := debugBit i = true ∨
      ∃ c ∈ s.launch.breaks, (∀ a, c.addr = some a → a = s.ip) ∧ (∀ o, c.op = some o → o = op)
    (s.inSR = false → (trig ∨ s.cr01.getLsbD 31 = true) → s.cr01.getLsbD 15 = true → s.cr00.getLsbD 15 = false →
      step s = .next (EnteredFrom { s with cr01 := s.cr01 ||| 0x80000000 })) ∧
    (s.inSR = false → (trig ∨ s.cr01.getLsbD 31 = true) → s.cr01.getLsbD 15 = true → s.cr00.getLsbD 15 = true →
      isHeld s i = false → step s = exec i (issue { s with cr00 := s.cr00 &&& 0xFFFF7FFF } i len)) ∧
    (s.inSR = true ∨ s.cr01.getLsbD 15 = false → trig → isHeld s i = false →
      step s = exec i (issue { s with cr01 := s.cr01 ||| 0x80000000 } i len))

/-- A write that clears Master Exception State ends with IP at AIP if a SIMD-16 `nop` follows; the other bits of the
destination are written (60 R908, 70 R972). Only the form `and cr0.0 cr0.0 imm:ud` with bit 31 of the immediate 0. Model's
choice: how the word at NextIP is recognised as that `nop`, and the stop where it is not one, are log 19 (DEDUCED). -/
def Obligations.ClearingMasterReturns : Prop :=
  ∀ (s : State) (h : Header) (v : DWord),
    let b : Basic2 := {
      hdr := h, cmod := .none, dst := { loc := .arf .cr0 0, ty := .ud, region := .a1 .h1 },
      src0 := { loc := .arf .cr0 0, ty := .ud, mod := .none, region := .a1 .v0 .w1 .h0 }, src1 := .imm .ud v }
    s.Inv → h.size = .s1 → h.accWr = false → wrEn s h 0 = true →
    Allowed (logicChecks s h .none b.dst b.srcs) → s.inSR = true → v.getLsbD 31 = false → s.nopFollows = true →
    exec (.and_ b) s = .next { s with cr00 := s.cr00 &&& v &&& 0x0000807F, ip := alignIP s.cr02 }

/-- A scalar `mov` of a DWord to an architecture register leaves there what the register keeps: 12 bits of a0.2 to a0.7,
the populated bits of sr0 and cr0 (a set cr0.1[29] stays outside the System Routine), nothing in null, in n0 the counts and in
tm0 the event during a context restore and nothing otherwise, cleared valid bits in tdr0, a jump for `ip`, channel 0 of acc0
(10_state R57 to R60, R64, R67, R76 to R78, R80, R81, R84, R85; 60 R911). Model's choices: what a write leaves in the fields of
sr0 is log 14 (DEDUCED), that NoDDClr decides the mark that a write of a0 leaves is log 50 (DEDUCED), that the channels go along with a write of `ip` is
log 21 (DEDUCED), and that a restore is the System Routine where the host may preempt is log 76 (DESIGN CHOICE). -/
def Obligations.ScalarMoveToArchitectureRegister : Prop :=
  ∀ (s : State) (h : Header) (r : Arf) (sub : BitVec 5) (v : DWord),
    let b := scalarMov h r sub v
    let j := sub.toNat / 4
    s.Inv → h.size = .s1 → h.sat = false → h.accWr = false → wrEn s h 0 = true → Allowed (movChecks s b) →
    (r = .cr0 → s.inSR = true → j = 0 → v.getLsbD 31 = true) →
    Completes (.mov b) s fun t =>
      match r with
      | .null => t = advance s.spf s
      | .n0 =>
        t = advance s.spf { s with
          n00 := if s.restoring = true ∧ j = 0 then v.setWidth 16 else s.n00,
          n01 := if s.restoring = true ∧ j = 1 then v.setWidth 1 else s.n01,
          n02 := if s.restoring = true ∧ j = 2 then v.setWidth 16 else s.n02 }
      | .tm0 => t = advance s.spf { s with tmEvent := s.restoring || s.tmEvent }
      | .a0 =>
        (∀ k : Fin 8, t.a0[k] =
          (if k.val = 2 * j then a0Stored k.val (v.extractLsb' 0 16)
           else if k.val = 2 * j + 1 then a0Stored k.val (v.extractLsb' 16 16) else s.a0[k])) ∧
        t = advance s.spf { s with a0 := t.a0, depA0 := h.noDDClr }
      | .f0 => t = advance s.spf { s with f0 := if j = 0 then v else s.f0 }
      | .f1 => t = advance s.spf { s with f1 := if j = 0 then v else s.f1 }
      | .sr0 =>
        t = advance s.spf { s with
          sr00 := if j = 0 then v &&& sr00Stored else s.sr00, sr01 := if j = 1 then v &&& sr01Mask else s.sr01,
          sr02 := if j = 2 then v else s.sr02, sr03 := if j = 3 then v else s.sr03 }
      | .cr0 =>
        t = advance s.spf { s with
          cr00 := if j = 0 then (v &&& 0x0000807F) ||| (s.cr00 &&& v &&& 0x80000000) else s.cr00,
          cr01 := if j = 1 then (v &&& cr01Mask) ||| (if s.inSR then 0 else s.cr01 &&& 0x20000000) else s.cr01,
          cr02 := if j = 2 then alignIP v else s.cr02 }
      | .ip =>
        t = advance s.spf { s with nextIP := if j = 0 then alignIP v else s.nextIP }
      | .tdr0 =>
        (∀ k : Fin 8, t.tdr[k] =
          if k.val = 2 * j ∨ k.val = 2 * j + 1 then { s.tdr[k] with valid := false } else s.tdr[k]) ∧
        t = advance s.spf { s with tdr := t.tdr }
      | .acc0 =>
        (∀ k, t.acc.get .d k 0 = v.setWidth 64) ∧ t = advance s.spf { s with acc := t.acc }
      | .acc1 => False

/-! ## nop, wait, send, sendc, the host -/

/-- `wait` consumes one notification and goes on, or suspends the thread at itself; a suspended thread wakes when a
notification is there, and stays otherwise (43 R700, 10_state R81). Model's choices: that a suspended thread makes a step to
the same state is the stutter of log 35 (DESIGN CHOICE), and that curWait, the model's own field, stays on waking is log 37. -/
def Obligations.WaitConsumesOrSuspends : Prop :=
  (∀ (s : State) (b : Basic1) (k : Fin 3), Allowed (waitChecks s b) → waitIndex b = some k →
    Completes (.wait b) s fun t =>
      if s.notify k = 0 then t = { s with run := .waiting k }
      else
        t.notify k = s.notify k - 1 ∧ (∀ j, j ≠ k → t.notify j = s.notify j) ∧
        t = advance s.spf { s with n00 := t.n00, n01 := t.n01, n02 := t.n02 }) ∧
  (∀ (s : State) (k : Fin 3), s.host = [] → s.run = .waiting k →
    (s.inSR = true ∨ (s.pendHalt = false ∧ s.pendSW = false)) →
    (s.notify k = 0 → step s = .next s) ∧
    (s.notify k ≠ 0 → ∃ t, step s = .next t ∧ t.notify k = s.notify k - 1 ∧ (∀ j, j ≠ k → t.notify j = s.notify j) ∧
      t = advance s.spf { s with n00 := t.n00, n01 := t.n01, n02 := t.n02, run := .running }))

/-- `send` enqueues one message: its fields from the descriptor, sr0 and the header, its payload MLEN registers from
src0. An EOT ends the thread; otherwise IP advances, and the RLEN registers of an expected response are marked
(43 R701, 20_memory R210 to R212, 70 R953, R961; with NoDDClr and no enabled channel their marks are U17). `sendc` is `send`
when no thread of tdr0 is alive (43 R702), and waits at itself while one is. Both are refused where an EOT has a payload outside
r112 to r127 or a destination (70 R953). Model's choices: the stutter is log 35, what of the destination enters the channel
enables is log 36, and that the record holds the mode bit cr0.0[0] is log 90. -/
def Obligations.SendAndSendc : Prop :=
  (∀ (s : State) (m : Send), Allowed (sendChecks s m) →
      let d := sendDesc s m
      Completes (.send m) s fun t => ∃ msg : Message,
        t.messages = s.messages ++ [msg] ∧
        msg.eot = m.eot ∧ msg.sfid = m.sfid ∧ msg.mlen = d.extractLsb' 25 4 ∧ msg.rlen = d.extractLsb' 20 5 ∧
        msg.header = d.getLsbD 19 ∧ msg.funcCtrl = d.extractLsb' 0 19 ∧
        msg.reg = (sendReg s m.dst.loc).map (BitVec.ofNat 7) ∧ msg.clear = !m.hdr.noDDClr ∧
        msg.ffid = s.sr00.extractLsb' 24 4 ∧ msg.priorityClass = s.sr00.getLsbD 23 ∧ msg.euid = s.sr00.extractLsb' 8 4 ∧
        msg.tid = s.sr00.extractLsb' 0 3 ∧ msg.altMode = s.cr00.getLsbD 0 ∧
        (∀ n, n < 16 → msg.channelEnable.getLsbD n = (wrEn s m.hdr n && m.dst.region.chanOn n)) ∧
        msg.payload.length = (d.extractLsb' 25 4).toNat ∧
        (∀ i, i < msg.payload.length → msg.payload[i]? = some (grfReg s.grf ((sendReg s m.src0.loc).getD 0 + i))) ∧
        (m.eot = true → t = { s with messages := t.messages, run := .ended, outstanding := [] }) ∧
        (m.eot = false →
          t = advance s.spf { s with messages := t.messages, outstanding := t.outstanding, dep := t.dep } ∧
          (sendReg s m.dst.loc = none ∨ msg.rlen = 0 → t.outstanding = s.outstanding ∧ t.dep = s.dep) ∧
          (∀ r, sendReg s m.dst.loc = some r → msg.rlen ≠ 0 →
            t.outstanding = s.outstanding ++ [{ reg := BitVec.ofNat 7 r, rlen := msg.rlen, clear := msg.clear, landed := 0 }] ∧
            (∀ q, q < r ∨ r + msg.rlen.toNat ≤ q → t.depOf q = s.depOf q) ∧
            (m.hdr.noDDClr = false ∨ (∃ n, n < m.hdr.count ∧ wrEn s m.hdr n = true) →
              ∀ q, r ≤ q → q < r + msg.rlen.toNat → t.depOf q = true)))) ∧
  (∀ (s : State) (m : Send), Allowed (sendChecks s m) →
      ((∀ e, e ∈ s.tdr.toList → e.valid = false) →
        exec (.sendc m) s = exec (.send m) s ∧ ∃ t msg, exec (.sendc m) s = .next t ∧ t.messages = s.messages ++ [msg]) ∧
      ((∃ e, e ∈ s.tdr.toList ∧ e.valid = true) → exec (.sendc m) s = .next s)) ∧
  (∀ (s : State) (m : Send), m.eot = true →
      (∃ num sub, m.src0.loc = .grf num sub ∧ num.toNat < 112) ∨ m.dst.loc.isArf = false →
      (∃ r, exec (.send m) s = .refused r) ∧ ∃ r, exec (.sendc m) s = .refused r)

/-- A response phase writes the DWords that its mask enables and no others; when all phases have landed the response
ends, and its marks clear if the message asked for it (20_memory R212). -/
def Obligations.ResponsePhaseLands : Prop :=
  ∀ (s : State) (idx : Nat) (phase : BitVec 5) (data : Reg256) (mask : BitVec 8) (rest : List HostAction) (r : Response),
    s.host = .deliver idx phase data mask :: rest → s.run ≠ .ended → s.outstanding[idx]? = some r →
    phase.toNat < r.rlen.toNat → r.landed.getLsbD phase.toNat = false → r.reg.toNat + phase.toNat < 128 →
    ∃ t, step s = .next t ∧
      (∀ j, j < 8 → dwordOf (grfReg t.grf (r.reg.toNat + phase.toNat)) j =
        if mask.getLsbD j then dwordOf data j else dwordOf (grfReg s.grf (r.reg.toNat + phase.toNat)) j) ∧
      (∀ q, q ≠ r.reg.toNat + phase.toNat → grfReg t.grf q = grfReg s.grf q) ∧
      ((∀ k, k < r.rlen.toNat → k = phase.toNat ∨ r.landed.getLsbD k = true) →
        t.outstanding = s.outstanding.eraseIdx idx ∧
        ∀ q, q < 128 → t.depOf q =
          (s.depOf q && !(r.clear && decide (r.reg.toNat ≤ q) && decide (q < r.reg.toNat + r.rlen.toNat)))) ∧
      ((∃ k, k < r.rlen.toNat ∧ k ≠ phase.toNat ∧ r.landed.getLsbD k = false) →
        t.outstanding = s.outstanding.set idx { r with landed := r.landed ||| (1#32 <<< phase.toNat) } ∧ t.dep = s.dep) ∧
      t = { s with host := rest, grf := t.grf, outstanding := t.outstanding, dep := t.dep }

/-- What the host's other actions change: a notification counts up, External Halt sets its status bit, a retired thread
clears its entries of tdr0, the priority and the time event are set, and a preemption, where the launch lets the host generate
one, enters the System Routine once no response is owed. A thread that has ended makes no step and no host action reaches it
(20_memory R219; 10_state R72, R81, R84, R85; 60 R912, R915; 70 R953). Model's choices: that n0.1 stays 1 and the 16-bit
counts wrap is log 54 (DESIGN CHOICE), cr0.1[30] is log 22 (PRESUMED), the entry of a preemption is log 67 (DESIGN CHOICE). -/
def Obligations.HostEvents : Prop :=
  ∀ (s : State) (rest : List HostAction),
    (s.run ≠ .ended →
      (∀ k, s.host = .notify k :: rest → ∃ t, step s = .next t ∧ (∀ j, j ≠ k → t.notify j = s.notify j) ∧
        t.notify k = (if k = 1 then 1 else (s.notify k + 1) % 65536) ∧
        t = { s with host := rest, n00 := t.n00, n01 := t.n01, n02 := t.n02 }) ∧
      (s.host = .externalHalt :: rest → step s = .next { s with host := rest, cr01 := s.cr01 ||| 0x40000000 }) ∧
      (∀ id, s.host = .retire id :: rest → ∃ t, step s = .next t ∧ t = { s with host := rest, tdr := t.tdr } ∧
        ∀ k : Fin 8, t.tdr[k] = if s.tdr[k].fftid = id then { s.tdr[k] with valid := false } else s.tdr[k]) ∧
      (∀ p, s.host = .setPriority p :: rest → ∃ t, step s = .next t ∧ t = { s with host := rest, sr00 := t.sr00 } ∧
        t.sr00.extractLsb' 16 3 = p ∧ t.sr00.extractLsb' 0 16 = s.sr00.extractLsb' 0 16 ∧
        t.sr00.extractLsb' 19 13 = s.sr00.extractLsb' 19 13) ∧
      (s.host = .timeEvent :: rest → step s = .next { s with host := rest, tmEvent := true }) ∧
      (s.host = .preempt :: rest →
        (s.launch.preemption = true → s.inSR = false → s.outstanding = [] →
          step s = .next (EnteredFrom { s with host := rest })) ∧
        (s.launch.preemption = false ∨ s.inSR = true ∨ s.outstanding ≠ [] → step s = .next { s with host := rest }))) ∧
    (s.run = .ended →
      (s.host = [] → step s = .fault .threadEnded) ∧
      (∀ a, a ≠ .run → s.host = a :: rest → step s = .next { s with host := rest }))

/-! ## Flow control -/

/-- `jmpi` jumps relative to the next instruction if its predicate holds, and takes the channels at it along (42 R640;
the channels are the decision D15 of 92). -/
def Obligations.JmpiJumps : Prop :=
  ∀ (s : State) (b : Basic2), Allowed (jmpiChecks s b) →
    let index : Int := match b.src1 with
      | .imm _ v => (v.setWidth 16).toInt
      | .reg r => regInt s b.hdr false 1 r 0
    let dest := if pmask s b.hdr false 0 then s.nextIP + BitVec.ofInt 32 (8 * index) else s.nextIP
    exec (.jmpi b) s = .next { s with
      ip := dest, pcIP := if s.spf then s.pcIP else s.pcIP.map fun p => if p = s.ip then dest else p }

/-- `brd` sends the enabled channels to JIP, and IP follows if a channel is there; `while` sends them back to JIP, and IP
with them if there is one. `brc` and `halt` send the enabled channels to UIP; IP goes on if a channel is at the next
instruction, and to JIP if none is (42 R641, R643, R647, R650, R632; the offset types of `brd` and `brc` are log 60). Model's choices: that a `brc` within an if-endif block, and
the `break`s of a `while`, are found by a walk over the program text is log 77 and log 74 (DEDUCED). -/
def Obligations.BranchesToTargets : Prop :=
  (∀ (s : State) (b : Branch1), s.spf = false →
    (Allowed (brdChecks s b.hdr b.offFile b.offTy) → Completes (.brd b) s fun t =>
      BranchPost s t (chanEn s b.hdr) (off8 s.ip b.jip) s.nextIP ∧
      (ChannelAt t (off8 s.ip b.jip) → t.ip = off8 s.ip b.jip) ∧
      (¬ ChannelAt t (off8 s.ip b.jip) → t.ip = s.nextIP)) ∧
    (Allowed (whileChecks s b) → Completes (.while_ b) s fun t =>
      BranchPost s t (chanEn s b.hdr) (off8 s.ip b.jip) s.nextIP ∧
      ((∃ c : Fin 32, chanEn s b.hdr c.val = true) → t.ip = off8 s.ip b.jip) ∧
      ((∀ c : Fin 32, chanEn s b.hdr c.val = false) → t.ip = s.nextIP))) ∧
  (∀ (s : State) (b : Branch2) (i : Instr),
    (i = .brc b ∧ Allowed (brcChecks s b)) ∨ (i = .halt b ∧ Allowed (haltChecks s b)) →
    s.spf = false →
    Completes i s fun t =>
      BranchPost s t (chanEn s b.hdr) (off8 s.ip b.uip) s.nextIP ∧
      (ChannelAt t s.nextIP → t.ip = s.nextIP) ∧ (¬ ChannelAt t s.nextIP → t.ip = off8 s.ip b.jip))

/-- `if`: the enabled channels enter the block, the others at the `if`, with NoMask every other of its group, go to JIP. `else`
sends the enabled channels to JIP and leaves every other channel; `endif` goes on if a channel is enabled and hops to JIP if none
is. `break` and `cont` park the enabled channels at UIP, and move only channels of their own group (42 R642, R644, R645, R648,
R649, R632). An `if` without an `endif` in the text is refused (R642). Model's choices: that the channels outside the group, and
the others of `else`, stay is log 39 (DEDUCED); how the `else` and the `endif` of an `if`, which have its ExecSize and which its
JIP names, and the `while` of a `break` are found in the program text is log 74 (DEDUCED). -/
def Obligations.BlockAndLoopBranches : Prop :=
  (∀ (s : State) (b : Branch2), Allowed (ifChecks s b) → s.spf = false →
      Completes (.if_ b) s fun t =>
        t = { s with pcIP := t.pcIP, ip := t.ip } ∧
        (∀ c : Fin 32, t.pcIP[c] =
          if chanEn s b.hdr c.val then s.nextIP
          else if s.pcIP[c] = s.ip ∨
            (b.hdr.noMask = true ∧ chOff b.hdr ≤ c.val ∧ c.val < chOff b.hdr + b.hdr.count) then off8 s.ip b.jip
          else s.pcIP[c]) ∧
        (ChannelAt t s.nextIP → t.ip = s.nextIP) ∧ (¬ ChannelAt t s.nextIP → t.ip = off8 s.ip b.jip)) ∧
  (∀ (s : State) (b : Branch2), Allowed (branchChecks s b.hdr b.offFile b.offTy) → s.blockEnd s.nextIP = none →
      exec (.if_ b) s = .refused (.restriction .noEndif)) ∧
  (∀ (s : State) (b : Branch1), Allowed (elseChecks s b.hdr b.offFile b.offTy) → s.spf = false →
      (Allowed (elseBlockChecks s b) → Completes (.else_ b) s fun t =>
        t = { s with pcIP := t.pcIP, ip := t.ip } ∧
        (∀ c : Fin 32, t.pcIP[c] = if chanEn s b.hdr c.val then off8 s.ip b.jip else s.pcIP[c]) ∧
        (ChannelAt t s.nextIP → t.ip = s.nextIP) ∧ (¬ ChannelAt t s.nextIP → t.ip = off8 s.ip b.jip)) ∧
      ((∃ c : Fin 32, chanEn s b.hdr c.val = true) → exec (.endif b) s = .next { s with
        ip := s.nextIP, pcIP := s.pcIP.map fun p => if p = s.ip then s.nextIP else p }) ∧
      ((∀ c : Fin 32, chanEn s b.hdr c.val = false) → exec (.endif b) s = .next { s with ip := off8 s.ip b.jip })) ∧
  (∀ (s : State) (b : Branch2), Allowed (loopChecks s b) → s.spf = false →
    let moved : State → Prop := fun t =>
      t = { s with pcIP := t.pcIP, ip := t.ip } ∧
      ∀ c : Fin 32, t.pcIP[c] =
        if chanEn s b.hdr c.val then off8 s.ip b.uip
        else if chOff b.hdr ≤ c.val ∧ c.val < chOff b.hdr + b.hdr.count ∧ s.pcIP[c] = s.ip then s.nextIP else s.pcIP[c]
    (Completes (.break_ b) s fun t => moved t ∧
      ((∃ c : Fin 32, chOff b.hdr ≤ c.val ∧ c.val < chOff b.hdr + b.hdr.count ∧ t.pcIP[c] = s.nextIP) → t.ip = s.nextIP) ∧
      ((∀ c : Fin 32, chOff b.hdr ≤ c.val → c.val < chOff b.hdr + b.hdr.count → t.pcIP[c] ≠ s.nextIP) →
        t.ip = off8 s.ip b.jip)) ∧
    (Completes (.cont b) s fun t => moved t ∧
      (ChannelAt t s.nextIP → t.ip = s.nextIP) ∧ (¬ ChannelAt t s.nextIP → t.ip = off8 s.ip b.jip)))

/-- In a single program flow a branch moves IP alone: to UIP where it has one, to JIP otherwise (42 R633, R647; `endif` is
log 39, the partners of one ExecSize log 74, a `brc` within an if-endif block log 77). -/
def Obligations.SinglePathBranches : Prop :=
  ∀ s : State, s.spf = true →
    (∀ (b : Branch2) (i : Instr),
      (Allowed (loopChecks s b) ∧ (i = .break_ b ∨ i = .cont b)) ∨
        (Allowed (haltChecks s b) ∧ i = .halt b) →
      exec i s = .next { s with ip := if pmask s b.hdr (b.hdr.size = .s32) 0 then off8 s.ip b.uip else s.nextIP }) ∧
    (∀ b : Branch2, Allowed (ifChecks s b) →
      exec (.if_ b) s = .next { s with ip := if pmask s b.hdr (b.hdr.size = .s32) 0 then s.nextIP else off8 s.ip b.uip }) ∧
    (∀ b : Branch2, Allowed (brcChecks s b) →
      exec (.brc b) s = .next { s with ip := if pmask s b.hdr (b.hdr.size = .s32) 0 then off8 s.ip b.uip else s.nextIP }) ∧
    (∀ b : Branch1, Allowed (brdChecks s b.hdr b.offFile b.offTy) →
      exec (.brd b) s = .next { s with ip := if pmask s b.hdr (b.hdr.size = .s32) 0 then off8 s.ip b.jip else s.nextIP }) ∧
    (∀ b : Branch1, Allowed (whileChecks s b) →
      exec (.while_ b) s = .next { s with ip := if wrEn s b.hdr 0 then off8 s.ip b.jip else s.nextIP }) ∧
    (∀ b : Branch1, Allowed (elseChecks s b.hdr b.offFile b.offTy) →
      (Allowed (elseBlockChecks s b) → exec (.else_ b) s = .next { s with ip := off8 s.ip b.jip }) ∧
      exec (.endif b) s = .next { s with ip := s.nextIP })

/-- `call`: the enabled channels jump; if one does, the return IP and the call mask go to the destination and IP jumps; the
stored bytes are the eight from the destination's address on, and no other byte changes. `ret`: the enabled channels go to
the saved IP and leave the call mask; when it is empty IP follows and the saved mask is restored (42 R651, R652; 92 D11,
D18; the enables of `call` and `ret` are log 41). -/
def Obligations.CallAndRet : Prop :=
  (∀ (s : State) (c : Call), Allowed (callChecks s c) →
      let dest := off8 s.ip c.jip
      let addr := (dstAddr s c.hdr c.dst 0).toNat
      Completes (.call c) s fun t =>
        t = { s with grf := t.grf, pcIP := t.pcIP, ip := t.ip, callMask := t.callMask, dep := t.dep } ∧
        (∀ n, n < 32 → t.callMask.getLsbD n = if n < callWidth s then callEn s c.hdr n else s.callMask.getLsbD n) ∧
        (s.spf = true → t.pcIP = s.pcIP) ∧
        (s.spf = false → ∀ n : Fin 32, t.pcIP[n] =
          if callEn s c.hdr n.val then dest else if s.pcIP[n] = s.ip then s.nextIP else s.pcIP[n]) ∧
        (∀ r, r ≠ addr / 32 → t.depOf r = s.depOf r) ∧
        ((∃ n, callEn s c.hdr n = true) →
          t.ip = dest ∧ t.depOf (addr / 32) = c.hdr.noDDClr ∧
          (∀ i, i < 4 → grfByte t.grf (addr + i) = s.nextIP.extractLsb' (8 * i) 8 ∧
            grfByte t.grf (addr + 4 + i) = t.callMask.extractLsb' (8 * i) 8) ∧
          ∀ a, a < addr ∨ addr + 8 ≤ a → grfByte t.grf a = grfByte s.grf a) ∧
        ((∀ n, callEn s c.hdr n = false) → t.ip = s.nextIP ∧ t.grf = s.grf)) ∧
  (∀ (s : State) (b : Basic1), Allowed (retChecks s b) →
      let dest := alignIP (srcBits s b.hdr false 0 b.src0 0)
      Completes (.ret b) s fun t => ∃ mask : DWord,
        (∀ n, n < 32 → mask.getLsbD n = (s.callMask.getLsbD n && !callEn s b.hdr n)) ∧
        t = { s with pcIP := t.pcIP, ip := t.ip, callMask := t.callMask } ∧
        (mask = 0 → t.ip = dest ∧ t.callMask = srcBits s b.hdr false 0 b.src0 1) ∧
        (mask ≠ 0 → t.ip = s.nextIP ∧ t.callMask = mask) ∧
        (s.spf = true → t.pcIP = s.pcIP) ∧
        (s.spf = false → ∀ n : Fin 32, t.pcIP[n] =
          if callEn s b.hdr n.val then dest else if s.pcIP[n] = s.ip then s.nextIP else s.pcIP[n]))

/-- `case` stops by name in every state: the spec gives it no semantics (42 R646, D19 of 92, U1 of 93). -/
def Obligations.CaseStops : Prop :=
  ∀ (s : State) (b : Branch2), exec (.case_ b) s = .refused .caseUndefined

/-! ## Operands -/

/-- The byte addresses of regions: direct, Align16, 1x1 indirect, Vx1 and VxH, and of a destination. An operand of an
instruction whose destination spans two registers takes the second half of its channels from the next index register, its
region begun anew; a replicated scalar does not (40 R422 to R424, R452, R453, R470, R471). Model's choices: which regions are
replicated scalars is log 18 (DESIGN CHOICE), and that a null or accumulator destination spans registers as one of the GRF is log 59
(DESIGN CHOICE). -/
def Obligations.RegionAddresses : Prop :=
  ∀ (s : State) (h : Header) (ty : RegType) (m : SrcMod) (n : Nat),
    -- a0.k and the immediate; element j of an Align1, an Align16 and a destination region
    let index : Nat → BitVec 10 → Int := fun k imm => ((s.a0.getD k 0) &&& 0x0FFF).toNat + imm.toInt
    let elem := fun (v : VertStride) (w : Width) (z : HorzStride) j =>
      ((j / w.toNat) * v.toNat + (j % w.toNat) * z.toNat) * ty.size
    let comp := fun (cs : BitVec 8) j => (cs.extractLsb' (2 * (j % 4)) 2).toNat
    let elem16 := fun (v : VertStride) (cs : BitVec 8) j => (j / 4 * v.toNat + comp cs j) * 4
    let stride := fun (g : DstRegion) => match g with
      | .a1 z => z.toNat * ty.size
      | .a16 _ => ty.size
    let half := h.count / 2
    (∀ two num sub v w z, srcAddr s h two { loc := .grf num sub, ty := ty, mod := m, region := .a1 v w z } n =
      num.toNat * 32 + sub.toNat + elem v w z n) ∧
    (∀ two num sub v cs, srcAddr s h two { loc := .grf num sub, ty := ty, mod := m, region := .a16 v cs } n =
      num.toNat * 32 + sub.toNat + elem16 v cs n) ∧
    (∀ two (k : BitVec 3) imm (w : Width) z, k.toNat + n / w.toNat < 8 →
      srcAddr s h two { loc := .ind k imm, ty := ty, mod := m, region := .a1 .vx w z } n =
        index (k.toNat + n / w.toNat) imm + (n % w.toNat) * z.toNat * ty.size) ∧
    (∀ two (k : BitVec 3) imm v w z, v ≠ .vx → k.toNat + n / half < 8 →
      let scalar := v = .v0 ∧ ((w = .w1 ∧ z = .h0) ∨ (ty = .df ∧ w = .w2 ∧ z = .h1))
      srcAddr s h two { loc := .ind k imm, ty := ty, mod := m, region := .a1 v w z } n =
        if two = true ∧ 2 ≤ h.count ∧ ¬ scalar then index (k.toNat + n / half) imm + elem v w z (n % half)
        else index k.toNat imm + elem v w z n) ∧
    (∀ two (k : BitVec 3) imm v cs, k.toNat + n / half < 8 →
      let scalar := v = .v0 ∧ ∀ j, j < 4 → comp cs j = comp cs (if ty = .df then j % 2 else 0)
      (¬ (two = true ∧ 2 ≤ h.count) ∨ scalar →
        srcAddr s h two { loc := .ind k imm, ty := ty, mod := m, region := .a16 v cs } n =
          index k.toNat imm + elem16 v cs n) ∧
      (two = true → 2 ≤ h.count → ¬ scalar →
        srcAddr s h two { loc := .ind k imm, ty := ty, mod := m, region := .a16 v cs } n =
          index (k.toNat + n / half) imm + elem16 v cs (n % half))) ∧
    (∀ num sub g, dstAddr s h { loc := .grf num sub, ty := ty, region := g } n =
        num.toNat * 32 + sub.toNat + n * stride g ∧
      (dstTwoRegs s h { loc := .grf num sub, ty := ty, region := g } = true ↔
        32 < sub.toNat + (h.count - 1) * stride g + ty.size)) ∧
    (∀ (k : BitVec 3) imm g,
      let d : Dst := { loc := .ind k imm, ty := ty, region := g }
      (dstTwoRegs s h d = true ↔ 32 < index k.toNat imm % 32 + (h.count - 1) * stride g + ty.size) ∧
      (dstTwoRegs s h d = false ∨ h.count = 1 → dstAddr s h d n = index k.toNat imm + n * stride g) ∧
      (dstTwoRegs s h d = true → 2 ≤ h.count → k.toNat + n / half < 8 →
        dstAddr s h d n = index (k.toNat + n / half) imm + n % half * stride g))

/-- A source element is the little-endian value of its bytes, of its type's width and sign: an element of a general
register, of F the pattern of its DWord, of DF the two DWords of the pair's elements, the low half first; and of an architecture register every populated bit of ip, f0, f1, a0, sr0, cr0, n0, tdr0 and tm0 (the others are
free: U10, U21). An explicit accumulator source in the format that it holds is its channel at full width (40 R402, R427,
R428; 20_memory R200; 10_state R57, R58, R64, R67, R72, R73, R76 to R80, R82, R84, R85). Model's choices: that element n of an
accumulator region is the channel at its offset in nominal elements is log 55 (DEDUCED), and that acc0 holds one format
at a time is log 12 (DESIGN CHOICE). -/
def Obligations.SourceElements : Prop :=
  (∀ (s : State) (h : Header) (two : Bool) (k n : Nat) (r : RegSrc), r.loc.isArf = false →
    let b := fun j i => grfByte s.grf ((srcAddr s h two r j).toNat + i)
    let dword := fun j => (b j 3 ++ b j 2 ++ b j 1 ++ b j 0 : BitVec 32)
    (match r.ty with
      | .ud => regInt s h two k r n = (dword n).toNat
      | .d => regInt s h two k r n = (dword n).toInt
      | .uw => regInt s h two k r n = (b n 1 ++ b n 0 : BitVec 16).toNat
      | .w => regInt s h two k r n = (b n 1 ++ b n 0 : BitVec 16).toInt
      | .ub => regInt s h two k r n = (b n 0).toNat
      | .b => regInt s h two k r n = (b n 0).toInt
      | .f => r.mod = .none → srcF s h two k (.reg r) n = dword n
      | .df => r.mod = .none → srcDF s h two k (.reg r) n = dword (2 * (n / 2) + 1) ++ dword (2 * (n / 2)))) ∧
  (∀ (s : State) (h : Header) (two : Bool) (k n : Nat) (r : RegSrc) (a : Arf) (sub : BitVec 5), r.loc = .arf a sub →
    let e := srcRaw s h two k r n
    (a ≠ .acc0 → a ≠ .acc1 → regInt s h two k r n = intOfRaw r.ty e ∧ (r.mod = .none → srcF s h two k (.reg r) n = e)) ∧
    (∀ i, 8 * r.ty.size ≤ i → e.getLsbD i = false) ∧
    ∀ i, i < 8 * r.ty.size →
      let p := 8 * (sub.toNat + r.region.off r.ty.size n) + i
      match a with
      | .ip => p < 32 → e.getLsbD i = s.ip.getLsbD p
      | .f0 => p < 32 → e.getLsbD i = s.f0.getLsbD p
      | .f1 => p < 32 → e.getLsbD i = s.f1.getLsbD p
      | .a0 => p < 128 → e.getLsbD i = (s.a0.getD (p / 16) 0).getLsbD (p % 16)
      | .sr0 =>
        (p < 32 → sr00Mask.getLsbD p = true → e.getLsbD i = s.sr00.getLsbD p) ∧
        (32 ≤ p → p < 64 → sr01Mask.getLsbD (p - 32) = true → e.getLsbD i = s.sr01.getLsbD (p - 32)) ∧
        (64 ≤ p → p < 96 → e.getLsbD i = s.sr02.getLsbD (p - 64)) ∧
        (96 ≤ p → p < 128 → e.getLsbD i = s.sr03.getLsbD (p - 96))
      | .cr0 =>
        (p < 32 → cr00Mask.getLsbD p = true → e.getLsbD i = s.cr00.getLsbD p) ∧
        (32 ≤ p → p < 64 → cr01Mask.getLsbD (p - 32) = true → e.getLsbD i = s.cr01.getLsbD (p - 32)) ∧
        (67 ≤ p → p < 96 → e.getLsbD i = s.cr02.getLsbD (p - 64))
      | .n0 =>
        (p < 16 → e.getLsbD i = s.n00.getLsbD p) ∧ (p = 32 → e.getLsbD i = s.n01.getLsbD 0) ∧
        (64 ≤ p → p < 80 → e.getLsbD i = s.n02.getLsbD (p - 64))
      | .tdr0 => ∀ j : Fin 8, p / 16 = j.val →
        (p % 16 < 8 → e.getLsbD i = s.tdr[j].fftid.getLsbD (p % 16)) ∧
        (8 ≤ p % 16 → p % 16 < 15 → e.getLsbD i = false) ∧ (p % 16 = 15 → e.getLsbD i = s.tdr[j].valid)
      | .tm0 => p < 64 → e.getLsbD i = s.tm0.getLsbD p
      | .null | .acc0 | .acc1 => True) ∧
  (∀ (s : State) (h : Header) (two : Bool) (k n : Nat) (r : RegSrc) (base : Nat), accOperand r.loc = some base →
    (∀ (v : Vector (BitVec 64) 8) (j : Nat), s.acc.acc0 = .d v → r.ty = .d ∨ r.ty = .ud → j = r.region.off 4 n / 4 →
      ∀ hj : j < 8, base = 0 → regInt s h two k r n = v[j].toInt) ∧
    (∀ (v : Vector (BitVec 33) 16) (j : Nat), s.acc.acc0 = .w v → r.ty = .w ∨ r.ty = .uw → j = r.region.off 2 n / 2 →
      ∀ hj : j < 16, base = 0 → regInt s h two k r n = v[j].toInt) ∧
    (∀ (v : Vector (BitVec 32) 8) (j : Nat), s.acc.acc0 = .f v → r.mod = .none → j = r.region.off 4 n / 4 →
      ∀ hj : j < 8, base = 0 → srcF s h two k (.reg r) n = v[j]) ∧
    (∀ j : Nat, r.mod = .none → j = r.region.off 4 n / 4 →
      ∀ hj : j < 8, base = 8 → srcF s h two k (.reg r) n = s.acc.acc1[j]) ∧
    (∀ (v : Vector (BitVec 64) 4) (j : Nat), s.acc.acc0 = .df v → base = 0 → r.mod = .none → j = r.region.off 4 (2 * (n / 2)) / 8 →
      ∀ hj : j < 4, srcDF s h two k (.reg r) n = v[j]))

/-- A source modifier is arithmetic on an integer and changes the sign bit alone of an F or DF pattern; a plain immediate is
its value, of its type's width and sign; element n mod 8 of a packed half-byte vector is the word that channel n reads,
sign-extended for V, zero-extended for UV (40 R402, R404, R405, R421, R426, R445; for the logic instructions, see
LogicInstructions and log 27). -/
def Obligations.ModifiersAndImmediates : Prop :=
  ∀ (s : State) (h : Header) (two : Bool) (k n : Nat),
    (∀ r : RegSrc,
      let x := regInt s h two k r n
      let plain : Src := .reg { r with mod := .none }
      let sign := fun p => match r.mod with
        | .none => p
        | .abs => false
        | .neg => !p
        | .negAbs => true
      srcInt s h two k (.reg r) n = (match r.mod with
        | .none => x
        | .abs => |x|
        | .neg => -x
        | .negAbs => -|x|) ∧
      (∀ i, i < 31 → (srcF s h two k (.reg r) n).getLsbD i = (srcF s h two k plain n).getLsbD i) ∧
      (srcF s h two k (.reg r) n).getLsbD 31 = sign ((srcF s h two k plain n).getLsbD 31) ∧
      (∀ i, i < 63 → (srcDF s h two k (.reg r) n).getLsbD i = (srcDF s h two k plain n).getLsbD i) ∧
      (srcDF s h two k (.reg r) n).getLsbD 63 = sign ((srcDF s h two k plain n).getLsbD 63)) ∧
    ∀ v : DWord,
      let e := v.extractLsb' (4 * (n % 8)) 4
      srcInt s h two k (.imm .ud v) n = v.toNat ∧ srcInt s h two k (.imm .d v) n = v.toInt ∧
      srcInt s h two k (.imm .uw v) n = (v.extractLsb' 0 16).toNat ∧
      srcInt s h two k (.imm .w v) n = (v.extractLsb' 0 16).toInt ∧
      srcF s h two k (.imm .f v) n = v ∧
      srcInt s h two k (.imm .v v) n = e.toInt ∧ immRaw .v v n = e.signExtend 32 ∧
      -8 ≤ srcInt s h two k (.imm .v v) n ∧ srcInt s h two k (.imm .v v) n ≤ 7 ∧
      srcInt s h two k (.imm .uv v) n = e.toNat ∧ 0 ≤ srcInt s h two k (.imm .uv v) n ∧ srcInt s h two k (.imm .uv v) n ≤ 15

/-- Element n mod 4 of a packed restricted float vector is the number its sign, exponent and fraction denote (40 R406,
R426). -/
def Obligations.RestrictedFloatVector : Prop :=
  ∀ (s : State) (h : Header) (two : Bool) (k n : Nat) (v : DWord),
    let e := v.extractLsb' (8 * (n % 4)) 8
    let x := FVal.ofBits fmtF (srcF s h two k (.imm .vf v) n).toNat
    x.sign = e.getLsbD 7 ∧ x.isSpecial = false ∧
    x.toRat = (if e.getLsbD 7 then -1 else 1) *
      (if e.extractLsb' 0 7 = 0 then 0
       else (1 + ((e.extractLsb' 0 4).toNat : Rat) / 16) * pow2 ((e.extractLsb' 4 3).toNat - 3))

/-- A channel is enabled if it exists, passes the execution mask (NoMask, or its dispatch bit and its IP), and passes its
predicate: the combination of flag bits that the predicate control names, inverted at the end (40 R410, R411, R440, D21 of
92). A group that reaches beyond the flag subregister is left open by the spec (log 40). -/
def Obligations.WriteEnables : Prop :=
  ∀ (s : State) (h : Header) (n : Nat),
    let wide : Bool := h.size = .s32
    let c := if wide then n else if h.size = .s16 then 16 * (h.qtr.toNat / 2) + n
      else 8 * h.qtr.toNat + (if h.nib then 4 else 0) + n
    let m := if wide then n % 16 else c
    let off := (c - n) % 16
    let flag := if h.flagReg then s.f1 else s.f0
    let bit := fun i => flag.getLsbD ((if wide = false ∧ h.flagSub = true then 16 else 0) + off + i)
    let limit := if wide then 32 else 16
    -- the predicate before inversion
    let p := pmask s h wide n != h.predInv
    (h.count ≤ n → wrEn s h n = false) ∧
    (n < h.count → (wrEn s h n = true ↔
      (h.noMask = true ∨ ((if s.cr00.getLsbD 3 then s.sr03 else s.sr02).getLsbD m = true ∧
        (s.cr00.getLsbD 2 = true ∨ s.pcIP.getD c 0 = s.ip))) ∧
      pmask s h wide n = true)) ∧
    (h.pred = .none → pmask s h wide n = true) ∧
    (h.pred = .seq → off + n < limit → p = bit n) ∧
    (h.pred = .anyv → off + n < 16 → p = (flag.getLsbD (off + n) || flag.getLsbD (16 + off + n))) ∧
    (h.pred = .allv → off + n < 16 → p = (flag.getLsbD (off + n) && flag.getLsbD (16 + off + n))) ∧
    (∀ k, (h.pred = .any2h ∧ k = 2) ∨ (h.pred = .any4h ∧ k = 4) ∨ (h.pred = .any8h ∧ k = 8) ∨ (h.pred = .any16h ∧ k = 16) →
      off + (k * (n / k) + k) ≤ limit → (p = true ↔ ∃ i, i < k ∧ bit (k * (n / k) + i) = true)) ∧
    (∀ k, (h.pred = .all2h ∧ k = 2) ∨ (h.pred = .all4h ∧ k = 4) ∨ (h.pred = .all8h ∧ k = 8) ∨ (h.pred = .all16h ∧ k = 16) →
      off + (k * (n / k) + k) ≤ limit → (p = true ↔ ∀ i, i < k → bit (k * (n / k) + i) = true)) ∧
    (h.pred = .any32h → (p = true ↔ ∃ i, i < 32 ∧ flag.getLsbD i = true)) ∧
    (h.pred = .all32h → (p = true ↔ ∀ i, i < 32 → flag.getLsbD i = true)) ∧
    (∀ j, (h.pred = .replX ∧ j = 0) ∨ (h.pred = .replY ∧ j = 1) ∨ (h.pred = .replZ ∧ j = 2) ∨ (h.pred = .replW ∧ j = 3) →
      off + (4 * (n / 4) + j) < limit → p = bit (4 * (n / 4) + j))

/-! ## Numbers -/

/-- Rounding of an exact number x to F, DF or half: with the exponent unbounded it is a multiple w of the unit u in the last
place, the nearest one (the even one of two) or the next in the direction of the mode; from the format's limit on it is an
overflow, to the infinity or the largest finite number as mode and ALT mode say, and where denormals are flushed a w below the
smallest normal number is a zero of its sign (40 R480 to R483, R460). Model's choices: what the directed modes overflow to is
general knowledge (G3; PRESUMED, log 23), and that OF is set there is log 56 (DESIGN CHOICE). -/
def Obligations.RoundingOfFiniteNumbers : Prop :=
  ∀ (md : FMode) (neg : Bool) (m : Nat) (e : Int), m ≠ 0 → md.fmt = fmtF ∨ md.fmt = fmtDF ∨ md.fmt = fmtHalf →
    let r := roundFin md neg m e
    let x := (FVal.fin neg m e).toRat
    let u := pow2 (max md.fmt.emin (e + Nat.log2 m - md.fmt.frac))
    let limit := pow2 (md.fmt.emin + (2 ^ md.fmt.expBits - 2) + md.fmt.frac)
    ∃ w : Rat, (∃ z : Int, w = z * u) ∧
      (md.rm = .rne → 2 * |w - x| ≤ u ∧ (2 * |w - x| = u → ∃ z : Int, w = 2 * z * u)) ∧
      (md.rm = .ru → x ≤ w ∧ w < x + u) ∧
      (md.rm = .rd → w ≤ x ∧ x - u < w) ∧
      (md.rm = .rz → |w| ≤ |x| ∧ |x| - u < |w| ∧ 0 ≤ w * x) ∧
      (r.ov = true ↔ limit ≤ |w|) ∧
      (r.ov = true → r.val =
        if md.alt = false ∧ (md.rm = .rne ∨ (md.rm = .ru ∧ neg = false) ∨ (md.rm = .rd ∧ neg = true)) then .inf neg
        else md.fmt.maxVal neg) ∧
      (r.ov = false → md.flush = true → |w| < pow2 (md.fmt.emin + md.fmt.frac) → r.val = .fin neg 0 md.fmt.emin) ∧
      (r.ov = false → md.flush = false ∨ pow2 (md.fmt.emin + md.fmt.frac) ≤ |w| →
        r.val.toRat = w ∧ r.val.sign = neg ∧ r.val.isSpecial = false)

/-- The sum and the product of two finite numbers are their exact sum and product, rounded once, with the signs of zeros that
the tables print; in ALT mode the product of fmax and a number that is not zero is fmax (44 R740, R741; 40 R483). Model's
choices: the signs of a sum that is zero are log 25 (PRESUMED), the product of fmax is log 63 (DEDUCED), and that a kept DF
denormal enters the sum is log 69 (DESIGN CHOICE). -/
def Obligations.SumAndProductAreRoundedOnce : Prop :=
  ∀ (md : FMode) (s t : Bool) (m n : Nat) (e f : Int),
    let a := FVal.fin s m e
    let b := FVal.fin t n f
    (a.toRat + b.toRat ≠ 0 → ∃ neg k g, (FVal.fin neg k g).toRat = a.toRat + b.toRat ∧ fadd md a b = roundFin md neg k g) ∧
    (a.toRat + b.toRat = 0 → (fadd md a b).val.isZero = true ∧ (fadd md a b).ov = false ∧
      (fadd md a b).val.sign = if m = 0 then s && t
        else decide (md.rm = .rd) && !md.alt && decide (pow2 (md.fmt.emin + md.fmt.frac) ≤ |a.toRat|)) ∧
    (a.toRat * b.toRat ≠ 0 → ∃ neg k g, (FVal.fin neg k g).toRat = a.toRat * b.toRat ∧ fmul md a b = roundFin md neg k g) ∧
    (a.toRat * b.toRat = 0 → (fmul md a b).val.isZero = true ∧ (fmul md a b).val.sign = (s != t) ∧ (fmul md a b).ov = false) ∧
    (md.alt = false ∨ a.toRat * b.toRat = 0 ∨ (a ≠ md.fmt.maxVal s ∧ b ≠ md.fmt.maxVal t) → fmulAlt md a b = fmul md a b) ∧
    (md.alt = true → a.toRat * b.toRat ≠ 0 → a = md.fmt.maxVal s ∨ b = md.fmt.maxVal t →
      (fmulAlt md a b).val = md.fmt.maxVal (s != t))

/-! ## Data instructions: what every enabled channel holds, and by `DataStep` what nothing else does (40 R400, R452 to R465) -/

/-- `add`, `mul` and `avg` of integers: exact, then converted, saturated and compared; two DWord sources of `mul` use the
low 16 bits of src1. `addc` and `subb`: the 32-bit sum or difference, and the carry or borrow in the accumulator channel
(44 R740 to R742, R754, R755; 40 R430, R433, R450, R460). Model's choice: of an accumulator source `addc` and `subb` use the
low 32 bits is log 72 (DESIGN CHOICE). -/
def Obligations.IntegerArithmetic : Prop :=
  ∀ (s : State) (b : Basic2), StaysIn s b.dst →
    (allInt b.srcs = true →
      (Allowed (addChecks s b) → IntStep s (.add b) b (accWidth b) fun n => int0 s b n + int1 s b n) ∧
      (Allowed (mulChecks s b) → IntStep s (.mul b) b (accWidth b) fun n =>
        if isDWord b.src0.ty && isDWord b.src1.regType then int0 s b n * (int1 s b n % 65536) else int0 s b n * int1 s b n) ∧
      (Allowed (avgChecks s b) → IntStep s (.avg b) b (accWidth b) fun n => (int0 s b n + int1 s b n + 1) / 2)) ∧
    (Allowed (carryChecks s b) →
      (DataStep s (.addc b) b.hdr b.cmod b.dst b.srcs fun n bits flag accv _ =>
        let c := decide (2 ^ 32 ≤ (bits0 s b n).toNat + (bits1 s b n).toNat)
        bits = bits0 s b n + bits1 s b n ∧ accv = (if c then 1 else 0) ∧
        flag = condition b.cmod { neg := false, zero := bits = 0, ov := c, nan := false }) ∧
      (DataStep s (.subb b) b.hdr b.cmod b.dst b.srcs fun n bits flag accv _ =>
        let c := decide ((bits0 s b n).toNat < (bits1 s b n).toNat)
        bits = bits0 s b n - bits1 s b n ∧ accv = (if c then 1 else 0) ∧
        flag = condition b.cmod { neg := false, zero := bits = 0, ov := c, nan := false }))

/-- `add` and `mul` of floats: `fadd`, and `fmulAlt` for F, whose values SumAndProductAreRoundedOnce gives; and what saturation
does to a float result: the clamp to 0.0 to 1.0, with +0 for a NaN, for what is negative and for a zero (44 R740, R741; 40 R450,
R480 to R483). Model's choices: the sign of a sum that is zero, where the table prints none, is log 25 (PRESUMED); the product
of fmax and a number that is not zero in ALT mode is log 63 (DEDUCED); that a kept DF denormal enters the sum, where the table prints the
finite number alone, is log 69 (DESIGN CHOICE). -/
def Obligations.FloatArithmetic : Prop :=
  (∀ (f : FFmt) (x : FVal), f = fmtF ∨ f = fmtDF →
    (fsat f x).isSpecial = false ∧ (fsat f x).sign = false ∧
    (x = .nan ∨ x = .inf true → (fsat f x).toRat = 0) ∧ (x = .inf false → (fsat f x).toRat = 1) ∧
    (x.isSpecial = false → (fsat f x).toRat = max 0 (min x.toRat 1))) ∧
  ∀ (s : State) (b : Basic2), StaysIn s b.dst →
    (allTy .f b.srcs = true → b.dst.ty = .f →
      (Allowed (addChecks s b) → FloatStep s (.add b) b (fun n => [flt0 s b n, flt1 s b n])
        fun n => fadd (modeF s) (flt0 s b n) (flt1 s b n)) ∧
      (Allowed (mulChecks s b) → FloatStep s (.mul b) b (fun n => [flt0 s b n, flt1 s b n])
        fun n => fmulAlt (modeF s) (flt0 s b n) (flt1 s b n))) ∧
    (allTy .df b.srcs = true → b.dst.ty = .df →
      (Allowed (addChecks s b) → DFStep s (.add b) b fun n => fadd (modeDF s) (dbl0 s b n) (dbl1 s b n)) ∧
      (Allowed (mulChecks s b) → DFStep s (.mul b) b fun n => fmul (modeDF s) (dbl0 s b n) (dbl1 s b n)))

/-- `mac` adds the accumulator channel to the product. `mach` adds src0 times the high word of src1, shifted left by 16, to
the 64-bit accumulator channel, and returns the high DWord (44 R748, R749; for floats D16 of 92; a negated UD source with a
condition is U23). Model's choices: the high word as the floor of src1 by 65536, of a modified src1 too, is log 53 (DEDUCED),
that `mach` never sets OF is log 57 (DESIGN CHOICE), and what `mac` on 32 channels, or on
16 of DF, makes of those that the accumulator does not have is log 78 (DESIGN CHOICE). -/
def Obligations.MacAndMach : Prop :=
  (∀ (s : State) (b : Basic2), StaysIn s b.dst → Allowed (macChecks s b) →
      (allInt b.srcs = true → IntStep s (.mac b) b 33 fun n =>
        int0 s b n * int1 s b n + (accIn s b.hdr .w n).toInt) ∧
      (allTy .f b.srcs = true → FloatStep s (.mac b) b (fun n => [flt0 s b n, flt1 s b n, accValF s b.hdr n])
        fun n => fmadd (modeF s) s.launch.madFused (flt0 s b n) (flt1 s b n) (accValF s b.hdr n)) ∧
      (allTy .df b.srcs = true → DFStep s (.mac b) b
        fun n => fmadd (modeDF s) s.launch.madFused (dbl0 s b n) (dbl1 s b n) (accValDF s b.hdr n))) ∧
  (∀ (s : State) (b : Basic2), StaysIn s b.dst → Allowed (machChecks s b) →
      DataStep s (.mach b) b.hdr b.cmod b.dst b.srcs fun n bits flag accv _ =>
        (b.cmod = .none ∨ b.srcs.any negatedUD = false) →
          accv = accIn s b.hdr .d n + BitVec.ofInt 64 (int0 s b n * (int1 s b n / 65536) * 65536) ∧
          bits = accv.extractLsb' 32 32 ∧
          flag = condition b.cmod
            { neg := intOfRaw b.dst.ty bits < 0, zero := bits = 0, ov := false, nan := false })

/-- `mul` to acc0 and `mach` on the same sources leave the 64-bit product: its high DWord in the destination and all of it
in the accumulator (44 R741, R749, C20). Model's choice: the high word of a signed or modified src1 is log 53 (DEDUCED). -/
def Obligations.MulThenMachGivesProduct : Prop :=
  ∀ (s : State) (mulB machB : Basic2) (t u : State),
    mulB.dst = { loc := .arf .acc0 0, ty := mulB.src0.ty, region := .a1 .h1 } →
    isDWord mulB.src0.ty = true → isDWord mulB.src1.regType = true →
    mulB.src0 = machB.src0 → mulB.src1 = machB.src1 → mulB.src0.loc.isArf = false →
    (∀ r, mulB.src1 = .reg r → r.loc.isArf = false) →
    mulB.hdr.access = .align1 → mulB.hdr.size = machB.hdr.size →
    mulB.hdr.noMask = true → machB.hdr.noMask = true → mulB.hdr.pred = .none → machB.hdr.pred = .none →
    mulB.hdr.accWr = false → machB.cmod = .none → s.accDisable = false → dstTwoRegs s mulB.hdr mulB.dst = dstTwoRegs s machB.hdr machB.dst →
    machB.dst.loc.isArf = false → machB.dst.region.chanOn = (fun _ => true) →
    exec (.mul mulB) s = .next t → exec (.mach machB) t = .next u →
    ∀ n, n < machB.hdr.count →
      let product := BitVec.ofInt 64 (int0 s machB n * int1 s machB n)
      (∀ k, u.acc.get .d k n = product) ∧
      (dstAlone t machB.hdr machB.dst n → ∀ i, i < 4 →
        grfByte u.grf (dstByte t machB.hdr machB.dst n + i) = product.extractLsb' (32 + 8 * i) 8)

/-- `not`, `and`, `or` and `xor` on integers in two's complement, a source modifier being numeric, before the operation (41
R603 to R606). Model's choices: that these rules, and not 40 R445's bitwise NOT, give a negated source is log 27 (DEDUCED);
that the operation has no width of its own, so that a wider destination takes the bits above is log 68 (DESIGN CHOICE). -/
def Obligations.LogicInstructions : Prop :=
  (∀ (s : State) (b : Basic1), StaysIn s b.dst → Allowed (logicChecks s b.hdr b.cmod b.dst [b.src0]) →
    DataStep s (.not_ b) b.hdr b.cmod b.dst [b.src0] fun n =>
      IntValue s b.hdr b.cmod b.dst.ty (execTy [b.src0.regType]).accBits (-(intS s b n) - 1) n) ∧
  (∀ (s : State) (b : Basic2) (i : Instr) (f : QWord → QWord → QWord), StaysIn s b.dst →
    Allowed (logicChecks s b.hdr b.cmod b.dst b.srcs) →
    ((i = .and_ b ∧ ∀ p q, f p q = p &&& q) ∨ (i = .or_ b ∧ ∀ p q, f p q = p ||| q) ∨
      (i = .xor_ b ∧ ∀ p q, f p q = p ^^^ q)) →
    IntStep s i b (accWidth b) fun n => (f (BitVec.ofInt 64 (int0 s b n)) (BitVec.ofInt 64 (int1 s b n))).toInt)

/-- Shifts by the low five bits of src1: zeros enter on the right of `shl` and the left of `shr`, the sign of a signed
source on the left of `asr` (41 R607 to R609; saturation of packed DWords in `shl` is unpredictable, U23; which operands are
packed DWords is log 30, DEDUCED). A count of 0 returns src0 (R609). Model's choices: that it does so for `shr` of a signed source,
and the width of `shr`, are log 34; that "within 33 bits" is judged in two's complement is log 88. -/
def Obligations.Shifts : Prop :=
  ∀ (s : State) (b : Basic2), StaysIn s b.dst →
    let count := fun n => (int1 s b n % 32).toNat
    (Allowed (shlChecks s b) → ¬ (b.hdr.sat = true ∧ packedDWords b = true) →
      IntStep s (.shl b) b 33 fun n => int0 s b n * 2 ^ count n) ∧
    (Allowed (shlChecks s b) → DataStep s (.shl b) b.hdr b.cmod b.dst b.srcs fun _ _ _ _ _ => True) ∧
    (Allowed (shiftChecks s b) → IntStep s (.shr b) b (accWidth b) fun n =>
      if count n = 0 then int0 s b n else int0 s b n % 2 ^ shiftWidth b / 2 ^ count n) ∧
    (Allowed (shiftChecks s b) → IntStep s (.asr b) b (accWidth b) fun n =>
      if b.src0.ty.isSigned then int0 s b n / 2 ^ count n
      else if count n = 0 then int0 s b n else int0 s b n % 2 ^ shiftWidth b / 2 ^ count n)

/-- `mov` of an integer: converted to the destination type (41 R600, 40 R433, R434). Model's choice: that with a DF
destination the even channel of a pair supplies it is log 29 (DEDUCED; 40 R428 speaks of DF operands only). -/
def Obligations.MovOfInteger : Prop :=
  ∀ (s : State) (b : Basic1), StaysIn s b.dst → Allowed (movChecks s b) → b.src0.regType.isInt = true →
    DataStep s (.mov b) b.hdr b.cmod b.dst [b.src0] fun n =>
      IntValue s b.hdr b.cmod b.dst.ty (execTy [b.src0.regType]).accBits
        (intS s b (if b.dst.ty = .df then 2 * (n / 2) else n)) n

/-- `mov` of a float: a raw move copies the pattern; to an integer the number is truncated and clamped, a NaN gives 0;
between F and DF the number is converted; the flag of a move without a type change, raw or not, is the condition of the value,
and a condition with a type change is refused (41 R600, 40 R432, R435, R436; free in ALT mode for an infinity or a NaN, U15;
whether a modified move flushes denormals is log 26, the half of a DF pair log 29). -/
def Obligations.MovOfFloat : Prop :=
  (∀ (s : State) (b : Basic1), b.cmod ≠ .none → b.src0.regType ≠ b.dst.ty → ∃ r, exec (.mov b) s = .refused r) ∧
  ∀ (s : State) (b : Basic1), StaysIn s b.dst → Allowed (movChecks s b) →
    let two := dstTwoRegs s b.hdr b.dst
    let pF := fun n => srcF s b.hdr two 0 b.src0 n
    let xF := fun n => FVal.ofBits fmtF (pF n).toNat
    let pD := fun n => srcDF s b.hdr two 0 b.src0 n
    let xD := fun n => FVal.ofBits fmtDF (pD n).toNat
    let toInt := fun (v : FVal) => BitVec.ofInt 64 (if v.isNan then 0 else clampInt b.dst.ty (truncRat v.toRat))
    let satTo := fun (f : FFmt) (v : FVal) => if b.hdr.sat then fsat f v else v
    (b.src0.regType = .f → DataStep s (.mov b) b.hdr b.cmod b.dst [b.src0] fun n bits flag _ wide =>
      altUndefined s [xF (if b.dst.ty = .df then 2 * (n / 2) else n)] = false →
        (isRawMov b = true → bits = pF n) ∧
        (b.dst.ty = .f → wide = bits.setWidth 64 ∧ flag = condition b.cmod (floatSignals (modeF s) (xF n) false)) ∧
        (b.dst.ty.isInt = true → bits = (toInt (xF n)).setWidth 32 ∧ wide = toInt (xF n)) ∧
        (isRawMov b = false → b.dst.ty = .f →
          HoldsFloat fmtF (satTo fmtF (xF n)) bits ∨ HoldsFloat fmtF (satTo fmtF ((xF n).flushIn (modeF s))) bits) ∧
        (b.dst.ty = .df → bits = halfOf wide n ∧ HoldsFloat fmtDF (satTo fmtDF (xF (2 * (n / 2)))) wide)) ∧
    (b.src0.regType = .df → DataStep s (.mov b) b.hdr b.cmod b.dst [b.src0] fun n bits flag _ wide =>
      (isRawMov b = true → wide = pD n) ∧ (b.dst.ty = .df → bits = halfOf wide n) ∧
      (b.dst.ty = .df → flag = condition b.cmod (floatSignals (modeDF s) (xD n) false)) ∧
      (isRawMov b = false → b.dst.ty = .df →
        HoldsFloat fmtDF (satTo fmtDF (xD n)) wide ∨ HoldsFloat fmtDF (satTo fmtDF ((xD n).flushIn (modeDF s))) wide) ∧
      (b.dst.ty = .f → n % 2 = 0 →
        HoldsFloat fmtF (satTo fmtF (fconvert fmtF .rz (xD n)).val) bits ∧ wide = bits.setWidth 64) ∧
      (b.dst.ty = .d ∨ b.dst.ty = .ud ∨ b.dst.ty = .w ∨ b.dst.ty = .uw → n % 2 = 0 →
        bits = (toInt (xD n)).setWidth 32 ∧ wide = toInt (xD n)))

/-- `sel` takes src0 where the predicate holds, or where the condition of the sources holds, on channels that the
predicate does not gate; a float selected by a condition has its denormals flushed to a zero of its sign; it writes no flag
(41 R601, 40 R486). Model's choices: `.o` and `.u` take src1 is log 58 (DESIGN CHOICE), one type throughout is log 51. -/
def Obligations.Select : Prop :=
  ∀ (s : State) (b : Basic2), StaysIn s b.dst → Allowed (selChecks s b) →
    let next := DataNext s (.sel b) b.hdr b.dst false (implicitFmt b.hdr b.srcs) (b.srcs.any Src.isTm0)
      (wrEnNoPred s b.hdr) (wrEnNoPred s b.hdr)
    let two := dstTwoRegs s b.hdr b.dst
    (allInt b.srcs = true → next fun n bits flag accv wide =>
      let first := if b.cmod = .none then pmask s b.hdr false n
        else if b.cmod = .o ∨ b.cmod = .u then false else relates b.cmod (int0 s b n) (int1 s b n)
      IntValue s b.hdr .none b.dst.ty (accWidth b) (if first then int0 s b n else int1 s b n) n bits flag accv wide) ∧
    (allTy .f b.srcs = true → next fun n bits _ accv wide =>
      altUndefined s [flt0 s b n, flt1 s b n] = false →
      let nan0 := (flt0 s b n).isNan
      let nan1 := (flt1 s b n).isNan
      let minmax := b.cmod = .ge ∨ b.cmod = .l
      let first := if b.cmod = .none then pmask s b.hdr false n
        else if b.cmod = .o ∨ b.cmod = .u then false
        else if nan0 || nan1 then decide minmax && nan1 && !nan0
        else relates b.cmod (flt0 s b n).toRat (flt1 s b n).toRat
      let p := if first then srcF s b.hdr two 0 (.reg b.src0) n else srcF s b.hdr two 1 b.src1 n
      let q := if b.cmod ≠ .none ∧ p.extractLsb' 23 8 = 0 then p &&& 0x80000000 else p
      accv = bits.setWidth 64 ∧ wide = bits.setWidth 64 ∧
      if b.hdr.sat then HoldsFloat fmtF (fsat fmtF (FVal.ofBits fmtF q.toNat)) bits else bits = q) ∧
    (allTy .df b.srcs = true → next fun n bits _ accv wide =>
      let first := if b.cmod = .none then pmask s b.hdr false n
        else selectCond b.cmod (dbl0 s b n).isNan (dbl1 s b n).isNan (fcompare (dbl0 s b n) (dbl1 s b n))
      let p := if first then srcDF s b.hdr two 0 (.reg b.src0) n else srcDF s b.hdr two 1 b.src1 n
      let q := if b.cmod ≠ .none ∧ p.extractLsb' 52 11 = 0 then p &&& 0x8000000000000000 else p
      bits = halfOf accv n ∧ wide = accv ∧
      if b.hdr.sat then HoldsFloat fmtDF (fsat fmtDF (FVal.ofBits fmtDF q.toNat)) accv else accv = q)

/-- `cmp` and `cmpn` leave all ones or zeros and the flag: the relation of numbers; with a NaN `cmp` holds only for `.ne`,
`cmpn` for every other modifier if src1 is the NaN and only for `.ne` if src0 alone is (41 R610, R611; 40 R461, R462, R485). -/
def Obligations.Compare : Prop :=
  ∀ (s : State) (b : Basic2) (i : Instr), StaysIn s b.dst → Allowed (cmpChecks s b) → i = .cmp b ∨ i = .cmpn b →
    let holds := fun (p : Bool) (bits : DWord) (flag : Bool) => flag = p ∧ bits = (if p then 0xFFFFFFFF else 0)
    (allInt b.srcs = true → DataStep s i b.hdr b.cmod b.dst b.srcs fun n bits flag _ _ =>
      holds (relates b.cmod (int0 s b n) (int1 s b n)) bits flag) ∧
    (allTy .f b.srcs = true → DataStep s i b.hdr b.cmod b.dst b.srcs fun n bits flag _ _ =>
      altUndefined s [flt0 s b n, flt1 s b n] = false →
      let nan0 := (flt0 s b n).isNan
      let nan1 := (flt1 s b n).isNan
      holds (if nan0 || nan1 then (if i = .cmpn b ∧ nan1 = true then b.cmod != .nz else b.cmod = .nz)
        else relates b.cmod (flt0 s b n).toRat (flt1 s b n).toRat) bits flag) ∧
    (allTy .df b.srcs = true → DataStep s i b.hdr b.cmod b.dst b.srcs fun n bits flag _ _ =>
      let ord := fcompare (dbl0 s b n) (dbl1 s b n)
      holds (if i = .cmpn b then compareNaN b.cmod (dbl1 s b n).isNan ord else compareCond b.cmod ord) bits flag)

/-- `movi` gathers from one register: a0.0 names it, the low five bits of index register e the element, aligned down
(41 R602; an element beyond the eighth is U20). Model's choices: the place of e in the destination is log 49 (DEDUCED), and that
a0.k plus the immediate, not a0.k alone, must name that register is log 89 (DESIGN CHOICE). -/
def Obligations.MoveIndexed : Prop :=
  ∀ (s : State) (b : Basic1) (r : RegSrc) (k : BitVec 3) (imm : BitVec 10), StaysIn s b.dst → Allowed (moviChecks s b) →
    b.src0 = .reg r → r.loc = .ind k imm →
    let index := fun e => ((s.a0.getD e 0) &&& 0x0FFF).toNat + imm.toInt
    let elem := fun n =>
      let e := dstSub s b.dst / r.ty.size + n
      grfElem s.grf ((index 0 % 4096 / 32).toNat * 32 + (index e % 32).toNat / r.ty.size * r.ty.size) r.ty.size
    DataStep s (.movi b) b.hdr .none b.dst [b.src0] fun n bits flag accv wide =>
      dstSub s b.dst / r.ty.size + n < 8 →
        (r.ty.isInt = true → IntValue s b.hdr .none r.ty (execTy [r.ty]).accBits
          (modInt r.mod (intOfRaw r.ty (elem n))) n bits flag accv wide) ∧
        (r.ty = .f → r.mod = .none → b.hdr.sat = false →
          altUndefined s [FVal.ofBits fmtF (elem n).toNat] = false → bits = elem n ∧ wide = (elem n).setWidth 64)

/-- `f32to16` and `f16to32` convert through the half format in the rounding mode, with denormal halves kept (41 R612,
R613; the format is G4 of 93, PRESUMED in log 24; a modified source of `f16to32` is log 33). -/
def Obligations.HalfConversions : Prop :=
  ∀ (s : State) (b : Basic1), StaysIn s b.dst →
    (Allowed (f32to16Checks s b) → DataStep s (.f32to16 b) b.hdr b.cmod b.dst [b.src0] fun n bits flag _ _ =>
      let r := fconvert fmtHalf (Round.ofBits s.roundBits) (fltS s b n)
      HoldsFloat fmtHalf (if b.hdr.sat then fsat fmtHalf r.val else r.val) (bits.setWidth 16) ∧
      flag = condition b.cmod { neg := r.val.sign, zero := r.val.isZero, ov := r.ov, nan := r.val.isNan }) ∧
    (Allowed (f16to32Checks s b) → DataStep s (.f16to32 b) b.hdr b.cmod b.dst [b.src0] fun n bits flag accv wide =>
      b.src0.hasMod = false →
        FloatValue s b.hdr b.cmod [] (exactRes (FVal.ofBits fmtHalf ((bitsS s b n).setWidth 16).toNat)) bits flag accv wide)

/-- Bit fields, bit by bit: reversal, extraction with extension, mask and insertion (41 R614 to R617). Model's choice: that a
three-source destination may begin at any DWord is log 91 (DESIGN CHOICE). -/
def Obligations.BitFields : Prop :=
  (∀ (s : State) (b : Basic1), StaysIn s b.dst → Allowed (bitChecks s b.hdr b.cmod b.dst [.ud] [b.src0]) →
    DataStep s (.bfrev b) b.hdr .none b.dst [b.src0] fun n bits _ _ _ =>
      ∀ i, i < 32 → bits.getLsbD i = (bitsS s b n).getLsbD (31 - i)) ∧
  (∀ (s : State) (b : Basic2), StaysIn s b.dst → Allowed (bitChecks s b.hdr b.cmod b.dst [.ud, .d] b.srcs) →
    DataStep s (.bfi1 b) b.hdr .none b.dst b.srcs fun n bits _ _ _ =>
      let w := (bits0 s b n).toNat % 32
      let o := (bits1 s b n).toNat % 32
      ∀ i, i < 32 → bits.getLsbD i = (decide (o ≤ i) && decide (i < o + w))) ∧
  (∀ (s : State) (t : Tri), Allowed (triChecks t ++ bitChecks s t.hdr t.cmod t.dst [.ud, .d] t.srcs) →
    (DataStep s (.bfe t) t.hdr .none t.dst t.srcs fun n bits _ _ _ =>
      let o := (triInt s t 1 t.src1 n).toNat % 32
      let w := min ((triInt s t 0 t.src0 n).toNat % 32) (32 - o)
      let v := triInt s t 2 t.src2 n
      ∀ i, i < 32 → bits.getLsbD i =
        if i < w then v.getLsbD (o + i) else decide (t.srcTy = .d) && decide (0 < w) && v.getLsbD (o + w - 1)) ∧
    (DataStep s (.bfi2 t) t.hdr .none t.dst t.srcs fun n bits _ _ _ =>
      let mask := triInt s t 0 t.src0 n
      (mask = 0 → bits = triInt s t 2 t.src2 n) ∧
      ∀ k, IsTrailingZeros mask k → ∀ i, i < 32 → bits.getLsbD i =
        if mask.getLsbD i then (triInt s t 1 t.src1 n).getLsbD (i - k) else (triInt s t 2 t.src2 n).getLsbD i))

/-- `cbit` counts the 1 bits of UB, UW or UD into UD; `fbl` is the place of the lowest 1 bit of a UD, or all ones. They have
no saturation, condition, source modifier or accumulator access (44 R752, R753). -/
def Obligations.CountBitsAndFindLow : Prop :=
  (∀ (s : State) (b : Basic1), (Instr.cbit b).opcode = 0b1001101 ∧
      (b.hdr.accWr = true ∨ b.src0.isAcc = true ∨ b.dst.loc.isAcc = true ∨ b.hdr.sat = true ∨ b.cmod ≠ .none ∨
        b.src0.hasMod = true ∨ b.dst.ty ≠ .ud ∨
        (b.src0.regType ≠ .ub ∧ b.src0.regType ≠ .uw ∧ b.src0.regType ≠ .ud) →
        ∃ r, exec (.cbit b) s = .refused r) ∧
      (StaysIn s b.dst → Allowed (countChecks s b [.ub, .uw, .ud]) →
        BitsStep s (.cbit b) b.hdr b.dst [b.src0] fun n =>
          BitVec.ofNat 32 ((List.range 32).filter fun i => (bitsS s b n).getLsbD i).length)) ∧
  (∀ (s : State) (b : Basic1), (Instr.fbl b).opcode = 0b1001100 ∧
      (b.hdr.accWr = true ∨ b.src0.isAcc = true ∨ b.dst.loc.isAcc = true ∨ b.hdr.sat = true ∨ b.cmod ≠ .none ∨
        b.src0.hasMod = true ∨ b.dst.ty ≠ .ud ∨ b.src0.regType ≠ .ud → ∃ r, exec (.fbl b) s = .refused r) ∧
      (StaysIn s b.dst → Allowed (countChecks s b [.ud]) →
        DataStep s (.fbl b) b.hdr .none b.dst [b.src0] fun n bits _ _ _ =>
          (bitsS s b n = 0 → bits = 0xFFFFFFFF) ∧ (bitsS s b n ≠ 0 → IsTrailingZeros (bitsS s b n) bits.toNat)))

/-- `lzd` counts the zeros above the highest 1 bit, 32 for zero; `fbh` does so for a UD or a non-negative D, counts the
ones of a negative D, and gives all ones where there is no significant bit (44 R750, R751). Model's choice: that `lzd` counts
on the low 32 bits of an accumulator channel is log 72 (DESIGN CHOICE). -/
def Obligations.LeadingBits : Prop :=
  ∀ (s : State) (b : Basic1), StaysIn s b.dst →
    (Allowed (lzdChecks s b) → DataStep s (.lzd b) b.hdr b.cmod b.dst [b.src0] fun n bits flag accv wide =>
      ∃ k : Nat, (bitsS s b n = 0 → k = 32) ∧ (bitsS s b n ≠ 0 → IsLeadingZeros (bitsS s b n) k) ∧
        IntValue s b.hdr b.cmod .ud 64 k n bits flag accv wide) ∧
    (Allowed (countChecks s b [.d, .ud]) → DataStep s (.fbh b) b.hdr .none b.dst [b.src0] fun n bits _ _ _ =>
      let x := bitsS s b n
      let signed := b.src0.regType = .d
      (x = 0 ∨ (signed ∧ x = 0xFFFFFFFF) → bits = 0xFFFFFFFF) ∧
      (x ≠ 0 → ¬ (signed ∧ x.getLsbD 31 = true) → IsLeadingZeros x bits.toNat) ∧
      (signed → x.getLsbD 31 = true → x ≠ 0xFFFFFFFF → IsLeadingZeros (~~~x) bits.toNat))

/-- `rndu`, `rndd`, `rnde` and `rndz` of a finite number: the ceiling, the floor, the nearest integral number (the even one
of a tie) and the truncation, with the sign of the source; `frc`: the number less its floor, rounded, +0 if that is 0, and a
NaN for an infinity (44 R743 to R747). -/
def Obligations.RoundingToIntegral : Prop :=
  ∀ (s : State) (p : DWord), (FVal.ofBits fmtF p.toNat).isSpecial = false →
    let x := (FVal.ofBits fmtF p.toNat).flushIn (modeF s)
    let q := x.toRat
    let even : Int := if q - q.floor < 1 / 2 then q.floor else if 1 / 2 < q - q.floor then q.floor + 1
      else if q.floor % 2 = 0 then q.floor else q.floor + 1
    ∀ (rm : Round) (v : Int),
      (rm = .ru ∧ v = -((-q).floor)) ∨ (rm = .rd ∧ v = q.floor) ∨ (rm = .rne ∧ v = even) ∨ (rm = .rz ∧ v = truncRat q) →
      (fround (modeF s) rm x).val.toRat = v ∧ (fround (modeF s) rm x).val.sign = x.sign ∧
      (fround (modeF s) rm x).ov = false ∧ (fround (modeF s) rm x).val.isSpecial = false ∧
      (q - q.floor = 0 → (ffrc (modeF s) x).val = .fin false 0 fmtF.emin) ∧
      (q - q.floor ≠ 0 → ∃ k g, (FVal.fin false k g).toRat = q - q.floor ∧ ffrc (modeF s) x = roundFin (modeF s) false k g) ∧
      (∀ neg, (ffrc (modeF s) (.inf neg)).val = .nan) ∧ (ffrc (modeF s) .nan).val = .nan

/-- The rounding instructions and `frc` complete on every allowed operand with the value of their function (44 R743 to
R747; `frc` without the erratum of D14). -/
def Obligations.RoundingSteps : Prop :=
  ∀ (s : State) (b : Basic1), StaysIn s b.dst →
    let step1 := fun (i : Instr) (f : FVal → FRes) => DataStep s i b.hdr b.cmod b.dst [b.src0]
      fun n => FloatValue s b.hdr b.cmod [fltS s b n] (f (fltS s b n))
    (Allowed (roundChecks s b) →
      step1 (.rndu b) (fround (modeF s) .ru) ∧ step1 (.rndd b) (fround (modeF s) .rd) ∧
      step1 (.rnde b) (fround (modeF s) .rne) ∧ step1 (.rndz b) (fround (modeF s) .rz)) ∧
    (Allowed (frcChecks s b) → s.launch.frcErratum = false → step1 (.frc b) (ffrc (modeF s)))

/-- `sad2` and `sada2`: the sum of two absolute differences, and the accumulator, on the even channels, which also go to
the accumulator (45 R780, R781; odd channels are U18). Model's choices: the accumulator write is log 46 (DEDUCED); the channels
from 16 on of an instruction of 32 channels, which the accumulator does not have, are log 78 (DESIGN CHOICE); that the
accumulator keeps 33 bits of a `sad2` sum past 16 is log 95 (DESIGN CHOICE). -/
def Obligations.SumOfAbsoluteDifferences : Prop :=
  ∀ (s : State) (b : Basic2), StaysIn s b.dst → Allowed (sadChecks s b) →
    let sum : Nat → Int := fun n =>
      |int0 s b n - int1 s b n| + |int0 s b (n + 1) - int1 s b (n + 1)|
    let next := fun (i : Instr) (v : Nat → Int) => DataNext s i b.hdr b.dst (b.cmod != .none) (some .w)
      (b.srcs.any Src.isTm0) (wrEn s b.hdr) (fun n => wrEn s b.hdr n && n % 2 = 0)
      fun n bits flag accv wide => n % 2 = 0 → IntValue s b.hdr b.cmod b.dst.ty 33 (v n) n bits flag accv wide
    next (.sad2 b) sum ∧ next (.sada2 b) (fun n => (accIn s b.hdr .w n).toInt + sum n)

/-- The dot products of groups of four channels, one scalar for the four: the products of the components that take part,
summed in the order of `DOT_ORDER`; `dph` has 1.0 in the place of src0's fourth (45 R779, R782 to R785, D12 of 92). -/
def Obligations.DotProducts : Prop :=
  ∀ (s : State) (b : Basic2), StaysIn s b.dst → Allowed (dotChecks s b) →
    (∀ i, i = .dp4 b ∨ i = .dph b ∨ i = .dp3 b ∨ i = .dp2 b →
      ∃ r : Nat → DWord, DataStep s i b.hdr b.cmod b.dst b.srcs fun n bits _ _ _ => bits = r (n / 4)) ∧
    (s.launch.dotOrder = .add (.add (.add (.term 0) (.term 1)) (.term 2)) (.term 3) →
    let x := fun n j => flt0 s b (4 * (n / 4) + j)
    let y := fun n j => flt1 s b (4 * (n / 4) + j)
    let one := FVal.fin false 1 0
    let p := fun n j => fmul (modeF s) (x n j) (y n j)
    let add := plusF (modeF s)
    FloatStep s (.dp4 b) b (fun n => [x n 0, y n 0, x n 1, y n 1, x n 2, y n 2, x n 3, y n 3])
      (fun n => add (add (add (p n 0) (p n 1)) (p n 2)) (p n 3)) ∧
    FloatStep s (.dph b) b (fun n => [x n 0, y n 0, x n 1, y n 1, x n 2, y n 2, one, y n 3])
      (fun n => add (add (add (p n 0) (p n 1)) (p n 2)) (fmul (modeF s) one (y n 3))) ∧
    FloatStep s (.dp3 b) b (fun n => [x n 0, y n 0, x n 1, y n 1, x n 2, y n 2]) (fun n => add (add (p n 0) (p n 1)) (p n 2)) ∧
    FloatStep s (.dp2 b) b (fun n => [x n 0, y n 0, x n 1, y n 1]) (fun n => add (p n 0) (p n 1)))

/-- `line`, `pln`, `mad` and `lrp` complete; their values with rounding after each operation, and fused, rounded once, `mad`
in DF too; the tuple of src0 begins at its OWord, and the second vector of `pln` is element n of the registers after src1's,
whatever src1's region (45 R786 to R789, 00_scope R6, D16 of 92). Model's choices: the order of the operations of `pln` and
`lrp` is log 45 (DESIGN CHOICE), that src1's modifier applies to the second vector is log 73 (DEDUCED), that src0's applies to
the implied q and r of `pln` is log 96 (DEDUCED), that a three-source destination may begin at any DWord is log 91 (DESIGN
CHOICE), and that a replicated DF source is refused is log 93 (DEDUCED). -/
def Obligations.PlanesAndInterpolation : Prop :=
  (∀ (s : State) (b : Basic2), StaysIn s b.dst →
    (Allowed (lineChecks s b) → DataStep s (.line b) b.hdr b.cmod b.dst b.srcs fun _ _ _ _ _ => True) ∧
    (Allowed (plnChecks s b) → DataStep s (.pln b) b.hdr b.cmod b.dst b.srcs fun _ _ _ _ _ => True)) ∧
  (∀ (s : State) (t : Tri),
    (Allowed (madChecks s t) → DataStep s (.mad t) t.hdr t.cmod t.dst t.srcs fun _ _ _ _ _ => True) ∧
    (Allowed (lrpChecks s t) → DataStep s (.lrp t) t.hdr t.cmod t.dst t.srcs fun _ _ _ _ _ => True)) ∧
  (∀ (s : State) (b : Basic2) (num : BitVec 7) (sub : BitVec 5) (r : RegSrc) (i n : Nat),
    (b.src0.loc = .grf num sub → b.src0.mod = .none → planeCoeff s b.src0 i =
      (FVal.ofBits fmtF (grfElem s.grf (32 * num.toNat + sub.toNat / 16 * 16 + 4 * i) 4).toNat).flushIn (modeF s)) ∧
    (b.src1 = .reg r → r.loc = .grf num sub → r.mod = .none → sub.toNat + r.region.off 4 0 < 32 → r.ty = .f →
      plnV s b n =
        (FVal.ofBits fmtF (grfElem s.grf (32 * (num.toNat + b.hdr.count / 8) + 4 * n) 4).toNat).flushIn (modeF s))) ∧
  (∀ s : State, s.launch.madFused = true →
    let md := modeF s
    (∀ b : Basic2, StaysIn s b.dst →
      let c := fun i => planeCoeff s b.src0 i
      let input := fun n => [c 0, c 1, c 3, flt1 s b n, plnV s b n]
      (Allowed (lineChecks s b) → ∃ r, FloatStep s (.line b) b (fun n => [c 0, flt1 s b n, c 3]) r ∧
        ∀ n, AllFinite [c 0, flt1 s b n, c 3] →
          RoundedOnce md ((c 0).toRat * (flt1 s b n).toRat + (c 3).toRat) (r n)) ∧
      (Allowed (plnChecks s b) → ∃ r, FloatStep s (.pln b) b input r ∧ ∀ n, AllFinite (input n) →
        RoundedOnce md ((c 0).toRat * (flt1 s b n).toRat + (c 1).toRat * (plnV s b n).toRat + (c 3).toRat) (r n))) ∧
    (∀ t : Tri,
      let x := fun k (src : TriSrc) n => valF s t.hdr (dstTwoRegs s t.hdr t.dst) k (src.toSrc t.srcTy) n
      let z := fun k (src : TriSrc) n => valDF s t.hdr (dstTwoRegs s t.hdr t.dst) k (src.toSrc t.srcTy) n
      let input := fun n => [x 0 t.src0 n, x 1 t.src1 n, x 2 t.src2 n]
      (Allowed (madChecks s t) → t.srcTy = .f → ∃ r : Nat → FRes,
        (DataStep s (.mad t) t.hdr t.cmod t.dst t.srcs fun n => FloatValue s t.hdr t.cmod (input n) (r n)) ∧
        ∀ n, AllFinite (input n) →
          RoundedOnce md ((x 1 t.src1 n).toRat * (x 2 t.src2 n).toRat + (x 0 t.src0 n).toRat) (r n)) ∧
      (Allowed (madChecks s t) → t.srcTy = .df → ∃ r : Nat → FRes,
        (DataStep s (.mad t) t.hdr t.cmod t.dst t.srcs fun n => DFValue s t.hdr t.cmod (r n) n) ∧
        ∀ n, AllFinite [z 0 t.src0 n, z 1 t.src1 n, z 2 t.src2 n] →
          RoundedOnce (modeDF s) ((z 1 t.src1 n).toRat * (z 2 t.src2 n).toRat + (z 0 t.src0 n).toRat) (r n)) ∧
      (Allowed (lrpChecks s t) → ∃ r : Nat → FRes,
        (DataStep s (.lrp t) t.hdr t.cmod t.dst t.srcs fun n => FloatValue s t.hdr t.cmod (input n) (r n)) ∧
        ∀ n, AllFinite (input n) →
          RoundedOnce md ((x 1 t.src1 n).toRat * (x 0 t.src0 n).toRat +
            (x 2 t.src2 n).toRat * (1 - (x 0 t.src0 n).toRat)) (r n)))) ∧
  ∀ s : State, s.launch.madFused = false →
    let md := modeF s
    let add := plusF md
    (∀ b : Basic2, StaysIn s b.dst →
      let c := fun i => planeCoeff s b.src0 i
      (Allowed (lineChecks s b) → FloatStep s (.line b) b (fun n => [c 0, flt1 s b n, c 3])
        fun n => add (fmul md (c 0) (flt1 s b n)) (exactRes (c 3))) ∧
      (Allowed (plnChecks s b) → FloatStep s (.pln b) b (fun n => [c 0, c 1, c 3, flt1 s b n, plnV s b n])
        fun n => add (add (fmul md (c 0) (flt1 s b n)) (fmul md (c 1) (plnV s b n))) (exactRes (c 3)))) ∧
    (∀ t : Tri,
      let x := fun k (src : TriSrc) n => valF s t.hdr (dstTwoRegs s t.hdr t.dst) k (src.toSrc t.srcTy) n
      let z := fun k (src : TriSrc) n => valDF s t.hdr (dstTwoRegs s t.hdr t.dst) k (src.toSrc t.srcTy) n
      (Allowed (madChecks s t) → t.srcTy = .f → DataStep s (.mad t) t.hdr t.cmod t.dst t.srcs
        fun n => FloatValue s t.hdr t.cmod [x 0 t.src0 n, x 1 t.src1 n, x 2 t.src2 n]
          (add (fmul md (x 1 t.src1 n) (x 2 t.src2 n)) (exactRes (x 0 t.src0 n)))) ∧
      (Allowed (madChecks s t) → t.srcTy = .df → DataStep s (.mad t) t.hdr t.cmod t.dst t.srcs
        fun n => DFValue s t.hdr t.cmod
          (plusF (modeDF s) (fmul (modeDF s) (z 1 t.src1 n) (z 2 t.src2 n)) (exactRes (z 0 t.src0 n))) n) ∧
      (Allowed (lrpChecks s t) → DataStep s (.lrp t) t.hdr t.cmod t.dst t.srcs
        fun n =>
          let rest := fadd md (.fin false 1 0) (FVal.neg (x 0 t.src0 n))
          let second := fmul md (x 2 t.src2 n) rest.val
          FloatValue s t.hdr t.cmod [x 0 t.src0 n, x 1 t.src1 n, x 2 t.src2 n]
            (add (fmul md (x 1 t.src1 n) (x 0 t.src0 n)) { second with ov := second.ov || rest.ov })))

/-- `math` integer division: the quotient toward zero (FC Ch), the remainder with the numerator's sign (FC Dh), or both, the
remainder 32 bytes after the quotient (FC Bh), where the divisor is not 0 and the quotient fits; any value elsewhere. Channel
by channel: a later channel's quotient replaces an earlier remainder where they overlap (43 R703, R719; U13 of 93). -/
def Obligations.IntegerDivision : Prop :=
  ∀ (s : State) (m : Math), Allowed (mathChecks s m) →
    let x := fun n => srcInt s m.hdr (dstTwoRegs s m.hdr m.dst) 0 (.reg m.src0) n
    let y := fun n => srcInt s m.hdr (dstTwoRegs s m.hdr m.dst) 1 m.src1 n
    let described := fun n => y n ≠ 0 ∧ ¬ (m.dst.ty = .d ∧ x n = -2147483648 ∧ y n = -1)
    let divides := fun n (q r : Int) => x n = q * y n + r ∧ |r| < |y n| ∧ (0 ≤ x n → 0 ≤ r) ∧ (x n ≤ 0 → r ≤ 0)
    (m.fc = 0xC ∨ m.fc = 0xD → DataStep s (.math m) m.hdr .none m.dst m.srcs fun n bits _ _ _ =>
      described n → ∃ q r, divides n q r ∧ bits = BitVec.ofInt 32 (if m.fc = 0xD then r else q)) ∧
    (m.fc = 0xB → Completes (.math m) s fun t =>
      let on := fun n => n < m.hdr.count ∧ dstOn m.dst (wrEn s m.hdr) n
      let a := dstByte s m.hdr m.dst
      t = advance s.spf { s with grf := t.grf, dep := t.dep } ∧
      (∀ n, on n → described n → ∃ q r, divides n q r ∧ grfElem t.grf (a n) 4 = BitVec.ofInt 32 q ∧
        ((∀ k, on k → n < k → a k + 4 ≤ a n + 32 ∨ a n + 36 ≤ a k) → grfElem t.grf (a n + 32) 4 = BitVec.ofInt 32 r)) ∧
      ∀ p, (∀ n, on n → (p < a n ∨ a n + 4 ≤ p) ∧ (p < a n + 32 ∨ a n + 36 ≤ p)) → grfByte t.grf p = grfByte s.grf p)

/-- `math` float functions complete, and give the special values of their tables in IEEE and in ALT mode: INV, LOG, EXP,
SQRT, RSQ, SIN and COS of infinities, zeros (denormals too), negative numbers and NaN; POW cell by cell, where +F is a positive
finite number; FDIV is the rounded quotient (43 R710 to R718, C19, D17 of 92; a result that is a NaN has any NaN pattern). The
cells that the tables leave blank are free (log 32). -/
def Obligations.MathSpecialValues : Prop :=
  ∀ (s : State) (m : Math), StaysIn s m.dst → Allowed (mathChecks s m) → isIntDivFC m.fc = false → isReservedFC m.fc = false →
    let x := fun n => valF s m.hdr (dstTwoRegs s m.hdr m.dst) 0 (.reg m.src0) n
    let y := fun n => valF s m.hdr (dstTwoRegs s m.hdr m.dst) 1 m.src1 n
    let zero := fun neg => FVal.fin neg 0 fmtF.emin
    let one := FVal.fin false 1 0
    let fmax := fmtF.maxVal
    let ieee : Nat → FVal → FVal → Prop := fun fc v w =>
      match fc with
      | 1 => (v = .inf false → w = zero false) ∧ (v = .inf true → w = zero true) ∧
          (∀ neg, v = zero neg → w = .inf neg)
      | 2 => (v = .inf false → w = .inf false) ∧ (v = .inf true → w = .nan) ∧ (∀ neg, v = zero neg → w = .inf true) ∧
          (∀ k e, k ≠ 0 → v = .fin true k e → w = .nan)
      | 3 => (v = .inf false → w = .inf false) ∧ (v = .inf true → w = zero false) ∧ (∀ neg, v = zero neg → w = one)
      | 4 => (v = .inf false → w = .inf false) ∧ (v = .inf true → w = .nan) ∧ (∀ neg, v = zero neg → w = zero neg) ∧
          (∀ k e, k ≠ 0 → v = .fin true k e → w = .nan)
      | 5 => (v = .inf false → w = zero false) ∧ (v = .inf true → w = .nan) ∧ (∀ neg, v = zero neg → w = .inf neg) ∧
          (∀ k e, k ≠ 0 → v = .fin true k e → w = .nan)
      | 6 => (∀ neg, v = .inf neg → w = .nan) ∧ (∀ neg, v = zero neg → w = zero neg)
      | 7 => (∀ neg, v = .inf neg → w = .nan) ∧ (∀ neg, v = zero neg → w = one)
      | _ => True
    let alt : Nat → FVal → FVal → Prop := fun fc v w =>
      ∀ neg, v = zero neg →
        match fc with
        | 1 => w = fmax neg
        | 2 => w = fmax true
        | 3 => w = one
        | 4 => w = zero false
        | 5 => w = fmax false
        | 6 => w = zero neg
        | 7 => w = one
        | _ => True
    let posFin := fun (w : FVal) => ∃ k e, k ≠ 0 ∧ w = .fin false k e
    let powIeee : FVal → FVal → FVal → Prop := fun v u w =>
      (v = .nan ∨ u = .nan → w = .nan) ∧
      (∀ neg k e, k ≠ 0 → u = .fin neg k e →
        (v = .inf neg → neg = false → w = .inf false) ∧ (v = .inf true → neg = false → w = .nan) ∧
        (∀ n2, v = .inf n2 → neg = true → w = zero false) ∧
        (∀ n2, v = zero n2 → w = if neg then .inf false else zero false) ∧
        (posFin v → neg = true ∨ 1 < v.toRat → posFin w)) ∧
      (∀ neg, u = zero neg →
        ((∃ n2, v = .inf n2) ∨ (∃ n2, v = zero n2) → w = .nan) ∧ (posFin v → w = one)) ∧
      (∀ neg, u = .inf neg →
        (∀ n2, v = .inf n2 → w = if neg then zero false else .inf false) ∧
        (∀ n2, v = zero n2 → w = if neg then .inf false else zero false) ∧
        (posFin v → w = if v.toRat = 1 then .nan else if (decide (1 < v.toRat)) = neg then zero false else .inf false))
    let powAlt : FVal → FVal → FVal → Prop := fun v u w =>
      (v = .nan → (∀ neg, u ≠ .inf neg) → w = .nan) ∧
      (u = .nan → (∃ neg, v = zero neg) ∨ (∃ k e, v = .fin true k e) → w = .nan) ∧
      (∀ n2 j d, v = .fin n2 j d →
        (∀ neg, u = zero neg → w = one) ∧
        (∀ neg k e, k ≠ 0 → u = .fin neg k e →
          (j = 0 → w = if neg then fmax false else zero false) ∧ (j ≠ 0 → posFin w)))
    DataStep s (.math m) m.hdr .none m.dst (mathSrcs m) fun n bits _ _ _ =>
      let holds := fun w => HoldsFloat fmtF (if m.hdr.sat then fsat fmtF w else w) bits
      (m.fc.toNat < 8 → (x n).isSpecial = false ∨ s.altMode = false ∨ x n = .nan →
        ∃ w, holds w ∧ (x n = .nan → w = .nan) ∧ if s.altMode then alt m.fc.toNat (x n) w else ieee m.fc.toNat (x n) w) ∧
      (m.fc = 9 → holds (fdiv { modeF s with rm := .rne } (x n) (y n)).val) ∧
      (m.fc = 0xA → s.altMode = false → (∀ k e, k ≠ 0 → x n = .fin true k e → (y n).isNan = true) →
        (∀ k e j d, k ≠ 0 → j ≠ 0 → x n = .fin false k e → y n = .fin false j d → 1 < (x n).toRat) →
        ∃ w, holds w ∧ powIeee (x n) (y n) w) ∧
      (m.fc = 0xA → s.altMode = true → (∀ neg, x n ≠ .inf neg) → (∀ neg, y n ≠ .inf neg) →
        (y n = .nan → posFin (x n) → False) → ∃ w, holds w ∧ powAlt (x n) (y n) w)

/-- `math` INV, SQRT and RSQ of an ordinary number x (of |x| for SQRT and RSQ in ALT mode): within 1, 1 and 3 units in the
last place of the exact value, or a zero where that is below the smallest normal number and flushed; 2^k is the power of two
at or below the exact value (43 R710, R713, R714; the roots in squares, to stay among the rationals). Model's choice: that an
error in ULP counts these units is log 94 (DESIGN CHOICE). -/
def Obligations.MathAlgebraicPrecision : Prop :=
  ∀ (s : State) (m : Math), StaysIn s m.dst → Allowed (mathChecks s m) → m.fc = 1 ∨ m.fc = 4 ∨ m.fc = 5 →
    let x := fun n => valF s m.hdr (dstTwoRegs s m.hdr m.dst) 0 (.reg m.src0) n
    DataStep s (.math m) m.hdr .none m.dst (mathSrcs m) fun n bits _ _ _ =>
      ∀ neg j e, j ≠ 0 → x n = .fin neg j e → m.fc = 1 ∨ neg = false ∨ s.altMode = true →
        let a := |(x n).toRat|
        ∃ w : FVal, HoldsFloat fmtF (if m.hdr.sat then fsat fmtF w else w) bits ∧ w.isNan = false ∧
          let c := w.toRat
          (m.fc = 1 → w.sign = neg ∧ ∀ k : Int, pow2 k * a ≤ 1 → 1 < pow2 (k + 1) * a →
            let u := pow2 (max k (-126) - 23)
            |c - 1 / (x n).toRat| ≤ u ∨ (w.isZero = true ∧ 1 / a < pow2 (-126) + u)) ∧
          (m.fc = 4 → w.sign = false ∧ ∀ k : Int, pow2 (2 * k) ≤ a → a < pow2 (2 * (k + 1)) →
            let u := pow2 (max k (-126) - 23)
            (c ≤ u ∨ (c - u) ^ 2 ≤ a) ∧ a ≤ (c + u) ^ 2) ∧
          (m.fc = 5 → w.sign = false ∧ ∀ k : Int, pow2 (2 * k) * a ≤ 1 → 1 < pow2 (2 * (k + 1)) * a →
            let u := 3 * pow2 (max k (-126) - 23)
            (c ≤ u ∨ (c - u) ^ 2 * a ≤ 1) ∧ 1 ≤ (c + u) ^ 2 * a)

/-- `math` LOG, EXP, SIN and COS of an ordinary number x (of |x| for LOG in ALT mode): LOG within 2^-21, absolutely between
0.5 and 2 and relatively elsewhere; EXP, to base 2 (G5; PRESUMED, log 24), within 3 units in the last place; SIN and COS
between -1 and 1, and within 0.0008 where |x| is at most 100 pi (43 R711, R712, R716, R717). Model's choices: each bound is
widened by less than 2^-39, for EXP by 2^-49 of the value (log 31, DEDUCED); that an error in ULP counts units in the last
place of the exact value is log 94 (DESIGN CHOICE). -/
def Obligations.MathTranscendentalPrecision : Prop :=
  ∀ (s : State) (m : Math), StaysIn s m.dst → Allowed (mathChecks s m) →
    m.fc = 2 ∨ m.fc = 3 ∨ m.fc = 6 ∨ m.fc = 7 →
    let x := fun n => valF s m.hdr (dstTwoRegs s m.hdr m.dst) 0 (.reg m.src0) n
    DataStep s (.math m) m.hdr .none m.dst (mathSrcs m) fun n bits _ _ _ =>
      ∀ neg j e, j ≠ 0 → x n = .fin neg j e → m.fc ≠ 2 ∨ neg = false ∨ s.altMode = true →
        let r : ℝ := ((x n).toRat : ℝ)
        ∃ w : FVal, HoldsFloat fmtF (if m.hdr.sat then fsat fmtF w else w) bits ∧ w.isNan = false ∧
          let c : ℝ := (w.toRat : ℝ)
          (m.fc = 2 → (1 / 2 ≤ |r| ∧ |r| ≤ 2 → |c - Real.logb 2 r| ≤ 1 / 2 ^ 21 + 1 / 2 ^ 39) ∧
            (|r| < 1 / 2 ∨ 2 < |r| → |c - Real.logb 2 r| ≤ |Real.logb 2 r| / 2 ^ 21 + 1 / 2 ^ 39)) ∧
          (m.fc = 3 →
            (128 < r → w = if s.altMode then fmtF.maxVal false else .inf false) ∧
            (r ≤ 128 → w.sign = false ∧
              let v : ℝ := (2 : ℝ) ^ r
              let u : ℝ := 3 * ((pow2 (max ⌊r⌋ (-126) - 23) : Rat) : ℝ) + v / 2 ^ 49
              |c - v| ≤ u ∨ (w.isZero = true ∧ v < ((pow2 (-126) : Rat) : ℝ) + u))) ∧
          (m.fc = 6 ∨ m.fc = 7 → |c| ≤ 1 ∧
            (|r| ≤ 100 * Real.pi → |c - (if m.fc = 6 then Real.sin r else Real.cos r)| ≤ 8 / 10000 + 1 / 2 ^ 39))
end

