-- ==== Sys2Proof/Laws/State.lean ====
section
/-! SUPPORT. Field lemmas of the named updates of State: what each operation leaves in every field. -/

namespace Sys2Proof.Machine

/-! ## raise -/

@[simp] theorem raise_grf (s : State) (aip : DWord) :
    (raise s aip).grf = s.grf := rfl
@[simp] theorem raise_a0 (s : State) (aip : DWord) :
    (raise s aip).a0 = s.a0 := rfl
@[simp] theorem raise_acc (s : State) (aip : DWord) :
    (raise s aip).acc = s.acc := rfl
@[simp] theorem raise_f0 (s : State) (aip : DWord) :
    (raise s aip).f0 = s.f0 := rfl
@[simp] theorem raise_f1 (s : State) (aip : DWord) :
    (raise s aip).f1 = s.f1 := rfl
@[simp] theorem raise_sr00 (s : State) (aip : DWord) :
    (raise s aip).sr00 = s.sr00 := rfl
@[simp] theorem raise_sr01 (s : State) (aip : DWord) :
    (raise s aip).sr01 = s.sr01 := rfl
@[simp] theorem raise_sr02 (s : State) (aip : DWord) :
    (raise s aip).sr02 = s.sr02 := rfl
@[simp] theorem raise_sr03 (s : State) (aip : DWord) :
    (raise s aip).sr03 = s.sr03 := rfl
@[simp] theorem raise_cr00 (s : State) (aip : DWord) :
    (raise s aip).cr00 = s.cr00 ||| 0x80000000 := rfl
@[simp] theorem raise_cr01 (s : State) (aip : DWord) :
    (raise s aip).cr01 = s.cr01 := rfl
@[simp] theorem raise_cr02 (s : State) (aip : DWord) :
    (raise s aip).cr02 = alignIP aip := rfl
@[simp] theorem raise_n00 (s : State) (aip : DWord) :
    (raise s aip).n00 = s.n00 := rfl
@[simp] theorem raise_n01 (s : State) (aip : DWord) :
    (raise s aip).n01 = s.n01 := rfl
@[simp] theorem raise_n02 (s : State) (aip : DWord) :
    (raise s aip).n02 = s.n02 := rfl
@[simp] theorem raise_ip (s : State) (aip : DWord) :
    (raise s aip).ip = s.launch.sip := rfl
@[simp] theorem raise_pcIP (s : State) (aip : DWord) :
    (raise s aip).pcIP = s.pcIP := rfl
@[simp] theorem raise_tdr (s : State) (aip : DWord) :
    (raise s aip).tdr = s.tdr := rfl
@[simp] theorem raise_tm0 (s : State) (aip : DWord) :
    (raise s aip).tm0 = s.tm0 := rfl
@[simp] theorem raise_tmEvent (s : State) (aip : DWord) :
    (raise s aip).tmEvent = s.tmEvent := rfl
@[simp] theorem raise_callMask (s : State) (aip : DWord) :
    (raise s aip).callMask = s.callMask := rfl
@[simp] theorem raise_dep (s : State) (aip : DWord) :
    (raise s aip).dep = s.dep := rfl
@[simp] theorem raise_depA0 (s : State) (aip : DWord) :
    (raise s aip).depA0 = s.depA0 := rfl
@[simp] theorem raise_imem (s : State) (aip : DWord) :
    (raise s aip).imem = s.imem := rfl
@[simp] theorem raise_messages (s : State) (aip : DWord) :
    (raise s aip).messages = s.messages := rfl
@[simp] theorem raise_outstanding (s : State) (aip : DWord) :
    (raise s aip).outstanding = s.outstanding := rfl
@[simp] theorem raise_run (s : State) (aip : DWord) :
    (raise s aip).run = s.run := rfl
@[simp] theorem raise_nextIP (s : State) (aip : DWord) :
    (raise s aip).nextIP = s.nextIP := rfl
@[simp] theorem raise_launch (s : State) (aip : DWord) :
    (raise s aip).launch = s.launch := rfl
@[simp] theorem raise_host (s : State) (aip : DWord) :
    (raise s aip).host = s.host := rfl
@[simp] theorem raise_draw (s : State) (aip : DWord) :
    (raise s aip).draw = s.draw := rfl
@[simp] theorem raise_curWait (s : State) (aip : DWord) :
    (raise s aip).curWait = s.curWait := rfl
@[simp] theorem raise_prevWait (s : State) (aip : DWord) :
    (raise s aip).prevWait = s.prevWait := rfl

/-! ## returnToApp -/

@[simp] theorem returnToApp_grf (s : State) :
    (returnToApp s).grf = s.grf := rfl
@[simp] theorem returnToApp_a0 (s : State) :
    (returnToApp s).a0 = s.a0 := rfl
@[simp] theorem returnToApp_acc (s : State) :
    (returnToApp s).acc = s.acc := rfl
@[simp] theorem returnToApp_f0 (s : State) :
    (returnToApp s).f0 = s.f0 := rfl
@[simp] theorem returnToApp_f1 (s : State) :
    (returnToApp s).f1 = s.f1 := rfl
@[simp] theorem returnToApp_sr00 (s : State) :
    (returnToApp s).sr00 = s.sr00 := rfl
@[simp] theorem returnToApp_sr01 (s : State) :
    (returnToApp s).sr01 = s.sr01 := rfl
@[simp] theorem returnToApp_sr02 (s : State) :
    (returnToApp s).sr02 = s.sr02 := rfl
@[simp] theorem returnToApp_sr03 (s : State) :
    (returnToApp s).sr03 = s.sr03 := rfl
@[simp] theorem returnToApp_cr00 (s : State) :
    (returnToApp s).cr00 = s.cr00 := rfl
@[simp] theorem returnToApp_cr01 (s : State) :
    (returnToApp s).cr01 = s.cr01 := rfl
@[simp] theorem returnToApp_cr02 (s : State) :
    (returnToApp s).cr02 = s.cr02 := rfl
@[simp] theorem returnToApp_n00 (s : State) :
    (returnToApp s).n00 = s.n00 := rfl
@[simp] theorem returnToApp_n01 (s : State) :
    (returnToApp s).n01 = s.n01 := rfl
@[simp] theorem returnToApp_n02 (s : State) :
    (returnToApp s).n02 = s.n02 := rfl
@[simp] theorem returnToApp_ip (s : State) :
    (returnToApp s).ip = alignIP s.cr02 := rfl
@[simp] theorem returnToApp_pcIP (s : State) :
    (returnToApp s).pcIP = s.pcIP := rfl
@[simp] theorem returnToApp_tdr (s : State) :
    (returnToApp s).tdr = s.tdr := rfl
@[simp] theorem returnToApp_tm0 (s : State) :
    (returnToApp s).tm0 = s.tm0 := rfl
@[simp] theorem returnToApp_tmEvent (s : State) :
    (returnToApp s).tmEvent = s.tmEvent := rfl
@[simp] theorem returnToApp_callMask (s : State) :
    (returnToApp s).callMask = s.callMask := rfl
@[simp] theorem returnToApp_dep (s : State) :
    (returnToApp s).dep = s.dep := rfl
@[simp] theorem returnToApp_depA0 (s : State) :
    (returnToApp s).depA0 = s.depA0 := rfl
@[simp] theorem returnToApp_imem (s : State) :
    (returnToApp s).imem = s.imem := rfl
@[simp] theorem returnToApp_messages (s : State) :
    (returnToApp s).messages = s.messages := rfl
@[simp] theorem returnToApp_outstanding (s : State) :
    (returnToApp s).outstanding = s.outstanding := rfl
@[simp] theorem returnToApp_run (s : State) :
    (returnToApp s).run = s.run := rfl
@[simp] theorem returnToApp_nextIP (s : State) :
    (returnToApp s).nextIP = s.nextIP := rfl
@[simp] theorem returnToApp_launch (s : State) :
    (returnToApp s).launch = s.launch := rfl
@[simp] theorem returnToApp_host (s : State) :
    (returnToApp s).host = s.host := rfl
@[simp] theorem returnToApp_draw (s : State) :
    (returnToApp s).draw = s.draw := rfl
@[simp] theorem returnToApp_curWait (s : State) :
    (returnToApp s).curWait = s.curWait := rfl
@[simp] theorem returnToApp_prevWait (s : State) :
    (returnToApp s).prevWait = s.prevWait := rfl

/-! ## advance -/

@[simp] theorem advance_grf (spf : Bool) (s : State) :
    (advance spf s).grf = s.grf := rfl
@[simp] theorem advance_a0 (spf : Bool) (s : State) :
    (advance spf s).a0 = s.a0 := rfl
@[simp] theorem advance_acc (spf : Bool) (s : State) :
    (advance spf s).acc = s.acc := rfl
@[simp] theorem advance_f0 (spf : Bool) (s : State) :
    (advance spf s).f0 = s.f0 := rfl
@[simp] theorem advance_f1 (spf : Bool) (s : State) :
    (advance spf s).f1 = s.f1 := rfl
@[simp] theorem advance_sr00 (spf : Bool) (s : State) :
    (advance spf s).sr00 = s.sr00 := rfl
@[simp] theorem advance_sr01 (spf : Bool) (s : State) :
    (advance spf s).sr01 = s.sr01 := rfl
@[simp] theorem advance_sr02 (spf : Bool) (s : State) :
    (advance spf s).sr02 = s.sr02 := rfl
@[simp] theorem advance_sr03 (spf : Bool) (s : State) :
    (advance spf s).sr03 = s.sr03 := rfl
@[simp] theorem advance_cr00 (spf : Bool) (s : State) :
    (advance spf s).cr00 = s.cr00 := rfl
@[simp] theorem advance_cr01 (spf : Bool) (s : State) :
    (advance spf s).cr01 = s.cr01 := rfl
@[simp] theorem advance_cr02 (spf : Bool) (s : State) :
    (advance spf s).cr02 = s.cr02 := rfl
@[simp] theorem advance_n00 (spf : Bool) (s : State) :
    (advance spf s).n00 = s.n00 := rfl
@[simp] theorem advance_n01 (spf : Bool) (s : State) :
    (advance spf s).n01 = s.n01 := rfl
@[simp] theorem advance_n02 (spf : Bool) (s : State) :
    (advance spf s).n02 = s.n02 := rfl
@[simp] theorem advance_ip (spf : Bool) (s : State) :
    (advance spf s).ip = s.nextIP := rfl
@[simp] theorem advance_pcIP (spf : Bool) (s : State) :
    (advance spf s).pcIP = if spf then s.pcIP else s.pcIP.map fun p => if p = s.ip then s.nextIP else p := rfl
@[simp] theorem advance_tdr (spf : Bool) (s : State) :
    (advance spf s).tdr = s.tdr := rfl
@[simp] theorem advance_tm0 (spf : Bool) (s : State) :
    (advance spf s).tm0 = s.tm0 := rfl
@[simp] theorem advance_tmEvent (spf : Bool) (s : State) :
    (advance spf s).tmEvent = s.tmEvent := rfl
@[simp] theorem advance_callMask (spf : Bool) (s : State) :
    (advance spf s).callMask = s.callMask := rfl
@[simp] theorem advance_dep (spf : Bool) (s : State) :
    (advance spf s).dep = s.dep := rfl
@[simp] theorem advance_depA0 (spf : Bool) (s : State) :
    (advance spf s).depA0 = s.depA0 := rfl
@[simp] theorem advance_imem (spf : Bool) (s : State) :
    (advance spf s).imem = s.imem := rfl
@[simp] theorem advance_messages (spf : Bool) (s : State) :
    (advance spf s).messages = s.messages := rfl
@[simp] theorem advance_outstanding (spf : Bool) (s : State) :
    (advance spf s).outstanding = s.outstanding := rfl
@[simp] theorem advance_run (spf : Bool) (s : State) :
    (advance spf s).run = s.run := rfl
@[simp] theorem advance_nextIP (spf : Bool) (s : State) :
    (advance spf s).nextIP = s.nextIP := rfl
@[simp] theorem advance_launch (spf : Bool) (s : State) :
    (advance spf s).launch = s.launch := rfl
@[simp] theorem advance_host (spf : Bool) (s : State) :
    (advance spf s).host = s.host := rfl
@[simp] theorem advance_draw (spf : Bool) (s : State) :
    (advance spf s).draw = s.draw := rfl
@[simp] theorem advance_curWait (spf : Bool) (s : State) :
    (advance spf s).curWait = s.curWait := rfl
@[simp] theorem advance_prevWait (spf : Bool) (s : State) :
    (advance spf s).prevWait = s.prevWait := rfl

/-! ## latchBreak -/

@[simp] theorem latchBreak_grf (s : State) :
    (latchBreak s).grf = s.grf := rfl
@[simp] theorem latchBreak_a0 (s : State) :
    (latchBreak s).a0 = s.a0 := rfl
@[simp] theorem latchBreak_acc (s : State) :
    (latchBreak s).acc = s.acc := rfl
@[simp] theorem latchBreak_f0 (s : State) :
    (latchBreak s).f0 = s.f0 := rfl
@[simp] theorem latchBreak_f1 (s : State) :
    (latchBreak s).f1 = s.f1 := rfl
@[simp] theorem latchBreak_sr00 (s : State) :
    (latchBreak s).sr00 = s.sr00 := rfl
@[simp] theorem latchBreak_sr01 (s : State) :
    (latchBreak s).sr01 = s.sr01 := rfl
@[simp] theorem latchBreak_sr02 (s : State) :
    (latchBreak s).sr02 = s.sr02 := rfl
@[simp] theorem latchBreak_sr03 (s : State) :
    (latchBreak s).sr03 = s.sr03 := rfl
@[simp] theorem latchBreak_cr00 (s : State) :
    (latchBreak s).cr00 = s.cr00 := rfl
@[simp] theorem latchBreak_cr01 (s : State) :
    (latchBreak s).cr01 = s.cr01 ||| 0x80000000 := rfl
@[simp] theorem latchBreak_cr02 (s : State) :
    (latchBreak s).cr02 = s.cr02 := rfl
@[simp] theorem latchBreak_n00 (s : State) :
    (latchBreak s).n00 = s.n00 := rfl
@[simp] theorem latchBreak_n01 (s : State) :
    (latchBreak s).n01 = s.n01 := rfl
@[simp] theorem latchBreak_n02 (s : State) :
    (latchBreak s).n02 = s.n02 := rfl
@[simp] theorem latchBreak_ip (s : State) :
    (latchBreak s).ip = s.ip := rfl
@[simp] theorem latchBreak_pcIP (s : State) :
    (latchBreak s).pcIP = s.pcIP := rfl
@[simp] theorem latchBreak_tdr (s : State) :
    (latchBreak s).tdr = s.tdr := rfl
@[simp] theorem latchBreak_tm0 (s : State) :
    (latchBreak s).tm0 = s.tm0 := rfl
@[simp] theorem latchBreak_tmEvent (s : State) :
    (latchBreak s).tmEvent = s.tmEvent := rfl
@[simp] theorem latchBreak_callMask (s : State) :
    (latchBreak s).callMask = s.callMask := rfl
@[simp] theorem latchBreak_dep (s : State) :
    (latchBreak s).dep = s.dep := rfl
@[simp] theorem latchBreak_depA0 (s : State) :
    (latchBreak s).depA0 = s.depA0 := rfl
@[simp] theorem latchBreak_imem (s : State) :
    (latchBreak s).imem = s.imem := rfl
@[simp] theorem latchBreak_messages (s : State) :
    (latchBreak s).messages = s.messages := rfl
@[simp] theorem latchBreak_outstanding (s : State) :
    (latchBreak s).outstanding = s.outstanding := rfl
@[simp] theorem latchBreak_run (s : State) :
    (latchBreak s).run = s.run := rfl
@[simp] theorem latchBreak_nextIP (s : State) :
    (latchBreak s).nextIP = s.nextIP := rfl
@[simp] theorem latchBreak_launch (s : State) :
    (latchBreak s).launch = s.launch := rfl
@[simp] theorem latchBreak_host (s : State) :
    (latchBreak s).host = s.host := rfl
@[simp] theorem latchBreak_draw (s : State) :
    (latchBreak s).draw = s.draw := rfl
@[simp] theorem latchBreak_curWait (s : State) :
    (latchBreak s).curWait = s.curWait := rfl
@[simp] theorem latchBreak_prevWait (s : State) :
    (latchBreak s).prevWait = s.prevWait := rfl

/-! ## takeException -/

@[simp] theorem takeException_grf (s : State) :
    (takeException s).grf = s.grf := rfl
@[simp] theorem takeException_a0 (s : State) :
    (takeException s).a0 = s.a0 := rfl
@[simp] theorem takeException_acc (s : State) :
    (takeException s).acc = s.acc := rfl
@[simp] theorem takeException_f0 (s : State) :
    (takeException s).f0 = s.f0 := rfl
@[simp] theorem takeException_f1 (s : State) :
    (takeException s).f1 = s.f1 := rfl
@[simp] theorem takeException_sr00 (s : State) :
    (takeException s).sr00 = s.sr00 := rfl
@[simp] theorem takeException_sr01 (s : State) :
    (takeException s).sr01 = s.sr01 := rfl
@[simp] theorem takeException_sr02 (s : State) :
    (takeException s).sr02 = s.sr02 := rfl
@[simp] theorem takeException_sr03 (s : State) :
    (takeException s).sr03 = s.sr03 := rfl
@[simp] theorem takeException_cr00 (s : State) :
    (takeException s).cr00 = s.cr00 ||| 0x80000000 := rfl
@[simp] theorem takeException_cr01 (s : State) :
    (takeException s).cr01 = s.cr01 := rfl
@[simp] theorem takeException_cr02 (s : State) :
    (takeException s).cr02 = alignIP s.ip := rfl
@[simp] theorem takeException_n00 (s : State) :
    (takeException s).n00 = s.n00 := rfl
@[simp] theorem takeException_n01 (s : State) :
    (takeException s).n01 = s.n01 := rfl
@[simp] theorem takeException_n02 (s : State) :
    (takeException s).n02 = s.n02 := rfl
@[simp] theorem takeException_ip (s : State) :
    (takeException s).ip = s.launch.sip := rfl
@[simp] theorem takeException_pcIP (s : State) :
    (takeException s).pcIP = s.pcIP := rfl
@[simp] theorem takeException_tdr (s : State) :
    (takeException s).tdr = s.tdr := rfl
@[simp] theorem takeException_tm0 (s : State) :
    (takeException s).tm0 = s.tm0 := rfl
@[simp] theorem takeException_tmEvent (s : State) :
    (takeException s).tmEvent = s.tmEvent := rfl
@[simp] theorem takeException_callMask (s : State) :
    (takeException s).callMask = s.callMask := rfl
@[simp] theorem takeException_dep (s : State) :
    (takeException s).dep = s.dep := rfl
@[simp] theorem takeException_depA0 (s : State) :
    (takeException s).depA0 = s.depA0 := rfl
@[simp] theorem takeException_imem (s : State) :
    (takeException s).imem = s.imem := rfl
@[simp] theorem takeException_messages (s : State) :
    (takeException s).messages = s.messages := rfl
@[simp] theorem takeException_outstanding (s : State) :
    (takeException s).outstanding = s.outstanding := rfl
@[simp] theorem takeException_run (s : State) :
    (takeException s).run = s.run := rfl
@[simp] theorem takeException_nextIP (s : State) :
    (takeException s).nextIP = s.nextIP := rfl
@[simp] theorem takeException_launch (s : State) :
    (takeException s).launch = s.launch := rfl
@[simp] theorem takeException_host (s : State) :
    (takeException s).host = s.host := rfl
@[simp] theorem takeException_draw (s : State) :
    (takeException s).draw = s.draw := rfl
@[simp] theorem takeException_curWait (s : State) :
    (takeException s).curWait = false := rfl
@[simp] theorem takeException_prevWait (s : State) :
    (takeException s).prevWait = s.prevWait := rfl

/-! ## issue -/

@[simp] theorem issue_grf (s : State) (i : Instr) (len : Nat) :
    (issue s i len).grf = s.grf := rfl
@[simp] theorem issue_a0 (s : State) (i : Instr) (len : Nat) :
    (issue s i len).a0 = s.a0 := rfl
@[simp] theorem issue_acc (s : State) (i : Instr) (len : Nat) :
    (issue s i len).acc = s.acc := rfl
@[simp] theorem issue_f0 (s : State) (i : Instr) (len : Nat) :
    (issue s i len).f0 = s.f0 := rfl
@[simp] theorem issue_f1 (s : State) (i : Instr) (len : Nat) :
    (issue s i len).f1 = s.f1 := rfl
@[simp] theorem issue_sr00 (s : State) (i : Instr) (len : Nat) :
    (issue s i len).sr00 = s.sr00 := rfl
@[simp] theorem issue_sr01 (s : State) (i : Instr) (len : Nat) :
    (issue s i len).sr01 = s.sr01 := rfl
@[simp] theorem issue_sr02 (s : State) (i : Instr) (len : Nat) :
    (issue s i len).sr02 = s.sr02 := rfl
@[simp] theorem issue_sr03 (s : State) (i : Instr) (len : Nat) :
    (issue s i len).sr03 = s.sr03 := rfl
@[simp] theorem issue_cr00 (s : State) (i : Instr) (len : Nat) :
    (issue s i len).cr00 = s.cr00 := rfl
@[simp] theorem issue_cr01 (s : State) (i : Instr) (len : Nat) :
    (issue s i len).cr01 = s.cr01 := rfl
@[simp] theorem issue_cr02 (s : State) (i : Instr) (len : Nat) :
    (issue s i len).cr02 = s.cr02 := rfl
@[simp] theorem issue_n00 (s : State) (i : Instr) (len : Nat) :
    (issue s i len).n00 = s.n00 := rfl
@[simp] theorem issue_n01 (s : State) (i : Instr) (len : Nat) :
    (issue s i len).n01 = s.n01 := rfl
@[simp] theorem issue_n02 (s : State) (i : Instr) (len : Nat) :
    (issue s i len).n02 = s.n02 := rfl
@[simp] theorem issue_ip (s : State) (i : Instr) (len : Nat) :
    (issue s i len).ip = s.ip := rfl
@[simp] theorem issue_pcIP (s : State) (i : Instr) (len : Nat) :
    (issue s i len).pcIP = s.pcIP := rfl
@[simp] theorem issue_tdr (s : State) (i : Instr) (len : Nat) :
    (issue s i len).tdr = s.tdr := rfl
@[simp] theorem issue_tm0 (s : State) (i : Instr) (len : Nat) :
    (issue s i len).tm0 = Config.timestamp s.draw := rfl
@[simp] theorem issue_tmEvent (s : State) (i : Instr) (len : Nat) :
    (issue s i len).tmEvent = s.tmEvent := rfl
@[simp] theorem issue_callMask (s : State) (i : Instr) (len : Nat) :
    (issue s i len).callMask = s.callMask := rfl
@[simp] theorem issue_dep (s : State) (i : Instr) (len : Nat) :
    (issue s i len).dep = s.dep := rfl
@[simp] theorem issue_depA0 (s : State) (i : Instr) (len : Nat) :
    (issue s i len).depA0 = s.depA0 := rfl
@[simp] theorem issue_imem (s : State) (i : Instr) (len : Nat) :
    (issue s i len).imem = s.imem := rfl
@[simp] theorem issue_messages (s : State) (i : Instr) (len : Nat) :
    (issue s i len).messages = s.messages := rfl
@[simp] theorem issue_outstanding (s : State) (i : Instr) (len : Nat) :
    (issue s i len).outstanding = s.outstanding := rfl
@[simp] theorem issue_run (s : State) (i : Instr) (len : Nat) :
    (issue s i len).run = s.run := rfl
@[simp] theorem issue_nextIP (s : State) (i : Instr) (len : Nat) :
    (issue s i len).nextIP = s.ip + BitVec.ofNat 32 len := rfl
@[simp] theorem issue_launch (s : State) (i : Instr) (len : Nat) :
    (issue s i len).launch = s.launch := rfl
@[simp] theorem issue_host (s : State) (i : Instr) (len : Nat) :
    (issue s i len).host = s.host := rfl
@[simp] theorem issue_draw (s : State) (i : Instr) (len : Nat) :
    (issue s i len).draw = s.draw + 1 := rfl
@[simp] theorem issue_curWait (s : State) (i : Instr) (len : Nat) :
    (issue s i len).curWait = Instr.isWait i := rfl
@[simp] theorem issue_prevWait (s : State) (i : Instr) (len : Nat) :
    (issue s i len).prevWait = s.curWait := rfl

/-! ## spfBranch -/

@[simp] theorem spfBranch_grf (s : State) (dest : DWord) :
    (spfBranch s dest).grf = s.grf := rfl
@[simp] theorem spfBranch_a0 (s : State) (dest : DWord) :
    (spfBranch s dest).a0 = s.a0 := rfl
@[simp] theorem spfBranch_acc (s : State) (dest : DWord) :
    (spfBranch s dest).acc = s.acc := rfl
@[simp] theorem spfBranch_f0 (s : State) (dest : DWord) :
    (spfBranch s dest).f0 = s.f0 := rfl
@[simp] theorem spfBranch_f1 (s : State) (dest : DWord) :
    (spfBranch s dest).f1 = s.f1 := rfl
@[simp] theorem spfBranch_sr00 (s : State) (dest : DWord) :
    (spfBranch s dest).sr00 = s.sr00 := rfl
@[simp] theorem spfBranch_sr01 (s : State) (dest : DWord) :
    (spfBranch s dest).sr01 = s.sr01 := rfl
@[simp] theorem spfBranch_sr02 (s : State) (dest : DWord) :
    (spfBranch s dest).sr02 = s.sr02 := rfl
@[simp] theorem spfBranch_sr03 (s : State) (dest : DWord) :
    (spfBranch s dest).sr03 = s.sr03 := rfl
@[simp] theorem spfBranch_cr00 (s : State) (dest : DWord) :
    (spfBranch s dest).cr00 = s.cr00 := rfl
@[simp] theorem spfBranch_cr01 (s : State) (dest : DWord) :
    (spfBranch s dest).cr01 = s.cr01 := rfl
@[simp] theorem spfBranch_cr02 (s : State) (dest : DWord) :
    (spfBranch s dest).cr02 = s.cr02 := rfl
@[simp] theorem spfBranch_n00 (s : State) (dest : DWord) :
    (spfBranch s dest).n00 = s.n00 := rfl
@[simp] theorem spfBranch_n01 (s : State) (dest : DWord) :
    (spfBranch s dest).n01 = s.n01 := rfl
@[simp] theorem spfBranch_n02 (s : State) (dest : DWord) :
    (spfBranch s dest).n02 = s.n02 := rfl
@[simp] theorem spfBranch_ip (s : State) (dest : DWord) :
    (spfBranch s dest).ip = dest := rfl
@[simp] theorem spfBranch_pcIP (s : State) (dest : DWord) :
    (spfBranch s dest).pcIP = s.pcIP := rfl
@[simp] theorem spfBranch_tdr (s : State) (dest : DWord) :
    (spfBranch s dest).tdr = s.tdr := rfl
@[simp] theorem spfBranch_tm0 (s : State) (dest : DWord) :
    (spfBranch s dest).tm0 = s.tm0 := rfl
@[simp] theorem spfBranch_tmEvent (s : State) (dest : DWord) :
    (spfBranch s dest).tmEvent = s.tmEvent := rfl
@[simp] theorem spfBranch_callMask (s : State) (dest : DWord) :
    (spfBranch s dest).callMask = s.callMask := rfl
@[simp] theorem spfBranch_dep (s : State) (dest : DWord) :
    (spfBranch s dest).dep = s.dep := rfl
@[simp] theorem spfBranch_depA0 (s : State) (dest : DWord) :
    (spfBranch s dest).depA0 = s.depA0 := rfl
@[simp] theorem spfBranch_imem (s : State) (dest : DWord) :
    (spfBranch s dest).imem = s.imem := rfl
@[simp] theorem spfBranch_messages (s : State) (dest : DWord) :
    (spfBranch s dest).messages = s.messages := rfl
@[simp] theorem spfBranch_outstanding (s : State) (dest : DWord) :
    (spfBranch s dest).outstanding = s.outstanding := rfl
@[simp] theorem spfBranch_run (s : State) (dest : DWord) :
    (spfBranch s dest).run = s.run := rfl
@[simp] theorem spfBranch_nextIP (s : State) (dest : DWord) :
    (spfBranch s dest).nextIP = s.nextIP := rfl
@[simp] theorem spfBranch_launch (s : State) (dest : DWord) :
    (spfBranch s dest).launch = s.launch := rfl
@[simp] theorem spfBranch_host (s : State) (dest : DWord) :
    (spfBranch s dest).host = s.host := rfl
@[simp] theorem spfBranch_draw (s : State) (dest : DWord) :
    (spfBranch s dest).draw = s.draw := rfl
@[simp] theorem spfBranch_curWait (s : State) (dest : DWord) :
    (spfBranch s dest).curWait = s.curWait := rfl
@[simp] theorem spfBranch_prevWait (s : State) (dest : DWord) :
    (spfBranch s dest).prevWait = s.prevWait := rfl

/-! ## branchTo -/

@[simp] theorem branchTo_grf (s : State) (p : Vector DWord 32) (ip : DWord) :
    (branchTo s p ip).grf = s.grf := rfl
@[simp] theorem branchTo_a0 (s : State) (p : Vector DWord 32) (ip : DWord) :
    (branchTo s p ip).a0 = s.a0 := rfl
@[simp] theorem branchTo_acc (s : State) (p : Vector DWord 32) (ip : DWord) :
    (branchTo s p ip).acc = s.acc := rfl
@[simp] theorem branchTo_f0 (s : State) (p : Vector DWord 32) (ip : DWord) :
    (branchTo s p ip).f0 = s.f0 := rfl
@[simp] theorem branchTo_f1 (s : State) (p : Vector DWord 32) (ip : DWord) :
    (branchTo s p ip).f1 = s.f1 := rfl
@[simp] theorem branchTo_sr00 (s : State) (p : Vector DWord 32) (ip : DWord) :
    (branchTo s p ip).sr00 = s.sr00 := rfl
@[simp] theorem branchTo_sr01 (s : State) (p : Vector DWord 32) (ip : DWord) :
    (branchTo s p ip).sr01 = s.sr01 := rfl
@[simp] theorem branchTo_sr02 (s : State) (p : Vector DWord 32) (ip : DWord) :
    (branchTo s p ip).sr02 = s.sr02 := rfl
@[simp] theorem branchTo_sr03 (s : State) (p : Vector DWord 32) (ip : DWord) :
    (branchTo s p ip).sr03 = s.sr03 := rfl
@[simp] theorem branchTo_cr00 (s : State) (p : Vector DWord 32) (ip : DWord) :
    (branchTo s p ip).cr00 = s.cr00 := rfl
@[simp] theorem branchTo_cr01 (s : State) (p : Vector DWord 32) (ip : DWord) :
    (branchTo s p ip).cr01 = s.cr01 := rfl
@[simp] theorem branchTo_cr02 (s : State) (p : Vector DWord 32) (ip : DWord) :
    (branchTo s p ip).cr02 = s.cr02 := rfl
@[simp] theorem branchTo_n00 (s : State) (p : Vector DWord 32) (ip : DWord) :
    (branchTo s p ip).n00 = s.n00 := rfl
@[simp] theorem branchTo_n01 (s : State) (p : Vector DWord 32) (ip : DWord) :
    (branchTo s p ip).n01 = s.n01 := rfl
@[simp] theorem branchTo_n02 (s : State) (p : Vector DWord 32) (ip : DWord) :
    (branchTo s p ip).n02 = s.n02 := rfl
@[simp] theorem branchTo_ip (s : State) (p : Vector DWord 32) (ip : DWord) :
    (branchTo s p ip).ip = ip := rfl
@[simp] theorem branchTo_pcIP (s : State) (p : Vector DWord 32) (ip : DWord) :
    (branchTo s p ip).pcIP = p := rfl
@[simp] theorem branchTo_tdr (s : State) (p : Vector DWord 32) (ip : DWord) :
    (branchTo s p ip).tdr = s.tdr := rfl
@[simp] theorem branchTo_tm0 (s : State) (p : Vector DWord 32) (ip : DWord) :
    (branchTo s p ip).tm0 = s.tm0 := rfl
@[simp] theorem branchTo_tmEvent (s : State) (p : Vector DWord 32) (ip : DWord) :
    (branchTo s p ip).tmEvent = s.tmEvent := rfl
@[simp] theorem branchTo_callMask (s : State) (p : Vector DWord 32) (ip : DWord) :
    (branchTo s p ip).callMask = s.callMask := rfl
@[simp] theorem branchTo_dep (s : State) (p : Vector DWord 32) (ip : DWord) :
    (branchTo s p ip).dep = s.dep := rfl
@[simp] theorem branchTo_depA0 (s : State) (p : Vector DWord 32) (ip : DWord) :
    (branchTo s p ip).depA0 = s.depA0 := rfl
@[simp] theorem branchTo_imem (s : State) (p : Vector DWord 32) (ip : DWord) :
    (branchTo s p ip).imem = s.imem := rfl
@[simp] theorem branchTo_messages (s : State) (p : Vector DWord 32) (ip : DWord) :
    (branchTo s p ip).messages = s.messages := rfl
@[simp] theorem branchTo_outstanding (s : State) (p : Vector DWord 32) (ip : DWord) :
    (branchTo s p ip).outstanding = s.outstanding := rfl
@[simp] theorem branchTo_run (s : State) (p : Vector DWord 32) (ip : DWord) :
    (branchTo s p ip).run = s.run := rfl
@[simp] theorem branchTo_nextIP (s : State) (p : Vector DWord 32) (ip : DWord) :
    (branchTo s p ip).nextIP = s.nextIP := rfl
@[simp] theorem branchTo_launch (s : State) (p : Vector DWord 32) (ip : DWord) :
    (branchTo s p ip).launch = s.launch := rfl
@[simp] theorem branchTo_host (s : State) (p : Vector DWord 32) (ip : DWord) :
    (branchTo s p ip).host = s.host := rfl
@[simp] theorem branchTo_draw (s : State) (p : Vector DWord 32) (ip : DWord) :
    (branchTo s p ip).draw = s.draw := rfl
@[simp] theorem branchTo_curWait (s : State) (p : Vector DWord 32) (ip : DWord) :
    (branchTo s p ip).curWait = s.curWait := rfl
@[simp] theorem branchTo_prevWait (s : State) (p : Vector DWord 32) (ip : DWord) :
    (branchTo s p ip).prevWait = s.prevWait := rfl

/-! ## jumpAll -/

@[simp] theorem jumpAll_grf (s : State) (dest : DWord) :
    (jumpAll s dest).grf = s.grf := rfl
@[simp] theorem jumpAll_a0 (s : State) (dest : DWord) :
    (jumpAll s dest).a0 = s.a0 := rfl
@[simp] theorem jumpAll_acc (s : State) (dest : DWord) :
    (jumpAll s dest).acc = s.acc := rfl
@[simp] theorem jumpAll_f0 (s : State) (dest : DWord) :
    (jumpAll s dest).f0 = s.f0 := rfl
@[simp] theorem jumpAll_f1 (s : State) (dest : DWord) :
    (jumpAll s dest).f1 = s.f1 := rfl
@[simp] theorem jumpAll_sr00 (s : State) (dest : DWord) :
    (jumpAll s dest).sr00 = s.sr00 := rfl
@[simp] theorem jumpAll_sr01 (s : State) (dest : DWord) :
    (jumpAll s dest).sr01 = s.sr01 := rfl
@[simp] theorem jumpAll_sr02 (s : State) (dest : DWord) :
    (jumpAll s dest).sr02 = s.sr02 := rfl
@[simp] theorem jumpAll_sr03 (s : State) (dest : DWord) :
    (jumpAll s dest).sr03 = s.sr03 := rfl
@[simp] theorem jumpAll_cr00 (s : State) (dest : DWord) :
    (jumpAll s dest).cr00 = s.cr00 := rfl
@[simp] theorem jumpAll_cr01 (s : State) (dest : DWord) :
    (jumpAll s dest).cr01 = s.cr01 := rfl
@[simp] theorem jumpAll_cr02 (s : State) (dest : DWord) :
    (jumpAll s dest).cr02 = s.cr02 := rfl
@[simp] theorem jumpAll_n00 (s : State) (dest : DWord) :
    (jumpAll s dest).n00 = s.n00 := rfl
@[simp] theorem jumpAll_n01 (s : State) (dest : DWord) :
    (jumpAll s dest).n01 = s.n01 := rfl
@[simp] theorem jumpAll_n02 (s : State) (dest : DWord) :
    (jumpAll s dest).n02 = s.n02 := rfl
@[simp] theorem jumpAll_ip (s : State) (dest : DWord) :
    (jumpAll s dest).ip = dest := rfl
@[simp] theorem jumpAll_pcIP (s : State) (dest : DWord) :
    (jumpAll s dest).pcIP = if s.spf then s.pcIP else s.pcIP.map fun p => if p = s.ip then dest else p := rfl
@[simp] theorem jumpAll_tdr (s : State) (dest : DWord) :
    (jumpAll s dest).tdr = s.tdr := rfl
@[simp] theorem jumpAll_tm0 (s : State) (dest : DWord) :
    (jumpAll s dest).tm0 = s.tm0 := rfl
@[simp] theorem jumpAll_tmEvent (s : State) (dest : DWord) :
    (jumpAll s dest).tmEvent = s.tmEvent := rfl
@[simp] theorem jumpAll_callMask (s : State) (dest : DWord) :
    (jumpAll s dest).callMask = s.callMask := rfl
@[simp] theorem jumpAll_dep (s : State) (dest : DWord) :
    (jumpAll s dest).dep = s.dep := rfl
@[simp] theorem jumpAll_depA0 (s : State) (dest : DWord) :
    (jumpAll s dest).depA0 = s.depA0 := rfl
@[simp] theorem jumpAll_imem (s : State) (dest : DWord) :
    (jumpAll s dest).imem = s.imem := rfl
@[simp] theorem jumpAll_messages (s : State) (dest : DWord) :
    (jumpAll s dest).messages = s.messages := rfl
@[simp] theorem jumpAll_outstanding (s : State) (dest : DWord) :
    (jumpAll s dest).outstanding = s.outstanding := rfl
@[simp] theorem jumpAll_run (s : State) (dest : DWord) :
    (jumpAll s dest).run = s.run := rfl
@[simp] theorem jumpAll_nextIP (s : State) (dest : DWord) :
    (jumpAll s dest).nextIP = s.nextIP := rfl
@[simp] theorem jumpAll_launch (s : State) (dest : DWord) :
    (jumpAll s dest).launch = s.launch := rfl
@[simp] theorem jumpAll_host (s : State) (dest : DWord) :
    (jumpAll s dest).host = s.host := rfl
@[simp] theorem jumpAll_draw (s : State) (dest : DWord) :
    (jumpAll s dest).draw = s.draw := rfl
@[simp] theorem jumpAll_curWait (s : State) (dest : DWord) :
    (jumpAll s dest).curWait = s.curWait := rfl
@[simp] theorem jumpAll_prevWait (s : State) (dest : DWord) :
    (jumpAll s dest).prevWait = s.prevWait := rfl

/-! ## storePair -/

@[simp] theorem storePair_a0 (s : State) (addr : Nat) (lo hi : DWord) :
    (storePair s addr lo hi).a0 = s.a0 := rfl
@[simp] theorem storePair_acc (s : State) (addr : Nat) (lo hi : DWord) :
    (storePair s addr lo hi).acc = s.acc := rfl
@[simp] theorem storePair_f0 (s : State) (addr : Nat) (lo hi : DWord) :
    (storePair s addr lo hi).f0 = s.f0 := rfl
@[simp] theorem storePair_f1 (s : State) (addr : Nat) (lo hi : DWord) :
    (storePair s addr lo hi).f1 = s.f1 := rfl
@[simp] theorem storePair_sr00 (s : State) (addr : Nat) (lo hi : DWord) :
    (storePair s addr lo hi).sr00 = s.sr00 := rfl
@[simp] theorem storePair_sr01 (s : State) (addr : Nat) (lo hi : DWord) :
    (storePair s addr lo hi).sr01 = s.sr01 := rfl
@[simp] theorem storePair_sr02 (s : State) (addr : Nat) (lo hi : DWord) :
    (storePair s addr lo hi).sr02 = s.sr02 := rfl
@[simp] theorem storePair_sr03 (s : State) (addr : Nat) (lo hi : DWord) :
    (storePair s addr lo hi).sr03 = s.sr03 := rfl
@[simp] theorem storePair_cr00 (s : State) (addr : Nat) (lo hi : DWord) :
    (storePair s addr lo hi).cr00 = s.cr00 := rfl
@[simp] theorem storePair_cr01 (s : State) (addr : Nat) (lo hi : DWord) :
    (storePair s addr lo hi).cr01 = s.cr01 := rfl
@[simp] theorem storePair_cr02 (s : State) (addr : Nat) (lo hi : DWord) :
    (storePair s addr lo hi).cr02 = s.cr02 := rfl
@[simp] theorem storePair_n00 (s : State) (addr : Nat) (lo hi : DWord) :
    (storePair s addr lo hi).n00 = s.n00 := rfl
@[simp] theorem storePair_n01 (s : State) (addr : Nat) (lo hi : DWord) :
    (storePair s addr lo hi).n01 = s.n01 := rfl
@[simp] theorem storePair_n02 (s : State) (addr : Nat) (lo hi : DWord) :
    (storePair s addr lo hi).n02 = s.n02 := rfl
@[simp] theorem storePair_ip (s : State) (addr : Nat) (lo hi : DWord) :
    (storePair s addr lo hi).ip = s.ip := rfl
@[simp] theorem storePair_pcIP (s : State) (addr : Nat) (lo hi : DWord) :
    (storePair s addr lo hi).pcIP = s.pcIP := rfl
@[simp] theorem storePair_tdr (s : State) (addr : Nat) (lo hi : DWord) :
    (storePair s addr lo hi).tdr = s.tdr := rfl
@[simp] theorem storePair_tm0 (s : State) (addr : Nat) (lo hi : DWord) :
    (storePair s addr lo hi).tm0 = s.tm0 := rfl
@[simp] theorem storePair_tmEvent (s : State) (addr : Nat) (lo hi : DWord) :
    (storePair s addr lo hi).tmEvent = s.tmEvent := rfl
@[simp] theorem storePair_callMask (s : State) (addr : Nat) (lo hi : DWord) :
    (storePair s addr lo hi).callMask = s.callMask := rfl
@[simp] theorem storePair_dep (s : State) (addr : Nat) (lo hi : DWord) :
    (storePair s addr lo hi).dep = s.dep := rfl
@[simp] theorem storePair_depA0 (s : State) (addr : Nat) (lo hi : DWord) :
    (storePair s addr lo hi).depA0 = s.depA0 := rfl
@[simp] theorem storePair_imem (s : State) (addr : Nat) (lo hi : DWord) :
    (storePair s addr lo hi).imem = s.imem := rfl
@[simp] theorem storePair_messages (s : State) (addr : Nat) (lo hi : DWord) :
    (storePair s addr lo hi).messages = s.messages := rfl
@[simp] theorem storePair_outstanding (s : State) (addr : Nat) (lo hi : DWord) :
    (storePair s addr lo hi).outstanding = s.outstanding := rfl
@[simp] theorem storePair_run (s : State) (addr : Nat) (lo hi : DWord) :
    (storePair s addr lo hi).run = s.run := rfl
@[simp] theorem storePair_nextIP (s : State) (addr : Nat) (lo hi : DWord) :
    (storePair s addr lo hi).nextIP = s.nextIP := rfl
@[simp] theorem storePair_launch (s : State) (addr : Nat) (lo hi : DWord) :
    (storePair s addr lo hi).launch = s.launch := rfl
@[simp] theorem storePair_host (s : State) (addr : Nat) (lo hi : DWord) :
    (storePair s addr lo hi).host = s.host := rfl
@[simp] theorem storePair_draw (s : State) (addr : Nat) (lo hi : DWord) :
    (storePair s addr lo hi).draw = s.draw := rfl
@[simp] theorem storePair_curWait (s : State) (addr : Nat) (lo hi : DWord) :
    (storePair s addr lo hi).curWait = s.curWait := rfl
@[simp] theorem storePair_prevWait (s : State) (addr : Nat) (lo hi : DWord) :
    (storePair s addr lo hi).prevWait = s.prevWait := rfl

/-! ## readTm0 -/

@[simp] theorem readTm0_grf (s : State) (b : Bool) :
    (readTm0 s b).grf = s.grf := by cases b <;> rfl
@[simp] theorem readTm0_a0 (s : State) (b : Bool) :
    (readTm0 s b).a0 = s.a0 := by cases b <;> rfl
@[simp] theorem readTm0_acc (s : State) (b : Bool) :
    (readTm0 s b).acc = s.acc := by cases b <;> rfl
@[simp] theorem readTm0_f0 (s : State) (b : Bool) :
    (readTm0 s b).f0 = s.f0 := by cases b <;> rfl
@[simp] theorem readTm0_f1 (s : State) (b : Bool) :
    (readTm0 s b).f1 = s.f1 := by cases b <;> rfl
@[simp] theorem readTm0_sr00 (s : State) (b : Bool) :
    (readTm0 s b).sr00 = s.sr00 := by cases b <;> rfl
@[simp] theorem readTm0_sr01 (s : State) (b : Bool) :
    (readTm0 s b).sr01 = s.sr01 := by cases b <;> rfl
@[simp] theorem readTm0_sr02 (s : State) (b : Bool) :
    (readTm0 s b).sr02 = s.sr02 := by cases b <;> rfl
@[simp] theorem readTm0_sr03 (s : State) (b : Bool) :
    (readTm0 s b).sr03 = s.sr03 := by cases b <;> rfl
@[simp] theorem readTm0_cr00 (s : State) (b : Bool) :
    (readTm0 s b).cr00 = s.cr00 := by cases b <;> rfl
@[simp] theorem readTm0_cr01 (s : State) (b : Bool) :
    (readTm0 s b).cr01 = s.cr01 := by cases b <;> rfl
@[simp] theorem readTm0_cr02 (s : State) (b : Bool) :
    (readTm0 s b).cr02 = s.cr02 := by cases b <;> rfl
@[simp] theorem readTm0_n00 (s : State) (b : Bool) :
    (readTm0 s b).n00 = s.n00 := by cases b <;> rfl
@[simp] theorem readTm0_n01 (s : State) (b : Bool) :
    (readTm0 s b).n01 = s.n01 := by cases b <;> rfl
@[simp] theorem readTm0_n02 (s : State) (b : Bool) :
    (readTm0 s b).n02 = s.n02 := by cases b <;> rfl
@[simp] theorem readTm0_ip (s : State) (b : Bool) :
    (readTm0 s b).ip = s.ip := by cases b <;> rfl
@[simp] theorem readTm0_pcIP (s : State) (b : Bool) :
    (readTm0 s b).pcIP = s.pcIP := by cases b <;> rfl
@[simp] theorem readTm0_tdr (s : State) (b : Bool) :
    (readTm0 s b).tdr = s.tdr := by cases b <;> rfl
@[simp] theorem readTm0_tm0 (s : State) (b : Bool) :
    (readTm0 s b).tm0 = s.tm0 := by cases b <;> rfl
@[simp] theorem readTm0_tmEvent (s : State) (b : Bool) :
    (readTm0 s b).tmEvent = if b then false else s.tmEvent := by cases b <;> rfl
@[simp] theorem readTm0_callMask (s : State) (b : Bool) :
    (readTm0 s b).callMask = s.callMask := by cases b <;> rfl
@[simp] theorem readTm0_dep (s : State) (b : Bool) :
    (readTm0 s b).dep = s.dep := by cases b <;> rfl
@[simp] theorem readTm0_depA0 (s : State) (b : Bool) :
    (readTm0 s b).depA0 = s.depA0 := by cases b <;> rfl
@[simp] theorem readTm0_imem (s : State) (b : Bool) :
    (readTm0 s b).imem = s.imem := by cases b <;> rfl
@[simp] theorem readTm0_messages (s : State) (b : Bool) :
    (readTm0 s b).messages = s.messages := by cases b <;> rfl
@[simp] theorem readTm0_outstanding (s : State) (b : Bool) :
    (readTm0 s b).outstanding = s.outstanding := by cases b <;> rfl
@[simp] theorem readTm0_run (s : State) (b : Bool) :
    (readTm0 s b).run = s.run := by cases b <;> rfl
@[simp] theorem readTm0_nextIP (s : State) (b : Bool) :
    (readTm0 s b).nextIP = s.nextIP := by cases b <;> rfl
@[simp] theorem readTm0_launch (s : State) (b : Bool) :
    (readTm0 s b).launch = s.launch := by cases b <;> rfl
@[simp] theorem readTm0_host (s : State) (b : Bool) :
    (readTm0 s b).host = s.host := by cases b <;> rfl
@[simp] theorem readTm0_draw (s : State) (b : Bool) :
    (readTm0 s b).draw = s.draw := by cases b <;> rfl
@[simp] theorem readTm0_curWait (s : State) (b : Bool) :
    (readTm0 s b).curWait = s.curWait := by cases b <;> rfl
@[simp] theorem readTm0_prevWait (s : State) (b : Bool) :
    (readTm0 s b).prevWait = s.prevWait := by cases b <;> rfl

/-! ## setFlagBits -/

@[simp] theorem setFlagBits_grf (s : State) (reg : Bool) (ws : List (Nat × Bool)) :
    (setFlagBits s reg ws).grf = s.grf := by cases reg <;> rfl
@[simp] theorem setFlagBits_a0 (s : State) (reg : Bool) (ws : List (Nat × Bool)) :
    (setFlagBits s reg ws).a0 = s.a0 := by cases reg <;> rfl
@[simp] theorem setFlagBits_acc (s : State) (reg : Bool) (ws : List (Nat × Bool)) :
    (setFlagBits s reg ws).acc = s.acc := by cases reg <;> rfl
@[simp] theorem setFlagBits_sr00 (s : State) (reg : Bool) (ws : List (Nat × Bool)) :
    (setFlagBits s reg ws).sr00 = s.sr00 := by cases reg <;> rfl
@[simp] theorem setFlagBits_sr01 (s : State) (reg : Bool) (ws : List (Nat × Bool)) :
    (setFlagBits s reg ws).sr01 = s.sr01 := by cases reg <;> rfl
@[simp] theorem setFlagBits_sr02 (s : State) (reg : Bool) (ws : List (Nat × Bool)) :
    (setFlagBits s reg ws).sr02 = s.sr02 := by cases reg <;> rfl
@[simp] theorem setFlagBits_sr03 (s : State) (reg : Bool) (ws : List (Nat × Bool)) :
    (setFlagBits s reg ws).sr03 = s.sr03 := by cases reg <;> rfl
@[simp] theorem setFlagBits_cr00 (s : State) (reg : Bool) (ws : List (Nat × Bool)) :
    (setFlagBits s reg ws).cr00 = s.cr00 := by cases reg <;> rfl
@[simp] theorem setFlagBits_cr01 (s : State) (reg : Bool) (ws : List (Nat × Bool)) :
    (setFlagBits s reg ws).cr01 = s.cr01 := by cases reg <;> rfl
@[simp] theorem setFlagBits_cr02 (s : State) (reg : Bool) (ws : List (Nat × Bool)) :
    (setFlagBits s reg ws).cr02 = s.cr02 := by cases reg <;> rfl
@[simp] theorem setFlagBits_n00 (s : State) (reg : Bool) (ws : List (Nat × Bool)) :
    (setFlagBits s reg ws).n00 = s.n00 := by cases reg <;> rfl
@[simp] theorem setFlagBits_n01 (s : State) (reg : Bool) (ws : List (Nat × Bool)) :
    (setFlagBits s reg ws).n01 = s.n01 := by cases reg <;> rfl
@[simp] theorem setFlagBits_n02 (s : State) (reg : Bool) (ws : List (Nat × Bool)) :
    (setFlagBits s reg ws).n02 = s.n02 := by cases reg <;> rfl
@[simp] theorem setFlagBits_ip (s : State) (reg : Bool) (ws : List (Nat × Bool)) :
    (setFlagBits s reg ws).ip = s.ip := by cases reg <;> rfl
@[simp] theorem setFlagBits_pcIP (s : State) (reg : Bool) (ws : List (Nat × Bool)) :
    (setFlagBits s reg ws).pcIP = s.pcIP := by cases reg <;> rfl
@[simp] theorem setFlagBits_tdr (s : State) (reg : Bool) (ws : List (Nat × Bool)) :
    (setFlagBits s reg ws).tdr = s.tdr := by cases reg <;> rfl
@[simp] theorem setFlagBits_tm0 (s : State) (reg : Bool) (ws : List (Nat × Bool)) :
    (setFlagBits s reg ws).tm0 = s.tm0 := by cases reg <;> rfl
@[simp] theorem setFlagBits_tmEvent (s : State) (reg : Bool) (ws : List (Nat × Bool)) :
    (setFlagBits s reg ws).tmEvent = s.tmEvent := by cases reg <;> rfl
@[simp] theorem setFlagBits_callMask (s : State) (reg : Bool) (ws : List (Nat × Bool)) :
    (setFlagBits s reg ws).callMask = s.callMask := by cases reg <;> rfl
@[simp] theorem setFlagBits_dep (s : State) (reg : Bool) (ws : List (Nat × Bool)) :
    (setFlagBits s reg ws).dep = s.dep := by cases reg <;> rfl
@[simp] theorem setFlagBits_depA0 (s : State) (reg : Bool) (ws : List (Nat × Bool)) :
    (setFlagBits s reg ws).depA0 = s.depA0 := by cases reg <;> rfl
@[simp] theorem setFlagBits_imem (s : State) (reg : Bool) (ws : List (Nat × Bool)) :
    (setFlagBits s reg ws).imem = s.imem := by cases reg <;> rfl
@[simp] theorem setFlagBits_messages (s : State) (reg : Bool) (ws : List (Nat × Bool)) :
    (setFlagBits s reg ws).messages = s.messages := by cases reg <;> rfl
@[simp] theorem setFlagBits_outstanding (s : State) (reg : Bool) (ws : List (Nat × Bool)) :
    (setFlagBits s reg ws).outstanding = s.outstanding := by cases reg <;> rfl
@[simp] theorem setFlagBits_run (s : State) (reg : Bool) (ws : List (Nat × Bool)) :
    (setFlagBits s reg ws).run = s.run := by cases reg <;> rfl
@[simp] theorem setFlagBits_nextIP (s : State) (reg : Bool) (ws : List (Nat × Bool)) :
    (setFlagBits s reg ws).nextIP = s.nextIP := by cases reg <;> rfl
@[simp] theorem setFlagBits_launch (s : State) (reg : Bool) (ws : List (Nat × Bool)) :
    (setFlagBits s reg ws).launch = s.launch := by cases reg <;> rfl
@[simp] theorem setFlagBits_host (s : State) (reg : Bool) (ws : List (Nat × Bool)) :
    (setFlagBits s reg ws).host = s.host := by cases reg <;> rfl
@[simp] theorem setFlagBits_draw (s : State) (reg : Bool) (ws : List (Nat × Bool)) :
    (setFlagBits s reg ws).draw = s.draw := by cases reg <;> rfl
@[simp] theorem setFlagBits_curWait (s : State) (reg : Bool) (ws : List (Nat × Bool)) :
    (setFlagBits s reg ws).curWait = s.curWait := by cases reg <;> rfl
@[simp] theorem setFlagBits_prevWait (s : State) (reg : Bool) (ws : List (Nat × Bool)) :
    (setFlagBits s reg ws).prevWait = s.prevWait := by cases reg <;> rfl

/-! ## accSet -/

@[simp] theorem accSet_acc (s : State) (fmt : AccFmt) (ws : List (Nat × QWord)) :
    (accSet s fmt ws).acc = ws.foldl (fun a w => a.set fmt s.draw w.1 w.2) s.acc := rfl
@[simp] theorem accSet_grf (s : State) (fmt : AccFmt) (ws : List (Nat × QWord)) :
    (accSet s fmt ws).grf = s.grf := rfl
@[simp] theorem accSet_a0 (s : State) (fmt : AccFmt) (ws : List (Nat × QWord)) :
    (accSet s fmt ws).a0 = s.a0 := rfl
@[simp] theorem accSet_f0 (s : State) (fmt : AccFmt) (ws : List (Nat × QWord)) :
    (accSet s fmt ws).f0 = s.f0 := rfl
@[simp] theorem accSet_f1 (s : State) (fmt : AccFmt) (ws : List (Nat × QWord)) :
    (accSet s fmt ws).f1 = s.f1 := rfl
@[simp] theorem accSet_sr00 (s : State) (fmt : AccFmt) (ws : List (Nat × QWord)) :
    (accSet s fmt ws).sr00 = s.sr00 := rfl
@[simp] theorem accSet_sr01 (s : State) (fmt : AccFmt) (ws : List (Nat × QWord)) :
    (accSet s fmt ws).sr01 = s.sr01 := rfl
@[simp] theorem accSet_sr02 (s : State) (fmt : AccFmt) (ws : List (Nat × QWord)) :
    (accSet s fmt ws).sr02 = s.sr02 := rfl
@[simp] theorem accSet_sr03 (s : State) (fmt : AccFmt) (ws : List (Nat × QWord)) :
    (accSet s fmt ws).sr03 = s.sr03 := rfl
@[simp] theorem accSet_cr00 (s : State) (fmt : AccFmt) (ws : List (Nat × QWord)) :
    (accSet s fmt ws).cr00 = s.cr00 := rfl
@[simp] theorem accSet_cr01 (s : State) (fmt : AccFmt) (ws : List (Nat × QWord)) :
    (accSet s fmt ws).cr01 = s.cr01 := rfl
@[simp] theorem accSet_cr02 (s : State) (fmt : AccFmt) (ws : List (Nat × QWord)) :
    (accSet s fmt ws).cr02 = s.cr02 := rfl
@[simp] theorem accSet_n00 (s : State) (fmt : AccFmt) (ws : List (Nat × QWord)) :
    (accSet s fmt ws).n00 = s.n00 := rfl
@[simp] theorem accSet_n01 (s : State) (fmt : AccFmt) (ws : List (Nat × QWord)) :
    (accSet s fmt ws).n01 = s.n01 := rfl
@[simp] theorem accSet_n02 (s : State) (fmt : AccFmt) (ws : List (Nat × QWord)) :
    (accSet s fmt ws).n02 = s.n02 := rfl
@[simp] theorem accSet_ip (s : State) (fmt : AccFmt) (ws : List (Nat × QWord)) :
    (accSet s fmt ws).ip = s.ip := rfl
@[simp] theorem accSet_pcIP (s : State) (fmt : AccFmt) (ws : List (Nat × QWord)) :
    (accSet s fmt ws).pcIP = s.pcIP := rfl
@[simp] theorem accSet_tdr (s : State) (fmt : AccFmt) (ws : List (Nat × QWord)) :
    (accSet s fmt ws).tdr = s.tdr := rfl
@[simp] theorem accSet_tm0 (s : State) (fmt : AccFmt) (ws : List (Nat × QWord)) :
    (accSet s fmt ws).tm0 = s.tm0 := rfl
@[simp] theorem accSet_tmEvent (s : State) (fmt : AccFmt) (ws : List (Nat × QWord)) :
    (accSet s fmt ws).tmEvent = s.tmEvent := rfl
@[simp] theorem accSet_callMask (s : State) (fmt : AccFmt) (ws : List (Nat × QWord)) :
    (accSet s fmt ws).callMask = s.callMask := rfl
@[simp] theorem accSet_dep (s : State) (fmt : AccFmt) (ws : List (Nat × QWord)) :
    (accSet s fmt ws).dep = s.dep := rfl
@[simp] theorem accSet_depA0 (s : State) (fmt : AccFmt) (ws : List (Nat × QWord)) :
    (accSet s fmt ws).depA0 = s.depA0 := rfl
@[simp] theorem accSet_imem (s : State) (fmt : AccFmt) (ws : List (Nat × QWord)) :
    (accSet s fmt ws).imem = s.imem := rfl
@[simp] theorem accSet_messages (s : State) (fmt : AccFmt) (ws : List (Nat × QWord)) :
    (accSet s fmt ws).messages = s.messages := rfl
@[simp] theorem accSet_outstanding (s : State) (fmt : AccFmt) (ws : List (Nat × QWord)) :
    (accSet s fmt ws).outstanding = s.outstanding := rfl
@[simp] theorem accSet_run (s : State) (fmt : AccFmt) (ws : List (Nat × QWord)) :
    (accSet s fmt ws).run = s.run := rfl
@[simp] theorem accSet_nextIP (s : State) (fmt : AccFmt) (ws : List (Nat × QWord)) :
    (accSet s fmt ws).nextIP = s.nextIP := rfl
@[simp] theorem accSet_launch (s : State) (fmt : AccFmt) (ws : List (Nat × QWord)) :
    (accSet s fmt ws).launch = s.launch := rfl
@[simp] theorem accSet_host (s : State) (fmt : AccFmt) (ws : List (Nat × QWord)) :
    (accSet s fmt ws).host = s.host := rfl
@[simp] theorem accSet_draw (s : State) (fmt : AccFmt) (ws : List (Nat × QWord)) :
    (accSet s fmt ws).draw = s.draw := rfl
@[simp] theorem accSet_curWait (s : State) (fmt : AccFmt) (ws : List (Nat × QWord)) :
    (accSet s fmt ws).curWait = s.curWait := rfl
@[simp] theorem accSet_prevWait (s : State) (fmt : AccFmt) (ws : List (Nat × QWord)) :
    (accSet s fmt ws).prevWait = s.prevWait := rfl

/-! ## writeAcc -/

@[simp] theorem writeAcc_grf (s : State) (h : Header) (fmt : AccFmt) (en : Nat → Bool) (out : Nat → Out) :
    (writeAcc s h fmt en out).grf = s.grf := by unfold writeAcc; simp
@[simp] theorem writeAcc_a0 (s : State) (h : Header) (fmt : AccFmt) (en : Nat → Bool) (out : Nat → Out) :
    (writeAcc s h fmt en out).a0 = s.a0 := by unfold writeAcc; simp
@[simp] theorem writeAcc_f0 (s : State) (h : Header) (fmt : AccFmt) (en : Nat → Bool) (out : Nat → Out) :
    (writeAcc s h fmt en out).f0 = s.f0 := by unfold writeAcc; simp
@[simp] theorem writeAcc_f1 (s : State) (h : Header) (fmt : AccFmt) (en : Nat → Bool) (out : Nat → Out) :
    (writeAcc s h fmt en out).f1 = s.f1 := by unfold writeAcc; simp
@[simp] theorem writeAcc_sr00 (s : State) (h : Header) (fmt : AccFmt) (en : Nat → Bool) (out : Nat → Out) :
    (writeAcc s h fmt en out).sr00 = s.sr00 := by unfold writeAcc; simp
@[simp] theorem writeAcc_sr01 (s : State) (h : Header) (fmt : AccFmt) (en : Nat → Bool) (out : Nat → Out) :
    (writeAcc s h fmt en out).sr01 = s.sr01 := by unfold writeAcc; simp
@[simp] theorem writeAcc_sr02 (s : State) (h : Header) (fmt : AccFmt) (en : Nat → Bool) (out : Nat → Out) :
    (writeAcc s h fmt en out).sr02 = s.sr02 := by unfold writeAcc; simp
@[simp] theorem writeAcc_sr03 (s : State) (h : Header) (fmt : AccFmt) (en : Nat → Bool) (out : Nat → Out) :
    (writeAcc s h fmt en out).sr03 = s.sr03 := by unfold writeAcc; simp
@[simp] theorem writeAcc_cr00 (s : State) (h : Header) (fmt : AccFmt) (en : Nat → Bool) (out : Nat → Out) :
    (writeAcc s h fmt en out).cr00 = s.cr00 := by unfold writeAcc; simp
@[simp] theorem writeAcc_cr01 (s : State) (h : Header) (fmt : AccFmt) (en : Nat → Bool) (out : Nat → Out) :
    (writeAcc s h fmt en out).cr01 = s.cr01 := by unfold writeAcc; simp
@[simp] theorem writeAcc_cr02 (s : State) (h : Header) (fmt : AccFmt) (en : Nat → Bool) (out : Nat → Out) :
    (writeAcc s h fmt en out).cr02 = s.cr02 := by unfold writeAcc; simp
@[simp] theorem writeAcc_n00 (s : State) (h : Header) (fmt : AccFmt) (en : Nat → Bool) (out : Nat → Out) :
    (writeAcc s h fmt en out).n00 = s.n00 := by unfold writeAcc; simp
@[simp] theorem writeAcc_n01 (s : State) (h : Header) (fmt : AccFmt) (en : Nat → Bool) (out : Nat → Out) :
    (writeAcc s h fmt en out).n01 = s.n01 := by unfold writeAcc; simp
@[simp] theorem writeAcc_n02 (s : State) (h : Header) (fmt : AccFmt) (en : Nat → Bool) (out : Nat → Out) :
    (writeAcc s h fmt en out).n02 = s.n02 := by unfold writeAcc; simp
@[simp] theorem writeAcc_ip (s : State) (h : Header) (fmt : AccFmt) (en : Nat → Bool) (out : Nat → Out) :
    (writeAcc s h fmt en out).ip = s.ip := by unfold writeAcc; simp
@[simp] theorem writeAcc_pcIP (s : State) (h : Header) (fmt : AccFmt) (en : Nat → Bool) (out : Nat → Out) :
    (writeAcc s h fmt en out).pcIP = s.pcIP := by unfold writeAcc; simp
@[simp] theorem writeAcc_tdr (s : State) (h : Header) (fmt : AccFmt) (en : Nat → Bool) (out : Nat → Out) :
    (writeAcc s h fmt en out).tdr = s.tdr := by unfold writeAcc; simp
@[simp] theorem writeAcc_tm0 (s : State) (h : Header) (fmt : AccFmt) (en : Nat → Bool) (out : Nat → Out) :
    (writeAcc s h fmt en out).tm0 = s.tm0 := by unfold writeAcc; simp
@[simp] theorem writeAcc_tmEvent (s : State) (h : Header) (fmt : AccFmt) (en : Nat → Bool) (out : Nat → Out) :
    (writeAcc s h fmt en out).tmEvent = s.tmEvent := by unfold writeAcc; simp
@[simp] theorem writeAcc_callMask (s : State) (h : Header) (fmt : AccFmt) (en : Nat → Bool) (out : Nat → Out) :
    (writeAcc s h fmt en out).callMask = s.callMask := by unfold writeAcc; simp
@[simp] theorem writeAcc_dep (s : State) (h : Header) (fmt : AccFmt) (en : Nat → Bool) (out : Nat → Out) :
    (writeAcc s h fmt en out).dep = s.dep := by unfold writeAcc; simp
@[simp] theorem writeAcc_depA0 (s : State) (h : Header) (fmt : AccFmt) (en : Nat → Bool) (out : Nat → Out) :
    (writeAcc s h fmt en out).depA0 = s.depA0 := by unfold writeAcc; simp
@[simp] theorem writeAcc_imem (s : State) (h : Header) (fmt : AccFmt) (en : Nat → Bool) (out : Nat → Out) :
    (writeAcc s h fmt en out).imem = s.imem := by unfold writeAcc; simp
@[simp] theorem writeAcc_messages (s : State) (h : Header) (fmt : AccFmt) (en : Nat → Bool) (out : Nat → Out) :
    (writeAcc s h fmt en out).messages = s.messages := by unfold writeAcc; simp
@[simp] theorem writeAcc_outstanding (s : State) (h : Header) (fmt : AccFmt) (en : Nat → Bool) (out : Nat → Out) :
    (writeAcc s h fmt en out).outstanding = s.outstanding := by unfold writeAcc; simp
@[simp] theorem writeAcc_run (s : State) (h : Header) (fmt : AccFmt) (en : Nat → Bool) (out : Nat → Out) :
    (writeAcc s h fmt en out).run = s.run := by unfold writeAcc; simp
@[simp] theorem writeAcc_nextIP (s : State) (h : Header) (fmt : AccFmt) (en : Nat → Bool) (out : Nat → Out) :
    (writeAcc s h fmt en out).nextIP = s.nextIP := by unfold writeAcc; simp
@[simp] theorem writeAcc_launch (s : State) (h : Header) (fmt : AccFmt) (en : Nat → Bool) (out : Nat → Out) :
    (writeAcc s h fmt en out).launch = s.launch := by unfold writeAcc; simp
@[simp] theorem writeAcc_host (s : State) (h : Header) (fmt : AccFmt) (en : Nat → Bool) (out : Nat → Out) :
    (writeAcc s h fmt en out).host = s.host := by unfold writeAcc; simp
@[simp] theorem writeAcc_draw (s : State) (h : Header) (fmt : AccFmt) (en : Nat → Bool) (out : Nat → Out) :
    (writeAcc s h fmt en out).draw = s.draw := by unfold writeAcc; simp
@[simp] theorem writeAcc_curWait (s : State) (h : Header) (fmt : AccFmt) (en : Nat → Bool) (out : Nat → Out) :
    (writeAcc s h fmt en out).curWait = s.curWait := by unfold writeAcc; simp
@[simp] theorem writeAcc_prevWait (s : State) (h : Header) (fmt : AccFmt) (en : Nat → Bool) (out : Nat → Out) :
    (writeAcc s h fmt en out).prevWait = s.prevWait := by unfold writeAcc; simp

/-! ## markDst -/

@[simp] theorem markDst_grf (s : State) (h : Header) (anyEnabled : Bool) (regs : List Nat) :
    (markDst s h anyEnabled regs).grf = s.grf := rfl
@[simp] theorem markDst_a0 (s : State) (h : Header) (anyEnabled : Bool) (regs : List Nat) :
    (markDst s h anyEnabled regs).a0 = s.a0 := rfl
@[simp] theorem markDst_acc (s : State) (h : Header) (anyEnabled : Bool) (regs : List Nat) :
    (markDst s h anyEnabled regs).acc = s.acc := rfl
@[simp] theorem markDst_f0 (s : State) (h : Header) (anyEnabled : Bool) (regs : List Nat) :
    (markDst s h anyEnabled regs).f0 = s.f0 := rfl
@[simp] theorem markDst_f1 (s : State) (h : Header) (anyEnabled : Bool) (regs : List Nat) :
    (markDst s h anyEnabled regs).f1 = s.f1 := rfl
@[simp] theorem markDst_sr00 (s : State) (h : Header) (anyEnabled : Bool) (regs : List Nat) :
    (markDst s h anyEnabled regs).sr00 = s.sr00 := rfl
@[simp] theorem markDst_sr01 (s : State) (h : Header) (anyEnabled : Bool) (regs : List Nat) :
    (markDst s h anyEnabled regs).sr01 = s.sr01 := rfl
@[simp] theorem markDst_sr02 (s : State) (h : Header) (anyEnabled : Bool) (regs : List Nat) :
    (markDst s h anyEnabled regs).sr02 = s.sr02 := rfl
@[simp] theorem markDst_sr03 (s : State) (h : Header) (anyEnabled : Bool) (regs : List Nat) :
    (markDst s h anyEnabled regs).sr03 = s.sr03 := rfl
@[simp] theorem markDst_cr00 (s : State) (h : Header) (anyEnabled : Bool) (regs : List Nat) :
    (markDst s h anyEnabled regs).cr00 = s.cr00 := rfl
@[simp] theorem markDst_cr01 (s : State) (h : Header) (anyEnabled : Bool) (regs : List Nat) :
    (markDst s h anyEnabled regs).cr01 = s.cr01 := rfl
@[simp] theorem markDst_cr02 (s : State) (h : Header) (anyEnabled : Bool) (regs : List Nat) :
    (markDst s h anyEnabled regs).cr02 = s.cr02 := rfl
@[simp] theorem markDst_n00 (s : State) (h : Header) (anyEnabled : Bool) (regs : List Nat) :
    (markDst s h anyEnabled regs).n00 = s.n00 := rfl
@[simp] theorem markDst_n01 (s : State) (h : Header) (anyEnabled : Bool) (regs : List Nat) :
    (markDst s h anyEnabled regs).n01 = s.n01 := rfl
@[simp] theorem markDst_n02 (s : State) (h : Header) (anyEnabled : Bool) (regs : List Nat) :
    (markDst s h anyEnabled regs).n02 = s.n02 := rfl
@[simp] theorem markDst_ip (s : State) (h : Header) (anyEnabled : Bool) (regs : List Nat) :
    (markDst s h anyEnabled regs).ip = s.ip := rfl
@[simp] theorem markDst_pcIP (s : State) (h : Header) (anyEnabled : Bool) (regs : List Nat) :
    (markDst s h anyEnabled regs).pcIP = s.pcIP := rfl
@[simp] theorem markDst_tdr (s : State) (h : Header) (anyEnabled : Bool) (regs : List Nat) :
    (markDst s h anyEnabled regs).tdr = s.tdr := rfl
@[simp] theorem markDst_tm0 (s : State) (h : Header) (anyEnabled : Bool) (regs : List Nat) :
    (markDst s h anyEnabled regs).tm0 = s.tm0 := rfl
@[simp] theorem markDst_tmEvent (s : State) (h : Header) (anyEnabled : Bool) (regs : List Nat) :
    (markDst s h anyEnabled regs).tmEvent = s.tmEvent := rfl
@[simp] theorem markDst_callMask (s : State) (h : Header) (anyEnabled : Bool) (regs : List Nat) :
    (markDst s h anyEnabled regs).callMask = s.callMask := rfl
@[simp] theorem markDst_depA0 (s : State) (h : Header) (anyEnabled : Bool) (regs : List Nat) :
    (markDst s h anyEnabled regs).depA0 = s.depA0 := rfl
@[simp] theorem markDst_imem (s : State) (h : Header) (anyEnabled : Bool) (regs : List Nat) :
    (markDst s h anyEnabled regs).imem = s.imem := rfl
@[simp] theorem markDst_messages (s : State) (h : Header) (anyEnabled : Bool) (regs : List Nat) :
    (markDst s h anyEnabled regs).messages = s.messages := rfl
@[simp] theorem markDst_outstanding (s : State) (h : Header) (anyEnabled : Bool) (regs : List Nat) :
    (markDst s h anyEnabled regs).outstanding = s.outstanding := rfl
@[simp] theorem markDst_run (s : State) (h : Header) (anyEnabled : Bool) (regs : List Nat) :
    (markDst s h anyEnabled regs).run = s.run := rfl
@[simp] theorem markDst_nextIP (s : State) (h : Header) (anyEnabled : Bool) (regs : List Nat) :
    (markDst s h anyEnabled regs).nextIP = s.nextIP := rfl
@[simp] theorem markDst_launch (s : State) (h : Header) (anyEnabled : Bool) (regs : List Nat) :
    (markDst s h anyEnabled regs).launch = s.launch := rfl
@[simp] theorem markDst_host (s : State) (h : Header) (anyEnabled : Bool) (regs : List Nat) :
    (markDst s h anyEnabled regs).host = s.host := rfl
@[simp] theorem markDst_draw (s : State) (h : Header) (anyEnabled : Bool) (regs : List Nat) :
    (markDst s h anyEnabled regs).draw = s.draw := rfl
@[simp] theorem markDst_curWait (s : State) (h : Header) (anyEnabled : Bool) (regs : List Nat) :
    (markDst s h anyEnabled regs).curWait = s.curWait := rfl
@[simp] theorem markDst_prevWait (s : State) (h : Header) (anyEnabled : Bool) (regs : List Nat) :
    (markDst s h anyEnabled regs).prevWait = s.prevWait := rfl

/-! ## markA0 -/

@[simp] theorem markA0_grf (s : State) (h : Header) (anyEnabled isA0 : Bool) :
    (markA0 s h anyEnabled isA0).grf = s.grf := rfl
@[simp] theorem markA0_a0 (s : State) (h : Header) (anyEnabled isA0 : Bool) :
    (markA0 s h anyEnabled isA0).a0 = s.a0 := rfl
@[simp] theorem markA0_acc (s : State) (h : Header) (anyEnabled isA0 : Bool) :
    (markA0 s h anyEnabled isA0).acc = s.acc := rfl
@[simp] theorem markA0_f0 (s : State) (h : Header) (anyEnabled isA0 : Bool) :
    (markA0 s h anyEnabled isA0).f0 = s.f0 := rfl
@[simp] theorem markA0_f1 (s : State) (h : Header) (anyEnabled isA0 : Bool) :
    (markA0 s h anyEnabled isA0).f1 = s.f1 := rfl
@[simp] theorem markA0_sr00 (s : State) (h : Header) (anyEnabled isA0 : Bool) :
    (markA0 s h anyEnabled isA0).sr00 = s.sr00 := rfl
@[simp] theorem markA0_sr01 (s : State) (h : Header) (anyEnabled isA0 : Bool) :
    (markA0 s h anyEnabled isA0).sr01 = s.sr01 := rfl
@[simp] theorem markA0_sr02 (s : State) (h : Header) (anyEnabled isA0 : Bool) :
    (markA0 s h anyEnabled isA0).sr02 = s.sr02 := rfl
@[simp] theorem markA0_sr03 (s : State) (h : Header) (anyEnabled isA0 : Bool) :
    (markA0 s h anyEnabled isA0).sr03 = s.sr03 := rfl
@[simp] theorem markA0_cr00 (s : State) (h : Header) (anyEnabled isA0 : Bool) :
    (markA0 s h anyEnabled isA0).cr00 = s.cr00 := rfl
@[simp] theorem markA0_cr01 (s : State) (h : Header) (anyEnabled isA0 : Bool) :
    (markA0 s h anyEnabled isA0).cr01 = s.cr01 := rfl
@[simp] theorem markA0_cr02 (s : State) (h : Header) (anyEnabled isA0 : Bool) :
    (markA0 s h anyEnabled isA0).cr02 = s.cr02 := rfl
@[simp] theorem markA0_n00 (s : State) (h : Header) (anyEnabled isA0 : Bool) :
    (markA0 s h anyEnabled isA0).n00 = s.n00 := rfl
@[simp] theorem markA0_n01 (s : State) (h : Header) (anyEnabled isA0 : Bool) :
    (markA0 s h anyEnabled isA0).n01 = s.n01 := rfl
@[simp] theorem markA0_n02 (s : State) (h : Header) (anyEnabled isA0 : Bool) :
    (markA0 s h anyEnabled isA0).n02 = s.n02 := rfl
@[simp] theorem markA0_ip (s : State) (h : Header) (anyEnabled isA0 : Bool) :
    (markA0 s h anyEnabled isA0).ip = s.ip := rfl
@[simp] theorem markA0_pcIP (s : State) (h : Header) (anyEnabled isA0 : Bool) :
    (markA0 s h anyEnabled isA0).pcIP = s.pcIP := rfl
@[simp] theorem markA0_tdr (s : State) (h : Header) (anyEnabled isA0 : Bool) :
    (markA0 s h anyEnabled isA0).tdr = s.tdr := rfl
@[simp] theorem markA0_tm0 (s : State) (h : Header) (anyEnabled isA0 : Bool) :
    (markA0 s h anyEnabled isA0).tm0 = s.tm0 := rfl
@[simp] theorem markA0_tmEvent (s : State) (h : Header) (anyEnabled isA0 : Bool) :
    (markA0 s h anyEnabled isA0).tmEvent = s.tmEvent := rfl
@[simp] theorem markA0_callMask (s : State) (h : Header) (anyEnabled isA0 : Bool) :
    (markA0 s h anyEnabled isA0).callMask = s.callMask := rfl
@[simp] theorem markA0_dep (s : State) (h : Header) (anyEnabled isA0 : Bool) :
    (markA0 s h anyEnabled isA0).dep = s.dep := rfl
@[simp] theorem markA0_depA0_other (s : State) (h : Header) (anyEnabled : Bool) :
    (markA0 s h anyEnabled false).depA0 = s.depA0 := rfl
@[simp] theorem markA0_depA0_enabled (s : State) (h : Header) :
    (markA0 s h true true).depA0 = h.noDDClr := rfl
@[simp] theorem markA0_imem (s : State) (h : Header) (anyEnabled isA0 : Bool) :
    (markA0 s h anyEnabled isA0).imem = s.imem := rfl
@[simp] theorem markA0_messages (s : State) (h : Header) (anyEnabled isA0 : Bool) :
    (markA0 s h anyEnabled isA0).messages = s.messages := rfl
@[simp] theorem markA0_outstanding (s : State) (h : Header) (anyEnabled isA0 : Bool) :
    (markA0 s h anyEnabled isA0).outstanding = s.outstanding := rfl
@[simp] theorem markA0_run (s : State) (h : Header) (anyEnabled isA0 : Bool) :
    (markA0 s h anyEnabled isA0).run = s.run := rfl
@[simp] theorem markA0_nextIP (s : State) (h : Header) (anyEnabled isA0 : Bool) :
    (markA0 s h anyEnabled isA0).nextIP = s.nextIP := rfl
@[simp] theorem markA0_launch (s : State) (h : Header) (anyEnabled isA0 : Bool) :
    (markA0 s h anyEnabled isA0).launch = s.launch := rfl
@[simp] theorem markA0_host (s : State) (h : Header) (anyEnabled isA0 : Bool) :
    (markA0 s h anyEnabled isA0).host = s.host := rfl
@[simp] theorem markA0_draw (s : State) (h : Header) (anyEnabled isA0 : Bool) :
    (markA0 s h anyEnabled isA0).draw = s.draw := rfl
@[simp] theorem markA0_curWait (s : State) (h : Header) (anyEnabled isA0 : Bool) :
    (markA0 s h anyEnabled isA0).curWait = s.curWait := rfl
@[simp] theorem markA0_prevWait (s : State) (h : Header) (anyEnabled isA0 : Bool) :
    (markA0 s h anyEnabled isA0).prevWait = s.prevWait := rfl

/-! ## addNotify -/

@[simp] theorem addNotify_grf (s : State) (k : Fin 3) (up : Bool) :
    (s.addNotify k up).grf = s.grf := by match k with | 0 => rfl | 1 => rfl | 2 => rfl
@[simp] theorem addNotify_a0 (s : State) (k : Fin 3) (up : Bool) :
    (s.addNotify k up).a0 = s.a0 := by match k with | 0 => rfl | 1 => rfl | 2 => rfl
@[simp] theorem addNotify_acc (s : State) (k : Fin 3) (up : Bool) :
    (s.addNotify k up).acc = s.acc := by match k with | 0 => rfl | 1 => rfl | 2 => rfl
@[simp] theorem addNotify_f0 (s : State) (k : Fin 3) (up : Bool) :
    (s.addNotify k up).f0 = s.f0 := by match k with | 0 => rfl | 1 => rfl | 2 => rfl
@[simp] theorem addNotify_f1 (s : State) (k : Fin 3) (up : Bool) :
    (s.addNotify k up).f1 = s.f1 := by match k with | 0 => rfl | 1 => rfl | 2 => rfl
@[simp] theorem addNotify_sr00 (s : State) (k : Fin 3) (up : Bool) :
    (s.addNotify k up).sr00 = s.sr00 := by match k with | 0 => rfl | 1 => rfl | 2 => rfl
@[simp] theorem addNotify_sr01 (s : State) (k : Fin 3) (up : Bool) :
    (s.addNotify k up).sr01 = s.sr01 := by match k with | 0 => rfl | 1 => rfl | 2 => rfl
@[simp] theorem addNotify_sr02 (s : State) (k : Fin 3) (up : Bool) :
    (s.addNotify k up).sr02 = s.sr02 := by match k with | 0 => rfl | 1 => rfl | 2 => rfl
@[simp] theorem addNotify_sr03 (s : State) (k : Fin 3) (up : Bool) :
    (s.addNotify k up).sr03 = s.sr03 := by match k with | 0 => rfl | 1 => rfl | 2 => rfl
@[simp] theorem addNotify_cr00 (s : State) (k : Fin 3) (up : Bool) :
    (s.addNotify k up).cr00 = s.cr00 := by match k with | 0 => rfl | 1 => rfl | 2 => rfl
@[simp] theorem addNotify_cr01 (s : State) (k : Fin 3) (up : Bool) :
    (s.addNotify k up).cr01 = s.cr01 := by match k with | 0 => rfl | 1 => rfl | 2 => rfl
@[simp] theorem addNotify_cr02 (s : State) (k : Fin 3) (up : Bool) :
    (s.addNotify k up).cr02 = s.cr02 := by match k with | 0 => rfl | 1 => rfl | 2 => rfl
@[simp] theorem addNotify_ip (s : State) (k : Fin 3) (up : Bool) :
    (s.addNotify k up).ip = s.ip := by match k with | 0 => rfl | 1 => rfl | 2 => rfl
@[simp] theorem addNotify_pcIP (s : State) (k : Fin 3) (up : Bool) :
    (s.addNotify k up).pcIP = s.pcIP := by match k with | 0 => rfl | 1 => rfl | 2 => rfl
@[simp] theorem addNotify_tdr (s : State) (k : Fin 3) (up : Bool) :
    (s.addNotify k up).tdr = s.tdr := by match k with | 0 => rfl | 1 => rfl | 2 => rfl
@[simp] theorem addNotify_tm0 (s : State) (k : Fin 3) (up : Bool) :
    (s.addNotify k up).tm0 = s.tm0 := by match k with | 0 => rfl | 1 => rfl | 2 => rfl
@[simp] theorem addNotify_tmEvent (s : State) (k : Fin 3) (up : Bool) :
    (s.addNotify k up).tmEvent = s.tmEvent := by match k with | 0 => rfl | 1 => rfl | 2 => rfl
@[simp] theorem addNotify_callMask (s : State) (k : Fin 3) (up : Bool) :
    (s.addNotify k up).callMask = s.callMask := by match k with | 0 => rfl | 1 => rfl | 2 => rfl
@[simp] theorem addNotify_dep (s : State) (k : Fin 3) (up : Bool) :
    (s.addNotify k up).dep = s.dep := by match k with | 0 => rfl | 1 => rfl | 2 => rfl
@[simp] theorem addNotify_depA0 (s : State) (k : Fin 3) (up : Bool) :
    (s.addNotify k up).depA0 = s.depA0 := by match k with | 0 => rfl | 1 => rfl | 2 => rfl
@[simp] theorem addNotify_imem (s : State) (k : Fin 3) (up : Bool) :
    (s.addNotify k up).imem = s.imem := by match k with | 0 => rfl | 1 => rfl | 2 => rfl
@[simp] theorem addNotify_messages (s : State) (k : Fin 3) (up : Bool) :
    (s.addNotify k up).messages = s.messages := by match k with | 0 => rfl | 1 => rfl | 2 => rfl
@[simp] theorem addNotify_outstanding (s : State) (k : Fin 3) (up : Bool) :
    (s.addNotify k up).outstanding = s.outstanding := by match k with | 0 => rfl | 1 => rfl | 2 => rfl
@[simp] theorem addNotify_run (s : State) (k : Fin 3) (up : Bool) :
    (s.addNotify k up).run = s.run := by match k with | 0 => rfl | 1 => rfl | 2 => rfl
@[simp] theorem addNotify_nextIP (s : State) (k : Fin 3) (up : Bool) :
    (s.addNotify k up).nextIP = s.nextIP := by match k with | 0 => rfl | 1 => rfl | 2 => rfl
@[simp] theorem addNotify_launch (s : State) (k : Fin 3) (up : Bool) :
    (s.addNotify k up).launch = s.launch := by match k with | 0 => rfl | 1 => rfl | 2 => rfl
@[simp] theorem addNotify_host (s : State) (k : Fin 3) (up : Bool) :
    (s.addNotify k up).host = s.host := by match k with | 0 => rfl | 1 => rfl | 2 => rfl
@[simp] theorem addNotify_draw (s : State) (k : Fin 3) (up : Bool) :
    (s.addNotify k up).draw = s.draw := by match k with | 0 => rfl | 1 => rfl | 2 => rfl
@[simp] theorem addNotify_curWait (s : State) (k : Fin 3) (up : Bool) :
    (s.addNotify k up).curWait = s.curWait := by match k with | 0 => rfl | 1 => rfl | 2 => rfl
@[simp] theorem addNotify_prevWait (s : State) (k : Fin 3) (up : Bool) :
    (s.addNotify k up).prevWait = s.prevWait := by match k with | 0 => rfl | 1 => rfl | 2 => rfl

/-! ## expectResponse -/

@[simp] theorem expectResponse_grf (s : State) (h : Header) (msg : Message) :
    (expectResponse s h msg).grf = s.grf := by unfold expectResponse; split <;> (try split) <;> rfl
@[simp] theorem expectResponse_a0 (s : State) (h : Header) (msg : Message) :
    (expectResponse s h msg).a0 = s.a0 := by unfold expectResponse; split <;> (try split) <;> rfl
@[simp] theorem expectResponse_acc (s : State) (h : Header) (msg : Message) :
    (expectResponse s h msg).acc = s.acc := by unfold expectResponse; split <;> (try split) <;> rfl
@[simp] theorem expectResponse_f0 (s : State) (h : Header) (msg : Message) :
    (expectResponse s h msg).f0 = s.f0 := by unfold expectResponse; split <;> (try split) <;> rfl
@[simp] theorem expectResponse_f1 (s : State) (h : Header) (msg : Message) :
    (expectResponse s h msg).f1 = s.f1 := by unfold expectResponse; split <;> (try split) <;> rfl
@[simp] theorem expectResponse_sr00 (s : State) (h : Header) (msg : Message) :
    (expectResponse s h msg).sr00 = s.sr00 := by unfold expectResponse; split <;> (try split) <;> rfl
@[simp] theorem expectResponse_sr01 (s : State) (h : Header) (msg : Message) :
    (expectResponse s h msg).sr01 = s.sr01 := by unfold expectResponse; split <;> (try split) <;> rfl
@[simp] theorem expectResponse_sr02 (s : State) (h : Header) (msg : Message) :
    (expectResponse s h msg).sr02 = s.sr02 := by unfold expectResponse; split <;> (try split) <;> rfl
@[simp] theorem expectResponse_sr03 (s : State) (h : Header) (msg : Message) :
    (expectResponse s h msg).sr03 = s.sr03 := by unfold expectResponse; split <;> (try split) <;> rfl
@[simp] theorem expectResponse_cr00 (s : State) (h : Header) (msg : Message) :
    (expectResponse s h msg).cr00 = s.cr00 := by unfold expectResponse; split <;> (try split) <;> rfl
@[simp] theorem expectResponse_cr01 (s : State) (h : Header) (msg : Message) :
    (expectResponse s h msg).cr01 = s.cr01 := by unfold expectResponse; split <;> (try split) <;> rfl
@[simp] theorem expectResponse_cr02 (s : State) (h : Header) (msg : Message) :
    (expectResponse s h msg).cr02 = s.cr02 := by unfold expectResponse; split <;> (try split) <;> rfl
@[simp] theorem expectResponse_n00 (s : State) (h : Header) (msg : Message) :
    (expectResponse s h msg).n00 = s.n00 := by unfold expectResponse; split <;> (try split) <;> rfl
@[simp] theorem expectResponse_n01 (s : State) (h : Header) (msg : Message) :
    (expectResponse s h msg).n01 = s.n01 := by unfold expectResponse; split <;> (try split) <;> rfl
@[simp] theorem expectResponse_n02 (s : State) (h : Header) (msg : Message) :
    (expectResponse s h msg).n02 = s.n02 := by unfold expectResponse; split <;> (try split) <;> rfl
@[simp] theorem expectResponse_ip (s : State) (h : Header) (msg : Message) :
    (expectResponse s h msg).ip = s.ip := by unfold expectResponse; split <;> (try split) <;> rfl
@[simp] theorem expectResponse_pcIP (s : State) (h : Header) (msg : Message) :
    (expectResponse s h msg).pcIP = s.pcIP := by unfold expectResponse; split <;> (try split) <;> rfl
@[simp] theorem expectResponse_tdr (s : State) (h : Header) (msg : Message) :
    (expectResponse s h msg).tdr = s.tdr := by unfold expectResponse; split <;> (try split) <;> rfl
@[simp] theorem expectResponse_tm0 (s : State) (h : Header) (msg : Message) :
    (expectResponse s h msg).tm0 = s.tm0 := by unfold expectResponse; split <;> (try split) <;> rfl
@[simp] theorem expectResponse_tmEvent (s : State) (h : Header) (msg : Message) :
    (expectResponse s h msg).tmEvent = s.tmEvent := by unfold expectResponse; split <;> (try split) <;> rfl
@[simp] theorem expectResponse_callMask (s : State) (h : Header) (msg : Message) :
    (expectResponse s h msg).callMask = s.callMask := by unfold expectResponse; split <;> (try split) <;> rfl
@[simp] theorem expectResponse_depA0 (s : State) (h : Header) (msg : Message) :
    (expectResponse s h msg).depA0 = s.depA0 := by unfold expectResponse; split <;> (try split) <;> rfl
@[simp] theorem expectResponse_imem (s : State) (h : Header) (msg : Message) :
    (expectResponse s h msg).imem = s.imem := by unfold expectResponse; split <;> (try split) <;> rfl
@[simp] theorem expectResponse_messages (s : State) (h : Header) (msg : Message) :
    (expectResponse s h msg).messages = s.messages := by unfold expectResponse; split <;> (try split) <;> rfl
@[simp] theorem expectResponse_run (s : State) (h : Header) (msg : Message) :
    (expectResponse s h msg).run = s.run := by unfold expectResponse; split <;> (try split) <;> rfl
@[simp] theorem expectResponse_nextIP (s : State) (h : Header) (msg : Message) :
    (expectResponse s h msg).nextIP = s.nextIP := by unfold expectResponse; split <;> (try split) <;> rfl
@[simp] theorem expectResponse_launch (s : State) (h : Header) (msg : Message) :
    (expectResponse s h msg).launch = s.launch := by unfold expectResponse; split <;> (try split) <;> rfl
@[simp] theorem expectResponse_host (s : State) (h : Header) (msg : Message) :
    (expectResponse s h msg).host = s.host := by unfold expectResponse; split <;> (try split) <;> rfl
@[simp] theorem expectResponse_draw (s : State) (h : Header) (msg : Message) :
    (expectResponse s h msg).draw = s.draw := by unfold expectResponse; split <;> (try split) <;> rfl
@[simp] theorem expectResponse_curWait (s : State) (h : Header) (msg : Message) :
    (expectResponse s h msg).curWait = s.curWait := by unfold expectResponse; split <;> (try split) <;> rfl
@[simp] theorem expectResponse_prevWait (s : State) (h : Header) (msg : Message) :
    (expectResponse s h msg).prevWait = s.prevWait := by unfold expectResponse; split <;> (try split) <;> rfl

/-! ## withFetchWord -/

@[simp] theorem withFetchWord_grf (s : State) (nbits w : Nat) :
    (s.withFetchWord nbits w).grf = s.grf := by simp only [State.withFetchWord]
@[simp] theorem withFetchWord_a0 (s : State) (nbits w : Nat) :
    (s.withFetchWord nbits w).a0 = s.a0 := by simp only [State.withFetchWord]
@[simp] theorem withFetchWord_acc (s : State) (nbits w : Nat) :
    (s.withFetchWord nbits w).acc = s.acc := by simp only [State.withFetchWord]
@[simp] theorem withFetchWord_f0 (s : State) (nbits w : Nat) :
    (s.withFetchWord nbits w).f0 = s.f0 := by simp only [State.withFetchWord]
@[simp] theorem withFetchWord_f1 (s : State) (nbits w : Nat) :
    (s.withFetchWord nbits w).f1 = s.f1 := by simp only [State.withFetchWord]
@[simp] theorem withFetchWord_sr00 (s : State) (nbits w : Nat) :
    (s.withFetchWord nbits w).sr00 = s.sr00 := by simp only [State.withFetchWord]
@[simp] theorem withFetchWord_sr01 (s : State) (nbits w : Nat) :
    (s.withFetchWord nbits w).sr01 = s.sr01 := by simp only [State.withFetchWord]
@[simp] theorem withFetchWord_sr02 (s : State) (nbits w : Nat) :
    (s.withFetchWord nbits w).sr02 = s.sr02 := by simp only [State.withFetchWord]
@[simp] theorem withFetchWord_sr03 (s : State) (nbits w : Nat) :
    (s.withFetchWord nbits w).sr03 = s.sr03 := by simp only [State.withFetchWord]
@[simp] theorem withFetchWord_cr00 (s : State) (nbits w : Nat) :
    (s.withFetchWord nbits w).cr00 = s.cr00 := by simp only [State.withFetchWord]
@[simp] theorem withFetchWord_cr01 (s : State) (nbits w : Nat) :
    (s.withFetchWord nbits w).cr01 = s.cr01 := by simp only [State.withFetchWord]
@[simp] theorem withFetchWord_cr02 (s : State) (nbits w : Nat) :
    (s.withFetchWord nbits w).cr02 = s.cr02 := by simp only [State.withFetchWord]
@[simp] theorem withFetchWord_n00 (s : State) (nbits w : Nat) :
    (s.withFetchWord nbits w).n00 = s.n00 := by simp only [State.withFetchWord]
@[simp] theorem withFetchWord_n01 (s : State) (nbits w : Nat) :
    (s.withFetchWord nbits w).n01 = s.n01 := by simp only [State.withFetchWord]
@[simp] theorem withFetchWord_n02 (s : State) (nbits w : Nat) :
    (s.withFetchWord nbits w).n02 = s.n02 := by simp only [State.withFetchWord]
@[simp] theorem withFetchWord_ip (s : State) (nbits w : Nat) :
    (s.withFetchWord nbits w).ip = s.ip := by simp only [State.withFetchWord]
@[simp] theorem withFetchWord_pcIP (s : State) (nbits w : Nat) :
    (s.withFetchWord nbits w).pcIP = s.pcIP := by simp only [State.withFetchWord]
@[simp] theorem withFetchWord_tdr (s : State) (nbits w : Nat) :
    (s.withFetchWord nbits w).tdr = s.tdr := by simp only [State.withFetchWord]
@[simp] theorem withFetchWord_tm0 (s : State) (nbits w : Nat) :
    (s.withFetchWord nbits w).tm0 = s.tm0 := by simp only [State.withFetchWord]
@[simp] theorem withFetchWord_tmEvent (s : State) (nbits w : Nat) :
    (s.withFetchWord nbits w).tmEvent = s.tmEvent := by simp only [State.withFetchWord]
@[simp] theorem withFetchWord_callMask (s : State) (nbits w : Nat) :
    (s.withFetchWord nbits w).callMask = s.callMask := by simp only [State.withFetchWord]
@[simp] theorem withFetchWord_dep (s : State) (nbits w : Nat) :
    (s.withFetchWord nbits w).dep = s.dep := by simp only [State.withFetchWord]
@[simp] theorem withFetchWord_depA0 (s : State) (nbits w : Nat) :
    (s.withFetchWord nbits w).depA0 = s.depA0 := by simp only [State.withFetchWord]
@[simp] theorem withFetchWord_imem (s : State) (nbits w : Nat) :
    (s.withFetchWord nbits w).imem = Memory.writeBytes s.imem s.ip.toNat (leBytes 16 (w % 2 ^ nbits)) := by simp only [State.withFetchWord]
@[simp] theorem withFetchWord_messages (s : State) (nbits w : Nat) :
    (s.withFetchWord nbits w).messages = s.messages := by simp only [State.withFetchWord]
@[simp] theorem withFetchWord_outstanding (s : State) (nbits w : Nat) :
    (s.withFetchWord nbits w).outstanding = s.outstanding := by simp only [State.withFetchWord]
@[simp] theorem withFetchWord_run (s : State) (nbits w : Nat) :
    (s.withFetchWord nbits w).run = s.run := by simp only [State.withFetchWord]
@[simp] theorem withFetchWord_nextIP (s : State) (nbits w : Nat) :
    (s.withFetchWord nbits w).nextIP = s.nextIP := by simp only [State.withFetchWord]
@[simp] theorem withFetchWord_launch (s : State) (nbits w : Nat) :
    (s.withFetchWord nbits w).launch = s.launch := by simp only [State.withFetchWord]
@[simp] theorem withFetchWord_host (s : State) (nbits w : Nat) :
    (s.withFetchWord nbits w).host = s.host := by simp only [State.withFetchWord]
@[simp] theorem withFetchWord_draw (s : State) (nbits w : Nat) :
    (s.withFetchWord nbits w).draw = s.draw := by simp only [State.withFetchWord]
@[simp] theorem withFetchWord_curWait (s : State) (nbits w : Nat) :
    (s.withFetchWord nbits w).curWait = s.curWait := by simp only [State.withFetchWord]
@[simp] theorem withFetchWord_prevWait (s : State) (nbits w : Nat) :
    (s.withFetchWord nbits w).prevWait = s.prevWait := by simp only [State.withFetchWord]

end Sys2Proof.Machine
end

