-- ==== Sys2Proof/Laws/Bits.lean ====
section
/-! SUPPORT. What the flag registers, the accumulators and the scoreboard read as after their writes (spec/10_state.md R64, R69; spec/70_reset_and_hazards.md R960). -/

namespace Sys2Proof.Machine

/-! ## Flags -/

theorem getLsbD_one_shiftLeft (w k i : Nat) (hw : 0 < w) :
    (1#w <<< k).getLsbD i = (decide (i < w) && decide (i = k)) := by
  rw [BitVec.getLsbD_shiftLeft]
  by_cases hi : i < w
  · by_cases hk : i < k
    · simp [hi, hk, show i ≠ k by omega]
    · by_cases he : i = k
      · subst he
        have : (1#w).getLsbD 0 = true := by rw [BitVec.getLsbD_one]; simp [hw]
        simp [hi, hw]
      · have : (1#w).getLsbD (i - k) = false := by rw [BitVec.getLsbD_one]; simp; omega
        simp [hi, hk, he, this]
  · simp [hi]

/-- One flag bit replaced. -/
def putBit (v : DWord) (w : Nat × Bool) : DWord := if w.2 then v ||| (1#32 <<< w.1) else v &&& ~~~(1#32 <<< w.1)

theorem putBit_get (v : DWord) (w : Nat × Bool) (i : Nat) (hi : i < 32) :
    (putBit v w).getLsbD i = if i = w.1 then w.2 else v.getLsbD i := by
  obtain ⟨k, b⟩ := w
  cases b
  · simp only [putBit, Bool.false_eq_true, if_false, BitVec.getLsbD_and, BitVec.getLsbD_not,
      getLsbD_one_shiftLeft 32 k i (by decide), hi, decide_true, Bool.true_and]
    by_cases h : i = k <;> simp [h]
  · simp only [putBit, if_true, BitVec.getLsbD_or, getLsbD_one_shiftLeft 32 k i (by decide), hi, decide_true,
      Bool.true_and]
    by_cases h : i = k <;> simp [h]

theorem setFlagBits_flagReg (s : State) (reg r : Bool) (ws : List (Nat × Bool)) :
    (setFlagBits s reg ws).flagReg r = if r = reg then ws.foldl putBit (s.flagReg reg) else s.flagReg r := by
  cases reg <;> cases r <;> rfl

theorem foldl_putBit_of_not_mem (ws : List (Nat × Bool)) (v : DWord) (i : Nat) (hi : i < 32) (h : ∀ w ∈ ws, w.1 ≠ i) :
    (ws.foldl putBit v).getLsbD i = v.getLsbD i := by
  induction ws generalizing v with
  | nil => rfl
  | cons w ws ih =>
    rw [List.foldl_cons, ih _ fun x hx => h x (List.mem_cons_of_mem _ hx), putBit_get _ _ _ hi]
    simp [Ne.symm (h w List.mem_cons_self)]

theorem foldl_putBit_of_mem (ws : List (Nat × Bool)) (v : DWord) (i : Nat) (b : Bool) (hi : i < 32)
    (hm : (i, b) ∈ ws) (h : ∀ w ∈ ws, w.1 = i → w.2 = b) : (ws.foldl putBit v).getLsbD i = b := by
  induction ws generalizing v with
  | nil => exact absurd hm (by simp)
  | cons w ws ih =>
    rw [List.foldl_cons]
    by_cases hin : ∃ x ∈ ws, x.1 = i
    · obtain ⟨x, hx, hxi⟩ := hin
      have := h x (List.mem_cons_of_mem _ hx) hxi
      exact ih _ (by rw [← hxi, ← this]; exact hx) fun y hy => h y (List.mem_cons_of_mem _ hy)
    · have hnot : ∀ x ∈ ws, x.1 ≠ i := fun x hx e => hin ⟨x, hx, e⟩
      rw [foldl_putBit_of_not_mem _ _ _ hi hnot, putBit_get _ _ _ hi]
      rcases List.mem_cons.mp hm with e | e
      · rw [← e]; simp
      · exact absurd rfl (hnot _ e)

/-- Channel bits lie in the flag register, one for each channel (40 R411). -/
theorem flagIndex_lt (h : Header) (n : Nat) (hb : h.nib = true → h.size = .s4) (hn : n < h.count) :
    flagIndex h n < 32 := by
  have hq := h.qtr.isLt
  unfold flagIndex flagOff chOff
  unfold Header.count at hn
  cases hs : h.size <;> cases h.flagSub <;> cases hnib : h.nib <;> simp [hs, hnib, ExecSize.toNat] at hb hn ⊢ <;> omega

theorem flagIndex_inj (h : Header) (n m : Nat) (e : flagIndex h n = flagIndex h m) : n = m := by
  unfold flagIndex at e
  split at e <;> omega

theorem mem_flagWrites {s : State} {h : Header} {bit : Nat → Bool} {w : Nat × Bool} :
    w ∈ flagWrites s h bit ↔ ∃ n, n < h.count ∧ wrEn s h n = true ∧ w = (flagIndex h n, bit n) := by
  simp only [flagWrites, List.mem_filterMap, List.mem_range]
  constructor
  · rintro ⟨n, hn, hw⟩
    by_cases he : wrEn s h n = true
    · rw [if_pos he] at hw; exact ⟨n, hn, he, (Option.some.inj hw).symm⟩
    · rw [if_neg he] at hw; exact absurd hw (by simp)
  · rintro ⟨n, hn, he, rfl⟩
    exact ⟨n, hn, by rw [if_pos he]⟩

/-- The bit of an enabled channel. -/
theorem flagWrites_written (s : State) (h : Header) (bit : Nat → Bool) (v : DWord) (n : Nat)
    (hb : h.nib = true → h.size = .s4) (hn : n < h.count) (he : wrEn s h n = true) : ((flagWrites s h bit).foldl putBit v).getLsbD (flagIndex h n) = bit n := by
  apply foldl_putBit_of_mem _ _ _ _ (flagIndex_lt h n hb hn) (mem_flagWrites.mpr ⟨n, hn, he, rfl⟩)
  intro w hw hwi
  obtain ⟨m, _, _, rfl⟩ := mem_flagWrites.mp hw
  have : m = n := flagIndex_inj h m n hwi
  rw [this]

/-- Every other bit. -/
theorem flagWrites_kept (s : State) (h : Header) (bit : Nat → Bool) (v : DWord) (i : Nat)
    (hk : ∀ n, n < h.count → wrEn s h n = true → flagIndex h n ≠ i) :
    ((flagWrites s h bit).foldl putBit v).getLsbD i = v.getLsbD i := by
  by_cases hi : i < 32
  · apply foldl_putBit_of_not_mem _ _ _ hi
    intro w hw
    obtain ⟨n, hn, he, rfl⟩ := mem_flagWrites.mp hw
    exact hk n hn he
  · rw [BitVec.getLsbD_of_ge _ _ (by omega), BitVec.getLsbD_of_ge _ _ (by omega)]

/-! ## Accumulators -/

/-- The format of acc0's contents. -/
def Acc0.fmt : Acc0 → AccFmt
  | .df _ => .df
  | .f _ => .f
  | .d _ => .d
  | .w _ => .w

/-- The channels of acc0 alone (10_state R64). -/
def AccFmt.channels0 : AccFmt → Nat
  | .df => 4 | .f => 8 | .d => 8 | .w => 16

theorem Acc0.fmt_view (a : Acc0) (fmt : AccFmt) (k : Nat) : (a.view fmt k).fmt = fmt := by
  cases fmt <;> cases a <;> rfl

theorem Acc0.view_of_fmt (a : Acc0) (k : Nat) : a.view a.fmt k = a := by cases a <;> rfl

theorem Acc0.fmt_set (a : Acc0) (i : Nat) (v : QWord) : (a.set i v).fmt = a.fmt := by cases a <;> rfl

theorem getD_setIfInBounds {α : Type} {n : Nat} (c : Vector α n) (i j : Nat) (v z : α) :
    (c.setIfInBounds i v).getD j z = if i = j ∧ j < n then v else c.getD j z := by
  obtain ⟨c, rfl⟩ := c
  simp only [Vector.getD, Vector.setIfInBounds_mk, Array.getD_eq_getD_getElem?, Array.getElem?_setIfInBounds]
  by_cases h : i = j
  · subst h
    by_cases hi : i < c.size <;> simp [hi]
  · simp [h]

theorem Acc0.get_set (a : Acc0) (i j : Nat) (v : QWord) :
    (a.set i v).get j = if i = j ∧ j < a.fmt.channels0 then a.fmt.keep v else a.get j := by
  cases a with
  | df c => exact getD_setIfInBounds c i j v 0
  | d c => exact getD_setIfInBounds c i j v 0
  | f c =>
    have e := congrArg (BitVec.setWidth 64) (getD_setIfInBounds c i j (v.setWidth 32) 0)
    rw [apply_ite (BitVec.setWidth 64)] at e
    exact e
  | w c =>
    have e := congrArg (BitVec.signExtend 64) (getD_setIfInBounds c i j (v.setWidth 33) 0)
    rw [apply_ite (BitVec.signExtend 64)] at e
    exact e

/-- A channel that the accumulators have, by the accumulator that holds it. -/
theorem Acc.get_eq (a : Acc) (fmt : AccFmt) (k j : Nat) (hj : j < fmt.channels) : a.get fmt k j =
    if fmt.inAcc1 j then (a.acc1.getD (j - 8) 0).setWidth 64 else (a.acc0.view fmt k).get j := if_neg (by omega)

/-- A channel of an accumulator that was not written reads as before. -/
theorem AccPost.untouched {a b : Acc} {draw : Nat} {fmt : AccFmt} {p : Nat → Prop} {v : Nat → QWord}
    (h : AccPost a b draw fmt p v) (j : Nat) (hj : j < fmt.channels)
    (hno : ¬ ∃ i, i < fmt.channels ∧ p i ∧ fmt.inAcc1 i = fmt.inAcc1 j) (k : Nat) : b.get fmt k j = a.get fmt k j := by
  rw [Acc.get_eq _ _ _ _ hj, Acc.get_eq _ _ _ _ hj]
  cases hr : fmt.inAcc1 j
  · rw [h.2.2.1 fun i hi hp => by
      cases hx : fmt.inAcc1 i
      · exact absurd ⟨i, hi, hp, hx.trans hr.symm⟩ hno
      · rfl]
    rfl
  · rw [h.2.2.2 fun i hi hp => by
      cases hx : fmt.inAcc1 i
      · rfl
      · exact absurd ⟨i, hi, hp, hx.trans hr.symm⟩ hno]
    rfl

/-- What one channel write leaves: the channel takes the value in every later view, another of its accumulator keeps what the
write saw there. -/
theorem Acc.set_post (a : Acc) (fmt : AccFmt) (draw i : Nat) (v : QWord) (hi : i < fmt.channels) :
    AccPost a (a.set fmt draw i v) draw fmt (fun j => j = i) (fun _ => v) := by
  have hset : a.set fmt draw i v = if fmt.inAcc1 i then { a with acc1 := a.acc1.setIfInBounds (i - 8) (v.setWidth 32) }
      else { a with acc0 := (a.acc0.view fmt draw).set i v } := if_neg (by omega)
  rw [hset]
  cases h1 : fmt.inAcc1 i
  · have hc : i < fmt.channels0 := by
      cases fmt <;> simp_all [AccFmt.inAcc1, AccFmt.channels, AccFmt.channels0]
    have hview : ∀ k, ((a.acc0.view fmt draw).set i v).view fmt k = (a.acc0.view fmt draw).set i v := by
      intro k
      have := Acc0.view_of_fmt ((a.acc0.view fmt draw).set i v) k
      rwa [Acc0.fmt_set, Acc0.fmt_view] at this
    refine ⟨?_, ?_, ?_, fun _ => rfl⟩
    · rintro j hj rfl k
      rw [Acc.get_eq _ _ _ _ hj, h1]
      simp only [Bool.false_eq_true, if_false, hview, Acc0.get_set, Acc0.fmt_view, hc, and_self, if_true]
    · rintro j hj hne ⟨i', _, rfl, hs⟩ k
      rw [Acc.get_eq _ _ _ _ hj, Acc.get_eq _ _ _ _ hj, ← hs, h1]
      simp only [Bool.false_eq_true, if_false, hview, Acc0.get_set]
      rw [if_neg (by rintro ⟨e, _⟩; exact hne e.symm)]
    · intro h; exact absurd (h i hi rfl) (by simp [h1])
  · have hf : fmt = .f := by
      cases fmt <;> simp_all [AccFmt.inAcc1]
    subst hf
    have h8 : 8 ≤ i ∧ i < 16 := ⟨by simpa [AccFmt.inAcc1] using h1, hi⟩
    refine ⟨?_, ?_, fun _ => rfl, ?_⟩
    · rintro j hj rfl k
      rw [Acc.get_eq _ _ _ _ hj, h1]
      simp only [if_true, getD_setIfInBounds]
      have hj16 : j < 16 := by simpa [AccFmt.channels] using hj
      rw [if_pos ⟨trivial, by omega⟩]
      rfl
    · rintro j hj hne ⟨i', _, rfl, hs⟩ k
      rw [Acc.get_eq _ _ _ _ hj, Acc.get_eq _ _ _ _ hj, ← hs, h1]
      have h8j : 8 ≤ j := by
        have : AccFmt.f.inAcc1 j = true := by rw [← hs]; exact h1
        simpa [AccFmt.inAcc1] using this
      simp only [if_true, getD_setIfInBounds]
      rw [if_neg (by omega)]
    · intro h; exact absurd (h i hi rfl) (by simp [h1])

/-- A channel that the accumulators do not have is not written. -/
theorem Acc.set_outside (a : Acc) (fmt : AccFmt) (draw i : Nat) (v : QWord) (hi : fmt.channels ≤ i) :
    a.set fmt draw i v = a := if_pos hi

/-- Two writes after each other, of which the second gives the value where both write. -/
theorem AccPost.trans {a b c : Acc} {draw : Nat} {fmt : AccFmt} {p q : Nat → Prop} {v : Nat → QWord}
    (h1 : AccPost a b draw fmt p v) (h2 : AccPost b c draw fmt q v) : AccPost a c draw fmt (fun j => p j ∨ q j) v := by
  refine ⟨?_, ?_, fun h => ?_, fun h => ?_⟩
  · intro j hj hpq k
    by_cases hq : q j
    · exact h2.1 j hj hq k
    · have hp : p j := hpq.resolve_right hq
      by_cases hx : ∃ i, i < fmt.channels ∧ q i ∧ fmt.inAcc1 i = fmt.inAcc1 j
      · rw [h2.2.1 j hj hq hx k]; exact h1.1 j hj hp draw
      · rw [h2.untouched j hj hx k]; exact h1.1 j hj hp k
  · intro j hj hn hx k
    have hp : ¬ p j := fun h => hn (.inl h)
    have hq : ¬ q j := fun h => hn (.inr h)
    by_cases hy : ∃ i, i < fmt.channels ∧ q i ∧ fmt.inAcc1 i = fmt.inAcc1 j
    · rw [h2.2.1 j hj hq hy k]
      by_cases hz : ∃ i, i < fmt.channels ∧ p i ∧ fmt.inAcc1 i = fmt.inAcc1 j
      · exact h1.2.1 j hj hp hz draw
      · exact h1.untouched j hj hz draw
    · rw [h2.untouched j hj hy k]
      obtain ⟨i, hi, hpq, hs⟩ := hx
      exact h1.2.1 j hj hp ⟨i, hi, hpq.resolve_right fun h => hy ⟨i, hi, h, hs⟩, hs⟩ k
  · rw [h2.2.2.1 fun i hi hq => h i hi (.inr hq), h1.2.2.1 fun i hi hp => h i hi (.inl hp)]
  · rw [h2.2.2.2 fun i hi hq => h i hi (.inr hq), h1.2.2.2 fun i hi hp => h i hi (.inl hp)]

/-- Nothing written. -/
theorem AccPost.refl (a : Acc) (draw : Nat) (fmt : AccFmt) (p : Nat → Prop) (v : Nat → QWord)
    (hp : ∀ j, j < fmt.channels → ¬ p j) : AccPost a a draw fmt p v :=
  ⟨fun j hj h => absurd h (hp j hj), fun _ _ _ ⟨i, hi, h, _⟩ => absurd h (hp i hi), fun _ => rfl, fun _ => rfl⟩

/-- Only what is written matters of the predicate and the values. -/
theorem AccPost.congr {a b : Acc} {draw : Nat} {fmt : AccFmt} {p q : Nat → Prop} {v w : Nat → QWord}
    (h : AccPost a b draw fmt p v) (hpq : ∀ j, j < fmt.channels → (p j ↔ q j)) (hv : ∀ j, j < fmt.channels → q j → v j = w j) :
    AccPost a b draw fmt q w :=
  ⟨fun j hj hq k => by rw [← hv j hj hq]; exact h.1 j hj ((hpq j hj).2 hq) k,
   fun j hj hq ⟨i, hi, hqi, hs⟩ => h.2.1 j hj (fun hp => hq ((hpq j hj).1 hp)) ⟨i, hi, (hpq i hi).2 hqi, hs⟩,
   fun hz => h.2.2.1 fun i hi hp => hz i hi ((hpq i hi).1 hp),
   fun ho => h.2.2.2 fun i hi hp => ho i hi ((hpq i hi).1 hp)⟩

/-- What a list of channel writes can do, said once. -/
theorem accSet_post (s : State) (fmt : AccFmt) (ws : List (Nat × QWord)) (v : Nat → QWord) (hv : ∀ w ∈ ws, w.2 = v w.1) :
    AccPost s.acc (accSet s fmt ws).acc s.draw fmt (fun j => ∃ w ∈ ws, w.1 = j) v := by
  rw [accSet_acc]
  generalize s.acc = a
  induction ws generalizing a with
  | nil => exact .refl _ _ _ _ _ fun j _ ⟨w, hw, _⟩ => absurd hw (by simp)
  | cons w ws ih =>
    have tail := ih (fun x hx => hv x (List.mem_cons_of_mem _ hx)) (a.set fmt s.draw w.1 w.2)
    by_cases hw : w.1 < fmt.channels
    · have head := (Acc.set_post a fmt s.draw w.1 w.2 hw).congr (q := fun j => j = w.1) (w := v) (fun _ _ => Iff.rfl)
        (by rintro j _ rfl; exact hv w List.mem_cons_self)
      refine (head.trans tail).congr (fun j _ => ?_) fun _ _ _ => rfl
      simp [eq_comm]
    · rw [Acc.set_outside a fmt s.draw w.1 w.2 (by omega)] at tail
      simp only [List.foldl_cons]
      rw [Acc.set_outside a fmt s.draw w.1 w.2 (by omega)]
      refine tail.congr (fun j hj => ?_) fun _ _ _ => rfl
      simp only [List.mem_cons, exists_eq_or_imp]
      exact ⟨.inr, fun h => h.resolve_left (by omega)⟩

/-! ## Scoreboard -/

theorem setDep_get (d : BitVec 128) (r i : Nat) (b : Bool) (hi : i < 128) :
    (setDep d r b).getLsbD i = if i = r then b else d.getLsbD i := by
  cases b
  · simp only [setDep, Bool.false_eq_true, if_false, BitVec.getLsbD_and, BitVec.getLsbD_not,
      getLsbD_one_shiftLeft 128 r i (by decide), hi, decide_true, Bool.true_and]
    by_cases h : i = r <;> simp [h]
  · simp only [setDep, if_true, BitVec.getLsbD_or, getLsbD_one_shiftLeft 128 r i (by decide), hi, decide_true,
      Bool.true_and]
    by_cases h : i = r <;> simp [h]

theorem foldl_setDep_get (rs : List Nat) (d : BitVec 128) (mark : Nat → Bool) (i : Nat) (hi : i < 128) :
    (rs.foldl (fun d r => setDep d r (mark r)) d).getLsbD i = if i ∈ rs then mark i else d.getLsbD i := by
  induction rs generalizing d with
  | nil => simp
  | cons r rs ih =>
    rw [List.foldl_cons, ih, setDep_get _ _ _ _ hi]
    by_cases h1 : i ∈ rs
    · simp [h1]
    · by_cases h2 : i = r
      · subst h2; simp
      · simp [h1, h2]

end Sys2Proof.Machine
end

