-- ==== Sys2Proof/Laws/Bytes.lean ====
section
/-! SUPPORT. The byte laws of the general register file: a read after a write gives the value written, every other byte stays (spec/10_state.md R52). -/

namespace Sys2Proof.Machine

/-! ## One register -/

theorem byteOf_setByte (r : Reg256) (i j : Nat) (b : Byte) (hj : j < 32) :
    byteOf (setByte r i b) j = if i = j then b else byteOf r j := by
  ext k hk
  have h255 : ∀ m : Nat, (255#256).getLsbD m = decide (m < 8) := by
    intro m
    by_cases hm : m < 8
    · have : ∀ x : Fin 8, (255#256).getLsbD x.val = true := by decide
      simp [hm, this ⟨m, hm⟩]
    · simp only [hm, decide_false]
      rw [BitVec.getLsbD_ofNat]
      have : Nat.testBit 255 m = false := Nat.testBit_lt_two_pow (by
        calc 255 < 2 ^ 8 := by decide
          _ ≤ 2 ^ m := Nat.pow_le_pow_right (by decide) (by omega))
      simp [this]
  simp only [byteOf, setByte, BitVec.getElem_extractLsb', BitVec.getLsbD_or, BitVec.getLsbD_and, BitVec.getLsbD_not,
    BitVec.getLsbD_shiftLeft, BitVec.getLsbD_setWidth, h255]
  have hlt : 8 * j + k < 256 := by omega
  by_cases hij : i = j
  · subst hij
    simp [hlt, hk, show ¬(8 * i + k < 8 * i) by omega, show 8 * i + k - 8 * i = k by omega, show k < 256 by omega]
  · simp only [hij, if_false, BitVec.getElem_extractLsb', hlt, decide_true, Bool.true_and]
    rcases Nat.lt_or_gt_of_ne hij with h | h
    · have h1 : ¬(8 * j + k < 8 * i) := by omega
      have h2 : ¬(8 * j + k - 8 * i < 8) := by omega
      have h3 : b.getLsbD (8 * j + k - 8 * i) = false := BitVec.getLsbD_of_ge _ _ (by omega)
      simp [h1, h2, h3]
    · have h1 : 8 * j + k < 8 * i := by omega
      simp [h1]

/-! ## The register file -/

theorem grfByte_setGrfByte (g : Vector Reg256 128) (a c : Nat) (b : Byte) :
    grfByte (setGrfByte g a b) c = if a = c ∧ c < 4096 then b else grfByte g c := by
  unfold grfByte setGrfByte
  by_cases hc : c / 32 < 128
  · have hc' : c < 4096 := by omega
    by_cases ha : a / 32 < 128
    · simp only [ha, hc, dif_pos, hc', and_true]
      rw [Vector.getElem_set]
      by_cases hr : a / 32 = c / 32
      · simp only [hr, if_true]
        rw [byteOf_setByte _ _ _ _ (Nat.mod_lt _ (by decide))]
        by_cases hac : a = c
        · simp [hac]
        · have : a % 32 ≠ c % 32 := by omega
          simp [this, hac]
      · have : a ≠ c := fun h => hr (by rw [h])
        simp [hr, this]
    · have : a ≠ c := fun h => ha (by rw [h]; exact hc)
      simp [ha, hc, this]
  · have hc' : ¬ c < 4096 := by omega
    simp [hc, hc']

theorem setGrfBytes_nil (g : Vector Reg256 128) : setGrfBytes g [] = g := rfl

theorem setGrfBytes_cons (g : Vector Reg256 128) (w : Nat × Byte) (ws : List (Nat × Byte)) :
    setGrfBytes g (w :: ws) = setGrfBytes (setGrfByte g w.1 w.2) ws := rfl

theorem setGrfBytes_append (g : Vector Reg256 128) (ws vs : List (Nat × Byte)) :
    setGrfBytes g (ws ++ vs) = setGrfBytes (setGrfBytes g ws) vs := by
  simp [setGrfBytes, List.foldl_append]

/-- A byte that no entry of the list names stays. -/
theorem grfByte_setGrfBytes_of_not_mem (ws : List (Nat × Byte)) (g : Vector Reg256 128) (c : Nat)
    (h : ∀ w ∈ ws, w.1 ≠ c) : grfByte (setGrfBytes g ws) c = grfByte g c := by
  induction ws generalizing g with
  | nil => rfl
  | cons w ws ih =>
    rw [setGrfBytes_cons, ih _ fun v hv => h v (List.mem_cons_of_mem _ hv), grfByte_setGrfByte]
    simp [h w List.mem_cons_self]

/-- A byte that the list names takes the value, if every entry that names it has that value. -/
theorem grfByte_setGrfBytes_of_mem (ws : List (Nat × Byte)) (g : Vector Reg256 128) (c : Nat) (b : Byte)
    (hc : c < 4096) (hm : (c, b) ∈ ws) (h : ∀ w ∈ ws, w.1 = c → w.2 = b) :
    grfByte (setGrfBytes g ws) c = b := by
  induction ws generalizing g with
  | nil => exact absurd hm (by simp)
  | cons w ws ih =>
    rw [setGrfBytes_cons]
    by_cases hin : ∃ v ∈ ws, v.1 = c
    · obtain ⟨v, hv, hvc⟩ := hin
      have hv2 := h v (List.mem_cons_of_mem _ hv) hvc
      exact ih _ (by rw [← hvc, ← hv2]; exact hv) fun x hx => h x (List.mem_cons_of_mem _ hx)
    · have hnot : ∀ v ∈ ws, v.1 ≠ c := fun v hv e => hin ⟨v, hv, e⟩
      rw [grfByte_setGrfBytes_of_not_mem _ _ _ hnot, grfByte_setGrfByte]
      have hw : w = (c, b) := by
        rcases List.mem_cons.mp hm with h1 | h1
        · exact h1.symm
        · exact absurd rfl (hnot _ h1)
      simp [hw, hc]

/-! ## Channel-indexed writes -/

theorem mem_elemWrites {count size : Nat} {en : Nat → Bool} {addr : Nat → Nat} {val : Nat → DWord} {w : Nat × Byte} :
    w ∈ elemWrites count size en addr val ↔
      ∃ n, n < count ∧ en n = true ∧ ∃ i, i < size ∧ w = (addr n + i, (val n).extractLsb' (8 * i) 8) := by
  simp only [elemWrites, List.mem_flatMap, List.mem_range]
  constructor
  · rintro ⟨n, hn, hw⟩
    by_cases he : en n = true
    · rw [if_pos he] at hw
      obtain ⟨i, hi, rfl⟩ := List.mem_map.mp hw
      exact ⟨n, hn, he, i, List.mem_range.mp hi, rfl⟩
    · rw [if_neg he] at hw
      exact absurd hw (by simp)
  · rintro ⟨n, hn, he, i, hi, rfl⟩
    exact ⟨n, hn, by rw [if_pos he]; exact List.mem_map.mpr ⟨i, List.mem_range.mpr hi, rfl⟩⟩

/-- The bytes of an enabled channel whose element meets no other channel's. -/
theorem grfByte_elemWrites_written (g : Vector Reg256 128) (count size : Nat) (en : Nat → Bool) (addr : Nat → Nat)
    (val : Nat → DWord) (n i : Nat) (hn : n < count) (he : en n = true) (hi : i < size) (hr : addr n + i < 4096)
    (ha : ∀ m, m < count → m ≠ n → addr m + size ≤ addr n ∨ addr n + size ≤ addr m) :
    grfByte (setGrfBytes g (elemWrites count size en addr val)) (addr n + i) = (val n).extractLsb' (8 * i) 8 := by
  apply grfByte_setGrfBytes_of_mem _ _ _ _ hr
  · exact mem_elemWrites.mpr ⟨n, hn, he, i, hi, rfl⟩
  · intro w hw hwc
    obtain ⟨m, hm, _, k, hk, rfl⟩ := mem_elemWrites.mp hw
    by_cases hmn : m = n
    · subst hmn
      have hki : k = i := by
        have : addr m + k = addr m + i := hwc
        omega
      rw [hki]
    · have h1 : addr m + k = addr n + i := hwc
      rcases ha m hm hmn with h2 | h2 <;> omega

/-- A byte outside the enabled channels' elements stays. -/
theorem grfByte_elemWrites_kept (g : Vector Reg256 128) (count size : Nat) (en : Nat → Bool) (addr : Nat → Nat)
    (val : Nat → DWord) (a : Nat) (h : ∀ n, n < count → en n = true → a < addr n ∨ addr n + size ≤ a) :
    grfByte (setGrfBytes g (elemWrites count size en addr val)) a = grfByte g a := by
  apply grfByte_setGrfBytes_of_not_mem
  intro w hw hwa
  obtain ⟨n, hn, he, i, hi, rfl⟩ := mem_elemWrites.mp hw
  have h1 : addr n + i = a := hwa
  rcases h n hn he with h2 | h2 <;> omega

end Sys2Proof.Machine
end

