-- ==== Sys2Proof/Laws/Writes.lean ====
section
/-! SUPPORT. Field lemmas of the explicit writes: an architecture register, a destination operand, and all the writes of a data instruction (spec/40_common_execution.md R400, R454; spec/10_state.md R57). -/

namespace Sys2Proof.Machine

/-! ## writeArf -/

@[simp] theorem writeArf_grf (s : State) (r : Arf) (ws : List (Nat × Byte)) :
    (writeArf s r ws).grf = s.grf := by
  unfold writeArf; cases ws.isEmpty <;> cases r <;> cases s.restoring <;> rfl
theorem writeArf_a0 (s : State) (r : Arf) (ws : List (Nat × Byte)) (h : r ≠ .a0) :
    (writeArf s r ws).a0 = s.a0 := by
  unfold writeArf; cases ws.isEmpty <;> cases r <;> cases s.restoring <;> first | rfl | exact absurd rfl h
@[simp] theorem writeArf_acc (s : State) (r : Arf) (ws : List (Nat × Byte)) :
    (writeArf s r ws).acc = s.acc := by
  unfold writeArf; cases ws.isEmpty <;> cases r <;> cases s.restoring <;> rfl
theorem writeArf_f0 (s : State) (r : Arf) (ws : List (Nat × Byte)) (h : r ≠ .f0) :
    (writeArf s r ws).f0 = s.f0 := by
  unfold writeArf; cases ws.isEmpty <;> cases r <;> cases s.restoring <;> first | rfl | exact absurd rfl h
theorem writeArf_f1 (s : State) (r : Arf) (ws : List (Nat × Byte)) (h : r ≠ .f1) :
    (writeArf s r ws).f1 = s.f1 := by
  unfold writeArf; cases ws.isEmpty <;> cases r <;> cases s.restoring <;> first | rfl | exact absurd rfl h
theorem writeArf_sr00 (s : State) (r : Arf) (ws : List (Nat × Byte)) (h : r ≠ .sr0) :
    (writeArf s r ws).sr00 = s.sr00 := by
  unfold writeArf; cases ws.isEmpty <;> cases r <;> cases s.restoring <;> first | rfl | exact absurd rfl h
theorem writeArf_sr01 (s : State) (r : Arf) (ws : List (Nat × Byte)) (h : r ≠ .sr0) :
    (writeArf s r ws).sr01 = s.sr01 := by
  unfold writeArf; cases ws.isEmpty <;> cases r <;> cases s.restoring <;> first | rfl | exact absurd rfl h
theorem writeArf_sr02 (s : State) (r : Arf) (ws : List (Nat × Byte)) (h : r ≠ .sr0) :
    (writeArf s r ws).sr02 = s.sr02 := by
  unfold writeArf; cases ws.isEmpty <;> cases r <;> cases s.restoring <;> first | rfl | exact absurd rfl h
theorem writeArf_sr03 (s : State) (r : Arf) (ws : List (Nat × Byte)) (h : r ≠ .sr0) :
    (writeArf s r ws).sr03 = s.sr03 := by
  unfold writeArf; cases ws.isEmpty <;> cases r <;> cases s.restoring <;> first | rfl | exact absurd rfl h
theorem writeArf_cr00 (s : State) (r : Arf) (ws : List (Nat × Byte)) (h : r ≠ .cr0) :
    (writeArf s r ws).cr00 = s.cr00 := by
  unfold writeArf; cases ws.isEmpty <;> cases r <;> cases s.restoring <;> first | rfl | exact absurd rfl h
theorem writeArf_cr01 (s : State) (r : Arf) (ws : List (Nat × Byte)) (h : r ≠ .cr0) :
    (writeArf s r ws).cr01 = s.cr01 := by
  unfold writeArf; cases ws.isEmpty <;> cases r <;> cases s.restoring <;> first | rfl | exact absurd rfl h
theorem writeArf_cr02 (s : State) (r : Arf) (ws : List (Nat × Byte)) (h : r ≠ .cr0) :
    (writeArf s r ws).cr02 = s.cr02 := by
  unfold writeArf; cases ws.isEmpty <;> cases r <;> cases s.restoring <;> first | rfl | exact absurd rfl h
theorem writeArf_n00 (s : State) (r : Arf) (ws : List (Nat × Byte)) (h : r ≠ .n0 ∨ s.restoring = false) :
    (writeArf s r ws).n00 = s.n00 := by
  unfold writeArf
  cases ws.isEmpty <;> cases r <;> cases hr : s.restoring <;> first | rfl | simp [hr] at h
theorem writeArf_n01 (s : State) (r : Arf) (ws : List (Nat × Byte)) (h : r ≠ .n0 ∨ s.restoring = false) :
    (writeArf s r ws).n01 = s.n01 := by
  unfold writeArf
  cases ws.isEmpty <;> cases r <;> cases hr : s.restoring <;> first | rfl | simp [hr] at h
theorem writeArf_n02 (s : State) (r : Arf) (ws : List (Nat × Byte)) (h : r ≠ .n0 ∨ s.restoring = false) :
    (writeArf s r ws).n02 = s.n02 := by
  unfold writeArf
  cases ws.isEmpty <;> cases r <;> cases hr : s.restoring <;> first | rfl | simp [hr] at h
@[simp] theorem writeArf_ip (s : State) (r : Arf) (ws : List (Nat × Byte)) :
    (writeArf s r ws).ip = s.ip := by
  unfold writeArf; cases ws.isEmpty <;> cases r <;> cases s.restoring <;> rfl
@[simp] theorem writeArf_pcIP (s : State) (r : Arf) (ws : List (Nat × Byte)) :
    (writeArf s r ws).pcIP = s.pcIP := by
  unfold writeArf; cases ws.isEmpty <;> cases r <;> cases s.restoring <;> rfl
theorem writeArf_tdr (s : State) (r : Arf) (ws : List (Nat × Byte)) (h : r ≠ .tdr0) :
    (writeArf s r ws).tdr = s.tdr := by
  unfold writeArf; cases ws.isEmpty <;> cases r <;> cases s.restoring <;> first | rfl | exact absurd rfl h
@[simp] theorem writeArf_tm0 (s : State) (r : Arf) (ws : List (Nat × Byte)) :
    (writeArf s r ws).tm0 = s.tm0 := by
  unfold writeArf; cases ws.isEmpty <;> cases r <;> cases s.restoring <;> rfl
theorem writeArf_tmEvent (s : State) (r : Arf) (ws : List (Nat × Byte)) (h : r ≠ .tm0 ∨ s.restoring = false) :
    (writeArf s r ws).tmEvent = s.tmEvent := by
  unfold writeArf
  cases ws.isEmpty <;> cases r <;> cases hr : s.restoring <;> first | rfl | simp [hr] at h
@[simp] theorem writeArf_callMask (s : State) (r : Arf) (ws : List (Nat × Byte)) :
    (writeArf s r ws).callMask = s.callMask := by
  unfold writeArf; cases ws.isEmpty <;> cases r <;> cases s.restoring <;> rfl
@[simp] theorem writeArf_dep (s : State) (r : Arf) (ws : List (Nat × Byte)) :
    (writeArf s r ws).dep = s.dep := by
  unfold writeArf; cases ws.isEmpty <;> cases r <;> cases s.restoring <;> rfl
@[simp] theorem writeArf_depA0 (s : State) (r : Arf) (ws : List (Nat × Byte)) :
    (writeArf s r ws).depA0 = s.depA0 := by
  unfold writeArf; cases ws.isEmpty <;> cases r <;> cases s.restoring <;> rfl
@[simp] theorem writeArf_imem (s : State) (r : Arf) (ws : List (Nat × Byte)) :
    (writeArf s r ws).imem = s.imem := by
  unfold writeArf; cases ws.isEmpty <;> cases r <;> cases s.restoring <;> rfl
@[simp] theorem writeArf_messages (s : State) (r : Arf) (ws : List (Nat × Byte)) :
    (writeArf s r ws).messages = s.messages := by
  unfold writeArf; cases ws.isEmpty <;> cases r <;> cases s.restoring <;> rfl
@[simp] theorem writeArf_outstanding (s : State) (r : Arf) (ws : List (Nat × Byte)) :
    (writeArf s r ws).outstanding = s.outstanding := by
  unfold writeArf; cases ws.isEmpty <;> cases r <;> cases s.restoring <;> rfl
@[simp] theorem writeArf_run (s : State) (r : Arf) (ws : List (Nat × Byte)) :
    (writeArf s r ws).run = s.run := by
  unfold writeArf; cases ws.isEmpty <;> cases r <;> cases s.restoring <;> rfl
theorem writeArf_nextIP (s : State) (r : Arf) (ws : List (Nat × Byte)) (h : r ≠ .ip) :
    (writeArf s r ws).nextIP = s.nextIP := by
  unfold writeArf; cases ws.isEmpty <;> cases r <;> cases s.restoring <;> first | rfl | exact absurd rfl h
@[simp] theorem writeArf_launch (s : State) (r : Arf) (ws : List (Nat × Byte)) :
    (writeArf s r ws).launch = s.launch := by
  unfold writeArf; cases ws.isEmpty <;> cases r <;> cases s.restoring <;> rfl
@[simp] theorem writeArf_host (s : State) (r : Arf) (ws : List (Nat × Byte)) :
    (writeArf s r ws).host = s.host := by
  unfold writeArf; cases ws.isEmpty <;> cases r <;> cases s.restoring <;> rfl
@[simp] theorem writeArf_draw (s : State) (r : Arf) (ws : List (Nat × Byte)) :
    (writeArf s r ws).draw = s.draw := by
  unfold writeArf; cases ws.isEmpty <;> cases r <;> cases s.restoring <;> rfl
@[simp] theorem writeArf_curWait (s : State) (r : Arf) (ws : List (Nat × Byte)) :
    (writeArf s r ws).curWait = s.curWait := by
  unfold writeArf; cases ws.isEmpty <;> cases r <;> cases s.restoring <;> rfl
@[simp] theorem writeArf_prevWait (s : State) (r : Arf) (ws : List (Nat × Byte)) :
    (writeArf s r ws).prevWait = s.prevWait := by
  unfold writeArf; cases ws.isEmpty <;> cases r <;> cases s.restoring <;> rfl

/-! ## writeDst -/

/-- What `writeDst` is, by the kind of destination. -/
theorem writeDst_arf (s : State) (h : Header) (d : Dst) (en : Nat → Bool) (out : Nat → Out) (r : Arf) (sub : BitVec 5)
    (hl : d.loc = .arf r sub) (h0 : r ≠ .acc0) (h1 : r ≠ .acc1) :
    writeDst s h d en out = writeArf s r (dstWrites s h d en (fun n => (out n).bits)) := by
  unfold writeDst; rw [hl]; cases r <;> first | rfl | exact absurd rfl h0 | exact absurd rfl h1

theorem writeDst_acc (s : State) (h : Header) (d : Dst) (en : Nat → Bool) (out : Nat → Out) (hl : d.loc.isAcc = true) :
    writeDst s h d en out = s ∨ ∃ fmt ws, writeDst s h d en out = accSet s fmt ws := by
  unfold writeDst
  cases hloc : d.loc with
  | grf _ _ => rw [hloc] at hl; exact absurd hl Bool.false_ne_true
  | ind _ _ => rw [hloc] at hl; exact absurd hl Bool.false_ne_true
  | arf r sub =>
    rw [hloc] at hl
    cases r
    case acc0 =>
      cases accFmt d.ty with
      | none => exact .inl rfl
      | some fmt => exact .inr ⟨fmt, _, rfl⟩
    case acc1 =>
      cases accFmt d.ty with
      | none => exact .inl rfl
      | some fmt => exact .inr ⟨fmt, _, rfl⟩
    all_goals exact absurd hl Bool.false_ne_true

theorem writeDst_grf (s : State) (h : Header) (d : Dst) (en : Nat → Bool) (out : Nat → Out) (hl : d.loc.isArf = false) :
    writeDst s h d en out =
      { s with grf := setGrfBytes s.grf (dstWrites s h d en (fun n => (out n).bits)) } := by
  unfold writeDst
  cases hloc : d.loc with
  | grf _ _ => rfl
  | ind _ _ => rfl
  | arf r sub => rw [hloc] at hl; exact absurd hl (by simp [Loc.isArf])

/-- A field that neither the accumulators nor the GRF hold, and that the architecture register named does not change. -/
theorem writeDst_field {α : Type} (f : State → α) (s : State) (h : Header) (d : Dst) (en : Nat → Bool) (out : Nat → Out)
    (hg : ∀ g, f { s with grf := g } = f s) (hacc : ∀ fmt ws, f (accSet s fmt ws) = f s)
    (ha : ∀ r ws, d.loc.names r = true → f (writeArf s r ws) = f s) : f (writeDst s h d en out) = f s := by
  by_cases hc : d.loc.isAcc = true
  · rcases writeDst_acc s h d en out hc with e | ⟨fmt, ws, e⟩ <;> rw [e]
    exact hacc fmt ws
  · cases hloc : d.loc with
    | grf _ _ => rw [writeDst_grf s h d en out (by rw [hloc]; rfl)]; exact hg _
    | ind _ _ => rw [writeDst_grf s h d en out (by rw [hloc]; rfl)]; exact hg _
    | arf r sub =>
      have h0 : r ≠ .acc0 := by rintro rfl; exact hc (by rw [hloc]; rfl)
      have h1 : r ≠ .acc1 := by rintro rfl; exact hc (by rw [hloc]; rfl)
      rw [writeDst_arf s h d en out r sub hloc h0 h1]
      exact ha r _ (by rw [hloc]; simp [Loc.names])

/-- The register named is not the one excluded. -/
theorem Loc.names_ne {l : Loc} {a r : Arf} (h : l.names a = false) (hr : l.names r = true) : r ≠ a := by
  rintro rfl; rw [h] at hr; exact Bool.false_ne_true hr

theorem writeDst_a0 (s : State) (h : Header) (d : Dst) (en : Nat → Bool) (out : Nat → Out) (hr : d.loc.names .a0 = false) :
    (writeDst s h d en out).a0 = s.a0 :=
  writeDst_field (·.a0) s h d en out (fun _ => rfl) (fun _ _ => rfl) fun _ _ hn => writeArf_a0 _ _ _ (Loc.names_ne hr hn)
theorem writeDst_f0 (s : State) (h : Header) (d : Dst) (en : Nat → Bool) (out : Nat → Out) (hr : d.loc.names .f0 = false) :
    (writeDst s h d en out).f0 = s.f0 :=
  writeDst_field (·.f0) s h d en out (fun _ => rfl) (fun _ _ => rfl) fun _ _ hn => writeArf_f0 _ _ _ (Loc.names_ne hr hn)
theorem writeDst_f1 (s : State) (h : Header) (d : Dst) (en : Nat → Bool) (out : Nat → Out) (hr : d.loc.names .f1 = false) :
    (writeDst s h d en out).f1 = s.f1 :=
  writeDst_field (·.f1) s h d en out (fun _ => rfl) (fun _ _ => rfl) fun _ _ hn => writeArf_f1 _ _ _ (Loc.names_ne hr hn)
theorem writeDst_sr00 (s : State) (h : Header) (d : Dst) (en : Nat → Bool) (out : Nat → Out) (hr : d.loc.names .sr0 = false) :
    (writeDst s h d en out).sr00 = s.sr00 :=
  writeDst_field (·.sr00) s h d en out (fun _ => rfl) (fun _ _ => rfl) fun _ _ hn => writeArf_sr00 _ _ _ (Loc.names_ne hr hn)
theorem writeDst_sr01 (s : State) (h : Header) (d : Dst) (en : Nat → Bool) (out : Nat → Out) (hr : d.loc.names .sr0 = false) :
    (writeDst s h d en out).sr01 = s.sr01 :=
  writeDst_field (·.sr01) s h d en out (fun _ => rfl) (fun _ _ => rfl) fun _ _ hn => writeArf_sr01 _ _ _ (Loc.names_ne hr hn)
theorem writeDst_sr02 (s : State) (h : Header) (d : Dst) (en : Nat → Bool) (out : Nat → Out) (hr : d.loc.names .sr0 = false) :
    (writeDst s h d en out).sr02 = s.sr02 :=
  writeDst_field (·.sr02) s h d en out (fun _ => rfl) (fun _ _ => rfl) fun _ _ hn => writeArf_sr02 _ _ _ (Loc.names_ne hr hn)
theorem writeDst_sr03 (s : State) (h : Header) (d : Dst) (en : Nat → Bool) (out : Nat → Out) (hr : d.loc.names .sr0 = false) :
    (writeDst s h d en out).sr03 = s.sr03 :=
  writeDst_field (·.sr03) s h d en out (fun _ => rfl) (fun _ _ => rfl) fun _ _ hn => writeArf_sr03 _ _ _ (Loc.names_ne hr hn)
theorem writeDst_cr00 (s : State) (h : Header) (d : Dst) (en : Nat → Bool) (out : Nat → Out) (hr : d.loc.names .cr0 = false) :
    (writeDst s h d en out).cr00 = s.cr00 :=
  writeDst_field (·.cr00) s h d en out (fun _ => rfl) (fun _ _ => rfl) fun _ _ hn => writeArf_cr00 _ _ _ (Loc.names_ne hr hn)
theorem writeDst_cr01 (s : State) (h : Header) (d : Dst) (en : Nat → Bool) (out : Nat → Out) (hr : d.loc.names .cr0 = false) :
    (writeDst s h d en out).cr01 = s.cr01 :=
  writeDst_field (·.cr01) s h d en out (fun _ => rfl) (fun _ _ => rfl) fun _ _ hn => writeArf_cr01 _ _ _ (Loc.names_ne hr hn)
theorem writeDst_cr02 (s : State) (h : Header) (d : Dst) (en : Nat → Bool) (out : Nat → Out) (hr : d.loc.names .cr0 = false) :
    (writeDst s h d en out).cr02 = s.cr02 :=
  writeDst_field (·.cr02) s h d en out (fun _ => rfl) (fun _ _ => rfl) fun _ _ hn => writeArf_cr02 _ _ _ (Loc.names_ne hr hn)
theorem writeDst_n00 (s : State) (h : Header) (d : Dst) (en : Nat → Bool) (out : Nat → Out)
    (hr : d.loc.names .n0 = false ∨ s.restoring = false) : (writeDst s h d en out).n00 = s.n00 :=
  writeDst_field (·.n00) s h d en out (fun _ => rfl) (fun _ _ => rfl)
    fun _ _ hn => writeArf_n00 _ _ _ (hr.imp_left fun h => Loc.names_ne h hn)
theorem writeDst_n01 (s : State) (h : Header) (d : Dst) (en : Nat → Bool) (out : Nat → Out)
    (hr : d.loc.names .n0 = false ∨ s.restoring = false) : (writeDst s h d en out).n01 = s.n01 :=
  writeDst_field (·.n01) s h d en out (fun _ => rfl) (fun _ _ => rfl)
    fun _ _ hn => writeArf_n01 _ _ _ (hr.imp_left fun h => Loc.names_ne h hn)
theorem writeDst_n02 (s : State) (h : Header) (d : Dst) (en : Nat → Bool) (out : Nat → Out)
    (hr : d.loc.names .n0 = false ∨ s.restoring = false) : (writeDst s h d en out).n02 = s.n02 :=
  writeDst_field (·.n02) s h d en out (fun _ => rfl) (fun _ _ => rfl)
    fun _ _ hn => writeArf_n02 _ _ _ (hr.imp_left fun h => Loc.names_ne h hn)
@[simp] theorem writeDst_ip (s : State) (h : Header) (d : Dst) (en : Nat → Bool) (out : Nat → Out) :
    (writeDst s h d en out).ip = s.ip :=
  writeDst_field (·.ip) s h d en out (fun _ => rfl) (fun _ _ => rfl) fun _ _ _ => writeArf_ip _ _ _
@[simp] theorem writeDst_pcIP (s : State) (h : Header) (d : Dst) (en : Nat → Bool) (out : Nat → Out) :
    (writeDst s h d en out).pcIP = s.pcIP :=
  writeDst_field (·.pcIP) s h d en out (fun _ => rfl) (fun _ _ => rfl) fun _ _ _ => writeArf_pcIP _ _ _
theorem writeDst_tdr (s : State) (h : Header) (d : Dst) (en : Nat → Bool) (out : Nat → Out) (hr : d.loc.names .tdr0 = false) :
    (writeDst s h d en out).tdr = s.tdr :=
  writeDst_field (·.tdr) s h d en out (fun _ => rfl) (fun _ _ => rfl) fun _ _ hn => writeArf_tdr _ _ _ (Loc.names_ne hr hn)
@[simp] theorem writeDst_tm0 (s : State) (h : Header) (d : Dst) (en : Nat → Bool) (out : Nat → Out) :
    (writeDst s h d en out).tm0 = s.tm0 :=
  writeDst_field (·.tm0) s h d en out (fun _ => rfl) (fun _ _ => rfl) fun _ _ _ => writeArf_tm0 _ _ _
theorem writeDst_tmEvent (s : State) (h : Header) (d : Dst) (en : Nat → Bool) (out : Nat → Out)
    (hr : d.loc.names .tm0 = false ∨ s.restoring = false) : (writeDst s h d en out).tmEvent = s.tmEvent :=
  writeDst_field (·.tmEvent) s h d en out (fun _ => rfl) (fun _ _ => rfl)
    fun _ _ hn => writeArf_tmEvent _ _ _ (hr.imp_left fun h => Loc.names_ne h hn)
@[simp] theorem writeDst_callMask (s : State) (h : Header) (d : Dst) (en : Nat → Bool) (out : Nat → Out) :
    (writeDst s h d en out).callMask = s.callMask :=
  writeDst_field (·.callMask) s h d en out (fun _ => rfl) (fun _ _ => rfl) fun _ _ _ => writeArf_callMask _ _ _
@[simp] theorem writeDst_dep (s : State) (h : Header) (d : Dst) (en : Nat → Bool) (out : Nat → Out) :
    (writeDst s h d en out).dep = s.dep :=
  writeDst_field (·.dep) s h d en out (fun _ => rfl) (fun _ _ => rfl) fun _ _ _ => writeArf_dep _ _ _
@[simp] theorem writeDst_depA0 (s : State) (h : Header) (d : Dst) (en : Nat → Bool) (out : Nat → Out) :
    (writeDst s h d en out).depA0 = s.depA0 :=
  writeDst_field (·.depA0) s h d en out (fun _ => rfl) (fun _ _ => rfl) fun _ _ _ => writeArf_depA0 _ _ _
@[simp] theorem writeDst_imem (s : State) (h : Header) (d : Dst) (en : Nat → Bool) (out : Nat → Out) :
    (writeDst s h d en out).imem = s.imem :=
  writeDst_field (·.imem) s h d en out (fun _ => rfl) (fun _ _ => rfl) fun _ _ _ => writeArf_imem _ _ _
@[simp] theorem writeDst_messages (s : State) (h : Header) (d : Dst) (en : Nat → Bool) (out : Nat → Out) :
    (writeDst s h d en out).messages = s.messages :=
  writeDst_field (·.messages) s h d en out (fun _ => rfl) (fun _ _ => rfl) fun _ _ _ => writeArf_messages _ _ _
@[simp] theorem writeDst_outstanding (s : State) (h : Header) (d : Dst) (en : Nat → Bool) (out : Nat → Out) :
    (writeDst s h d en out).outstanding = s.outstanding :=
  writeDst_field (·.outstanding) s h d en out (fun _ => rfl) (fun _ _ => rfl) fun _ _ _ => writeArf_outstanding _ _ _
@[simp] theorem writeDst_run (s : State) (h : Header) (d : Dst) (en : Nat → Bool) (out : Nat → Out) :
    (writeDst s h d en out).run = s.run :=
  writeDst_field (·.run) s h d en out (fun _ => rfl) (fun _ _ => rfl) fun _ _ _ => writeArf_run _ _ _
theorem writeDst_nextIP (s : State) (h : Header) (d : Dst) (en : Nat → Bool) (out : Nat → Out) (hr : d.loc.names .ip = false) :
    (writeDst s h d en out).nextIP = s.nextIP :=
  writeDst_field (·.nextIP) s h d en out (fun _ => rfl) (fun _ _ => rfl) fun _ _ hn => writeArf_nextIP _ _ _ (Loc.names_ne hr hn)
@[simp] theorem writeDst_launch (s : State) (h : Header) (d : Dst) (en : Nat → Bool) (out : Nat → Out) :
    (writeDst s h d en out).launch = s.launch :=
  writeDst_field (·.launch) s h d en out (fun _ => rfl) (fun _ _ => rfl) fun _ _ _ => writeArf_launch _ _ _
@[simp] theorem writeDst_host (s : State) (h : Header) (d : Dst) (en : Nat → Bool) (out : Nat → Out) :
    (writeDst s h d en out).host = s.host :=
  writeDst_field (·.host) s h d en out (fun _ => rfl) (fun _ _ => rfl) fun _ _ _ => writeArf_host _ _ _
@[simp] theorem writeDst_draw (s : State) (h : Header) (d : Dst) (en : Nat → Bool) (out : Nat → Out) :
    (writeDst s h d en out).draw = s.draw :=
  writeDst_field (·.draw) s h d en out (fun _ => rfl) (fun _ _ => rfl) fun _ _ _ => writeArf_draw _ _ _
@[simp] theorem writeDst_curWait (s : State) (h : Header) (d : Dst) (en : Nat → Bool) (out : Nat → Out) :
    (writeDst s h d en out).curWait = s.curWait :=
  writeDst_field (·.curWait) s h d en out (fun _ => rfl) (fun _ _ => rfl) fun _ _ _ => writeArf_curWait _ _ _
@[simp] theorem writeDst_prevWait (s : State) (h : Header) (d : Dst) (en : Nat → Bool) (out : Nat → Out) :
    (writeDst s h d en out).prevWait = s.prevWait :=
  writeDst_field (·.prevWait) s h d en out (fun _ => rfl) (fun _ _ => rfl) fun _ _ _ => writeArf_prevWait _ _ _

theorem writeDst_grf_arf (s : State) (h : Header) (d : Dst) (en : Nat → Bool) (out : Nat → Out) (hl : d.loc.isArf = true) :
    (writeDst s h d en out).grf = s.grf := by
  by_cases ha : d.loc.isAcc = true
  · rcases writeDst_acc s h d en out ha with e | ⟨fmt, ws, e⟩ <;> rw [e]
    exact accSet_grf s fmt ws
  · cases hloc : d.loc with
    | grf _ _ => rw [hloc] at hl; exact absurd hl (by simp [Loc.isArf])
    | ind _ _ => rw [hloc] at hl; exact absurd hl (by simp [Loc.isArf])
    | arf r sub =>
      have h0 : r ≠ .acc0 := by rintro rfl; exact ha (by rw [hloc]; rfl)
      have h1 : r ≠ .acc1 := by rintro rfl; exact ha (by rw [hloc]; rfl)
      rw [writeDst_arf s h d en out r sub hloc h0 h1, writeArf_grf]

theorem writeDst_accKept (s : State) (h : Header) (d : Dst) (en : Nat → Bool) (out : Nat → Out) (ha : d.loc.isAcc = false) :
    (writeDst s h d en out).acc = s.acc := by
  cases hloc : d.loc with
  | grf _ _ => rw [writeDst_grf s h d en out (by rw [hloc]; rfl)]
  | ind _ _ => rw [writeDst_grf s h d en out (by rw [hloc]; rfl)]
  | arf r sub =>
    have h0 : r ≠ .acc0 := by rintro rfl; rw [hloc] at ha; simp [Loc.isAcc] at ha
    have h1 : r ≠ .acc1 := by rintro rfl; rw [hloc] at ha; simp [Loc.isAcc] at ha
    rw [writeDst_arf s h d en out r sub hloc h0 h1, writeArf_acc]

end Sys2Proof.Machine
end

