-- ==== Sys2Proof/Laws/Data.lean ====
section
/-! SUPPORT. What a data instruction can do, said once: behind its restrictions it answers a next state that satisfies `DataPost` (spec/40_common_execution.md R400). -/

namespace Sys2Proof.Machine

/-! ## commit -/

/-- The state before the scoreboard marks. -/
def preMark (s : State) (h : Header) (d : Dst) (flags : Bool) (accF : Option AccFmt) (en accEn : Nat → Bool)
    (out : Nat → Out) : State :=
  let s1 := writeDst s h d en out
  let s2 := if flags then setFlagBits s1 h.flagReg (flagWrites s h (fun n => (out n).flag)) else s1
  match accF with
  | some fmt => if s.accDisable then s2 else writeAcc s2 h fmt accEn out
  | none => s2

theorem commit_eq (s : State) (h : Header) (d : Dst) (flags : Bool) (accF : Option AccFmt) (en accEn : Nat → Bool)
    (out : Nat → Out) :
    commit s h d flags accF en accEn out =
      markA0 (markDst (preMark s h d flags accF en accEn out) h ((List.range h.count).any en) (dstRegs s h d)) h
        ((List.range h.count).any en) d.isA0 := rfl

/-- A field that neither flags nor accumulators touch. -/
theorem preMark_field {α : Type} (f : State → α) (s : State) (h : Header) (d : Dst) (flags : Bool)
    (accF : Option AccFmt) (en accEn : Nat → Bool) (out : Nat → Out)
    (hf : ∀ s r ws, f (setFlagBits s r ws) = f s) (ha : ∀ s fmt, f (writeAcc s h fmt accEn out) = f s) :
    f (preMark s h d flags accF en accEn out) = f (writeDst s h d en out) := by
  unfold preMark
  cases accF <;> cases flags <;> cases s.accDisable <;> simp [hf, ha]

/-- A field that only the destination can touch. -/
theorem write_field {α : Type} (f : State → α) (e : Effect) (s : State)
    (hf : ∀ s r ws, f (setFlagBits s r ws) = f s) (ha : ∀ s h fmt en out, f (writeAcc s h fmt en out) = f s)
    (hm : ∀ s h a rs, f (markDst s h a rs) = f s) (hz : ∀ s h a z, f (markA0 s h a z) = f s) :
    f (e.write s) = f (writeDst s e.hdr e.dst e.en e.out) := by
  unfold Effect.write
  rw [commit_eq, hz, hm]
  exact preMark_field f s e.hdr e.dst e.flags e.accF e.en e.accEn e.out hf fun s fmt => ha s e.hdr fmt e.accEn e.out

theorem write_grf (e : Effect) (s : State) : (e.write s).grf = (writeDst s e.hdr e.dst e.en e.out).grf :=
  write_field (·.grf) e s (by simp) (by simp) (by simp) (by simp)

theorem apply_cr00 (e : Effect) (s : State) (h : e.dst.loc.names .cr0 = false) : (e.apply s).cr00 = s.cr00 := by
  unfold Effect.apply
  rw [write_field (·.cr00) e _ (by simp) (by simp) (by simp) (by simp)]
  exact (writeDst_cr00 _ _ _ _ _ h).trans (readTm0_cr00 _ _)

/-- The writes of the accumulator do not touch the flags. -/
theorem flagReg_of_eq {s t : State} (h0 : t.f0 = s.f0) (h1 : t.f1 = s.f1) (r : Bool) : t.flagReg r = s.flagReg r := by
  cases r <;> simp [State.flagReg, h0, h1]

theorem write_flagReg (e : Effect) (s : State) (r : Bool) :
    (e.write s).flagReg r =
      (if e.flags then setFlagBits (writeDst s e.hdr e.dst e.en e.out) e.hdr.flagReg
        (flagWrites s e.hdr (fun n => (e.out n).flag)) else writeDst s e.hdr e.dst e.en e.out).flagReg r := by
  unfold Effect.write
  rw [commit_eq, flagReg_of_eq (markA0_f0 _ _ _ _) (markA0_f1 _ _ _ _),
    flagReg_of_eq (markDst_f0 _ _ _ _) (markDst_f1 _ _ _ _)]
  unfold preMark
  cases e.accF
  · rfl
  · cases s.accDisable
    · exact flagReg_of_eq (writeAcc_f0 _ _ _ _ _) (writeAcc_f1 _ _ _ _ _) r
    · rfl

/-- The state before the accumulator write. -/
theorem write_acc (e : Effect) (s : State) :
    ∃ u : State, u.acc = (writeDst s e.hdr e.dst e.en e.out).acc ∧ u.draw = s.draw ∧ (e.write s).acc =
      (match e.accF with
       | some fmt => if s.accDisable then u.acc else (writeAcc u e.hdr fmt e.accEn e.out).acc
       | none => u.acc) := by
  refine ⟨if e.flags then setFlagBits (writeDst s e.hdr e.dst e.en e.out) e.hdr.flagReg
    (flagWrites s e.hdr (fun n => (e.out n).flag)) else writeDst s e.hdr e.dst e.en e.out, ?_, ?_, ?_⟩
  · cases e.flags <;> simp
  · cases e.flags <;> simp
  · unfold Effect.write
    rw [commit_eq, markA0_acc, markDst_acc]
    unfold preMark
    cases e.accF <;> cases s.accDisable <;> rfl

/-- Without an implicit write the accumulators are as the destination leaves them. -/
theorem write_acc_dst (e : Effect) (s : State)
    (h : e.accF = none ∨ s.accDisable = true ∨ ∀ n, n < e.hdr.count → e.accEn n = false) :
    (e.write s).acc = (writeDst s e.hdr e.dst e.en e.out).acc := by
  obtain ⟨u, hu, _, hap⟩ := write_acc e s
  rw [hap, ← hu]
  rcases h with h | h | h
  · rw [h]
  · cases e.accF
    · rfl
    · simp only [h, if_true]
  · cases hf : e.accF with
    | none => rfl
    | some fmt =>
      dsimp only
      split
      · rfl
      · have hw : accImplicitWrites u e.hdr fmt e.accEn e.out = [] := by
          cases fmt
          · simp only [accImplicitWrites, accPairWrites]
            apply List.filterMap_eq_nil_iff.mpr
            intro j hj
            have hj' := List.mem_range.mp hj
            rw [h (2 * j) (by omega), h (2 * j + 1) (by omega)]
            rfl
          all_goals
            simp only [accImplicitWrites]
            apply List.filterMap_eq_nil_iff.mpr
            intro j hj
            rw [h j (List.mem_range.mp hj)]
            rfl
        unfold writeAcc accSet
        rw [hw]
        rfl

/-- The channels of an implicit write in a format other than DF. -/
theorem mem_accImplicitWrites {u : State} {h : Header} {fmt : AccFmt} {en : Nat → Bool} {out : Nat → Out}
    (hf : fmt ≠ .df) {w : Nat × QWord} :
    w ∈ accImplicitWrites u h fmt en out ↔ ∃ n, n < h.count ∧ en n = true ∧ w = (accBase h fmt + n, (out n).acc) := by
  have hw : accImplicitWrites u h fmt en out = (List.range h.count).filterMap
      (fun n => if en n then some (accBase h fmt + n, (out n).acc) else none) := by
    cases fmt <;> first | exact absurd rfl hf | rfl
  rw [hw, List.mem_filterMap]
  constructor
  · rintro ⟨n, hn, hs⟩
    by_cases he : en n = true
    · rw [if_pos he] at hs
      exact ⟨n, List.mem_range.1 hn, he, (Option.some.inj hs).symm⟩
    · rw [if_neg he] at hs; exact absurd hs (by simp)
  · rintro ⟨n, hn, he, rfl⟩
    exact ⟨n, List.mem_range.2 hn, by rw [if_pos he]⟩

/-- The DF channels written by halves. -/
theorem mem_accPairWrites {u : State} {h : Header} {en : Nat → Bool} {v : Nat → QWord} {w : Nat × QWord} :
    w ∈ accPairWrites u h en v ↔ ∃ j, j < h.count / 2 ∧ (en (2 * j) = true ∨ en (2 * j + 1) = true) ∧
      w = (j, accPair u en v j) := by
  simp only [accPairWrites, List.mem_filterMap, List.mem_range]
  constructor
  · rintro ⟨j, hj, hs⟩
    by_cases he : (en (2 * j) || en (2 * j + 1)) = true
    · rw [if_pos he] at hs
      exact ⟨j, hj, by simpa using he, (Option.some.inj hs).symm⟩
    · rw [if_neg he] at hs; exact absurd hs (by simp)
  · rintro ⟨j, hj, he, rfl⟩
    exact ⟨j, hj, by rw [if_pos (by simpa using he)]⟩

/-- The number of channels is even unless it is 1. -/
theorem Header.count_even (h : Header) (hc : 2 ≤ h.count) : 2 * (h.count / 2) = h.count := by
  unfold Header.count at *
  cases hs : h.size <;> simp [hs, ExecSize.toNat] at hc ⊢

/-- The writes of elements that are `on` to distinct channels, or of DF pair by pair. -/
theorem accWritten_of_writes {s t u : State} {h : Header} {fmt : AccFmt} {on : Nat → Bool} {chan : Nat → Nat}
    {val : Nat → QWord} {ws : List (Nat × QWord)} (hu : u.acc = s.acc) (hd : u.draw = s.draw)
    (ht : t.acc = (accSet u fmt ws).acc) (hdf : fmt = .df → ws = accPairWrites u h on val ∧ ∀ n, chan n = n / 2)
    (hw : fmt ≠ .df → ∀ w, w ∈ ws ↔ ∃ n, n < h.count ∧ on n = true ∧ w = (chan n, val n)) :
    AccWritten s t h fmt on chan val := by
  intro hc v hv
  have hpost : ∀ (_ : ∀ w ∈ ws, w.2 = v w.1), AccPost s.acc t.acc s.draw fmt (fun j => ∃ w ∈ ws, w.1 = j) v := by
    intro hvw
    have := accSet_post u fmt ws v hvw
    rwa [hu, hd, ← ht] at this
  have hpair : ∀ j, accPair u on val j = accPair s on val j := fun j => by simp only [accPair, accGet, hu, hd]
  by_cases hf : fmt = .df
  · obtain ⟨hws, hch⟩ := hdf hf
    have heven := Header.count_even h (hc hf)
    have hmem : ∀ w, w ∈ ws ↔ ∃ n, n < h.count ∧ on n = true ∧ w = (n / 2, accPair s on val (n / 2)) := by
      intro w
      rw [hws, mem_accPairWrites]
      constructor
      · rintro ⟨j, hj, he | he, rfl⟩
        · exact ⟨2 * j, by omega, he, by rw [hpair, show 2 * j / 2 = j by omega]⟩
        · exact ⟨2 * j + 1, by omega, he, by rw [hpair, show (2 * j + 1) / 2 = j by omega]⟩
      · rintro ⟨n, hn, he, rfl⟩
        refine ⟨n / 2, by omega, ?_, by rw [hpair]⟩
        rcases Nat.mod_two_eq_zero_or_one n with h2 | h2
        · exact .inl (by rw [show 2 * (n / 2) = n by omega]; exact he)
        · exact .inr (by rw [show 2 * (n / 2) + 1 = n by omega]; exact he)
    refine (hpost ?_).congr (fun j _ => ?_) fun _ _ _ => rfl
    · intro w hwm
      obtain ⟨n, hn, he, rfl⟩ := (hmem w).1 hwm
      have := hv n hn he
      rw [if_pos hf, hch] at this
      exact this.symm
    · constructor
      · rintro ⟨w, hwm, rfl⟩
        obtain ⟨n, hn, he, rfl⟩ := (hmem w).1 hwm
        exact ⟨n, hn, he, hch n⟩
      · rintro ⟨n, hn, he, rfl⟩
        exact ⟨_, (hmem _).2 ⟨n, hn, he, rfl⟩, (hch n).symm⟩
  · refine (hpost ?_).congr (fun j _ => ?_) fun _ _ _ => rfl
    · intro w hwm
      obtain ⟨n, hn, he, rfl⟩ := (hw hf w).1 hwm
      have := hv n hn he
      rw [if_neg hf] at this
      exact this.symm
    · constructor
      · rintro ⟨w, hwm, rfl⟩
        obtain ⟨n, hn, he, rfl⟩ := (hw hf w).1 hwm
        exact ⟨n, hn, he, rfl⟩
      · rintro ⟨n, hn, he, rfl⟩
        exact ⟨_, (hw hf _).2 ⟨n, hn, he, rfl⟩, rfl⟩

/-- An explicit accumulator destination (10_state R57, R64). -/
theorem writeDst_accWritten (s : State) (h : Header) (d : Dst) (en : Nat → Bool) (out : Nat → Out) (base : Nat) (fmt : AccFmt)
    (hb : accOperand d.loc = some base) (hf : accFmt d.ty = some fmt) :
    AccWritten s (writeDst s h d en out) h fmt (accDstOn d en) (accDstChannel d base fmt) (fun n => (out n).wide) := by
  have hw : writeDst s h d en out = accSet s fmt (accDstWrites s h d base en out) := by
    unfold writeDst
    revert hb
    cases d.loc with
    | grf _ _ => intro hb; exact absurd hb (by simp [accOperand])
    | ind _ _ => intro hb; exact absurd hb (by simp [accOperand])
    | arf r _ =>
      cases r <;> intro hb
      case acc0 => cases hb; simp only [hf]
      case acc1 => cases hb; simp only [hf]
      all_goals exact absurd hb (by simp [accOperand])
  have hty : fmt = .df ↔ d.ty = .df := by
    revert hf; cases d.ty <;> intro hf <;> cases hf <;> simp
  refine accWritten_of_writes rfl rfl (congrArg State.acc hw) (fun hdf => ⟨?_, fun n => if_pos hdf⟩) fun hdf w => ?_
  · unfold accDstWrites; rw [if_pos (hty.1 hdf)]; rfl
  · unfold accDstWrites
    rw [if_neg (fun e => hdf (hty.2 e)), List.mem_filterMap]
    constructor
    · rintro ⟨n, hn, hs⟩
      by_cases he : (en n && d.region.chanOn n) = true
      · rw [if_pos he] at hs
        exact ⟨n, List.mem_range.1 hn, he, by rw [accDstChannel, if_neg hdf]; exact (Option.some.inj hs).symm⟩
      · rw [if_neg he] at hs; exact absurd hs (by simp)
    · rintro ⟨n, hn, he, rfl⟩
      exact ⟨n, List.mem_range.2 hn, by rw [accDstChannel, if_neg hdf]; exact if_pos he⟩

theorem write_dep (e : Effect) (s : State) : ∃ u : State, u.dep = s.dep ∧ u.draw = s.draw ∧
    (e.write s).dep = (markDst u e.hdr ((List.range e.hdr.count).any e.en) (dstRegs s e.hdr e.dst)).dep := by
  refine ⟨preMark s e.hdr e.dst e.flags e.accF e.en e.accEn e.out, ?_, ?_, ?_⟩
  · exact (preMark_field (·.dep) s _ _ _ _ _ _ _ (by simp) (by simp)).trans (writeDst_dep _ _ _ _ _)
  · exact (preMark_field (·.draw) s _ _ _ _ _ _ _ (by simp) (by simp)).trans (writeDst_draw _ _ _ _ _)
  · unfold Effect.write; rw [commit_eq, markA0_dep]

/-- The mark of a0 after a data instruction. -/
theorem write_depA0 (e : Effect) (s : State) : ∃ u : State, u.depA0 = s.depA0 ∧
    (e.write s).depA0 = (markA0 u e.hdr ((List.range e.hdr.count).any e.en) e.dst.isA0).depA0 := by
  refine ⟨markDst (preMark s e.hdr e.dst e.flags e.accF e.en e.accEn e.out) e.hdr ((List.range e.hdr.count).any e.en)
    (dstRegs s e.hdr e.dst), ?_, ?_⟩
  · rw [markDst_depA0]
    exact (preMark_field (·.depA0) s _ _ _ _ _ _ _ (by simp) (by simp)).trans (writeDst_depA0 _ _ _ _ _)
  · unfold Effect.write; rw [commit_eq]

theorem markDst_depOf (s : State) (h : Header) (any : Bool) (rs : List Nat) (r : Nat) (hr : r < 128)
    (ha : any = true) : (markDst s h any rs).depOf r = if r ∈ rs then h.noDDClr else s.depOf r := by
  subst ha
  have e : (markDst s h true rs).dep = rs.foldl (fun d r => setDep d r h.noDDClr) s.dep := rfl
  unfold State.depOf
  rw [e, foldl_setDep_get rs s.dep (fun _ => h.noDDClr) r hr]

theorem markDst_depOf_kept (s : State) (h : Header) (any : Bool) (rs : List Nat) (r : Nat) (hr : r ∉ rs) :
    (markDst s h any rs).depOf r = s.depOf r := by
  unfold State.depOf
  by_cases hlt : r < 128
  · have e : ∃ mark : Nat → Bool, (markDst s h any rs).dep = rs.foldl (fun d r => setDep d r (mark r)) s.dep := by
      exact ⟨_, rfl⟩
    obtain ⟨mark, e⟩ := e
    rw [e, foldl_setDep_get rs s.dep mark r hlt, if_neg hr]
  · rw [BitVec.getLsbD_of_ge _ _ (by omega), BitVec.getLsbD_of_ge _ _ (by omega)]

/-! ## The end of the instruction -/

theorem finish_stays (s t : State) (h : s.inSR = false ∨ t.cr00 = s.cr00) : finish s t = .next (advance s.spf t) := by
  unfold finish
  rw [if_neg]
  rcases h with h | h
  · simp [h]
  · simp [State.inSR, h]

/-- The next state of a data instruction that stays where it is. -/
def Effect.next (e : Effect) (s : State) : State := advance s.spf (e.apply s)

theorem execute_next (s : State) (l : List Check) (e : Effect) (ha : Allowed l) (hs : StaysIn s e.dst) :
    execute s (firstViolation l) e = .next (e.next s) := by
  unfold execute
  rw [show firstViolation l = none from ha]
  refine finish_stays s _ (hs.imp_right fun h => apply_cr00 e s ?_)
  revert h
  cases e.dst.loc with
  | grf _ _ => intro _; rfl
  | ind _ _ => intro _; rfl
  | arf r _ => cases r <;> simp [Loc.isCr0, Loc.names]

theorem execute_refused (s : State) (l : List Check) (e : Effect) (r : Restriction) (h : firstViolation l = some r) :
    execute s (firstViolation l) e = .refused (.restriction r) := by
  unfold execute
  rw [h]; rfl

/-- Everything the writes of a data instruction do. -/
theorem Effect.write_post (e : Effect) (s : State)
    (hr : e.dst.loc.isArf = false → ∀ n, n < e.hdr.count → dstByte s e.hdr e.dst n + e.dst.ty.size ≤ 4096)
    (hb : e.hdr.nib = true → e.hdr.size = .s4) :
    DataPost s (advance s.spf (e.write s)) e.hdr e.dst e.flags e.accF false e.en e.accEn (fun n => (e.out n).bits)
      (fun n => (e.out n).flag) (fun n => (e.out n).acc) (fun n => (e.out n).wide) where
  written := by
    intro hl n hn hon hal i hi
    show grfByte (e.write s).grf _ = _
    rw [write_grf, writeDst_grf _ _ _ _ _ hl]
    exact grfByte_elemWrites_written _ _ _ _ _ _ n i hn (by simp [hon.1, hon.2]) hi (by have := hr hl n hn; unfold dstByte at this; omega)
      hal
  kept := by
    intro a ha
    show grfByte (e.write s).grf a = _
    rw [write_grf]
    by_cases hl : e.dst.loc.isArf = true
    · rw [writeDst_grf_arf _ _ _ _ _ hl]
    · rw [writeDst_grf _ _ _ _ _ (by simpa using hl)]
      apply grfByte_elemWrites_kept
      intro n hn hen
      simp only [Bool.and_eq_true] at hen
      exact ha (by simpa using hl) n hn ⟨hen.1, hen.2⟩
  flagWritten := by
    intro hf n hn he
    show ((e.write s).flagReg e.hdr.flagReg).getLsbD _ = _
    rw [write_flagReg, if_pos hf, setFlagBits_flagReg, if_pos rfl]
    exact flagWrites_written s e.hdr (fun n => (e.out n).flag) _ n hb hn he
  flagKept := by
    intro h0 h1 r i hk
    show ((e.write s).flagReg r).getLsbD i = _
    rw [write_flagReg]
    have hbase : ∀ r, (writeDst s e.hdr e.dst e.en e.out).flagReg r = s.flagReg r :=
      flagReg_of_eq (writeDst_f0 _ _ _ _ _ h0) (writeDst_f1 _ _ _ _ _ h1)
    by_cases hf : e.flags = true
    · rw [if_pos hf, setFlagBits_flagReg]
      by_cases hrr : r = e.hdr.flagReg
      · rw [if_pos hrr, hbase]
        rw [flagWrites_kept s e.hdr (fun n => (e.out n).flag) _ i (hk hf hrr), hrr]
      · rw [if_neg hrr, hbase]
    · rw [if_neg hf, hbase]
  accWritten := by
    intro fmt hacc hdf hdis n hn hen hch k
    show ((e.write s).acc).get fmt k _ = _
    obtain ⟨u, hu, _, hap⟩ := write_acc e s
    rw [hap, hacc]
    simp only [hdis, Bool.false_eq_true, if_false]
    have hchan : ∀ m, accChannel e.hdr fmt m = accBase e.hdr fmt + m := fun m => if_neg hdf
    refine (accSet_post u fmt (accImplicitWrites u e.hdr fmt e.accEn e.out)
      (fun j => (e.out (j - accBase e.hdr fmt)).acc) ?_).1 _ hch ?_ k |>.trans ?_
    · intro w hw
      obtain ⟨m, _, _, rfl⟩ := (mem_accImplicitWrites hdf).1 hw
      dsimp only
      rw [show accBase e.hdr fmt + m - accBase e.hdr fmt = m by omega]
    · exact ⟨_, (mem_accImplicitWrites hdf).2 ⟨n, hn, hen, rfl⟩, (hchan n).symm⟩
    · rw [hchan]
      dsimp only
      rw [show accBase e.hdr fmt + n - accBase e.hdr fmt = n by omega]
  accImplicit := by
    intro fmt hacc hdis ha
    obtain ⟨u, hu, hd, hap⟩ := write_acc e s
    have hs : u.acc = s.acc := hu.trans (writeDst_accKept _ _ _ _ _ ha)
    rw [hacc] at hap
    simp only [hdis, Bool.false_eq_true, if_false] at hap
    refine accWritten_of_writes (t := advance s.spf (e.write s)) hs hd hap (fun hdf => ?_) fun hdf w => ?_
    · subst hdf; exact ⟨rfl, fun n => if_pos rfl⟩
    · rw [mem_accImplicitWrites hdf]
      simp only [accChannel, if_neg hdf]
  accExplicit := by
    intro base fmt hb' hf hno hc v hv
    have := writeDst_accWritten s e.hdr e.dst e.en e.out base fmt hb' hf hc v hv
    rw [← write_acc_dst e s hno] at this
    exact this
  accKept := by
    intro hc ha
    exact (write_acc_dst e s hc).trans (writeDst_accKept _ _ _ _ _ ha)
  depMarked := by
    intro r hm hlt hex
    obtain ⟨u, h1, -, h4⟩ := write_dep e s
    have hany : (List.range e.hdr.count).any e.en = true := by
      obtain ⟨n, hn, he⟩ := hex
      exact List.any_eq_true.mpr ⟨n, List.mem_range.mpr hn, he⟩
    have := markDst_depOf u e.hdr _ (dstRegs s e.hdr e.dst) r hlt hany
    unfold State.depOf at this ⊢
    show (e.write s).dep.getLsbD r = _
    rw [h4, this, if_pos hm]
  depKept := by
    intro r hm
    obtain ⟨u, h1, -, h4⟩ := write_dep e s
    have := markDst_depOf_kept u e.hdr ((List.range e.hdr.count).any e.en) (dstRegs s e.hdr e.dst) r hm
    unfold State.depOf at this ⊢
    show (e.write s).dep.getLsbD r = _
    rw [h4, this, h1]
  a0Marked := by
    rintro hz ⟨n, hn, he⟩
    obtain ⟨u, -, h2⟩ := write_depA0 e s
    rw [List.any_eq_true.mpr ⟨n, List.mem_range.mpr hn, he⟩, hz] at h2
    exact h2
  depA0Kept := by
    intro hz
    obtain ⟨u, h1, h2⟩ := write_depA0 e s
    rw [hz] at h2
    exact h2.trans h1
  a0Kept := by
    intro hz
    show (e.write s).a0 = s.a0
    rw [write_field (·.a0) e s (by simp) (by simp) (by simp) (by simp)]
    apply writeDst_a0
    revert hz
    unfold Dst.isA0 Loc.names
    cases e.dst.loc with
    | grf _ _ => intro _; rfl
    | ind _ _ => intro _; rfl
    | arf r _ => cases r <;> simp
  sr0Kept := by
    intro hz
    refine ⟨?_, ?_, ?_, ?_⟩
    · exact (write_field (·.sr00) e s (by simp) (by simp) (by simp) (by simp)).trans (writeDst_sr00 _ _ _ _ _ hz)
    · exact (write_field (·.sr01) e s (by simp) (by simp) (by simp) (by simp)).trans (writeDst_sr01 _ _ _ _ _ hz)
    · exact (write_field (·.sr02) e s (by simp) (by simp) (by simp) (by simp)).trans (writeDst_sr02 _ _ _ _ _ hz)
    · exact (write_field (·.sr03) e s (by simp) (by simp) (by simp) (by simp)).trans (writeDst_sr03 _ _ _ _ _ hz)
  cr0Kept := by
    intro hz
    refine ⟨?_, ?_, ?_⟩
    · exact (write_field (·.cr00) e s (by simp) (by simp) (by simp) (by simp)).trans (writeDst_cr00 _ _ _ _ _ hz)
    · exact (write_field (·.cr01) e s (by simp) (by simp) (by simp) (by simp)).trans (writeDst_cr01 _ _ _ _ _ hz)
    · exact (write_field (·.cr02) e s (by simp) (by simp) (by simp) (by simp)).trans (writeDst_cr02 _ _ _ _ _ hz)
  tdrKept := by
    intro hz
    exact (write_field (·.tdr) e s (by simp) (by simp) (by simp) (by simp)).trans (writeDst_tdr _ _ _ _ _ hz)
  next := by
    intro hz
    have h1 : (e.write s).nextIP = s.nextIP :=
      (write_field (·.nextIP) e s (by simp) (by simp) (by simp) (by simp)).trans (writeDst_nextIP _ _ _ _ _ hz)
    have h2 : (e.write s).pcIP = s.pcIP :=
      (write_field (·.pcIP) e s (by simp) (by simp) (by simp) (by simp)).trans (writeDst_pcIP _ _ _ _ _)
    have h3 : (e.write s).ip = s.ip :=
      (write_field (·.ip) e s (by simp) (by simp) (by simp) (by simp)).trans (writeDst_ip _ _ _ _ _)
    refine ⟨h1, h1, ?_⟩
    show (if s.spf then (e.write s).pcIP else (e.write s).pcIP.map fun p => if p = (e.write s).ip then (e.write s).nextIP else p) = _
    rw [h1, h2, h3]
  n0Kept := by
    intro hz
    refine ⟨?_, ?_, ?_⟩
    · exact (write_field (·.n00) e s (by simp) (by simp) (by simp) (by simp)).trans (writeDst_n00 _ _ _ _ _ hz)
    · exact (write_field (·.n01) e s (by simp) (by simp) (by simp) (by simp)).trans (writeDst_n01 _ _ _ _ _ hz)
    · exact (write_field (·.n02) e s (by simp) (by simp) (by simp) (by simp)).trans (writeDst_n02 _ _ _ _ _ hz)
  event := by
    intro hz
    exact (write_field (·.tmEvent) e s (by simp) (by simp) (by simp) (by simp)).trans (writeDst_tmEvent _ _ _ _ _ hz)
  frame := by
    have f4 : (advance s.spf (e.write s)).tm0 = s.tm0 := (write_field (·.tm0) e s (by simp) (by simp) (by simp) (by simp)).trans (writeDst_tm0 _ _ _ _ _)
    have f5 : (advance s.spf (e.write s)).callMask = s.callMask := (write_field (·.callMask) e s (by simp) (by simp) (by simp) (by simp)).trans (writeDst_callMask _ _ _ _ _)
    have f6 : (advance s.spf (e.write s)).imem = s.imem := (write_field (·.imem) e s (by simp) (by simp) (by simp) (by simp)).trans (writeDst_imem _ _ _ _ _)
    have f7 : (advance s.spf (e.write s)).messages = s.messages := (write_field (·.messages) e s (by simp) (by simp) (by simp) (by simp)).trans (writeDst_messages _ _ _ _ _)
    have f8 : (advance s.spf (e.write s)).outstanding = s.outstanding := (write_field (·.outstanding) e s (by simp) (by simp) (by simp) (by simp)).trans (writeDst_outstanding _ _ _ _ _)
    have f9 : (advance s.spf (e.write s)).run = s.run := (write_field (·.run) e s (by simp) (by simp) (by simp) (by simp)).trans (writeDst_run _ _ _ _ _)
    have f10 : (advance s.spf (e.write s)).launch = s.launch := (write_field (·.launch) e s (by simp) (by simp) (by simp) (by simp)).trans (writeDst_launch _ _ _ _ _)
    have f11 : (advance s.spf (e.write s)).host = s.host := (write_field (·.host) e s (by simp) (by simp) (by simp) (by simp)).trans (writeDst_host _ _ _ _ _)
    have f12 : (advance s.spf (e.write s)).draw = s.draw := (write_field (·.draw) e s (by simp) (by simp) (by simp) (by simp)).trans (writeDst_draw _ _ _ _ _)
    have f13 : (advance s.spf (e.write s)).curWait = s.curWait := (write_field (·.curWait) e s (by simp) (by simp) (by simp) (by simp)).trans (writeDst_curWait _ _ _ _ _)
    have f14 : (advance s.spf (e.write s)).prevWait = s.prevWait := (write_field (·.prevWait) e s (by simp) (by simp) (by simp) (by simp)).trans (writeDst_prevWait _ _ _ _ _)
    rw [← f4, ← f5, ← f6, ← f7, ← f8, ← f9, ← f10, ← f11, ← f12, ← f13, ← f14]

/-- Everything a data instruction does. -/
theorem Effect.next_post (e : Effect) (s : State)
    (hr : e.dst.loc.isArf = false → ∀ n, n < e.hdr.count → dstByte s e.hdr e.dst n + e.dst.ty.size ≤ 4096)
    (hb : e.hdr.nib = true → e.hdr.size = .s4) :
    DataPost s (e.next s) e.hdr e.dst e.flags e.accF e.tm0 e.en e.accEn (fun n => (e.out n).bits)
      (fun n => (e.out n).flag) (fun n => (e.out n).acc) (fun n => (e.out n).wide) := by
  unfold Effect.next Effect.apply
  cases htm : e.tm0
  · exact e.write_post s hr hb
  · have p := e.write_post { s with tmEvent := false } hr hb
    exact {
      written := p.written, kept := p.kept, flagWritten := p.flagWritten, flagKept := p.flagKept
      accWritten := p.accWritten, accImplicit := p.accImplicit, accExplicit := p.accExplicit, accKept := p.accKept
      depMarked := p.depMarked, depKept := p.depKept, a0Marked := p.a0Marked, depA0Kept := p.depA0Kept, a0Kept := p.a0Kept
      sr0Kept := p.sr0Kept, cr0Kept := p.cr0Kept, tdrKept := p.tdrKept, next := p.next, n0Kept := p.n0Kept
      event := p.event, frame := p.frame }

end Sys2Proof.Machine
end

