-- ==== Sys2Proof/Laws/Checks.lean ====
section
/-! SUPPORT. What the restrictions of a data instruction give, and from them the one step lemma of every data instruction (spec/40_common_execution.md R400, R470). -/

namespace Sys2Proof.Machine

/-! ## Lists of checks -/

theorem allowed_nil : Allowed [] := rfl

theorem allowed_cons (c : Check) (l : List Check) : Allowed (c :: l) ↔ c.1 = false ∧ Allowed l := by
  obtain ⟨b, r⟩ := c
  cases b <;> simp [Allowed, firstViolation]

theorem allowed_append (l m : List Check) : Allowed (l ++ m) ↔ Allowed l ∧ Allowed m := by
  induction l with
  | nil => exact ⟨fun h => ⟨rfl, h⟩, fun h => h.2⟩
  | cons c l ih => simp only [List.cons_append, allowed_cons, ih, and_assoc]

/-- No check of an allowed list is violated. -/
theorem allowed_mem {l : List Check} (h : Allowed l) {c : Check} (hc : c ∈ l) : c.1 = false := by
  induction l with
  | nil => exact absurd hc (by simp)
  | cons d l ih =>
    obtain ⟨h1, h2⟩ := (allowed_cons d l).1 h
    rcases List.mem_cons.1 hc with rfl | hc
    · exact h1
    · exact ih h2 hc

/-- A violated check refuses the list. -/
theorem violated {l : List Check} {c : Check} (hc : c ∈ l) (h : c.1 = true) : ∃ r, firstViolation l = some r := by
  cases hv : firstViolation l with
  | some r => exact ⟨r, rfl⟩
  | none => exact absurd (allowed_mem (l := l) hv hc) (by simp [h])

/-! ## The destination and the header -/

/-- An allowed destination in the GRF lies inside it. -/
theorem dstChecks_inGrf {s : State} {h : Header} {d : Dst} {ex : ExecTy} {p : Bool} (ha : Allowed (dstChecks s h d ex p))
    (hl : d.loc.isArf = false) (n : Nat) (hn : n < h.count) :
    0 ≤ dstAddr s h d n ∧ dstByte s h d n + d.ty.size ≤ min s.launch.grfCount 128 * 32 := by
  have key : ∃ r, (outOfGrf s d.ty.size (dstElems s h d), r) ∈ dstChecks s h d ex p := by
    unfold dstChecks
    cases hd : d.loc with
    | arf r sub => rw [hd] at hl; exact absurd hl (by simp [Loc.isArf])
    | grf num sub => exact ⟨.grfRange, by simp⟩
    | ind k imm => exact ⟨.grfRange, by simp⟩
  obtain ⟨r, key⟩ := key
  have := allowed_mem ha key
  simp only [outOfGrf, List.any_eq_false, dstElems, List.mem_map, List.mem_range] at this
  have h1 := this (dstAddr s h d n) ⟨n, hn, rfl⟩
  simp only [Bool.or_eq_true, decide_eq_true_eq, not_or, Int.not_lt] at h1
  refine ⟨h1.1, ?_⟩
  unfold dstByte
  omega

theorem dataChecks_dst {s : State} {h : Header} {cm : CondMod} {d : Dst} {srcs : List Src} {p : Bool}
    (ha : Allowed (dataChecks s h cm d srcs p)) : Allowed (dstChecks s h d (execTy (srcs.map Src.regType)) p) := by
  unfold dataChecks at ha
  simp only [allowed_append] at ha
  exact ha.1.1.2

theorem dataChecks_header {s : State} {h : Header} {cm : CondMod} {d : Dst} {srcs : List Src} {p : Bool}
    (ha : Allowed (dataChecks s h cm d srcs p)) :
    Allowed (headerChecks s h (d.ty = .df || (srcs.map Src.regType).any (· = .df))) := by
  unfold dataChecks at ha
  simp only [allowed_append] at ha
  exact ha.1.1.1.1

theorem headerChecks_nib {s : State} {h : Header} {df : Bool} (ha : Allowed (headerChecks s h df)) :
    h.nib = true → h.size = .s4 := by
  intro hn
  have := allowed_mem ha (c := (h.nib && !(h.size = .s4 && df), .nibCtrl)) (by simp [headerChecks])
  simp only [hn, Bool.true_and, Bool.not_eq_false', Bool.and_eq_true, decide_eq_true_eq] at this
  exact this.1

/-! ## The step of a data instruction -/

/-- A data instruction whose restrictions hold answers a next state that satisfies `DataPost` with the values it computes. -/
theorem dataNext_of_execute {s : State} {i : Instr} {l : List Check} {e : Effect}
    {val : Nat → DWord → Bool → QWord → QWord → Prop}
    (he : exec i s = execute s (firstViolation l) e) (ha : Allowed l) (hs : StaysIn s e.dst)
    (hg : e.dst.loc.isArf = false → ∀ n, n < e.hdr.count → dstByte s e.hdr e.dst n + e.dst.ty.size ≤ 4096)
    (hb : e.hdr.nib = true → e.hdr.size = .s4)
    (hv : ∀ n, n < e.hdr.count → e.en n = true → val n (e.out n).bits (e.out n).flag (e.out n).acc (e.out n).wide) :
    DataNext s i e.hdr e.dst e.flags e.accF e.tm0 e.en e.accEn val :=
  ⟨e.next s, _, _, _, _, he.trans (execute_next s l e ha hs), e.next_post s hg hb, hv⟩

/-- The same for an instruction with the common checks of `dataChecks`. -/
theorem dataNext_of_checks {s : State} {i : Instr} {l : List Check} {e : Effect} {cm : CondMod} {srcs : List Src} {p : Bool}
    {val : Nat → DWord → Bool → QWord → QWord → Prop}
    (he : exec i s = execute s (firstViolation l) e) (ha : Allowed l)
    (hd : Allowed (dataChecks s e.hdr cm e.dst srcs p)) (hs : StaysIn s e.dst)
    (hv : ∀ n, n < e.hdr.count → e.en n = true → val n (e.out n).bits (e.out n).flag (e.out n).acc (e.out n).wide) :
    DataNext s i e.hdr e.dst e.flags e.accF e.tm0 e.en e.accEn val :=
  dataNext_of_execute he ha hs
    (fun hl n hn => by have := (dstChecks_inGrf (dataChecks_dst hd) hl n hn).2; omega)
    (headerChecks_nib (dataChecks_header hd)) hv

/-- The same for the usual effect. -/
theorem dataStep_of_checks {s : State} {i : Instr} {l : List Check} {h : Header} {cm : CondMod} {d : Dst} {srcs : List Src}
    {p : Bool} {out : Nat → Out} {val : Nat → DWord → Bool → QWord → QWord → Prop}
    (he : exec i s = execute s (firstViolation l) (effect s h cm d srcs out)) (ha : Allowed l)
    (hd : Allowed (dataChecks s h cm d srcs p)) (hs : StaysIn s d)
    (hv : ∀ n, n < h.count → wrEn s h n = true → val n (out n).bits (out n).flag (out n).acc (out n).wide) :
    DataStep s i h cm d srcs val :=
  dataNext_of_checks (e := effect s h cm d srcs out) he ha hd hs hv

/-! ## Values -/

theorem intOutAs_value (s : State) (h : Header) (cm : CondMod) (ty : RegType) (v : Int) (n : Nat) :
    IntAs s h cm ty v n (intOutAs s h cm ty v n).bits (intOutAs s h cm ty v n).flag
      (intOutAs s h cm ty v n).acc (intOutAs s h cm ty v n).wide := by
  cases ty <;> exact ⟨rfl, rfl, rfl, rfl⟩

theorem intOut_value (s : State) (h : Header) (cm : CondMod) (ty : RegType) (width : Nat) (v : Int) (n : Nat) :
    IntValue s h cm ty width v n (intOut s h cm ty width v n).bits (intOut s h cm ty width v n).flag
      (intOut s h cm ty width v n).acc (intOut s h cm ty width v n).wide := by
  constructor
  · intro hf
    rw [show intOut s h cm ty width v n = intOutAs s h cm ty v n by simp [intOut, hf]]
    exact intOutAs_value s h cm ty v n
  · intro hf hs hc
    rw [show intOut s h cm ty width v n = intOutAs s h cm ty (chanInt width v) n by simp [intOut, hf, hs, hc]]
    exact intOutAs_value s h cm ty _ n

theorem nanPattern_isNan_F (c : Nat) : (FVal.ofBits fmtF (nanPattern fmtF c)).isNan = true ∧ nanPattern fmtF c < 2 ^ 32 := by
  unfold nanPattern
  dsimp only
  split
  · rename_i h
    exact ⟨h, Nat.mod_lt _ (by decide)⟩
  · exact ⟨by decide, by decide⟩

theorem nanPattern_isNan_DF (c : Nat) : (FVal.ofBits fmtDF (nanPattern fmtDF c)).isNan = true ∧ nanPattern fmtDF c < 2 ^ 64 := by
  unfold nanPattern
  dsimp only
  split
  · rename_i h
    exact ⟨h, Nat.mod_lt _ (by decide)⟩
  · exact ⟨by decide, by decide⟩

theorem fsat_not_nan (f : FFmt) (v : FVal) : (fsat f v).isNan = false := by
  cases v with
  | nan => rfl
  | inf neg => cases neg <;> rfl
  | fin neg m e =>
    unfold fsat
    dsimp only
    split
    · rfl
    · split <;> rfl

/-- The pattern of a value holds it, whatever NaN pattern of the format a NaN takes. -/
theorem holdsFloat_toBits {w : Nat} (f : FFmt) (v : FVal) (nanBits : Nat) (hn : (FVal.ofBits f nanBits).isNan = true)
    (hl : nanBits < 2 ^ w) : HoldsFloat f v (BitVec.ofNat w (v.toBits f nanBits)) := by
  unfold HoldsFloat
  cases v with
  | nan =>
    rw [if_pos (show FVal.nan.isNan = true from rfl)]
    show (FVal.ofBits f (BitVec.ofNat w nanBits).toNat).isNan = true
    rw [BitVec.toNat_ofNat, Nat.mod_eq_of_lt hl]
    exact hn
  | inf neg => rw [if_neg (by simp [FVal.isNan])]; rfl
  | fin neg m e => rw [if_neg (by simp [FVal.isNan])]; rfl

theorem fResult_value (s : State) (h : Header) (cm : CondMod) (inputs : List FVal) (r : FRes) (n : Nat) :
    FloatValue s h cm inputs r (fResult s h cm .f inputs r n).bits (fResult s h cm .f inputs r n).flag
      (fResult s h cm .f inputs r n).acc (fResult s h cm .f inputs r n).wide := by
  intro hu
  unfold fResult
  simp only [hu, Bool.false_eq_true, if_false]
  have hn := nanPattern_isNan_F (Config.free s.draw (.nan n)).toNat
  exact ⟨holdsFloat_toBits fmtF _ _ hn.1 hn.2, rfl, rfl, rfl⟩

theorem dfOut_value (s : State) (h : Header) (cm : CondMod) (r : FRes) (n : Nat) :
    DFValue s h cm r n (dfOut s h cm .df r n).bits (dfOut s h cm .df r n).flag (dfOut s h cm .df r n).acc
      (dfOut s h cm .df r n).wide := by
  have hn := nanPattern_isNan_DF (Config.free s.draw (.nan (2 * (n / 2)))).toNat
  exact ⟨holdsFloat_toBits fmtDF _ _ hn.1 hn.2, rfl, rfl, rfl⟩

/-! ## The walk over the program text -/

/-- What the walk finds is an `else` or an `endif` that the launch supplied (42 R642 to R645). -/
theorem walkBlock_end (s : State) (e q : DWord) (fuel depth : Nat) (a : DWord)
    (h : s.walkBlock fuel depth a = some (e, q)) :
    s.headAt e = some q ∧ (headOpcode q = 0x24#8 ∨ headOpcode q = 0x25#8) := by
  induction fuel generalizing depth a with
  | zero => simp [State.walkBlock] at h
  | succ fuel ih =>
    unfold State.walkBlock at h
    cases hq : s.headAt a with
    | none => simp [hq] at h
    | some p =>
      simp only [hq] at h
      split at h
      · exact ih _ _ h
      · split at h
        · next hp =>
          obtain ⟨rfl, rfl⟩ := Prod.mk.inj (Option.some.inj h)
          exact ⟨hq, by simpa using (Bool.and_eq_true_iff.1 hp).2⟩
        · split at h <;> exact ih _ _ h

/-- A block that ends in the text has its end at an `else` or an `endif`. -/
theorem blockEnd_end (s : State) (a e q : DWord) (h : s.blockEnd a = some (e, q)) :
    s.headAt e = some q ∧ (headOpcode q = 0x24#8 ∨ headOpcode q = 0x25#8) := walkBlock_end s e q _ _ a h

/-- An `if` that meets its restrictions has its end in the text. -/
theorem blockChecks_end {s : State} {b : Branch2} (h : Allowed (blockChecks s b)) : ∃ p, s.blockEnd s.nextIP = some p := by
  unfold blockChecks at h
  cases hb : s.blockEnd s.nextIP with
  | some p => exact ⟨p, rfl⟩
  | none =>
    rw [hb] at h
    exact absurd ((allowed_cons _ _).1 h).1 (by simp)

/-- The walk to the end of a loop finds the `while` of a loop around the instruction (42 R647). -/
theorem walkLoop_end (s : State) (i e q : DWord) (fuel : Nat) (a : DWord) (h : s.walkLoop i fuel a = some (e, q)) :
    s.headAt e = some q ∧ headOpcode q = 0x27#8 ∧ s.closesLoop i e = true := by
  induction fuel generalizing a with
  | zero => simp [State.walkLoop] at h
  | succ fuel ih =>
    unfold State.walkLoop at h
    cases hq : s.headAt a with
    | none => simp [hq] at h
    | some p =>
      simp only [hq] at h
      split at h
      · next hp =>
        obtain ⟨rfl, rfl⟩ := Prod.mk.inj (Option.some.inj h)
        exact ⟨hq, by simpa using hp⟩
      · exact ih _ h

end Sys2Proof.Machine
end

