-- ==== Sys2Proof/Laws/Memory.lean ====
section
/-! SUPPORT. The laws of instruction memory: read after write, other addresses, and the canonical form that every memory operation keeps (spec/20_memory.md R203; notes/assumptions/6.md). -/

namespace Sys2Proof.Machine

/-! ## The canonical form -/

/-- The canonical form says that every later address is above the first. -/
theorem Memory.wf_cons {k : Nat} {c : Byte} {m : List Host.Cell} (h : Memory.wf ((k, c) :: m) = true) :
    Memory.wf m = true ∧ ∀ p ∈ m, k < p.1 := by
  induction m generalizing k c with
  | nil => exact ⟨rfl, fun p hp => absurd hp (by simp)⟩
  | cons p m ih =>
    obtain ⟨j, d⟩ := p
    simp only [Memory.wf, Bool.and_eq_true, decide_eq_true_eq] at h
    refine ⟨h.2, fun q hq => ?_⟩
    rcases List.mem_cons.mp hq with rfl | hq
    · exact h.1
    · exact Nat.lt_trans h.1 ((ih h.2).2 q hq)

theorem Memory.wf_of_cons {k : Nat} {c : Byte} {m : List Host.Cell} (h : Memory.wf m = true) (hk : ∀ p ∈ m, k < p.1) :
    Memory.wf ((k, c) :: m) = true := by
  cases m with
  | nil => rfl
  | cons p m =>
    obtain ⟨j, d⟩ := p
    simp only [Memory.wf, Bool.and_eq_true, decide_eq_true_eq]
    exact ⟨hk (j, d) List.mem_cons_self, h⟩

/-- The addresses after a write: those before and the one written. -/
theorem Memory.mem_write {m : List Host.Cell} {a : Nat} {b : Byte} {p : Host.Cell} (h : p ∈ Memory.write m a b) :
    p ∈ m ∨ p.1 = a := by
  induction m with
  | nil =>
    rcases List.mem_cons.mp h with rfl | h
    · exact .inr rfl
    · exact absurd h (by simp)
  | cons q m ih =>
    obtain ⟨k, c⟩ := q
    simp only [Memory.write] at h
    split at h
    · rcases List.mem_cons.mp h with rfl | h
      · exact .inr rfl
      · exact .inl h
    · split at h
      · rcases List.mem_cons.mp h with rfl | h
        · exact .inr rfl
        · exact .inl (List.mem_cons_of_mem _ h)
      · rcases List.mem_cons.mp h with rfl | h
        · exact .inl List.mem_cons_self
        · rcases ih h with h | h
          · exact .inl (List.mem_cons_of_mem _ h)
          · exact .inr h

/-- A write keeps the canonical form. -/
theorem Memory.wf_write {m : List Host.Cell} (a : Nat) (b : Byte) (h : Memory.wf m = true) :
    Memory.wf (Memory.write m a b) = true := by
  induction m with
  | nil => rfl
  | cons q m ih =>
    obtain ⟨k, c⟩ := q
    have ht := Memory.wf_cons h
    simp only [Memory.write]
    split
    · next hlt =>
      refine Memory.wf_of_cons h fun p hp => ?_
      rcases List.mem_cons.mp hp with rfl | hp
      · exact hlt
      · exact Nat.lt_trans hlt (ht.2 p hp)
    · split
      · next heq => exact Memory.wf_of_cons ht.1 fun p hp => by rw [heq]; exact ht.2 p hp
      · next hn1 hn2 =>
        refine Memory.wf_of_cons (ih ht.1) fun p hp => ?_
        rcases Memory.mem_write hp with hp | hp
        · exact ht.2 p hp
        · omega

theorem Memory.wf_writeBytes {m : List Host.Cell} (a : Nat) (bs : List Byte) (h : Memory.wf m = true) :
    Memory.wf (Memory.writeBytes m a bs) = true := by
  induction bs generalizing m a with
  | nil => exact h
  | cons b bs ih => exact ih _ (Memory.wf_write _ _ h)

theorem Memory.wf_withFetchWord (s : State) (nbits w : Nat) (h : Memory.wf s.imem = true) :
    Memory.wf (s.withFetchWord nbits w).imem = true := by
  simp only [State.withFetchWord]
  exact Memory.wf_writeBytes _ _ h

theorem Memory.wf_reset : Memory.wf State.reset.imem = true := rfl

/-! ## Reading -/

/-- An address below the first is not listed. -/
theorem Memory.read_of_lt {m : List Host.Cell} {a : Nat} (h : ∀ p ∈ m, a < p.1) : Memory.read m a = none := by
  induction m with
  | nil => rfl
  | cons q m ih =>
    obtain ⟨k, c⟩ := q
    have h1 : a < k := h (k, c) List.mem_cons_self
    simp only [Memory.read, show a ≠ k by omega, if_false]
    exact ih fun p hp => h p (List.mem_cons_of_mem _ hp)

/-- The byte written, and every other byte as before. -/
theorem Memory.read_write {m : List Host.Cell} (a c : Nat) (b : Byte) :
    Memory.read (Memory.write m a b) c = if c = a then some b else Memory.read m c := by
  induction m with
  | nil => simp [Memory.write, Memory.read]
  | cons q m ih =>
    obtain ⟨k, d⟩ := q
    simp only [Memory.write]
    split
    · rfl
    · split
      · next heq =>
        subst heq
        simp only [Memory.read]
        split <;> rfl
      · next h1 h2 =>
        simp only [Memory.read, ih]
        by_cases hck : c = k
        · have : c ≠ a := by omega
          simp [hck, show k ≠ a by omega]
        · simp [hck]

end Sys2Proof.Machine
end

