-- ==== Sys2Proof/Laws/PerInstr.lean ====
section
/-! SUPPORT. What every instruction's native word has, constructor by constructor: its opcode in bits 7:0, and CmptCtrl (bit 29) clear (spec/30_encoding.md R253, R254, R300). -/

namespace Sys2Proof.Laws

/-- The lowest 32 bits of a native word laid out from four parts. -/
theorem low_of_append {n : Nat} (x : BitVec n) (y : BitVec 32) (w : Nat) (hw : w ≤ 32) :
    (x ++ y).extractLsb' 0 w = y.extractLsb' 0 w := by
  ext i hi
  simp only [BitVec.getElem_extractLsb', Nat.zero_add, BitVec.getLsbD_append]
  simp [show i < 32 by omega]

theorem bit_of_append {n : Nat} (x : BitVec n) (y : BitVec 32) (i : Nat) (hi : i < 32) :
    (x ++ y).getLsbD i = y.getLsbD i := by
  simp [BitVec.getLsbD_append, hi]

/-- The last field of a word. -/
theorem last_of_append {n : Nat} (x : BitVec n) (y : BitVec 8) : (x ++ y).extractLsb' 0 8 = y := by
  ext i hi
  simp only [BitVec.getElem_extractLsb', Nat.zero_add, BitVec.getLsbD_append, hi, if_true]
  exact BitVec.getLsbD_eq_getElem hi

/-- A bit above the last field. -/
theorem bit_above {n m : Nat} (x : BitVec n) (y : BitVec m) (i : Nat) (hi : m ≤ i) :
    (x ++ y).getLsbD i = x.getLsbD (i - m) := by
  simp [BitVec.getLsbD_append, show ¬ i < m by omega]

/-- The first DWord of every format but the bare one. -/
theorem encodeDW0_head (h : Header) (c : BitVec 4) (op : BitVec 8) :
    (encodeDW0 h c op).extractLsb' 0 8 = op ∧ (encodeDW0 h c op).getLsbD 29 = false := by
  refine ⟨last_of_append _ op, ?_⟩
  unfold encodeDW0
  repeat rw [bit_above _ _ _ (by decide)]
  cases h.sat <;> cases h.debug <;> rfl

/-- A word that ends in such a DWord. -/
theorem append_head {n : Nat} (x : BitVec n) (h : Header) (c : BitVec 4) (op : BitVec 8) :
    (x ++ encodeDW0 h c op).extractLsb' 0 8 = op ∧ (x ++ encodeDW0 h c op).getLsbD 29 = false := by
  rw [low_of_append _ _ _ (by decide), bit_of_append _ _ _ (by decide)]
  exact encodeDW0_head h c op

theorem encodeForm_head (op : BitVec 8) (f : Form) :
    (encodeForm op f).extractLsb' 0 8 = op ∧ (encodeForm op f).getLsbD 29 = false := by
  cases f with
  | bare d =>
    have hl : (encodeBare op d).extractLsb' 0 8 = op := by
      unfold encodeBare
      rw [low_of_append _ _ _ (by decide)]
      exact last_of_append _ op
    have hb : (encodeBare op d).getLsbD 29 = false := by
      unfold encodeBare
      rw [bit_of_append _ _ _ (by decide), bit_above _ _ _ (by decide)]
      cases d <;> rfl
    exact ⟨hl, hb⟩
  | basic1 b =>
    simp only [encodeForm, encodeBasic1]
    split <;> exact append_head _ _ _ _
  | basic2 b => exact append_head _ _ _ _
  | tri t => exact append_head _ _ _ _
  | branch1 b => exact append_head _ _ _ _
  | branch2 b => exact append_head _ _ _ _
  | call c => exact append_head _ _ _ _
  | send m =>
    simp only [encodeForm, encodeSend]
    split <;> exact append_head _ _ _ _
  | math m => exact append_head _ _ _ _

/-- The native word has the opcode of its row of the table in bits 7:0, and CmptCtrl is 0. -/
def EncodedOpcode.Statement (i : Instr) : Prop :=
  (encodeWord i).extractLsb' 0 8 = i.opcode ∧ (encodeWord i).getLsbD 29 = false

theorem EncodedOpcode.illegal : EncodedOpcode.Statement .illegal := encodeForm_head _ _
theorem EncodedOpcode.mov (b : Basic1) : EncodedOpcode.Statement (.mov b) := encodeForm_head _ _
theorem EncodedOpcode.sel (b : Basic2) : EncodedOpcode.Statement (.sel b) := encodeForm_head _ _
theorem EncodedOpcode.movi (b : Basic1) : EncodedOpcode.Statement (.movi b) := encodeForm_head _ _
theorem EncodedOpcode.not_ (b : Basic1) : EncodedOpcode.Statement (.not_ b) := encodeForm_head _ _
theorem EncodedOpcode.and_ (b : Basic2) : EncodedOpcode.Statement (.and_ b) := encodeForm_head _ _
theorem EncodedOpcode.or_ (b : Basic2) : EncodedOpcode.Statement (.or_ b) := encodeForm_head _ _
theorem EncodedOpcode.xor_ (b : Basic2) : EncodedOpcode.Statement (.xor_ b) := encodeForm_head _ _
theorem EncodedOpcode.shr (b : Basic2) : EncodedOpcode.Statement (.shr b) := encodeForm_head _ _
theorem EncodedOpcode.shl (b : Basic2) : EncodedOpcode.Statement (.shl b) := encodeForm_head _ _
theorem EncodedOpcode.asr (b : Basic2) : EncodedOpcode.Statement (.asr b) := encodeForm_head _ _
theorem EncodedOpcode.cmp (b : Basic2) : EncodedOpcode.Statement (.cmp b) := encodeForm_head _ _
theorem EncodedOpcode.cmpn (b : Basic2) : EncodedOpcode.Statement (.cmpn b) := encodeForm_head _ _
theorem EncodedOpcode.f32to16 (b : Basic1) : EncodedOpcode.Statement (.f32to16 b) := encodeForm_head _ _
theorem EncodedOpcode.f16to32 (b : Basic1) : EncodedOpcode.Statement (.f16to32 b) := encodeForm_head _ _
theorem EncodedOpcode.bfrev (b : Basic1) : EncodedOpcode.Statement (.bfrev b) := encodeForm_head _ _
theorem EncodedOpcode.bfe (t : Tri) : EncodedOpcode.Statement (.bfe t) := encodeForm_head _ _
theorem EncodedOpcode.bfi1 (b : Basic2) : EncodedOpcode.Statement (.bfi1 b) := encodeForm_head _ _
theorem EncodedOpcode.bfi2 (t : Tri) : EncodedOpcode.Statement (.bfi2 t) := encodeForm_head _ _
theorem EncodedOpcode.jmpi (b : Basic2) : EncodedOpcode.Statement (.jmpi b) := encodeForm_head _ _
theorem EncodedOpcode.brd (b : Branch1) : EncodedOpcode.Statement (.brd b) := encodeForm_head _ _
theorem EncodedOpcode.if_ (b : Branch2) : EncodedOpcode.Statement (.if_ b) := encodeForm_head _ _
theorem EncodedOpcode.brc (b : Branch2) : EncodedOpcode.Statement (.brc b) := encodeForm_head _ _
theorem EncodedOpcode.else_ (b : Branch1) : EncodedOpcode.Statement (.else_ b) := encodeForm_head _ _
theorem EncodedOpcode.endif (b : Branch1) : EncodedOpcode.Statement (.endif b) := encodeForm_head _ _
theorem EncodedOpcode.case_ (b : Branch2) : EncodedOpcode.Statement (.case_ b) := encodeForm_head _ _
theorem EncodedOpcode.while_ (b : Branch1) : EncodedOpcode.Statement (.while_ b) := encodeForm_head _ _
theorem EncodedOpcode.break_ (b : Branch2) : EncodedOpcode.Statement (.break_ b) := encodeForm_head _ _
theorem EncodedOpcode.cont (b : Branch2) : EncodedOpcode.Statement (.cont b) := encodeForm_head _ _
theorem EncodedOpcode.halt (b : Branch2) : EncodedOpcode.Statement (.halt b) := encodeForm_head _ _
theorem EncodedOpcode.call (c : Call) : EncodedOpcode.Statement (.call c) := encodeForm_head _ _
theorem EncodedOpcode.ret (b : Basic1) : EncodedOpcode.Statement (.ret b) := encodeForm_head _ _
theorem EncodedOpcode.wait (b : Basic1) : EncodedOpcode.Statement (.wait b) := encodeForm_head _ _
theorem EncodedOpcode.send (m : Send) : EncodedOpcode.Statement (.send m) := encodeForm_head _ _
theorem EncodedOpcode.sendc (m : Send) : EncodedOpcode.Statement (.sendc m) := encodeForm_head _ _
theorem EncodedOpcode.math (m : Math) : EncodedOpcode.Statement (.math m) := encodeForm_head _ _
theorem EncodedOpcode.add (b : Basic2) : EncodedOpcode.Statement (.add b) := encodeForm_head _ _
theorem EncodedOpcode.mul (b : Basic2) : EncodedOpcode.Statement (.mul b) := encodeForm_head _ _
theorem EncodedOpcode.avg (b : Basic2) : EncodedOpcode.Statement (.avg b) := encodeForm_head _ _
theorem EncodedOpcode.frc (b : Basic1) : EncodedOpcode.Statement (.frc b) := encodeForm_head _ _
theorem EncodedOpcode.rndu (b : Basic1) : EncodedOpcode.Statement (.rndu b) := encodeForm_head _ _
theorem EncodedOpcode.rndd (b : Basic1) : EncodedOpcode.Statement (.rndd b) := encodeForm_head _ _
theorem EncodedOpcode.rnde (b : Basic1) : EncodedOpcode.Statement (.rnde b) := encodeForm_head _ _
theorem EncodedOpcode.rndz (b : Basic1) : EncodedOpcode.Statement (.rndz b) := encodeForm_head _ _
theorem EncodedOpcode.mac (b : Basic2) : EncodedOpcode.Statement (.mac b) := encodeForm_head _ _
theorem EncodedOpcode.mach (b : Basic2) : EncodedOpcode.Statement (.mach b) := encodeForm_head _ _
theorem EncodedOpcode.lzd (b : Basic1) : EncodedOpcode.Statement (.lzd b) := encodeForm_head _ _
theorem EncodedOpcode.fbh (b : Basic1) : EncodedOpcode.Statement (.fbh b) := encodeForm_head _ _
theorem EncodedOpcode.fbl (b : Basic1) : EncodedOpcode.Statement (.fbl b) := encodeForm_head _ _
theorem EncodedOpcode.cbit (b : Basic1) : EncodedOpcode.Statement (.cbit b) := encodeForm_head _ _
theorem EncodedOpcode.addc (b : Basic2) : EncodedOpcode.Statement (.addc b) := encodeForm_head _ _
theorem EncodedOpcode.subb (b : Basic2) : EncodedOpcode.Statement (.subb b) := encodeForm_head _ _
theorem EncodedOpcode.sad2 (b : Basic2) : EncodedOpcode.Statement (.sad2 b) := encodeForm_head _ _
theorem EncodedOpcode.sada2 (b : Basic2) : EncodedOpcode.Statement (.sada2 b) := encodeForm_head _ _
theorem EncodedOpcode.dp4 (b : Basic2) : EncodedOpcode.Statement (.dp4 b) := encodeForm_head _ _
theorem EncodedOpcode.dph (b : Basic2) : EncodedOpcode.Statement (.dph b) := encodeForm_head _ _
theorem EncodedOpcode.dp3 (b : Basic2) : EncodedOpcode.Statement (.dp3 b) := encodeForm_head _ _
theorem EncodedOpcode.dp2 (b : Basic2) : EncodedOpcode.Statement (.dp2 b) := encodeForm_head _ _
theorem EncodedOpcode.line (b : Basic2) : EncodedOpcode.Statement (.line b) := encodeForm_head _ _
theorem EncodedOpcode.pln (b : Basic2) : EncodedOpcode.Statement (.pln b) := encodeForm_head _ _
theorem EncodedOpcode.mad (t : Tri) : EncodedOpcode.Statement (.mad t) := encodeForm_head _ _
theorem EncodedOpcode.lrp (t : Tri) : EncodedOpcode.Statement (.lrp t) := encodeForm_head _ _
theorem EncodedOpcode.nop (debug : Bool) : EncodedOpcode.Statement (.nop debug) := encodeForm_head _ _

end Sys2Proof.Laws
end

