-- ==== Sys2Proof/Tests/Slice0.lean ====
section
/-! SUPPORT. Tests: ill-formed terms that the checks refuse, words written out from spec/30_encoding.md, single steps whose results are those of spec/95_test_vectors.md (named in each comment), and for every statement with hypotheses a state and operands that meet them. -/

namespace Sys2Proof.Tests

open Sys2Proof.Machine

set_option Elab.async false

/-! ## Terms -/

def hd (sz : ExecSize) : Header := {
  access := .align1, noMask := false, noDDClr := false, noDDChk := false, qtr := 0, nib := false, thread := .normal,
  pred := .none, predInv := false, size := sz, accWr := false, debug := false, sat := false, flagReg := false,
  flagSub := false }

def hd16 : Header := { hd .s8 with access := .align16 }
def hdSat : Header := { hd .s8 with sat := true }
def hdPred : Header := { hd .s8 with pred := .seq }
def hdSwitch : Header := { hd .s1 with thread := .switch, noMask := true }

def rg (n : BitVec 7) (ty : RegType) (m : SrcMod := .none) : RegSrc :=
  { loc := .grf n 0, ty := ty, mod := m, region := .a1 .v8 .w8 .h1 }

def scalar (n : BitVec 7) (ty : RegType) : RegSrc := { loc := .grf n 0, ty := ty, mod := .none, region := .a1 .v0 .w1 .h0 }

def arfSrc (r : Arf) (sub : BitVec 5) : RegSrc := { loc := .arf r sub, ty := .ud, mod := .none, region := .a1 .v0 .w1 .h0 }

def dg (n : BitVec 7) (ty : RegType) (hz : HorzStride := .h1) : Dst := { loc := .grf n 0, ty := ty, region := .a1 hz }

def nullDst (ty : RegType) : Dst := { loc := .arf .null 0, ty := ty, region := .a1 .h1 }

/-- A two-source instruction's operands: r10, r2, r3. -/
def b2 (ty : RegType) (h : Header := hd .s8) (cm : CondMod := .none) : Basic2 :=
  { hdr := h, cmod := cm, dst := dg 10 ty, src0 := rg 2 ty, src1 := .reg (rg 3 ty) }

/-- A one-source instruction's operands: r10, r2. -/
def b1 (dty sty : RegType) (h : Header := hd .s8) : Basic1 :=
  { hdr := h, cmod := .none, dst := dg 10 dty, src0 := .reg (rg 2 sty) }

def triSrc (n : BitVec 7) : TriSrc := { num := n, sub := 0, chanSel := 0xE4, rep := false, mod := .none }

/-- A three-source instruction's operands: r10, r2, r3, r4. -/
def tri (ty : TriType) (h : Header := hd16) : Tri :=
  { hdr := h, cmod := .none, dstTy := ty, srcTy := ty, dstNum := 10, dstSub := 0, chanEn := 15,
    src0 := triSrc 2, src1 := triSrc 3, src2 := triSrc 4 }

def br1 (h : Header) (jip : BitVec 16) : Branch1 := { hdr := h, offFile := .imm, offTy := 3, jip := jip }
def br2 (h : Header) (jip uip : BitVec 16) : Branch2 := { hdr := h, offFile := .imm, offTy := 3, jip := jip, uip := uip }

def mathOf (fc : BitVec 4) (ty : RegType) (unary : Bool) : Math :=
  { hdr := hd .s8, fc := fc, dst := dg 10 ty, src0 := rg 2 ty,
    src1 := .reg (if unary then { loc := .arf .null 0, ty := ty, mod := .none, region := .a1 .v0 .w1 .h0 } else rg 3 ty) }

def jmp (k : DWord) : Basic2 :=
  { hdr := { hd .s1 with noMask := true }, cmod := .none, dst := { loc := .arf .ip 0, ty := .ud, region := .a1 .h1 },
    src0 := arfSrc .ip 0, src1 := .imm .d k }

def callI (h : Header) : Call := { hdr := h, dst := dg 1 .d, offFile := .imm, offTy := 1, jip := 6 }

def retI (h : Header) : Basic1 :=
  { hdr := h, cmod := .none, dst := nullDst .d,
    src0 := .reg { loc := .grf 1 0, ty := .d, mod := .none, region := .a1 .v2 .w2 .h1 } }

def waitI (sub : BitVec 5) : Basic1 :=
  { hdr := hd .s1, cmod := .none, dst := { loc := .arf .n0 sub, ty := .ud, region := .a1 .h1 }, src0 := .reg (arfSrc .n0 sub) }

def sendI (dst : Dst) (desc : BitVec 31) (eot : Bool) : Send :=
  { hdr := hd .s8, sfid := 7, dst := dst, src0 := rg 112 .ud, desc := .imm desc, eot := eot }

/-! ## States -/

/-- After dispatch with eight channels and every exception disabled; the instruction at 0 is native. -/
def base : State := { State.reset with sr02 := 0xFF, cr01 := 0, nextIP := 16 }

/-- With values in acc0, in the format that they have. -/
def withAcc (a : Acc0) : State := { base with acc := { base.acc with acc0 := a } }

/-- All channels and IP at an address. -/
def atIP (s : State) (a : DWord) : State := { s with ip := a, nextIP := a + 16, pcIP := Vector.replicate 32 a }

/-- Native instructions in memory from an address on. -/
def textAt (s : State) (a : Nat) (l : List Instr) : State :=
  { s with imem := l.zipIdx.foldl (fun m p => Memory.writeBytes m (a + 16 * p.2) (leBytes 16 (encodeWord p.1).toNat)) s.imem }

/-- Instructions after the one at IP 0. -/
def followed (l : List Instr) : State := textAt base 16 l

/-- The body and the `endif` of a block whose JIP is 6. -/
def block6 : List Instr := [.nop false, .nop false, .endif (br1 (hd .s8) 2)]

/-- DWords from the start of a register on. -/
def setDs (s : State) (r : Nat) (l : List Nat) : State :=
  { s with grf := setGrfBytes s.grf (l.zipIdx.flatMap fun p => (List.range 4).map fun i =>
      (32 * r + 4 * p.2 + i, BitVec.ofNat 8 (p.1 / 256 ^ i))) }

def getDs (s : State) (r n : Nat) : List Nat := (List.range n).map fun j => (grfElem s.grf (32 * r + 4 * j) 4).toNat

/-- A view of the next state. -/
def after {α : Type} (o : Host.Outcome State Fault Refusal) (f : State → α) : Option α :=
  match o with
  | .next s => some (f s)
  | _ => none

def isNext (o : Host.Outcome State Fault Refusal) : Bool := (after o fun _ => ()).isSome

theorem exists_next {o : Host.Outcome State Fault Refusal} (h : isNext o = true) : ∃ t, o = .next t := by
  cases o with
  | next t => exact ⟨t, rfl⟩
  | fault r => exact absurd h (by simp [isNext, after])
  | refused r => exact absurd h (by simp [isNext, after])

/-- A next state with a property, from one evaluation. -/
theorem next_with {o : Host.Outcome State Fault Refusal} {p : State → Bool} (h : after o p = some true) :
    ∃ t, o = .next t ∧ p t = true := by
  cases o with
  | next t => exact ⟨t, rfl, by simpa [after] using h⟩
  | fault r => exact absurd h (by simp [after])
  | refused r => exact absurd h (by simp [after])

/-- The first DWords of r10 after a two-source instruction on r2 and r3. -/
def two (i : Instr) (a b : List Nat) (n : Nat) : Option (List Nat) :=
  after (exec i (setDs (setDs base 2 a) 3 b)) (getDs · 10 n)

/-- The first DWords of r10 after a one-source instruction on r2. -/
def one (i : Instr) (a : List Nat) (n : Nat) : Option (List Nat) := after (exec i (setDs base 2 a)) (getDs · 10 n)

/-- The first DWord of r10 after a three-source instruction on r2, r3 and r4. -/
def three (i : Instr) (a b c : Nat) : Option (List Nat) :=
  after (exec i (setDs (setDs (setDs base 2 [a]) 3 [b]) 4 [c])) (getDs · 10 1)

/-- IP, and the IP of channels 0, 4 and 8. -/
def ips (s : State) : List Nat := [s.ip.toNat, s.pcIP[0].toNat, s.pcIP[4].toNat, s.pcIP[8].toNat]

/-- The state with the native words in memory from IP on. -/
def placed (s : State) (w : Nat) : State := s.withFetchWord 128 w

/-! ## WellFormed: each check refuses an ill-formed term -/

theorem test_wf_predicate : (Instr.add (b2 .f { hd .s8 with pred := .replX })).wf = false := by decide
theorem test_wf_predicate_align16 : (Instr.mad (tri .f { hd16 with pred := .anyv })).wf = false := by decide
theorem test_wf_dst_subregister :
    (Instr.mov { b1 .f .f with hdr := hd16, dst := { loc := .grf 3 4, ty := .f, region := .a16 15 } }).wf = false := by decide
theorem test_wf_dst_region : (Instr.mov { b1 .f .f with dst := { loc := .grf 3 0, ty := .f, region := .a16 15 } }).wf = false := by
  decide
theorem test_wf_src_region : (Instr.mov { b1 .f .f with src0 := .reg { rg 2 .f with region := .a16 .v4 0xE4 } }).wf = false := by
  decide
theorem test_wf_indirect_offset :
    (Instr.send { sendI (nullDst .ud) 0x02000000 false with
      hdr := hd16, dst := { loc := .arf .null 0, ty := .ud, region := .a16 15 },
      src0 := { loc := .ind 0 8, ty := .ud, mod := .none, region := .a16 .v4 0xE4 } }).wf = false := by decide
theorem test_wf_vx_direct : (Instr.mov { b1 .f .f with src0 := .reg { rg 2 .f with region := .a1 .vx .w1 .h0 } }).wf = false := by
  decide
theorem test_wf_vx_src1 :
    (Instr.add { b2 .f with src1 := .reg { loc := .ind 0 0, ty := .f, mod := .none, region := .a1 .vx .w1 .h0 } }).wf = false := by
  decide
theorem test_wf_jmpi_condition : (Instr.jmpi { jmp 4 with cmod := .z }).wf = false := by decide
theorem test_wf_ret_condition : (Instr.ret { retI (hd .s2) with cmod := .z }).wf = false := by decide
theorem test_wf_accepts : (Instr.add (b2 .f)).wf = true ∧ (Instr.mad (tri .f)).wf = true ∧ (Instr.jmpi (jmp 4)).wf = true := by
  decide

/-! ## Decoding: words of spec/95_test_vectors.md E1 to E26, and their layouts with every other opcode (30 R300) -/

/-- E1 with the opcodes of the one-source format: `op (8) r10.0<1>:ud r2.0<8;8,1>:ud`. -/
theorem test_decode_one_source :
    ([(0x01, Instr.mov), (0x03, .movi), (0x04, .not_), (0x13, .f32to16), (0x14, .f16to32), (0x17, .bfrev), (0x2D, .ret),
      (0x30, .wait), (0x43, .frc), (0x44, .rndu), (0x45, .rndd), (0x46, .rnde), (0x47, .rndz), (0x4A, .lzd), (0x4B, .fbh),
      (0x4C, .fbl), (0x4D, .cbit)] : List (Nat × (Basic1 → Instr))).all
      (fun p => decodeTableWord 128 (0x00000000_008D0040_21400021_00600000 + p.1) = some (p.2 (b1 .ud .ud))) = true := by
  decide +kernel

/-- E3 without its predicate, with the opcodes of the two-source format: `op (8) r10.0<1>:f r2.0<8;8,1>:f r3.0<8;8,1>:f`. -/
theorem test_decode_two_source :
    ([(0x02, Instr.sel), (0x05, .and_), (0x06, .or_), (0x07, .xor_), (0x08, .shr), (0x09, .shl), (0x0C, .asr), (0x10, .cmp),
      (0x11, .cmpn), (0x19, .bfi1), (0x20, .jmpi), (0x40, .add), (0x41, .mul), (0x42, .avg), (0x48, .mac), (0x49, .mach),
      (0x4E, .addc), (0x4F, .subb), (0x50, .sad2), (0x51, .sada2), (0x54, .dp4), (0x55, .dph), (0x56, .dp3), (0x57, .dp2),
      (0x59, .line), (0x5A, .pln)] : List (Nat × (Basic2 → Instr))).all
      (fun p => decodeTableWord 128 (0x008D0060_008D0040_214077BD_00600000 + p.1) = some (p.2 (b2 .f))) = true := by
  decide +kernel

/-- E10 and E11: the three-source format. -/
theorem test_decode_three_source :
    decodeTableWord 128 0x01072006_390021C8_0A1E0000_0060015B = some (.mad (tri .f)) ∧
    decodeTableWord 128 0x01072006_390021C8_0A1E0000_0060015C = some (.lrp (tri .f)) ∧
    decodeTableWord 128 0x01072006_390021C8_0A1E2800_00600118 = some (.bfe (tri .ud)) ∧
    decodeTableWord 128 0x01072006_390021C8_0A1E2800_0060011A = some (.bfi2 (tri .ud)) := by decide +kernel

/-- E13 with the opcodes of the branch format with two offsets. -/
theorem test_decode_two_offsets :
    ([(0x22, Instr.if_), (0x23, .brc), (0x26, .case_), (0x28, .break_), (0x29, .cont), (0x2A, .halt)] :
      List (Nat × (Branch2 → Instr))).all
      (fun p => decodeTableWord 128 (0x00080006_00000000_20003C84_00610000 + p.1) = some (p.2 (br2 hdPred 6 8))) = true := by
  decide +kernel

/-- E14 to E16, E18: one offset. -/
theorem test_decode_one_offset :
    decodeTableWord 128 0x00000004_00000000_20003C84_00600024 = some (.else_ (br1 (hd .s8) 4)) ∧
    decodeTableWord 128 0x00000002_00000000_20003C84_00600025 = some (.endif (br1 (hd .s8) 2)) ∧
    decodeTableWord 128 0x0000FFFC_00000000_20003C84_00610027 = some (.while_ (br1 hdPred 0xFFFC)) ∧
    decodeTableWord 128 0x0000FFE0_00000000_20003C84_00618021 =
      some (.brd (br1 { hdPred with thread := .switch } 0xFFE0)) ∧
    decodeTableWord 128 0x00000006_00000000_20201C85_0020022C = some (.call (callI { hd .s2 with noMask := true })) := by
  decide +kernel

/-- E8, E9, E21, E23, E24: math, send, the bare formats; an unassigned opcode is `illegal` (30 R254). -/
theorem test_decode_other :
    decodeTableWord 128 0x008D0060_008D0040_214014A5_0B600038 = some (.math (mathOf 0xB .d false)) ∧
    decodeTableWord 128 0x82000000_008D0E00_20000C20_07600031 = some (.send (sendI (nullDst .ud) 0x02000000 true)) ∧
    decodeTableWord 128 0x82000000_008D0E00_20000C20_07600032 = some (.sendc (sendI (nullDst .ud) 0x02000000 true)) ∧
    decodeTableWord 128 0x0080007E = some (.nop false) ∧ decodeTableWord 128 0x4000007E = some (.nop true) ∧
    decodeTableWord 128 0 = some .illegal ∧ decodeTableWord 128 0x0A = some .illegal := by decide +kernel

/-- E2, E4, E7, E17, E19, E20, E26: immediates, `.sat`, conditions, architecture registers, AccWrEn. -/
theorem test_decode_fields :
    decodeTableWord 128 0x3F800000_008D0040_20807FBD_00800040 =
      some (.add { hdr := hd .s16, cmod := .none, dst := dg 4 .f, src0 := rg 2 .f, src1 := .imm .f 0x3F800000 }) ∧
    decodeTableWord 128 0x008D0060_008D0040_21404631_80600040 = some (.add (b2 .ub hdSat)) ∧
    decodeTableWord 128 0x00000004_008D0040_20001CA4_05608010 =
      some (.cmp { hdr := { hd .s8 with thread := .switch }, cmod := .l, dst := nullDst .d, src0 := rg 2 .d, src1 := .imm .d 4 }) ∧
    decodeTableWord 128 0x00000004_00001400_34001C00_00000220 = some (.jmpi (jmp 4)) ∧
    decodeTableWord 128 0x00000000_00450020_200010A4_0020022D = some (.ret (retI { hd .s2 with noMask := true })) ∧
    decodeTableWord 128 0x00000000_00001204_32040000_00000030 = some (.wait (waitI 4)) ∧
    decodeTableWord 128 0x008D0060_008D0040_20800421_10600049 =
      some (.mach { b2 .ud { hd .s8 with accWr := true } with dst := dg 4 .ud }) := by decide +kernel

/-! ## Single steps: 41 move and logic (M of spec/95) -/

/-- Reserved fields are rejected: ExecSize 110b (30 R274), Src0.RegFile 10b (30 R255). -/
theorem test_decode_reserved :
    decodeTableWord 128 0x00000000_008D0040_21400021_00C00001 = none ∧
    decodeTableWord 128 0x00000000_008D0040_21400041_00600001 = none := by decide +kernel
-- M4, M7
theorem test_mov_float_to_int : one (.mov (b1 .d .f)) [0x406CCCCD, 0xC06CCCCD, 0x7fc00000, 0x7f800000, 0xff800000, 0x4F32D05E, 1] 7 = some [3, 0xfffffffd, 0, 0x7fffffff, 0x80000000, 0x7fffffff, 0] := by decide +kernel
theorem test_mov_sat : one (.mov { b1 .w .d hdSat with dst := dg 10 .w .h2 }) [0x12345678] 1 = some [0x7fff] := by decide +kernel
-- M23, M24
theorem test_sel_condition : two (.sel (b2 .f (hd .s8) .ge)) [0x40400000, 0x7fc00000, 0x3F800000] [0x7fc00000, 0x40A00000, 0x40000000] 3 = some [0x40400000, 0x40A00000, 0x40000000] := by decide +kernel
theorem test_sel_predicate :
    after (exec (.sel (b2 .ud hdPred)) (setDs (setDs { base with f0 := 0x0F } 2 [1, 1, 1, 1, 1, 1, 1, 1]) 3 [2, 2, 2, 2, 2, 2, 2, 2]))
      (getDs · 10 8) = some [1, 1, 1, 1, 2, 2, 2, 2] := by decide +kernel
-- M33, with the 1x1 region that 41 R602 asks for
theorem test_movi :
    after (exec (.movi { b1 .ub .ub with src0 := .reg { loc := .ind 0 0, ty := .ub, mod := .none, region := .a1 .v8 .w8 .h1 } })
      { setDs base 5 [0x03020100, 0x07060504] with a0 := #v[167, 166, 165, 164, 163, 162, 161, 160] })
      (getDs · 10 2) = some [0x04050607, 0x00010203] := by decide +kernel
-- M17 to M19
theorem test_not : one (.not_ (b1 .ud .ud)) [0xffff] 1 = some [0xffff0000] := by decide +kernel
theorem test_and : two (.and_ (b2 .ud)) [0x12345678] [0xffff] 1 = some [0x5678] := by decide +kernel
theorem test_and_flag :
    after (exec (.and_ { b2 .ud (hd .s8) .z with src1 := .imm .ud 1 }) (setDs { base with f0 := 0xFF0000FF } 2 [2, 1, 2, 1, 2, 1, 2, 1]))
      (fun s => s.f0.toNat) = some 0xFF000055 := by decide +kernel
theorem test_or : two (.or_ (b2 .ud)) [0xf0] [0xf] 1 = some [0xff] := by decide +kernel
theorem test_xor : two (.xor_ (b2 .ud)) [0xff] [0xf0f] 1 = some [0xff0] := by decide +kernel
-- M20 to M22
theorem test_shr : two (.shr (b2 .ud)) [0x80000000, 0xf0] [0x1f, 0x24] 2 = some [1, 0xf] := by decide +kernel
theorem test_shl : two (.shl (b2 .ud)) [1, 1] [0x1f, 0x21] 2 = some [0x80000000, 2] := by decide +kernel
theorem test_asr : two (.asr (b2 .d)) [0xfffffff9, 0x80000000] [1, 0x1f] 2 = some [0xfffffffc, 0xffffffff] := by decide +kernel
-- M25 to M27
theorem test_cmp :
    after (exec (.cmp { b2 .d { hd .s8 with thread := .switch } .l with dst := nullDst .d })
      (setDs (setDs { base with f0 := 0xFF00 } 2 [0, 1, 2, 3, 4, 5, 6, 7]) 3 [4, 4, 4, 4, 4, 4, 4, 4]))
      (fun s => s.f0.toNat) = some 0xFF0F := by decide +kernel
theorem test_cmp_nan : two (.cmp (b2 .f (hd .s8) .nz)) [0x7fc00000, 0x3F800000] [0x3F800000, 0x3F800000] 2 = some [0xffffffff, 0] := by decide +kernel
theorem test_cmpn : two (.cmpn (b2 .f (hd .s8) .l)) [0x3F800000, 0x7fc00000] [0x7fc00000, 0x3F800000] 2 = some [0xffffffff, 0] := by decide +kernel
-- M28, M29
theorem test_f32to16 : one (.f32to16 { b1 .w .f with dst := dg 10 .w .h2 }) [0x3F800000, 0x477FE000, 0x2EDBE6FF] 3 = some [0x3c00, 0x7bff, 0] := by decide +kernel
theorem test_f16to32 : one (.f16to32 { b1 .f .w with src0 := .reg (rg 2 .w) }) [0xc0003c00, 0x7c000001] 4 = some [0x3f800000, 0xc0000000, 0x33800000, 0x7f800000] := by decide +kernel
-- M30 to M32
theorem test_bfrev : one (.bfrev (b1 .ud .ud)) [1, 0x12345678] 2 = some [0x80000000, 0x1e6a2c48] := by decide +kernel
theorem test_bfe : three (.bfe (tri .ud)) 8 4 0xf0a0 = some [0xa] := by decide +kernel
theorem test_bfe_signed : three (.bfe (tri .d)) 4 8 0xf00 = some [0xffffffff] := by decide +kernel
theorem test_bfi1 : two (.bfi1 (b2 .ud)) [4] [8] 1 = some [0xf00] := by decide +kernel
theorem test_bfi2 : three (.bfi2 (tri .ud)) 0xf00 0xa 0x12345678 = some [0x12345a78] := by decide +kernel

/-! ## 40 regions and masks (RG of spec/95) -/

-- RG6, RG8, RG15, RG16
theorem test_vx1_indirect :
    after (exec (.mov { b1 .d .d with dst := dg 9 .d, src0 := .reg { loc := .ind 0 0, ty := .d, mod := .none, region := .a1 .vx .w4 .h1 } })
      { setDs (setDs base 2 [0, 1, 2, 3]) 5 [10, 11, 12, 13] with a0 := #v[0x40, 0xA0, 0, 0, 0, 0, 0, 0] })
      (getDs · 9 8) = some [0, 1, 2, 3, 10, 11, 12, 13] := by decide +kernel
theorem test_second_quarter :
    after (exec (.mov { b1 .ud .ud { hd .s8 with qtr := 1 } with src0 := .imm .ud 7 }) { base with sr02 := 0x3FFF })
      (getDs · 10 8) = some [7, 7, 7, 7, 7, 7, 0, 0] := by decide +kernel
theorem test_sources_read_first :
    after (exec (.add { hdr := hd .s8, cmod := .none, dst := dg 2 .ud, src0 := rg 2 .ud, src1 := .reg { scalar 2 .ud with loc := .grf 2 4 } })
      (setDs base 2 [1, 2, 3, 4, 5, 6, 7, 8])) (getDs · 2 8) = some [3, 4, 5, 6, 7, 8, 9, 10] := by decide +kernel
theorem test_align16 :
    after (exec (.mov { hdr := hd16, cmod := .none, dst := { loc := .grf 3 0, ty := .f, region := .a16 5 }, src0 := .reg { loc := .grf 2 0, ty := .f, mod := .none, region := .a16 .v4 0xFF } })
      (setDs base 2 [0, 1, 2, 3, 4, 5, 6, 7]))
      (getDs · 3 8) = some [3, 0, 3, 0, 7, 0, 7, 0] := by decide +kernel

/-! ## 44 parallel arithmetic (A of spec/95) -/

-- A2, A4
theorem test_add_float : two (.add (b2 .f)) [0x3FC00000, 0x4B800000, 1, 0x7f800000] [0x40100000, 0x3F800000, 0, 0x3F800000] 4 = some [0x40700000, 0x4B800000, 0, 0x7f800000] := by decide +kernel
theorem test_add_sat : two (.add { b2 .ub hdSat with dst := dg 10 .ub .h2 }) [0xc8] [0x64] 1 = some [0xff] := by decide +kernel
-- A10, A11
theorem test_mul_dword : two (.mul (b2 .d)) [0x10001] [0x20003] 1 = some [0x30003] := by decide +kernel
theorem test_mul_float : two (.mul (b2 .f)) [0xBF800000] [0x40200000] 1 = some [0xC0200000] := by decide +kernel
-- A8, A14 to A18
theorem test_avg : two (.avg (b2 .d)) [3, 0xfffffffd] [4, 0xfffffffc] 2 = some [4, 0xfffffffd] := by decide +kernel
theorem test_frc : one (.frc (b1 .f .f)) [0x3FA00000, 0xBFA00000, 0x80000000, 0x40400000] 4 = some [0x3E800000, 0x3F400000, 0, 0] := by decide +kernel
theorem test_rndu : one (.rndu (b1 .f .f)) [0x40066666, 0xC02CCCCD, 0xBF000000, 0x40800000] 4 = some [0x40400000, 0xC0000000, 0x80000000, 0x40800000] := by decide +kernel
theorem test_rndd : one (.rndd (b1 .f .f)) [0x402CCCCD, 0xC0066666, 0x3F000000, 0x80000000] 4 = some [0x40000000, 0xC0400000, 0, 0x80000000] := by decide +kernel
theorem test_rnde : one (.rnde (b1 .f .f)) [0x40200000, 0x40600000, 0xBECCCCCD, 0xC0200000, 0x40266666] 5 = some [0x40000000, 0x40800000, 0x80000000, 0xC0000000, 0x40400000] := by decide +kernel
theorem test_rndz : one (.rndz (b1 .f .f)) [0x4039999A, 0xC039999A, 0xBF666666] 3 = some [0x40000000, 0xC0000000, 0x80000000] := by decide +kernel
-- A12, P4: the accumulator
theorem test_mac :
    after (exec (.mac { b2 .w { hd .s8 with accWr := true } with dst := dg 10 .w })
      (setDs (setDs (withAcc (.w (Vector.replicate 16 10))) 2 [0x30003]) 3 [0x40004]))
      (fun s => (getDs s 10 1, (accGet s .w 1).toNat)) = some ([0x160016], 22) := by decide +kernel
theorem test_mach :
    after (exec (.mach (b2 .ud { hd .s8 with accWr := true }))
      (setDs (setDs (withAcc (.d #v[0x30003, 0xFFFEFFFF0001, 0, 0, 0, 0, 0, 0])) 2 [0x00010001, 0xFFFFFFFF]) 3 [0x00020003, 0xFFFFFFFF]))
      (fun s => (getDs s 10 2, (accGet s .d 1).toNat)) = some ([2, 0xFFFFFFFE], 0xFFFFFFFE00000001) := by decide +kernel
-- A19 to A22
theorem test_lzd : one (.lzd (b1 .ud .ud)) [0x8000, 0, 0x80000000] 3 = some [0x10, 0x20, 0] := by decide +kernel
theorem test_fbh : one (.fbh (b1 .ud .ud)) [0x10000, 0x80000000, 0] 3 = some [0xf, 0, 0xffffffff] := by decide +kernel
theorem test_fbh_signed : one (.fbh (b1 .ud .d)) [0xffff0000, 1, 0xffffffff] 3 = some [0x10, 0x1f, 0xffffffff] := by decide +kernel
theorem test_fbl : one (.fbl (b1 .ud .ud)) [8, 0x80000000, 1, 0] 4 = some [3, 0x1f, 0, 0xffffffff] := by decide +kernel
theorem test_cbit : one (.cbit (b1 .ud .ud)) [0xf0f0f0f0, 0, 0xffffffff] 3 = some [0x10, 0, 0x20] := by decide +kernel
-- A6, A7
theorem test_addc :
    after (exec (.addc (b2 .ud { hd .s8 with accWr := true })) (setDs (setDs base 2 [0xffffffff, 1]) 3 [2, 2]))
      (fun s => (getDs s 10 2, (accGet s .d 0).toNat, (accGet s .d 1).toNat)) = some ([1, 3], 1, 0) := by decide +kernel
theorem test_subb :
    after (exec (.subb (b2 .ud { hd .s8 with accWr := true })) (setDs (setDs base 2 [5, 7]) 3 [7, 5]))
      (fun s => (getDs s 10 2, (accGet s .d 0).toNat, (accGet s .d 1).toNat)) = some ([0xFFFFFFFE, 2], 1, 0) := by decide +kernel

/-! ## 45 vector arithmetic (V of spec/95) -/

theorem test_dp4 : two (.dp4 (b2 .f)) [0x3F800000, 0x40000000, 0x40400000, 0x40800000] [0x40A00000, 0x40C00000, 0x40E00000, 0x41000000] 4 = some [0x428C0000, 0x428C0000, 0x428C0000, 0x428C0000] := by decide +kernel
theorem test_dph : two (.dph (b2 .f)) [0x3F800000, 0x40000000, 0x40400000, 0x7fc00000] [0x40A00000, 0x40C00000, 0x40E00000, 0x41000000] 4 = some [0x42380000, 0x42380000, 0x42380000, 0x42380000] := by decide +kernel
theorem test_dp3 : two (.dp3 (b2 .f)) [0x3F800000, 0x40000000, 0x40400000, 0x7fc00000] [0x40A00000, 0x40C00000, 0x40E00000, 0x41000000] 4 = some [0x42180000, 0x42180000, 0x42180000, 0x42180000] := by decide +kernel
theorem test_dp2 : two (.dp2 (b2 .f)) [0x3F800000, 0x40000000, 0x40400000, 0x40800000] [0x40A00000, 0x40C00000, 0x40E00000, 0x41000000] 4 = some [0x41880000, 0x41880000, 0x41880000, 0x41880000] := by decide +kernel
theorem test_line : two (.line { b2 .f with src0 := scalar 2 .f }) [0x40000000, 0, 0, 0x3F800000] [0x00000000, 0x3F800000, 0x40000000, 0x40400000] 4 = some [0x3F800000, 0x40400000, 0x40A00000, 0x40E00000] := by decide +kernel
theorem test_pln :
    after (exec (.pln { b2 .f with src0 := scalar 2 .f }) (setDs (setDs (setDs base 2 [0x3F800000, 0x40000000, 0, 0x40400000]) 3 [0x41200000, 0x41200000, 0x41200000, 0x41200000, 0x41200000, 0x41200000, 0x41200000, 0x41200000]) 4 [0x42C80000, 0x42C80000, 0x42C80000, 0x42C80000, 0x42C80000, 0x42C80000, 0x42C80000, 0x42C80000]))
      (getDs · 10 2) = some [0x43550000, 0x43550000] := by decide +kernel
theorem test_mad : three (.mad (tri .f)) 0x3f800000 0x40000000 0x40400000 = some [0x40e00000] := by decide +kernel
theorem test_lrp : three (.lrp (tri .f)) 0x3e800000 0x41000000 0x40800000 = some [0x40a00000] := by decide +kernel
-- V9, V10, on channel 0 alone: the odd channels are free (U18)
theorem test_sad2 :
    after (exec (.sad2 { b2 .ub with dst := dg 10 .uw }) (setDs (setDs { base with sr02 := 1 } 2 [0xC80A]) 3 [0x640D])) (getDs · 10 1) =
      some [103] := by decide +kernel
theorem test_sada2 :
    after (exec (.sada2 { b2 .ub with dst := dg 10 .uw })
      (setDs (setDs { withAcc (.w (Vector.replicate 16 1000)) with sr02 := 1 } 2 [0xC80A]) 3 [0x640D])) (getDs · 10 1) =
      some [1103] := by decide +kernel

/-! ## 43 math (X of spec/95) -/

-- X1, X10, on the channels given alone: a division by 0 is free (U13), a NaN has any pattern (U22)
theorem test_math_int_div :
    after (exec (.math (mathOf 0xB .d false)) (setDs (setDs { base with sr02 := 7 } 2 [0xFFFFFFF9, 7, 0xFFFFFFF9]) 3 [2, 0xFFFFFFFE, 0xFFFFFFFE]))
      (fun s => (getDs s 10 3, getDs s 11 3)) = some ([0xFFFFFFFD, 0xFFFFFFFD, 3], [0xFFFFFFFF, 1, 0xFFFFFFFF]) := by decide +kernel
theorem test_math_fdiv :
    after (exec (.math (mathOf 9 .f false)) (setDs (setDs { base with sr02 := 1 } 2 [0x3F800000]) 3 [0x40400000])) (getDs · 10 1) =
      some [0x3EAAAAAB] := by decide +kernel

/-! ## 42 flow control (F of spec/95) -/

/-- F1 -/
theorem test_if : after (exec (.if_ (br2 hdPred 6 8)) (textAt (atIP { base with f0 := 0x0F } 0x40) 0x50 block6)) ips = some [0x50, 0x50, 0x70, 0x70] := by decide +kernel
/-- F2 -/
theorem test_if_none : after (exec (.if_ (br2 hdPred 6 8)) (textAt (atIP { base with f0 := 0 } 0x40) 0x50 block6)) ips = some [0x70, 0x70, 0x70, 0x70] := by decide +kernel
/-- F3 -/
theorem test_else : after (exec (.else_ (br1 (hd .s8) 4))
    (textAt { atIP base 0x30 with pcIP := (Vector.replicate 32 0x40).set 0 0x30 } 0x40 (block6.drop 1))) ips = some [0x40, 0x50, 0x40, 0x40] := by decide +kernel
/-- F5 -/
theorem test_endif : after (exec (.endif (br1 (hd .s8) 2)) (atIP base 0x50)) ips = some [0x60, 0x60, 0x60, 0x60] := by decide +kernel
/-- F6 -/
theorem test_brc : after (exec (.brc (br2 { hdPred with thread := .switch } 4 10)) (atIP { base with f0 := 0x0F } 0x100)) ips = some [0x110, 0x150, 0x110, 0x110] := by decide +kernel
/-- F8 -/
theorem test_brd : after (exec (.brd (br1 { hdPred with thread := .switch } 0xFFE0)) (atIP { base with f0 := 1 } 0x200)) ips = some [0x100, 0x100, 0x210, 0x210] := by decide +kernel
/-- F9, with channel 0 enabled too -/
theorem test_while : after (exec (.while_ (br1 hdPred 0xFFFC)) (atIP { base with f0 := 0xB7 } 0x40)) ips = some [0x20, 0x20, 0x20, 0x50] := by decide +kernel
/-- F10 -/
theorem test_while_done : after (exec (.while_ (br1 hdPred 0xFFFC)) (atIP { base with f0 := 0 } 0x40)) ips = some [0x50, 0x50, 0x50, 0x50] := by decide +kernel
/-- F11 -/
theorem test_break : after (exec (.break_ (br2 hdPred 4 12)) (atIP { base with f0 := 3 } 0x80)) ips = some [0x90, 0xE0, 0x90, 0x80] := by decide +kernel
/-- F13 -/
theorem test_cont : after (exec (.cont (br2 hdPred 6 6)) (atIP { base with f0 := 0xFF } 0x80)) ips = some [0xB0, 0xB0, 0xB0, 0x80] := by decide +kernel
/-- F14 -/
theorem test_halt : after (exec (.halt (br2 hdPred 8 8)) (atIP { base with f0 := 1 } 0x80)) ips = some [0x90, 0xC0, 0x90, 0x90] := by decide +kernel
/-- F15 -/
theorem test_jmpi : after (exec (.jmpi (jmp 4)) (atIP base 0x100)) ips = some [0x130, 0x130, 0x130, 0x130] := by decide +kernel
/-- F15 -/
theorem test_jmpi_back : after (exec (.jmpi (jmp 0xFFFE)) (atIP base 0x100)) ips = some [0x100, 0x100, 0x100, 0x100] := by decide +kernel
/-- F17b -/
theorem test_call :
    after (exec (.call (callI (hd .s2))) (atIP base 0x40)) (fun s => (ips s, getDs s 1 2, s.callMask.toNat)) =
      some ([0x70, 0x70, 0x70, 0x50], [0x50, 0xFF], 0xFF) := by decide +kernel
/-- F18b -/
theorem test_ret_some :
    after (exec (.ret (retI { hd .s2 with pred := .seq }))
      { atIP (setDs { base with f0 := 0x0F } 1 [0x50, 0xFF]) 0x90 with callMask := 0xFF }) (fun s => (ips s, s.callMask.toNat)) =
      some ([0xA0, 0x50, 0xA0, 0xA0], 0xF0) := by decide +kernel
/-- F18 -/
theorem test_ret_all :
    after (exec (.ret (retI { hd .s2 with noMask := true }))
      { atIP (setDs base 1 [0x50, 0xFFFFFFFF]) 0x90 with callMask := 0xFFFFFFFF }) (fun s => (ips s, s.callMask.toNat)) =
      some ([0x50, 0x50, 0x50, 0x50], 0xFFFFFFFF) := by decide +kernel
/-- F21 -/
theorem test_case : exec (.case_ (br2 (hd .s8) 4 4)) base = .refused .caseUndefined := rfl

/-! ## 43 wait and send, 60 exceptions (W and T of spec/95) -/

/-- W1; with n0.1 one bit wide (10_state R80) the count is 1. -/
theorem test_wait :
    after (exec (.wait (waitI 4)) { base with n01 := 1 }) (fun s => (s.n01.toNat, s.ip.toNat)) = some (0, 16) := by decide +kernel
/-- W2 -/
theorem test_wait_suspends : after (exec (.wait (waitI 4)) base) (fun s => (s.run, s.ip.toNat)) = some (.waiting 1, 0) := by
  decide +kernel
/-- W3 -/
theorem test_send :
    after (exec (.send { sendI (dg 20 .ud) 0x0418000F false with src0 := rg 4 .ud })
      (setDs { base with sr02 := 0x3F } 4 [5]))
      (fun s => (s.messages.map fun m => [m.sfid.toNat, m.mlen.toNat, m.rlen.toNat, m.funcCtrl.toNat],
        s.depOf 20, s.depOf 21, s.ip.toNat)) =
      some ([[7, 2, 1, 15]], true, false, 16) := by decide +kernel
theorem test_send_payload :
    after (exec (.send { sendI (dg 20 .ud) 0x0418000F false with src0 := rg 4 .ud })
      (setDs { base with sr02 := 0x3F } 4 [5]))
      (fun s => s.messages.map fun m => (m.reg, m.channelEnable, m.clear, m.payload)) =
      some [(some 20, 0x3F, true, [5, 0])] := by decide +kernel
/-- W6 -/
theorem test_send_eot :
    after (exec (.send (sendI (nullDst .ud) 0x02000000 true)) base) (fun s => (s.messages.length, s.run, s.ip.toNat)) =
      some (1, .ended, 0) := by decide +kernel
/-- W7 -/
theorem test_sendc :
    after (exec (.sendc (sendI (nullDst .ud) 0x02000000 true)) { base with tdr := base.tdr.set 3 { valid := true, fftid := 9 } })
      (fun s => (s.messages.length, s.run)) = some (0, .running) := by decide +kernel
/-- T1 -/
theorem test_illegal :
    after (exec .illegal { atIP base 0x40 with cr01 := 0x1000, launch := { base.launch with sipHi := 0x100 } })
      (fun s => (s.cr00.toNat, s.cr01.toNat, s.cr02.toNat, ips s)) =
      some (0x80000000, 0x10001000, 0x40, [0x1000, 0x40, 0x40, 0x40]) := by decide +kernel
/-- 43 R704 -/
theorem test_nop : after (exec (.nop false) (atIP base 0x40)) ips = some [0x50, 0x50, 0x50, 0x50] := by decide +kernel
/-- T4, by `mov` (reserved bits of a cr0.1 that is read are free, log 15): the software exception is taken after its
instruction. -/
theorem test_software_exception :
    after (Sys2Proof.core.run 2 (placed { base with cr01 := 0x2000, launch := { base.launch with sipHi := 0x100 } }
      (encodeWord (.mov (scalarMov hdSwitch .cr0 4 0x20002000))).toNat)) (fun s => (s.cr00.toNat, s.cr02.toNat, s.ip.toNat)) =
      some (0x80000000, 0x10, 0x1000) := by decide +kernel


/-! ## Witnesses: a state and operands that meet the hypotheses of each statement, clause by clause -/

theorem witness_EncodingRoundTrip : (Instr.add (b2 .f)).wf = true ∧ (Instr.send (sendI (dg 20 .ud) 0x0418000F false)).wf = true := by
  decide

theorem witness_DecodedInstruction :
    decodeBytes (encode (.add (b2 .f))) = .ok (.add (b2 .f), 16) ∧ 16 ≤ (leBytes 16 0x0A).length ∧
      ∀ j : Instr, j.opcode ≠ (leBytes 16 0x0A).getD 0 0 :=
  ⟨by decide +kernel, by decide, fun j => by cases j <;> exact fun h => absurd h (by simp only [Instr.opcode]; decide)⟩

/-- A compact `mov` of a float: row 8 of the DataTypeIndex table (30 R334). -/
theorem test_decode_compact_mov :
    decodeCompact (0x01 + 11 * 2 ^ 8 + 8 * 2 ^ 13 + 2 ^ 29 + 28 * 2 ^ 30 + 10 * 2 ^ 40 + 2 * 2 ^ 48) = .ok (.mov (b1 .f .f)) := by
  decide +kernel

/-- A compact `mov` and a compact immediate; a two-source word. -/
theorem witness_CompactFieldsLand :
    let c : CompactWord := 0x00000000_20000001
    c.extractLsb' 0 8 ≠ 0x7E#8 ∧ isTriOpcode (c.extractLsb' 0 8) = false ∧ c.getLsbD 28 = false ∧
      ((expandCompact (0x00000000_20006001)).extractLsb' 37 2 = 3 ∨ (expandCompact 0x00000000_20006001).extractLsb' 42 2 = 3) ∧
      lacksSrc1 (expandCompact c) = true ∧ lacksSrc1 (expandCompact 0x00000000_20000040) = false := by
  decide +kernel

/-- A legal state with an instruction at IP. -/
def started (i : Instr) : State := placed base (encodeWord i).toNat

theorem inv_started : (started (.nop false)).Inv where
  imem := by decide +kernel
  ip := by decide +kernel
  nextIP := by decide +kernel
  sip := by decide +kernel
  aip := by decide +kernel
  pcIP := by decide +kernel
  a0 := by decide +kernel
  cr00 := by decide +kernel
  cr01 := by decide +kernel
  sr00 := by decide +kernel
  sr01 := by decide +kernel

theorem witness_StepKeepsInv : ∃ s t : State, s.Inv ∧ step s = .next t :=
  ⟨_, (exists_next (o := step (started (.nop false))) (by decide +kernel)).imp fun _ h => ⟨inv_started, h⟩⟩

theorem witness_CodeLaunchAndSentMessagesStay : ∃ t, step (started (.send (sendI (nullDst .ud) 0x02000000 true))) = .next t :=
  exists_next (by decide +kernel)

theorem witness_OnlyRaiseEntersSystemRoutine :
    ∃ s t : State, step s = .next t ∧ s.inSR = false ∧ t.inSR = true :=
  ⟨{ started .illegal with cr01 := 0x1000 },
    (next_with (p := State.inSR) (by decide +kernel)).imp fun _ h => ⟨h.1, by decide +kernel, h.2⟩⟩

/-- The System Routine, at a `mov` of 0 to cr0.0 and the SIMD-16 `nop` of E23. -/
def inRoutine : State :=
  let leave : Instr := .mov (scalarMov hdSwitch .cr0 0 0)
  { base with cr00 := 0x80000000, cr02 := 0x88, imem := Memory.writeBytes [] 0 (encode leave ++ leBytes 16 0x0080007E) }

theorem witness_LeavingRestoresIPFromAIP : ∃ s t : State, step s = .next t ∧ s.inSR = true ∧ t.inSR = false :=
  ⟨inRoutine, (next_with (p := fun t => !t.inSR) (by decide +kernel)).imp fun _ h =>
    ⟨h.1, by decide +kernel, by simpa using h.2⟩⟩

/-- Fewer registers than the machine has, and the first byte beyond them. -/
theorem witness_WritesStayInAllocation :
    ∃ s t : State, exec (.add (b2 .d)) s = .next t ∧ 32 * s.launch.grfCount ≤ 2048 ∧ s.launch.grfCount = 64 :=
  ⟨{ base with launch := { base.launch with grfCount := 64 } },
    (exists_next (by decide +kernel)).imp fun _ h => ⟨h, by decide, rfl⟩⟩

/-- A flag bit of a disabled channel, next to those of the enabled ones. -/
theorem witness_FlagsChangeOnlyOnEnabledChannels :
    ∃ t, exec (.cmp (b2 .d (hd .s8) .l)) base = .next t ∧ flagDst (.cmp (b2 .d (hd .s8) .l)) = false ∧
      ∀ h cm, flagWriter (.cmp (b2 .d (hd .s8) .l)) = some (h, cm) → cm ≠ .none → (false = h.flagReg) →
        ∀ n, n < h.count → wrEn base h n = true → flagIndex h n ≠ 8 := by
  obtain ⟨t, ht⟩ := exists_next (o := exec (.cmp (b2 .d (hd .s8) .l)) base) (by decide +kernel)
  refine ⟨t, ht, by decide, fun h cm he _ _ => ?_⟩
  obtain ⟨rfl, rfl⟩ := Prod.mk.inj (Option.some.inj he)
  decide +kernel

theorem fetches_started (i : Instr) (s : State) (h : s.host = []) (hr : s.run = .running)
    (he : s.inSR = true ∨ (s.pendHalt = false ∧ s.pendSW = false)) (bs : List Byte) (hb : (fetchBytes s).toOption = some bs)
    (hd : (decodeBytes bs).toOption = some (i, 16)) : Fetches s i 16 (bs.getD 0 0) := by
  refine ⟨h, hr, he, bs, ?_, ?_, rfl⟩
  · cases hf : fetchBytes s with
    | error e => rw [hf] at hb; exact absurd hb (by simp [Except.toOption])
    | ok b => rw [hf] at hb; simp only [Except.toOption, Option.some.injEq] at hb; rw [hb]
  · cases hf : decodeBytes bs with
    | error e => rw [hf] at hd; exact absurd hd (by simp [Except.toOption])
    | ok b => rw [hf] at hd; simp only [Except.toOption, Option.some.injEq] at hd; rw [hd]

/-- What the statements about a fetched instruction assume, for an instruction placed at IP. -/
theorem fetches_placed (i : Instr) (s : State) (h : s.host = []) (hr : s.run = .running)
    (he : s.inSR = true ∨ (s.pendHalt = false ∧ s.pendSW = false))
    (hb : (fetchBytes s).toOption = some (encode i)) (hd : (decodeBytes (encode i)).toOption = some (i, 16)) :
    Fetches s i 16 ((encode i).getD 0 0) := fetches_started i s h hr he _ hb hd

theorem witness_StepRunsDecoded :
    ∃ s : State, Fetches s (.add (b2 .d)) 16 0x40 ∧ NoBreak s (.add (b2 .d)) 0x40 ∧ isHeld s (.add (b2 .d)) = false :=
  ⟨started (.add (b2 .d)), fetches_placed _ _ rfl rfl (.inr (by decide +kernel)) (by decide +kernel) (by decide +kernel),
    ⟨by decide +kernel, .inr (.inl (by decide +kernel))⟩, by decide +kernel⟩

theorem witness_PlacedInstructionRuns :
    (Instr.add (b2 .d)).wf = true ∧ base.host = [] ∧ base.run = .running ∧ (base.pendHalt = false ∧ base.pendSW = false) ∧
      breakTrigger (started (.add (b2 .d))) 0x40 (.add (b2 .d)) = false ∧ (started (.add (b2 .d))).cr01.getLsbD 31 = false ∧
      isHeld (started (.add (b2 .d))) (.add (b2 .d)) = false := by decide +kernel

/-- A source is marked, the destination is, a0 is, a dependent thread is alive. -/
theorem witness_HeldInstructionWaits :
    let indirect : Instr := .mov { b1 .d .d with src0 := .reg { loc := .ind 0 0, ty := .d, mod := .none, region := .a1 .v8 .w8 .h1 } }
    let eot : Instr := .sendc (sendI (nullDst .ud) 0x02000000 true)
    let toA0 : Instr := .mov (scalarMov hdSwitch .a0 0 0)
    (∃ s : State, Fetches s (.add (b2 .d)) 16 0x40 ∧ NoBreak s (.add (b2 .d)) 0x40 ∧
      ∃ r, r ∈ (uses s (.add (b2 .d))).srcs ∧ s.depOf r = true) ∧
    (∃ s : State, Fetches s (.add (b2 .d)) 16 0x40 ∧ NoBreak s (.add (b2 .d)) 0x40 ∧
      ∃ r, r ∈ (uses s (.add (b2 .d))).dsts ∧ s.depOf r = true ∧ (uses s (.add (b2 .d))).noDDChk = false) ∧
    (∃ s : State, Fetches s toA0 16 0x01 ∧ NoBreak s toA0 0x01 ∧ s.depA0 = true ∧ (uses s toA0).a0Dst = true ∧
      (uses s toA0).noDDChk = false) ∧
    (∃ s : State, Fetches s indirect 16 0x01 ∧ NoBreak s indirect 0x01 ∧ s.depA0 = true ∧ (uses s indirect).a0Src = true) ∧
    (∃ s : State, Fetches s eot 16 0x32 ∧ NoBreak s eot 0x32 ∧ ∃ e, e ∈ s.tdr.toList ∧ e.valid = true) := by
  refine ⟨⟨{ started (.add (b2 .d)) with dep := 8 }, ?_, ?_, 3, ?_⟩, ⟨{ started (.add (b2 .d)) with dep := 0x400 }, ?_, ?_, 10, ?_⟩,
    ⟨{ started (.mov (scalarMov hdSwitch .a0 0 0)) with depA0 := true }, ?_, ?_, ?_⟩,
    ⟨{ started (.mov { b1 .d .d with src0 := .reg { loc := .ind 0 0, ty := .d, mod := .none, region := .a1 .v8 .w8 .h1 } }) with
      depA0 := true }, ?_, ?_, ?_⟩,
    ⟨{ started (.sendc (sendI (nullDst .ud) 0x02000000 true)) with tdr := base.tdr.set 3 { valid := true, fftid := 9 } }, ?_, ?_,
      { valid := true, fftid := 9 }, ?_⟩⟩
  · exact fetches_placed _ _ rfl rfl (.inr (by decide +kernel)) (by decide +kernel) (by decide +kernel)
  · exact ⟨by decide +kernel, .inr (.inl (by decide +kernel))⟩
  · decide +kernel
  · exact fetches_placed _ _ rfl rfl (.inr (by decide +kernel)) (by decide +kernel) (by decide +kernel)
  · exact ⟨by decide +kernel, .inr (.inl (by decide +kernel))⟩
  · decide +kernel
  · exact fetches_placed _ _ rfl rfl (.inr (by decide +kernel)) (by decide +kernel) (by decide +kernel)
  · exact ⟨by decide +kernel, .inr (.inl (by decide +kernel))⟩
  · decide +kernel
  · exact fetches_placed _ _ rfl rfl (.inr (by decide +kernel)) (by decide +kernel) (by decide +kernel)
  · exact ⟨by decide +kernel, .inr (.inl (by decide +kernel))⟩
  · decide +kernel
  · exact fetches_placed _ _ rfl rfl (.inr (by decide +kernel)) (by decide +kernel) (by decide +kernel)
  · exact ⟨by decide +kernel, .inr (.inl (by decide +kernel))⟩
  · decide +kernel

/-- External Halt at an instruction, a software exception in `wait`. -/
theorem witness_PendingExceptionTaken :
    (∃ s : State, s.host = [] ∧ s.run ≠ .ended ∧ s.inSR = false ∧ s.cr01.getLsbD 30 = true ∧ s.cr01.getLsbD 14 = true) ∧
    (∃ s : State, s.host = [] ∧ s.run = .waiting 2 ∧ s.inSR = false ∧ s.cr01.getLsbD 29 = true ∧ s.cr01.getLsbD 13 = true) :=
  ⟨⟨{ base with cr01 := 0x40004000 }, by decide +kernel⟩, ⟨{ base with cr01 := 0x20002000, run := .waiting 2 }, by decide +kernel⟩⟩

theorem witness_IllegalAndNop :
    (∃ s : State, s.inSR = false ∧ s.cr01.getLsbD 12 = true) ∧ (∃ s : State, s.inSR = true) ∧
      ∃ s : State, s.inSR = false ∧ s.cr01.getLsbD 12 = false :=
  ⟨⟨State.reset, by decide +kernel⟩, ⟨{ base with cr00 := 0x80000000 }, by decide +kernel⟩, ⟨base, by decide +kernel⟩⟩

/-- The breakpoint bit of a `nop`: taken, suppressed, latched where it is disabled; a comparator of address and opcode. -/
theorem witness_Breakpoint :
    (∃ s : State, Fetches s (.nop true) 16 0x7E ∧ debugBit (.nop true) = true ∧ s.inSR = false ∧ s.cr01.getLsbD 15 = true ∧
      s.cr00.getLsbD 15 = false) ∧
    (∃ s : State, Fetches s (.nop true) 16 0x7E ∧ s.inSR = false ∧ s.cr01.getLsbD 15 = true ∧ s.cr00.getLsbD 15 = true ∧
      isHeld s (.nop true) = false) ∧
    (∃ s : State, Fetches s (.nop true) 16 0x7E ∧ s.cr01.getLsbD 15 = false ∧ isHeld s (.nop true) = false) ∧
    (breakTrigger { base with launch := { base.launch with breaks := [{ addr := some 0, op := some 0x7E }] } } 0x7E (.nop false) = true ∧
      breakTrigger { base with launch := { base.launch with breaks := [{ addr := some 8, op := some 0x7E }] } } 0x7E (.nop false) = false) := by
  refine ⟨⟨{ started (.nop true) with cr01 := 0x8000 }, ?_, by decide +kernel⟩,
    ⟨{ started (.nop true) with cr01 := 0x8000, cr00 := 0x8000 }, ?_, by decide +kernel⟩, ⟨started (.nop true), ?_, by decide +kernel⟩, by decide +kernel⟩
  all_goals exact fetches_placed _ _ rfl rfl (.inr (by decide +kernel)) (by decide +kernel) (by decide +kernel)

/-- `and cr0.0 cr0.0 0x7FFFFFFF` with a SIMD-16 `nop` after it, and without one. -/
theorem witness_ClearingMasterReturns :
    let b : Basic2 := { b2 .ud hdSwitch with dst := (scalarMov hdSwitch .cr0 0 0).dst, src0 := arfSrc .cr0 0, src1 := .imm .ud 0x7FFFFFFF }
    inRoutine.Inv ∧ b.hdr.size = .s1 ∧ b.hdr.accWr = false ∧ wrEn inRoutine b.hdr 0 = true ∧
      Allowed (logicChecks inRoutine b.hdr .none b.dst b.srcs) ∧ inRoutine.inSR = true ∧ (0x7FFFFFFF#32).getLsbD 31 = false ∧
      inRoutine.nopFollows = true ∧ (started (.nop false)).nopFollows = false := by
  refine ⟨⟨?_, ?_, ?_, ?_, ?_, ?_, ?_, ?_, ?_, ?_, ?_⟩, ?_⟩
  all_goals decide +kernel

/-- A context restore: n0 and TmEvent are writable (10_state R80, R85), and outside it they are not. -/
theorem test_restore :
    let s := { base with cr00 := 0x80000000, launch := { base.launch with preemption := true } }
    after (exec (.mov (scalarMov hdSwitch .n0 8 3)) s) (fun t => (t.n00.toNat, t.n01.toNat, t.n02.toNat)) = some (0, 0, 3) ∧
      after (exec (.mov (scalarMov hdSwitch .tm0 0 0)) s) State.tmEvent = some true ∧
      after (exec (.mov (scalarMov hdSwitch .n0 8 3)) base) (fun t => t.n02.toNat) = some 0 := by decide +kernel

/-- Every register of the statement, and the last subregister of a0. -/
theorem witness_ScalarMoveToArchitectureRegister :
    wrEn base hdSwitch 0 = true ∧
      ([.null, .a0, .f0, .f1, .sr0, .cr0, .n0, .ip, .tdr0, .tm0, .acc0] : List Arf).all (fun r =>
        firstViolation (movChecks base (scalarMov hdSwitch r 0 0x12345678)) = none) = true ∧
      Allowed (movChecks base (scalarMov hdSwitch .a0 12 0x12345678)) ∧
      Allowed (movChecks inRoutine (scalarMov hdSwitch .cr0 0 0x80000000)) := by decide +kernel

theorem witness_WaitConsumesOrSuspends :
    (∀ k : Fin 3, Allowed (waitChecks base (waitI (BitVec.ofNat 5 (4 * k.val)))) ∧
      waitIndex (waitI (BitVec.ofNat 5 (4 * k.val))) = some k) ∧
    ∃ s : State, s.host = [] ∧ s.run = .waiting 2 ∧ s.pendHalt = false ∧ s.pendSW = false ∧ s.notify 2 ≠ 0 :=
  ⟨by decide +kernel, { base with run := .waiting 2, n02 := 1 }, by decide +kernel⟩

/-- An EOT, a response of two registers that ends at r127, no response, and a message without a payload. -/
theorem witness_SendAndSendc :
    Allowed (sendChecks base (sendI (nullDst .ud) 0x02000000 true)) ∧
    Allowed (sendChecks base (sendI (dg 126 .ud) 0x02200000 false)) ∧
    Allowed (sendChecks base (sendI (nullDst .ud) 0x02000000 false)) ∧ Allowed (sendChecks base (sendI (nullDst .ud) 0 false)) ∧
    (∀ e, e ∈ base.tdr.toList → e.valid = false) ∧
    ({ sendI (nullDst .ud) 0x02000000 true with src0 := rg 111 .ud }.src0.loc = .grf 111 0 ∧ (111#7).toNat < 112) ∧
    (sendI (dg 20 .ud) 0x02100000 true).dst.loc.isArf = false ∧
    ∃ s : State, Allowed (sendChecks s (sendI (nullDst .ud) 0x02000000 true)) ∧ ∃ e, e ∈ s.tdr.toList ∧ e.valid = true :=
  ⟨by decide +kernel, by decide +kernel, by decide +kernel, by decide +kernel,
    by decide +kernel, by decide +kernel, by decide +kernel, { base with tdr := base.tdr.set 7 { valid := true, fftid := 9 } }, by decide +kernel, { valid := true, fftid := 9 },
    by decide +kernel⟩

/-- The last of two phases, at r127, and the first. -/
theorem witness_ResponsePhaseLands :
    (∃ s : State, s.host = [.deliver 0 1 5 0xFF] ∧ s.run ≠ .ended ∧
      s.outstanding[0]? = some { reg := 126, rlen := 2, clear := true, landed := 1 }) ∧
    ∃ s : State, s.host = [.deliver 0 0 5 0x0F] ∧ s.run ≠ .ended ∧
      s.outstanding[0]? = some { reg := 126, rlen := 2, clear := true, landed := 0 } :=
  ⟨⟨{ base with host := [.deliver 0 1 5 0xFF], outstanding := [{ reg := 126, rlen := 2, clear := true, landed := 1 }] },
    by decide +kernel⟩,
   ⟨{ base with host := [.deliver 0 0 5 0x0F], outstanding := [{ reg := 126, rlen := 2, clear := true, landed := 0 }] },
    by decide +kernel⟩⟩

theorem witness_HostEvents :
    ([.notify 1, .externalHalt, .retire 9, .setPriority 3, .timeEvent, .preempt] : List HostAction).all (fun a =>
      isNext (step { base with host := [a] }) && isNext (step { base with host := [a], run := .ended })) = true ∧
      base.run ≠ .ended ∧ base.launch.preemption = false ∧ base.inSR = false ∧ base.outstanding = [] := by decide +kernel

/-- A preemption that the launch allows. -/
theorem witness_HostEvents_preempt :
    after (step { base with host := [.preempt], launch := { base.launch with preemption := true, sipHi := 0x100 }, ip := 0x40 })
      (fun s => (s.ip.toNat, s.cr02.toNat, s.inSR)) = some (0x1000, 0x40, true) := by decide +kernel

/-- An index from an immediate and from a register. -/
theorem witness_JmpiJumps :
    Allowed (jmpiChecks base (jmp 0x8000)) ∧ Allowed (jmpiChecks base { jmp 0 with src1 := .reg (scalar 5 .d) }) := by decide +kernel

theorem witness_BranchesToTargets :
    base.spf = false ∧ Allowed (brdChecks base { hdPred with thread := .switch } .imm 1) ∧
      Allowed (whileChecks base (br1 hdPred 0xFFFC)) ∧
      Allowed (brcChecks base (br2 { hdPred with thread := .switch } 2 4)) ∧ Allowed (haltChecks base (br2 hdPred 2 2)) := by
  decide +kernel

/-- `if`, with its `endif` and without one; `break`, `cont`; `else`; `endif` with and without an enabled channel. -/
theorem witness_BlockAndLoopBranches :
    Allowed (ifChecks (followed block6) (br2 hdPred 6 6)) ∧
      Allowed (ifChecks (followed block6) (br2 { hdPred with noMask := true } 6 6)) ∧ (followed block6).spf = false ∧
      (Allowed (branchChecks base hdPred .imm 3) ∧ base.blockEnd base.nextIP = none) ∧
      Allowed (loopChecks base (br2 hdPred 2 4)) ∧ Allowed (elseChecks base (hd .s8) .imm 3) ∧
      (∃ s : State, Allowed (elseChecks s (hd .s8) .imm 3) ∧ s.spf = false ∧ Allowed (elseBlockChecks s (br1 (hd .s8) 6))) ∧
      base.spf = false ∧
      (∃ c : Fin 32, chanEn base (hd .s8) c.val = true) ∧
      ∀ c : Fin 32, chanEn { base with sr02 := 0xFFFFFF00 } (hd .s8) c.val = false :=
  ⟨by decide +kernel, by decide +kernel, by decide +kernel, by decide +kernel, by decide +kernel, by decide +kernel,
    ⟨followed block6, by decide +kernel⟩, by decide +kernel⟩

/-- An `endif` of another size where the JIP of an `if` points (42 R642), and NoMask channels that stand elsewhere. -/
theorem test_if_block :
    after (exec (.if_ (br2 { hdPred with noMask := true } 6 6))
        (textAt { atIP base 0x40 with pcIP := Vector.replicate 32 0x90, f0 := 1 } 0x50 block6))
      ips = some [0x50, 0x50, 0x70, 0x90] := by decide +kernel

/-- An `if` with a block within, an `else` and an `endif`: JIP is right after the `else`, the end has the same size, and a second
`else` is none (R642). -/
theorem test_block_parts :
    let block := fun (e : ExecSize) => followed
      [.if_ (br2 hdPred 2 2), .endif (br1 (hd .s8) 2), .else_ (br1 (hd .s8) 4), .nop false, .endif (br1 (hd e) 2)]
    Allowed (ifChecks (block .s8) (br2 hdPred 8 10)) ∧
    firstViolation (ifChecks (block .s8) (br2 hdPred 10 10)) = some .ifTarget ∧
    firstViolation (ifChecks (block .s16) (br2 hdPred 8 10)) = some .blockSize ∧
    firstViolation (elseBlockChecks (followed [.else_ (br1 (hd .s8) 4)]) (br1 (hd .s8) 2)) = some .secondElse := by
  decide +kernel

/-- An `if` and an `else` without an `endif` in the text, an inner block's `endif` not counted (R642). -/
theorem test_block_noEndif :
    firstViolation (ifChecks base (br2 hdPred 6 6)) = some .noEndif ∧
    firstViolation (ifChecks (followed [.if_ (br2 hdPred 2 2), .endif (br1 (hd .s8) 2)]) (br2 hdPred 4 4)) = some .noEndif ∧
    firstViolation (ifChecks (followed [.else_ (br1 (hd .s8) 4), .nop false]) (br2 hdPred 4 4)) = some .noEndif ∧
    firstViolation (elseBlockChecks base (br1 (hd .s8) 2)) = some .noEndif := by decide +kernel

/-- A loop from 0 with an inner loop: `break` and `cont` have the ExecSize of the outer `while`, where UIP names it, no `while` or
the inner one, and the `while` that of the `break` (R647 to R649). -/
theorem test_loop_size :
    let loop (e : ExecSize) := followed [.nop false, .while_ (br1 (hd .s4) 0xFFFE), .while_ (br1 (hd e) 0xFFFA)]
    ([2, 4, 6] : List (BitVec 16)).all (fun uip => firstViolation (loopChecks (loop .s8) (br2 hdPred 2 uip)) = none &&
      firstViolation (loopChecks (loop .s16) (br2 hdPred 2 uip)) = some .blockSize) = true ∧
    Allowed (loopChecks (followed [.while_ (br1 (hd .s4) 2)]) (br2 hdPred 6 6)) ∧
    (let s := { textAt base 0 [.break_ (br2 hdPred 4 4), .nop false] with ip := 0x20, nextIP := 0x30 }
     let t := textAt s 0x20 [.while_ (br1 (hd .s16) 0xFFFC)]
     firstViolation (whileChecks t (br1 (hd .s16) 0xFFFC)) = some .blockSize ∧ Allowed (whileChecks t (br1 (hd .s16) 0xFFFE)) ∧
       Allowed (whileChecks (textAt s 0x20 [.while_ (br1 (hd .s8) 0xFFFC)]) (br1 (hd .s8) 0xFFFC))) := by decide +kernel

/-- A `brc` in an if-endif block, one before such a block (42 R643), and an `if` whose JIP is not its `endif` (R642). -/
theorem test_block_targets :
    firstViolation (brcChecks (followed [.nop false, .endif (br1 (hd .s8) 2)]) (br2 { hdPred with thread := .switch } 8 8)) =
      some .brcInIf ∧
    Allowed (brcChecks (followed [.if_ (br2 hdPred 2 2), .endif (br1 (hd .s8) 2)]) (br2 { hdPred with thread := .switch } 8 8)) ∧
    firstViolation (ifChecks (followed [.nop false, .endif (br1 (hd .s8) 2)]) (br2 hdPred 2 2)) = some .ifTarget := by
  decide +kernel

/-- With SPF = 1; `halt` with a `nop` at its JIP, and refused without one. -/
theorem witness_SinglePathBranches :
    let s := { base with cr00 := 4 }
    let t := { followed block6 with cr00 := 4 }
    s.spf = true ∧ t.spf = true ∧ Allowed (whileChecks s (br1 hdPred 0xFFFC)) ∧ Allowed (ifChecks t (br2 hdPred 2 6)) ∧
      Allowed (loopChecks s (br2 hdPred 2 4)) ∧ Allowed (elseBlockChecks t (br1 (hd .s8) 6)) ∧
      Allowed (elseChecks t (hd .s8) .imm 3) ∧ Allowed (brdChecks s { hdPred with thread := .switch } .imm 3) ∧
      Allowed (brcChecks s (br2 { hdPred with thread := .switch } 2 4)) ∧
      Allowed (elseChecks s (hd .s8) .imm 3) ∧
      Allowed (haltChecks { started (.nop false) with cr00 := 4 } (br2 hdPred 0 2)) ∧ ¬ Allowed (haltChecks s (br2 hdPred 0 2)) := by
  decide +kernel

/-- `call` with and without an enabled channel, to the last pair of the registers; `ret`. -/
theorem witness_CallAndRet :
    Allowed (callChecks base { callI (hd .s2) with dst := { dg 127 .d with loc := .grf 127 24 } }) ∧
      callEn base (hd .s2) 0 = true ∧ Allowed (callChecks base (callI { hd .s2 with pred := .seq })) ∧
      callEn base { hd .s2 with pred := .seq } 0 = false ∧ Allowed (retChecks base (retI (hd .s2))) := by decide +kernel

/-- The last index register, alone, by rows, and for the second half; operands of one and of two registers; a scalar. -/
theorem witness_RegionAddresses :
    VertStride.v8 ≠ .vx ∧ (7#3).toNat + 0 / Width.w1.toNat < 8 ∧ (6#3).toNat + 15 / ((hd .s16).count / 2) < 8 ∧ 2 ≤ (hd .s2).count ∧
      (hd .s1).count = 1 ∧ dstTwoRegs base (hd .s16) { dg 0 .d with loc := .ind 6 0 } = true ∧
      dstTwoRegs base (hd .s8) { dg 0 .d with loc := .ind 7 0 } = false ∧
      (List.range 4).map (swizzle 0xAA) = [2, 2, 2, 2] := by decide +kernel

/-- The address of element 12 of a two-register indirect operand: its half begins at the next index register (40 R471). -/
theorem test_second_half :
    let s := { base with a0 := #v[0x40, 0x100, 0, 0, 0, 0, 0, 0] }
    srcAddr s (hd .s16) true { rg 0 .d with loc := .ind 0 4 } 12 = 0x114 ∧
      dstAddr s (hd .s16) { dg 0 .d with loc := .ind 0 4 } 12 = 0x114 := by decide +kernel

/-- A general register; the last populated bit of ip, and the second DWord of tm0; the last channel of acc0 for DWords. -/
theorem witness_SourceElements :
    (rg 2 .d).loc.isArf = false ∧ (arfSrc .ip 0).loc = .arf .ip 0 ∧ 8 * (0 + (arfSrc .ip 0).region.off 4 0) + 31 < 32 ∧
      (arfSrc .tm0 4).loc = .arf .tm0 4 ∧ accOperand (arfSrc .acc0 0).loc = some 0 ∧ accOperand (arfSrc .acc1 0).loc = some 8 ∧
      (∃ v w x y, (withAcc (.d v)).acc.acc0 = .d v ∧ (withAcc (.w w)).acc.acc0 = .w w ∧ (withAcc (.f x)).acc.acc0 = .f x ∧
        (withAcc (.df y)).acc.acc0 = .df y) ∧ ({ arfSrc .acc0 0 with region := .a1 .v8 .w8 .h1 }).region.off 4 7 / 4 < 8 := by
  refine ⟨rfl, rfl, by decide, rfl, rfl, rfl, ⟨default, default, default, default, rfl, rfl, rfl, rfl⟩, by decide⟩

/-- A strided accumulator destination: the channels at its elements (10_state R57). -/
theorem test_accumulator_stride :
    after (exec (.mov { b1 .d .d (hd .s4) with dst := { loc := .arf .acc0 0, ty := .d, region := .a1 .h2 }, src0 := .imm .d 5 }) base)
      (fun s => (List.range 8).map fun k => (accGet s .d k).toNat) = some [5, 0, 5, 0, 5, 0, 5, 0] := by decide +kernel

/-- acc1 has storage of its own: a write of acc0 leaves it, and one of acc1 leaves acc0 (10_state R64); a DWord operation does
not use it (R66 d). -/
theorem test_acc1 :
    let toAcc (r : Arf) (src : Src) : Basic1 :=
      { b1 .f .f with dst := { loc := .arf r 0, ty := .f, region := .a1 .h1 }, src0 := src }
    let s := { base with acc := { acc0 := .w (Vector.replicate 16 1), acc1 := Vector.replicate 8 9 } }
    after (exec (.mov (toAcc .acc1 (.imm .f 7))) s) (fun t => (t.acc.acc0 == s.acc.acc0, (accGet t .f 8).toNat)) = some (true, 7) ∧
      after (exec (.mov (toAcc .acc0 (.imm .f 7))) s) (fun t => (t.acc.acc1 == s.acc.acc1, (accGet t .f 0).toNat)) = some (true, 7) ∧
      firstViolation (movChecks s (toAcc .acc1 (.imm .d 7))) = some .accType := by decide +kernel

/-- The second index register of an indirect destination is held to the slot (40 R470 1B, 6A) and to the alignment of `sad2`
(45 R780); an indirect source of two halves to the even split of the destination (R470 3D, 6B). -/
theorem test_second_origin :
    let narrow := { b1 .w .d (hd .s16) with dst := { loc := .ind 0 0, ty := .w, region := .a1 .h2 } }
    let bytes : RegSrc := { rg 2 .ub with region := .a1 .v32 .w8 .h2 }
    let sad := { b2 .ub (hd .s16) with
      src0 := bytes, src1 := .reg bytes, dst := { loc := .ind 0 0, ty := .uw, region := .a1 .h2 } }
    let halves (sub : BitVec 5) := { b1 .w .w with
      dst := { loc := .grf 10 sub, ty := .w, region := .a1 .h2 }, src0 := .reg { rg 0 .w with loc := .ind 0 0 } }
    let at2 (k : BitVec 16) := { base with a0 := #v[0x40, k, 0, 0, 0, 0, 0, 0] }
    firstViolation (movChecks (at2 0x62) narrow) = some .dstExecAlign ∧ Allowed (movChecks (at2 0x60) narrow) ∧
      firstViolation (sadChecks (at2 0x62) sad) = some .misaligned ∧ Allowed (sadChecks (at2 0x60) sad) ∧
      firstViolation (movChecks (at2 0x60) (halves 8)) = some .splitEven ∧ Allowed (movChecks (at2 0x60) (halves 16)) := by
  decide +kernel

/-- The order of the sources of `mul` binds a word beside a DWord, not a byte (44 R741). -/
theorem test_mul_order :
    let b (t : RegType) : Basic2 := { b2 .d with src0 := { rg 2 t with region := .a1 .v8 .w8 .h1 } }
    firstViolation (mulChecks base (b .w)) = some .types ∧
      after (exec (.mul (b .b)) (setDs (setDs { base with sr02 := 1 } 2 [0xFE]) 3 [0x12345])) (getDs · 10 1) =
        some [0xFFFDB976] := by decide +kernel

/-- The mark of a0: NoDDClr leaves it, NoDDChk waives its check for a write and not for a read, and the last write of a block
clears it (10_state R63, 70 R962, R963). -/
theorem test_a0_mark :
    let i (clr chk : Bool) : Instr := .mov (scalarMov { hdSwitch with noDDClr := clr, noDDChk := chk } .a0 0 0)
    let read : Instr := .mov { b1 .ud .ud { hd .s1 with noDDChk := true } with src0 := .reg (arfSrc .a0 0) }
    let marked := { base with depA0 := true }
    after (exec (i true false) base) (·.depA0) = some true ∧ isHeld marked (i false false) = true ∧
      isHeld marked (i true true) = false ∧ isHeld marked read = true ∧
      after (exec (i false true) marked) (·.depA0) = some false := by
  decide +kernel

/-- A count of 0 returns src0 (41 R609): -5 of a negated UD or UW, and a negative accumulator channel with a condition. -/
theorem test_shift_by_zero :
    let asr (dty sty : RegType) (h : Header) : Instr :=
      .asr { b2 dty h with src0 := rg 2 sty .neg, src1 := .imm .ud 0 }
    one (asr .ud .ud hdSat) [5] 1 = some [0] ∧ one (asr .d .uw (hd .s8)) [5] 1 = some [0xFFFFFFFB] ∧
      after (exec (.shr { b2 .ud (hd .s8) .nz with src0 := { rg 2 .ud with loc := .arf .acc0 0 }, src1 := .imm .ud 0 })
        (withAcc (.d (Vector.replicate 8 (-5))))) (fun t => (getDs t 10 1, t.f0.toNat)) = some ([0xFFFFFFFB], 0xFF) := by
  decide +kernel

/-- A word sum of 2^32 loses its top bit before it becomes a float (10_state R66 g). -/
theorem test_word_sum_to_float :
    after (exec (.add { b2 .f with src0 := { rg 2 .w with loc := .arf .acc0 0 }, src1 := .imm .w 1 })
      (withAcc (.w (Vector.replicate 16 0x0FFFFFFFF)))) (getDs · 10 1) = some [0xCF800000] := by decide +kernel

/-- The flag of `f16to32` is that of the half's number, a denormal half among them (41 R613, 40 R460). -/
theorem test_f16to32_flag :
    after (exec (.f16to32 { b1 .f .w with cmod := .nz, src0 := .reg (rg 2 .w) }) (setDs base 2 [0x80003C00, 0x7BFF0001]))
      (fun t => t.f0.toNat) = some 0x0D := by decide +kernel

/-- A `send` on four channels with a DF operand names the second eighth (40 R411), one without may not; the descriptor register is
`a0.0<0;1,0>` and not an Align16 region of a0 (10_state R62). -/
theorem test_send_operands :
    let h : Header := { hd .s4 with nib := true }
    let m (ty : RegType) : Send := { sendI (dg 20 ty) 0x02100000 false with hdr := h, src0 := { rg 112 .ud with region := .a1 .v4 .w4 .h1 } }
    let desc (r : SrcRegion) : Send :=
      { sendI (nullDst .ud) 0 false with desc := .reg { arfSrc .a0 0 with region := r } }
    let s := { base with a0 := #v[0, 0x0200, 0, 0, 0, 0, 0, 0] }
    Allowed (sendChecks base (m .df)) ∧ firstViolation (sendChecks base (m .ud)) = some .nibCtrl ∧
      Allowed (sendChecks s (desc (.a1 .v0 .w1 .h0))) ∧
      firstViolation (sendChecks s { desc (.a16 .v0 0x55) with hdr := hd16 }) = some .operand := by decide +kernel

/-- The payload of an EOT `send` begins in r112 to r127 (43 R701, 70 R953), that of another anywhere. -/
theorem test_eot_source :
    let m (r : BitVec 7) (eot : Bool) : Send := { sendI (nullDst .ud) 0x02000000 eot with src0 := rg r .ud }
    firstViolation (sendChecks base (m 111 true)) = some .eotSource ∧ Allowed (sendChecks base (m 112 true)) ∧
      Allowed (sendChecks base (m 127 true)) ∧ Allowed (sendChecks base (m 111 false)) := by decide +kernel

/-- A three-source destination at DWord 3 (30 R271; log 91), and a DF source with RepCtrl (log 93). -/
theorem test_tri_operands :
    Allowed (madChecks base { tri .f { hd16 with size := .s4 } with dstSub := 3 }) ∧
      firstViolation (madChecks base { tri .df { hd16 with size := .s4 } with src1 := { triSrc 3 with rep := true } }) =
        some .dfPair := by decide +kernel

/-- An Align16 row of VertStride 1 that leaves its register, whatever the channel selects name, and one that does not (40 R424,
R470 2H). -/
theorem test_align16_row :
    let m (sub : BitVec 5) (cs : BitVec 8) : Basic1 :=
      { hdr := hd16, cmod := .none, dst := { loc := .grf 3 0, ty := .f, region := .a16 15 },
        src0 := .reg { loc := .grf 2 sub, ty := .f, mod := .none, region := .a16 .v1 cs } }
    firstViolation (movChecks base (m 16 0xE4)) = some .rowCross ∧ firstViolation (movChecks base (m 16 0)) = some .rowCross ∧
      Allowed (movChecks base (m 0 0xE4)) := by decide +kernel

/-- A null destination's HorzStride is not 0 either (10_state R58, 40 R470 2G). -/
theorem test_null_stride :
    let c (hz : HorzStride) : Basic2 := { b2 .d { hd .s8 with thread := .switch } .z with dst := { nullDst .d with region := .a1 hz } }
    firstViolation (cmpChecks base (c .h0)) = some .dstStride ∧ Allowed (cmpChecks base (c .h1)) := by decide +kernel

/-- A replicated DF scalar feeds a destination of two registers (40 R428, R470 3E). -/
theorem test_df_scalar :
    Allowed (movChecks base { b1 .df .df (hd .s16) with
      src0 := .reg { loc := .grf 4 0, ty := .df, mod := .none, region := .a1 .v0 .w2 .h1 } }) ∧
    firstViolation (movChecks base { b1 .df .df (hd .s16) with
      src0 := .reg { loc := .grf 4 0, ty := .df, mod := .none, region := .a1 .v8 .w8 .h1 } }) = none := by decide +kernel

/-- The last channel of the first quarter; every predicate control, with the last group of its flag register. -/
theorem witness_WriteEnables :
    7 < (hd .s8).count ∧ (hd .s8).count ≤ 8 ∧ hdPred.pred = .seq ∧ 8 + 7 < 16 ∧ 8 + (2 * (7 / 2) + 2) ≤ 16 ∧
      8 + (4 * (7 / 4) + 4) ≤ 16 ∧ 8 + (8 * (7 / 8) + 8) ≤ 16 ∧ 0 + (16 * (31 / 16) + 16) ≤ 32 ∧ 31 < (hd .s32).count ∧
      8 + (4 * (7 / 4) + 3) < 16 := by decide

/-- The least exponent of each format. -/
theorem witness_RoundingOfFiniteNumbers :
    (1 : Nat) ≠ 0 ∧ (modeF base).fmt = fmtF ∧ (modeDF base).fmt = fmtDF ∧ fmtF.emin = -149 ∧ fmtDF.emin = -1074 ∧
      fmtHalf.emin = -24 := by decide +kernel

/-- Numbers whose sum and product are not zero, and whose are. -/
theorem witness_SumAndProductAreRoundedOnce :
    (FVal.fin false 3 (-1)).toRat + (FVal.fin true 1 0).toRat ≠ 0 ∧ (FVal.fin false 3 (-1)).toRat + (FVal.fin true 3 (-1)).toRat = 0 ∧
    (FVal.fin false 3 (-1)).toRat * (FVal.fin true 1 0).toRat ≠ 0 ∧ (FVal.fin false 0 0).toRat * (FVal.fin true 1 0).toRat = 0 ∧
    (modeF { base with cr00 := 1 }).alt = true ∧ fmtF.maxVal true = FVal.ofBits fmtF 0xFF7FFFFF ∧
    (fmtF.maxVal true).toRat * (FVal.fin false 1 (-1)).toRat ≠ 0 := by
  decide +kernel

theorem witness_IntegerArithmetic :
    base.inSR = false ∧ allInt (b2 .d).srcs = true ∧ Allowed (addChecks base (b2 .d)) ∧ Allowed (mulChecks base (b2 .d)) ∧
      Allowed (avgChecks base (b2 .d)) ∧ Allowed (addChecks base (b2 .uw hdSat .l)) ∧
      Allowed (carryChecks base (b2 .ud { hd .s8 with accWr := true })) := by decide +kernel

theorem witness_FloatArithmetic :
    base.inSR = false ∧ allTy .f (b2 .f).srcs = true ∧ Allowed (addChecks base (b2 .f)) ∧ Allowed (mulChecks base (b2 .f)) ∧
      allTy .df (b2 .df).srcs = true ∧ Allowed (addChecks base (b2 .df)) ∧ Allowed (mulChecks base (b2 .df)) := by decide +kernel

theorem witness_MacAndMach :
    base.inSR = false ∧ Allowed (macChecks base (b2 .w)) ∧ allInt (b2 .w).srcs = true ∧ Allowed (macChecks base (b2 .f)) ∧
      allTy .f (b2 .f).srcs = true ∧ Allowed (macChecks base (b2 .df)) ∧ allTy .df (b2 .df).srcs = true ∧
      Allowed (machChecks base (b2 .ud { hd .s8 with accWr := true })) := by decide +kernel

/-- The operands of program P4 of spec/95, without an execution mask. -/
theorem witness_MulThenMachGivesProduct :
    let mulB : Basic2 := { b2 .ud { hd .s8 with noMask := true } with dst := { loc := .arf .acc0 0, ty := .ud, region := .a1 .h1 } }
    let machB : Basic2 := b2 .ud { hd .s8 with noMask := true, accWr := true }
    isDWord mulB.src0.ty = true ∧ isDWord mulB.src1.regType = true ∧ mulB.src0 = machB.src0 ∧ mulB.src1 = machB.src1 ∧
      mulB.src0.loc.isArf = false ∧ (∀ r, mulB.src1 = .reg r → r.loc.isArf = false) ∧ mulB.hdr.access = .align1 ∧
      mulB.hdr.size = machB.hdr.size ∧ base.accDisable = false ∧
      dstTwoRegs base mulB.hdr mulB.dst = dstTwoRegs base machB.hdr machB.dst ∧ machB.dst.loc.isArf = false ∧
      machB.dst.region.chanOn = (fun _ => true) ∧ ∃ t u, exec (.mul mulB) base = .next t ∧ exec (.mach machB) t = .next u := by
  refine ⟨rfl, rfl, rfl, rfl, rfl, ?_, rfl, rfl, by decide +kernel, by decide +kernel, rfl, rfl, ?_⟩
  · intro r hr; cases hr; rfl
  · have := next_with (o := exec (.mul { b2 .ud { hd .s8 with noMask := true } with
        dst := { loc := .arf .acc0 0, ty := .ud, region := .a1 .h1 } }) base)
      (p := fun t => isNext (exec (.mach (b2 .ud { hd .s8 with noMask := true, accWr := true })) t)) (by decide +kernel)
    obtain ⟨t, ht, hp⟩ := this
    obtain ⟨u, hu⟩ := exists_next hp
    exact ⟨t, u, ht, hu⟩

/-- A flag-writing `not`, and the two-source instructions with a negated source. -/
theorem witness_LogicInstructions :
    base.inSR = false ∧ Allowed (logicChecks base (hd .s8) .z (dg 10 .ud) [.reg (rg 2 .ud)]) ∧
      Allowed (logicChecks base (hd .s8) .none (dg 10 .ud) { b2 .ud with src0 := rg 2 .ud .neg }.srcs) := by decide +kernel

theorem witness_Shifts :
    base.inSR = false ∧ Allowed (shlChecks base (b2 .w hdSat)) ∧ packedDWords (b2 .w hdSat) = false ∧
      Allowed (shlChecks base { b2 .d hdSat with dst := dg 10 .w .h2 }) ∧ packedDWords { b2 .d hdSat with dst := dg 10 .w .h2 } = false ∧
      Allowed (shlChecks base (b2 .d)) ∧ Allowed (shiftChecks base (b2 .ud)) ∧ Allowed (shiftChecks base (b2 .d)) := by decide +kernel

/-- An integer to a word, to F, and to DF. -/
theorem witness_MovOfInteger :
    base.inSR = false ∧ Allowed (movChecks base { b1 .w .d with dst := dg 10 .w .h2 }) ∧ Allowed (movChecks base (b1 .f .d)) ∧
      Allowed (movChecks base (b1 .df .d)) ∧ (b1 .df .d).src0.regType.isInt = true := by decide +kernel

theorem witness_MovOfFloat :
    base.inSR = false ∧ Allowed (movChecks base (b1 .f .f)) ∧ Allowed (movChecks base (b1 .d .f)) ∧ Allowed (movChecks base (b1 .f .f hdSat)) ∧
      Allowed (movChecks base (b1 .df .f)) ∧ Allowed (movChecks base (b1 .df .df)) ∧ Allowed (movChecks base (b1 .df .df hdSat)) ∧
      Allowed (movChecks base { b1 .f .df with dst := dg 10 .f }) ∧ Allowed (movChecks base { b1 .f .f hdSat with cmod := .z }) := by
  decide +kernel

theorem witness_Select :
    base.inSR = false ∧ Allowed (selChecks base (b2 .d hdPred)) ∧ Allowed (selChecks base (b2 .d (hd .s8) .l)) ∧
      allInt (b2 .d).srcs = true ∧ Allowed (selChecks base (b2 .f (hd .s8) .ge)) ∧ allTy .f (b2 .f).srcs = true ∧
      Allowed (selChecks base (b2 .df (hd .s8) .l)) ∧ allTy .df (b2 .df).srcs = true := by decide +kernel

theorem witness_Compare :
    base.inSR = false ∧ Allowed (cmpChecks base (b2 .d (hd .s8) .l)) ∧ Allowed (cmpChecks base (b2 .f (hd .s8) .nz)) ∧
      Allowed (cmpChecks base (b2 .df (hd .s8) .ge)) := by decide +kernel

/-- The eighth element of the destination register is the last. -/
theorem witness_MoveIndexed :
    let b : Basic1 := { b1 .d .d with src0 := .reg { loc := .ind 0 0, ty := .d, mod := .none, region := .a1 .v8 .w8 .h1 } }
    base.inSR = false ∧ Allowed (moviChecks base b) ∧ dstSub base b.dst / 4 + 7 < 8 := by decide +kernel

theorem witness_HalfConversions :
    base.inSR = false ∧ Allowed (f32to16Checks base { b1 .w .f with dst := dg 10 .w .h2 }) ∧
      Allowed (f16to32Checks base { b1 .f .w with src0 := .reg (rg 2 .w) }) := by decide +kernel

theorem witness_BitFields :
    base.inSR = false ∧ Allowed (bitChecks base (hd .s8) .none (dg 10 .ud) [.ud] [.reg (rg 2 .ud)]) ∧
      Allowed (bitChecks base (hd .s8) .none (dg 10 .d) [.ud, .d] (b2 .d).srcs) ∧
      Allowed (triChecks (tri .ud) ++ bitChecks base hd16 .none (tri .ud).dst [.ud, .d] (tri .ud).srcs) ∧
      IsTrailingZeros 0x80000000 31 := by
  refine ⟨by decide +kernel, by decide +kernel, by decide +kernel, by decide +kernel, ⟨by decide, by decide, ?_⟩⟩
  decide

theorem witness_CountBitsAndFindLow :
    base.inSR = false ∧ hdSat.sat = true ∧ Allowed (countChecks base (b1 .ud .uw) [.ub, .uw, .ud]) ∧
      Allowed (countChecks base (b1 .ud .ud) [.ud]) := by decide +kernel

theorem witness_LeadingBits :
    base.inSR = false ∧ Allowed (lzdChecks base (b1 .ud .d)) ∧ Allowed (countChecks base (b1 .ud .d) [.d, .ud]) := by decide +kernel

/-- The least denormal, which the mode flushes, and a tie. -/
theorem witness_RoundingToIntegral :
    (FVal.ofBits fmtF (1#32).toNat).isSpecial = false ∧ (FVal.ofBits fmtF (0x40200000#32).toNat).isSpecial = false := by decide +kernel

theorem witness_RoundingSteps :
    base.inSR = false ∧ Allowed (roundChecks base (b1 .f .f)) ∧ Allowed (frcChecks base (b1 .f .f)) ∧ base.launch.frcErratum = false := by
  decide +kernel

/-- Of eight channels, and of 32, which the accumulator does not have. -/
theorem witness_SumOfAbsoluteDifferences :
    base.inSR = false ∧ Allowed (sadChecks base { b2 .ub with dst := dg 10 .uw }) ∧
      Allowed (sadChecks base { b2 .ub (hd .s32) with
        dst := dg 10 .uw, src0 := { rg 2 .ub with region := .a1 .v32 .w16 .h1 }, src1 := .reg { rg 3 .ub with region := .a1 .v32 .w16 .h1 } }) := by
  decide +kernel

theorem witness_DotProducts :
    base.inSR = false ∧ Allowed (dotChecks base (b2 .f)) ∧
      base.launch.dotOrder = .add (.add (.add (.term 0) (.term 1)) (.term 2)) (.term 3) := by decide +kernel

theorem witness_PlanesAndInterpolation :
    base.inSR = false ∧ Allowed (lineChecks base { b2 .f with src0 := scalar 2 .f }) ∧
      Allowed (plnChecks base { b2 .f with src0 := scalar 2 .f }) ∧ Allowed (madChecks base (tri .f)) ∧
      Allowed (madChecks base (tri .df { hd16 with size := .s4 })) ∧ Allowed (lrpChecks base (tri .f)) ∧ base.launch.madFused = false ∧
      Allowed (lineChecks base { b2 .f with src0 := { arfSrc .a0 0 with ty := .f } }) ∧
      AllFinite [planeCoeff base (scalar 2 .f) 0, planeCoeff base (scalar 2 .f) 3] := by
  refine ⟨by decide +kernel, by decide +kernel, by decide +kernel, by decide +kernel, by decide +kernel, by decide +kernel,
    by decide +kernel, by decide +kernel, by unfold AllFinite; decide +kernel⟩

/-- 1 + 2^-23 squared less 1 + 2^-22: rounded once it is 2^-46 (00_scope R6). -/
theorem test_pln_fused :
    after (exec (.pln { b2 .f with src0 := scalar 2 .f })
      (setDs (setDs { base with launch := { base.launch with madFused := true } } 2 [0x3F800001, 0, 0, 0xBF800002]) 3 [0x3F800001]))
      (getDs · 10 1) = some [0x28800000] := by decide +kernel

/-- The quotient alone and the remainder alone; both, with the remainder in the last register. -/
theorem witness_IntegerDivision :
    Allowed (mathChecks base (mathOf 0xC .d false)) ∧ Allowed (mathChecks base (mathOf 0xD .ud false)) ∧
      Allowed (mathChecks base { mathOf 0xB .d false with dst := dg 126 .d }) := by decide +kernel

theorem witness_MathSpecialValues :
    base.inSR = false ∧ base.altMode = false ∧
      ([1, 2, 3, 4, 5, 6, 7] : List (BitVec 4)).all (fun fc => firstViolation (mathChecks base (mathOf fc .f true)) = none &&
        !isIntDivFC fc && !isReservedFC fc) = true ∧
      ([9, 10] : List (BitVec 4)).all (fun fc => firstViolation (mathChecks base (mathOf fc .f false)) = none &&
        !isIntDivFC fc && !isReservedFC fc) = true := by decide +kernel

/-- ALT mode, and the unary functions whose precision the two statements give. -/
theorem witness_MathPrecision :
    base.inSR = false ∧ { base with cr00 := 1 }.altMode = true ∧
      ([1, 2, 3, 4, 5, 6, 7] : List (BitVec 4)).all (fun fc => firstViolation (mathChecks base (mathOf fc .f true)) = none) = true ∧
      firstViolation (mathChecks { base with cr00 := 1 } (mathOf 10 .f false)) = none ∧
      FVal.ofBits fmtF 0x40000000 = .fin false 0x800000 (-22) := by decide +kernel

end Sys2Proof.Tests
end

section
/-! SUPPORT. The legal states: instruction addresses, masks, and the fields that legality looks at (spec/10_state.md R60, R72 to R78, R82, R83; spec/20_memory.md R203, R205). -/

namespace Sys2Proof.Machine

/-! ## Instruction addresses -/

theorem aligned8_iff (a : DWord) : aligned8 a = true ↔ a.toNat % 8 = 0 := by
  have hmod : (a &&& 7).toNat = a.toNat % 8 := by
    rw [BitVec.toNat_and]
    exact Nat.and_two_pow_sub_one_eq_mod a.toNat 3
  rw [aligned8, decide_eq_true_iff, BitVec.toNat_eq, hmod]
  rfl

theorem aligned8_add {a b : DWord} (ha : aligned8 a = true) (hb : aligned8 b = true) : aligned8 (a + b) = true := by
  rw [aligned8_iff] at *
  rw [BitVec.toNat_add]
  omega

theorem aligned8_shiftLeft (a : DWord) : aligned8 (a <<< 3) = true := by
  rw [aligned8_iff, BitVec.toNat_shiftLeft, Nat.shiftLeft_eq]
  omega

theorem aligned8_alignIP (a : DWord) : aligned8 (alignIP a) = true := by
  rw [aligned8, alignIP, BitVec.and_assoc]
  simp

theorem alignIP_of_aligned8 {a : DWord} (h : aligned8 a = true) : alignIP a = a := by
  have hlow : a &&& 7 = 0 := by simpa [aligned8] using h
  calc alignIP a = alignIP a ||| (a &&& 7) := by rw [hlow]; exact BitVec.or_zero.symm
    _ = a &&& (0xFFFFFFF8 ||| 7) := (BitVec.and_or_distrib_left ..).symm
    _ = a := BitVec.and_allOnes

theorem aligned8_sip (l : Launch) : aligned8 l.sip = true := by
  rw [aligned8_iff, Launch.sip, BitVec.toNat_append]
  simp [Nat.shiftLeft_eq]
  omega

theorem aligned8_ite {p : Prop} [Decidable p] {a b : DWord} (ha : aligned8 a = true) (hb : aligned8 b = true) :
    aligned8 (if p then a else b) = true := by
  split <;> assumption

/-- Every channel IP of a vector is an instruction address. -/
def AllAligned (p : Vector DWord 32) : Prop := ∀ n : Fin 32, aligned8 p[n] = true

theorem allAligned_ofFn {f : Fin 32 → DWord} (h : ∀ c, aligned8 (f c) = true) : AllAligned (Vector.ofFn f) := by
  intro n
  simpa using h n

theorem allAligned_map {p : Vector DWord 32} {f : DWord → DWord} (h : ∀ n : Fin 32, aligned8 (f p[n]) = true) :
    AllAligned (p.map f) := by
  intro n
  simpa using h n

theorem allAligned_ite {c : Prop} [Decidable c] {p q : Vector DWord 32} (hp : AllAligned p) (hq : AllAligned q) :
    AllAligned (if c then p else q) := by
  split <;> assumption

/-! ## Populated bits -/

theorem or_within {v w m : DWord} (hv : v &&& ~~~m = 0) (hw : w &&& ~~~m = 0) : (v ||| w) &&& ~~~m = 0 := by
  rw [BitVec.and_comm, BitVec.and_or_distrib_left, BitVec.and_comm _ v, BitVec.and_comm _ w, hv, hw]
  rfl

theorem and_within_left {v m : DWord} (w : DWord) (hv : v &&& ~~~m = 0) : (v &&& w) &&& ~~~m = 0 := by
  rw [BitVec.and_comm v, BitVec.and_assoc, hv]
  exact BitVec.and_zero

theorem and_within_right {w m : DWord} (v : DWord) (hw : w &&& ~~~m = 0) : (v &&& w) &&& ~~~m = 0 := by
  rw [BitVec.and_assoc, hw]
  exact BitVec.and_zero

/-- A value whose unpopulated bits are zero is what the mask keeps of it. -/
theorem and_eq_of_within {v m : DWord} (hv : v &&& ~~~m = 0) : v &&& m = v := by
  calc v &&& m = (v &&& m) ||| (v &&& ~~~m) := by simp [hv]
    _ = v &&& (m ||| ~~~m) := (BitVec.and_or_distrib_left ..).symm
    _ = v := by rw [BitVec.or_not_self, BitVec.and_allOnes]

theorem cr00Stored_within (old new : DWord) : cr00Stored old new &&& ~~~cr00Mask = 0 :=
  or_within (and_within_right _ (by decide)) (and_within_right _ (by decide))

theorem cr01Stored_within (inSR : Bool) (old new : DWord) : cr01Stored inSR old new &&& ~~~cr01Mask = 0 := by
  refine or_within (and_within_right _ (by decide)) ?_
  cases inSR
  · exact and_within_right _ (by decide)
  · exact BitVec.zero_and

theorem a0Stored_lt {k : Nat} (hk : 2 ≤ k) (v : Word) : (a0Stored k v).toNat < 4096 := by
  rw [a0Stored, if_neg (by omega), BitVec.toNat_and]
  exact Nat.lt_of_le_of_lt Nat.and_le_right (by decide)

/-! ## The fields that legality looks at -/

/-- The fields that `State.Inv` speaks of. -/
def State.legalPart (s : State) :=
  (s.imem, s.ip, s.nextIP, s.launch, s.cr02, s.pcIP, s.a0, s.cr00, s.cr01, s.sr00, s.sr01)

theorem State.Inv.congr {s t : State} (h : s.Inv) (e : t.legalPart = s.legalPart) : t.Inv := by
  simp only [State.legalPart, Prod.mk.injEq] at e
  obtain ⟨himem, hip, hnext, hlaunch, haip, hpc, ha0, hcr00, hcr01, hsr00, hsr01⟩ := e
  exact {
    imem := himem ▸ h.imem, ip := hip ▸ h.ip, nextIP := hnext ▸ h.nextIP, sip := hlaunch ▸ h.sip, aip := haip ▸ h.aip
    pcIP := hpc ▸ h.pcIP, a0 := ha0 ▸ h.a0, cr00 := hcr00 ▸ h.cr00, cr01 := hcr01 ▸ h.cr01
    sr00 := hsr00 ▸ h.sr00, sr01 := hsr01 ▸ h.sr01 }

/-- Settles O5: every field of the reset state is a constant. -/
theorem resetInv : Obligations.ResetInv where
  imem := rfl
  ip := by decide
  nextIP := by decide
  sip := by decide
  aip := by decide
  pcIP := by simp [State.reset, aligned8]
  a0 := by simp [State.reset]
  cr00 := by decide
  cr01 := by decide
  sr00 := by decide
  sr01 := by decide

end Sys2Proof.Machine
end

section
/-! SUPPORT. What the writes, the end of an instruction and the branches do to the legal states and to the flags (spec/10_state.md R57 to R83; spec/42_flow_control.md R630 to R652). -/

namespace Sys2Proof.Machine

/-! ## Writes keep the legal states -/

theorem writeArf_inv {s : State} (h : s.Inv) (r : Arf) (ws : List (Nat × Byte)) : (writeArf s r ws).Inv := by
  unfold writeArf
  split
  · exact h
  cases r with
  | null | acc0 | acc1 => exact h
  | f0 | f1 | tdr0 => exact h.congr rfl
  | n0 | tm0 =>
    dsimp only
    split
    · exact h.congr rfl
    · exact h
  | a0 => exact { h with a0 := fun k hk => by simpa using a0Stored_lt hk _ }
  | sr0 => exact { h with sr00 := and_within_right _ (by decide), sr01 := and_within_right _ (by decide) }
  | cr0 => exact { h with cr00 := cr00Stored_within _ _, cr01 := cr01Stored_within _ _ _, aip := aligned8_alignIP _ }
  | ip => exact { h with nextIP := aligned8_ite (aligned8_alignIP _) h.nextIP }

theorem writeDst_inv {s : State} (h : s.Inv) (hd : Header) (d : Dst) (en : Nat → Bool) (out : Nat → Out) :
    (writeDst s hd d en out).Inv := by
  unfold writeDst
  split
  · split
    · exact h.congr rfl
    · exact h
  · split
    · exact h.congr rfl
    · exact h
  · exact writeArf_inv h _ _
  · exact h.congr rfl

theorem setFlagBits_legalPart (s : State) (reg : Bool) (ws : List (Nat × Bool)) :
    (setFlagBits s reg ws).legalPart = s.legalPart := by
  cases reg <;> rfl

theorem readTm0_legalPart (s : State) (reads : Bool) : (readTm0 s reads).legalPart = s.legalPart := by
  cases reads <;> rfl

theorem Effect.apply_inv (e : Effect) {s : State} (h : s.Inv) : (e.apply s).Inv := by
  have hread : (readTm0 s e.tm0).Inv := h.congr (readTm0_legalPart s e.tm0)
  refine (writeDst_inv hread e.hdr e.dst e.en e.out).congr ?_
  exact write_field State.legalPart e _ setFlagBits_legalPart (fun _ _ _ _ _ => rfl) (fun _ _ _ _ => rfl)
    fun _ _ _ _ => rfl

theorem divBoth_inv {s : State} (h : s.Inv) (m : Math) : (divBoth s m).Inv := h.congr rfl

theorem advance_inv {s : State} (h : s.Inv) (spf : Bool) : (advance spf s).Inv :=
  { h with
    ip := h.nextIP
    pcIP := allAligned_ite h.pcIP (allAligned_map fun n => aligned8_ite h.nextIP (h.pcIP n)) }

theorem returnToApp_inv {s : State} (h : s.Inv) : (returnToApp s).Inv := { h with ip := aligned8_alignIP _ }

theorem raise_inv {s : State} (h : s.Inv) (aip : DWord) : (raise s aip).Inv :=
  { h with ip := aligned8_sip _, aip := aligned8_alignIP _, cr00 := or_within h.cr00 (by decide) }

/-! ## Writes and the flags -/

/-- A data instruction changes the flag bits that its conditional modifier names (10_state R69). -/
theorem Effect.apply_flagReg_kept (e : Effect) (s : State) (hf0 : e.dst.loc.names .f0 = false)
    (hf1 : e.dst.loc.names .f1 = false) (r : Bool) (k : Nat)
    (hk : e.flags = true → r = e.hdr.flagReg →
      ∀ n, n < e.hdr.count → wrEn s e.hdr n = true → flagIndex e.hdr n ≠ k) :
    ((e.apply s).flagReg r).getLsbD k = (s.flagReg r).getLsbD k := by
  have hread : ∀ (p : Bool) n, wrEn (readTm0 s p) e.hdr n = wrEn s e.hdr n := fun p n => by cases p <;> rfl
  have hdst : ∀ r, (writeDst (readTm0 s e.tm0) e.hdr e.dst e.en e.out).flagReg r = s.flagReg r :=
    flagReg_of_eq ((writeDst_f0 _ _ _ _ _ hf0).trans (readTm0_f0 _ _)) ((writeDst_f1 _ _ _ _ _ hf1).trans (readTm0_f1 _ _))
  rw [Effect.apply, write_flagReg]
  by_cases hflags : e.flags = true
  · rw [if_pos hflags, setFlagBits_flagReg, hdst, hdst]
    by_cases hr : r = e.hdr.flagReg
    · rw [if_pos hr, flagWrites_kept, hr]
      intro n hn hen
      exact hk hflags hr n hn (hread e.tm0 n ▸ hen)
    · rw [if_neg hr]
  · rw [if_neg hflags, hdst]

/-! ## The end of an instruction -/

theorem guarded_next {v : Option Restriction} {k : Host.Outcome State Fault Refusal} {t : State}
    (h : guarded v k = .next t) : v = none ∧ k = .next t := by
  cases v with
  | none => exact ⟨rfl, h⟩
  | some r => exact nomatch h

theorem finish_next {s0 s1 t : State} (h : finish s0 s1 = .next t) : t = returnToApp s1 ∨ t = advance s0.spf s1 := by
  unfold finish at h
  split at h
  · split at h
    · exact .inl (Host.Outcome.next.inj h).symm
    · exact nomatch h
  · exact .inr (Host.Outcome.next.inj h).symm

theorem finish_inv {s0 s1 t : State} (h : finish s0 s1 = .next t) (hinv : s1.Inv) : t.Inv := by
  rcases finish_next h with rfl | rfl
  · exact returnToApp_inv hinv
  · exact advance_inv hinv _

theorem finish_flagReg {s0 s1 t : State} (h : finish s0 s1 = .next t) (r : Bool) : t.flagReg r = s1.flagReg r := by
  rcases finish_next h with rfl | rfl <;> rfl

/-! ## What an instruction that is no data instruction leaves -/

/-- Instruction pointers, the call mask, general registers, scoreboard marks, notification counts, messages and the live
state: all that control flow, `wait` and `send` write. -/
def ControlFrame (s t : State) : Prop :=
  t = { s with
    ip := t.ip, pcIP := t.pcIP, callMask := t.callMask, grf := t.grf, dep := t.dep, n00 := t.n00, n01 := t.n01, n02 := t.n02,
    messages := t.messages, outstanding := t.outstanding, run := t.run }

/-- IP and the channel IPs are instruction addresses. -/
def AddressesAligned (s : State) : Prop := aligned8 s.ip = true ∧ AllAligned s.pcIP

theorem ControlFrame.inv {s t : State} (h : ControlFrame s t) (hs : s.Inv) (ha : AddressesAligned t) : t.Inv := by
  have hmoved : State.Inv { s with ip := t.ip, pcIP := t.pcIP } := { hs with ip := ha.1, pcIP := ha.2 }
  refine hmoved.congr ?_
  rw [h]
  rfl

theorem ControlFrame.flagReg {s t : State} (h : ControlFrame s t) (r : Bool) : t.flagReg r = s.flagReg r := by
  rw [h]
  rfl

/-! ## The addresses that branches write -/

theorem State.Inv.addresses {s : State} (h : s.Inv) : AddressesAligned s := ⟨h.ip, h.pcIP⟩

/-- A branch target: IP plus an offset in 8-byte units (42 R630). -/
theorem State.Inv.target {s : State} (h : s.Inv) (off : BitVec 16) : aligned8 (target s off) = true :=
  aligned8_add h.ip (aligned8_shiftLeft _)

theorem State.Inv.movePcIP {s : State} (h : s.Inv) (en : Nat → Bool) {taken fall : DWord} (ht : aligned8 taken = true)
    (hf : aligned8 fall = true) : AllAligned (movePcIP s en taken fall) :=
  allAligned_ofFn fun c => aligned8_ite ht (aligned8_ite hf (h.pcIP c))

theorem State.Inv.moveEnabled {s : State} (h : s.Inv) (en : Nat → Bool) {taken : DWord} (ht : aligned8 taken = true) :
    AllAligned (moveEnabled s en taken) :=
  allAligned_ofFn fun c => aligned8_ite ht (h.pcIP c)

theorem State.Inv.moveGroup {s : State} (h : s.Inv) (hd : Header) {taken : DWord} (ht : aligned8 taken = true) :
    AllAligned (moveGroup s hd taken) :=
  allAligned_ofFn fun c => aligned8_ite ht (aligned8_ite h.nextIP (h.pcIP c))

theorem State.Inv.ifPcIP {s : State} (h : s.Inv) (hd : Header) {park : DWord} (hp : aligned8 park = true) :
    AllAligned (ifPcIP s hd park) :=
  allAligned_ofFn fun c => aligned8_ite h.nextIP (aligned8_ite hp (h.pcIP c))

theorem State.Inv.callPcIP {s : State} (h : s.Inv) (hd : Header) {dest : DWord} (hdest : aligned8 dest = true) :
    AllAligned (callPcIP s hd dest) :=
  allAligned_ite h.pcIP (h.movePcIP _ hdest h.nextIP)

end Sys2Proof.Machine
end

section
/-! SUPPORT. What a completed instruction did, constructor by constructor (spec/40_common_execution.md R400; spec/42_flow_control.md R630 to R652; spec/43_misc_send_wait.md R700 to R705). -/

namespace Sys2Proof.Machine

/-! ## Control flow, wait and send -/

/-- A state that control flow, `wait` or `send` leaves: the frame, and instruction addresses in every IP. -/
structure ControlStep (s t : State) : Prop where
  frame : ControlFrame s t
  addresses : s.Inv → AddressesAligned t

theorem ControlStep.refl (s : State) : ControlStep s s := ⟨rfl, State.Inv.addresses⟩

theorem ControlStep.ite {s t u : State} {p : Prop} [Decidable p] (ht : ControlStep s t) (hu : ControlStep s u) :
    ControlStep s (if p then t else u) := by
  split <;> assumption

theorem ControlStep.branchTo {s : State} {p : Vector DWord 32} {ip : DWord} (hp : s.Inv → AllAligned p)
    (hip : s.Inv → aligned8 ip = true) : ControlStep s (branchTo s p ip) :=
  ⟨rfl, fun h => ⟨hip h, hp h⟩⟩

/-- The channel IPs, IP and the call mask, which `call` and `ret` write (42 R651, R652). -/
theorem ControlStep.callMask {s : State} {p : Vector DWord 32} {ip mask : DWord} (hp : s.Inv → AllAligned p)
    (hip : s.Inv → aligned8 ip = true) : ControlStep s { s with pcIP := p, ip := ip, callMask := mask } :=
  ⟨rfl, fun h => ⟨hip h, hp h⟩⟩

theorem ControlStep.converge {s : State} {p : Vector DWord 32} {away : DWord} (hp : s.Inv → AllAligned p)
    (ha : s.Inv → aligned8 away = true) : ControlStep s (converge s p away) :=
  .branchTo hp fun h => aligned8_ite h.nextIP (ha h)

theorem ControlStep.spfBranch {s : State} {dest : DWord} (hd : s.Inv → aligned8 dest = true) :
    ControlStep s (spfBranch s dest) :=
  ⟨rfl, fun h => ⟨hd h, h.pcIP⟩⟩

theorem ControlStep.jumpAll {s : State} {dest : DWord} (hd : s.Inv → aligned8 dest = true) : ControlStep s (jumpAll s dest) :=
  ⟨rfl, fun h => ⟨hd h, allAligned_ite h.pcIP (allAligned_map fun n => aligned8_ite (hd h) (h.pcIP n))⟩⟩

theorem ControlStep.advance (s : State) (spf : Bool) : ControlStep s (advance spf s) :=
  ⟨rfl, fun h => (advance_inv h spf).addresses⟩

/-- `call` stores the return pair and marks its register besides (42 R651). -/
theorem ControlStep.call {s u : State} (hu : ControlStep s u) (h : Header) (jumped : Bool) (addr : Nat) (lo hi : DWord) :
    ControlStep s (markDst (if jumped then storePair u addr lo hi else u) h jumped [addr / 32]) where
  frame := by
    have hframe := hu.frame
    unfold ControlFrame at *
    cases jumped <;> (rw [hframe]; rfl)
  addresses hs := by cases jumped <;> exact hu.addresses hs

theorem ControlStep.addNotify (s : State) (k : Fin 3) (spf : Bool) :
    ControlStep s (Machine.advance spf (s.addNotify k false)) := by
  match k with
  | 0 | 1 | 2 => exact ⟨rfl, fun h => (advance_inv h spf).addresses⟩

/-- The response that a message is owed adds marks and the response, and nothing else (20_memory R212). -/
theorem expectResponse_eq (s : State) (h : Header) (msg : Message) :
    expectResponse s h msg = { s with
      outstanding := (expectResponse s h msg).outstanding, dep := (expectResponse s h msg).dep } := by
  unfold expectResponse
  split
  · rfl
  · split <;> rfl

theorem ControlStep.send (s : State) (m : Send) : ControlStep s (sendState s m) := by
  unfold sendState
  dsimp only
  rw [expectResponse_eq]
  exact .ite ⟨rfl, fun h => h.addresses⟩ ⟨rfl, fun h => (advance_inv h s.spf).addresses⟩

/-! ## Every instruction -/

/-- How an instruction that completed went from `s` to `t`: the results of a data instruction, with the flags that its
conditional modifier writes; the two results of `math` with both; control; or `illegal`. -/
inductive Completion (i : Instr) (s t : State) : Prop where
  | data (e : Effect)
      (flags : e.flags = true → ∃ cm, flagWriter i = some (e.hdr, cm) ∧ cm ≠ .none)
      (dst : flagDst i = false → e.dst.loc.names .f0 = false ∧ e.dst.loc.names .f1 = false)
      (done : finish s (e.apply s) = .next t)
  | division (m : Math) (done : finish s (divBoth s m) = .next t)
  | control (step : ControlStep s t)
  | raised (done : t = raise { s with cr01 := s.cr01 ||| 0x10000000 } s.ip)
  | latched (done : t = advance s.spf { s with cr01 := s.cr01 ||| 0x10000000 })

theorem Completion.ofControl {i : Instr} {s t u : State} {v : Option Restriction} (h : guarded v (.next u) = .next t)
    (hu : ControlStep s u) : Completion i s t := by
  obtain ⟨-, ⟨⟩⟩ := guarded_next h
  exact .control hu

/-- A data instruction whose conditional modifier writes flags. -/
theorem Completion.ofWriter {i : Instr} {s t : State} {v : Option Restriction} {e : Effect} {cm : CondMod}
    (h : execute s v e = .next t) (hflags : e.flags = (cm != .none)) (hw : flagWriter i = some (e.hdr, cm))
    (hd : flagDst i = false → e.dst.loc.names .f0 = false ∧ e.dst.loc.names .f1 = false) : Completion i s t :=
  .data e (fun hf => ⟨cm, hw, by simpa [hflags] using hf⟩) hd (guarded_next h).2

/-- A data instruction that writes no flag by a modifier. -/
theorem Completion.ofSilent {i : Instr} {s t : State} {v : Option Restriction} {e : Effect} (h : execute s v e = .next t)
    (hflags : e.flags = false) (hd : flagDst i = false → e.dst.loc.names .f0 = false ∧ e.dst.loc.names .f1 = false) :
    Completion i s t :=
  .data e (fun hf => absurd (hflags ▸ hf) (by simp)) hd (guarded_next h).2

/-- The destination of an allowed `math` is a general register (43 R703). -/
theorem mathChecks_dst {s : State} {m : Math} (h : Allowed (mathChecks s m)) : m.dst.loc.isGrf = true := by
  have hloc := allowed_mem h (c := (!(m.dst.loc.isGrf && m.src0.loc.isGrf), .operand)) (by simp [mathChecks])
  simp only [Bool.not_eq_false', Bool.and_eq_true] at hloc
  exact hloc.1

theorem Loc.names_of_isGrf {l : Loc} (h : l.isGrf = true) (r : Arf) : l.names r = false := by
  cases l with
  | grf _ _ => rfl
  | arf _ _ | ind _ _ => exact absurd h Bool.false_ne_true

theorem completion_of_math {m : Math} {s t : State} (h : execMath m s = .next t) : Completion (.math m) s t := by
  unfold execMath at h
  split at h
  · exact nomatch h
  obtain ⟨hallowed, hdone⟩ := guarded_next h
  have hnames := Loc.names_of_isGrf (mathChecks_dst hallowed)
  split at hdone
  · exact .division m hdone
  · exact .data _ (fun hf => absurd hf Bool.false_ne_true) (fun _ => ⟨hnames .f0, hnames .f1⟩) hdone

theorem completion_of_illegal {s t : State} (h : execIllegal s = .next t) : Completion .illegal s t := by
  unfold execIllegal at h
  dsimp only at h
  split at h
  · exact .raised (Host.Outcome.next.inj h).symm
  · exact .latched (Host.Outcome.next.inj h).symm

theorem completion_of_wait {b : Basic1} {s t : State} (h : execWait b s = .next t) : Completion (.wait b) s t := by
  obtain ⟨-, hdone⟩ := guarded_next h
  split at hdone
  · exact nomatch hdone
  · split at hdone
    · obtain ⟨⟩ := hdone
      exact .control (.addNotify s _ s.spf)
    · obtain ⟨⟩ := hdone
      exact .control ⟨rfl, State.Inv.addresses⟩

theorem completion_of_ret {b : Basic1} {s t : State} (h : execRet b s = .next t) : Completion (.ret b) s t :=
  .ofControl h (.ite
    (.callMask (fun hs => hs.callPcIP _ (aligned8_alignIP _)) fun _ => aligned8_alignIP _)
    (.callMask (fun hs => hs.callPcIP _ (aligned8_alignIP _)) State.Inv.nextIP))

theorem completion_of_call {c : Call} {s t : State} (h : execCall c s = .next t) : Completion (.call c) s t :=
  .ofControl h (.call
    (.callMask (fun hs => hs.callPcIP _ (hs.target _)) fun hs => aligned8_ite (hs.target _) hs.nextIP) _ _ _ _ _)

theorem completion_of_exec {i : Instr} {s t : State} (h : exec i s = .next t) : Completion i s t := by
  cases i with
  | mov b | not_ b | f32to16 b | f16to32 b | frc b | rndu b | rndd b | rnde b | rndz b | lzd b =>
    exact .ofWriter h rfl rfl Bool.or_eq_false_iff.mp
  | and_ b | or_ b | xor_ b | shr b | shl b | asr b | cmp b | cmpn b | add b | mul b | avg b | mac b | mach b | addc b | subb b
  | sad2 b | sada2 b | dp4 b | dph b | dp3 b | dp2 b | line b | pln b =>
    exact .ofWriter h rfl rfl Bool.or_eq_false_iff.mp
  | mad t | lrp t => exact .ofWriter h rfl rfl fun _ => ⟨rfl, rfl⟩
  | sel b | movi b | bfrev b | bfi1 b | fbh b | fbl b | cbit b => exact .ofSilent h rfl Bool.or_eq_false_iff.mp
  | bfe t | bfi2 t => exact .ofSilent h rfl fun _ => ⟨rfl, rfl⟩
  | math m => exact completion_of_math h
  | illegal => exact completion_of_illegal h
  | nop d => exact .control (Host.Outcome.next.inj h ▸ .advance s s.spf)
  | case_ b => exact nomatch h
  | wait b => exact completion_of_wait h
  | send m => exact .ofControl h (.send s m)
  | sendc m => exact .ofControl h (.ite (.refl s) (.send s m))
  | call c => exact completion_of_call h
  | ret b => exact completion_of_ret h
  | jmpi b =>
    exact .ofControl h (.jumpAll fun hs => aligned8_ite (aligned8_add hs.nextIP (aligned8_shiftLeft _)) hs.nextIP)
  | brd b =>
    exact .ofControl h (.ite (.spfBranch fun hs => aligned8_ite (hs.target _) hs.nextIP)
      (.branchTo (fun hs => hs.movePcIP _ (hs.target _) hs.nextIP) fun hs => aligned8_ite (hs.target _) hs.nextIP))
  | brc b | halt b =>
    exact .ofControl h (.ite (.spfBranch fun hs => aligned8_ite (hs.target _) hs.nextIP)
      (.converge (fun hs => hs.movePcIP _ (hs.target _) hs.nextIP) fun hs => hs.target _))
  | if_ b =>
    exact .ofControl h (.ite (.spfBranch fun hs => aligned8_ite hs.nextIP (hs.target _))
      (.converge (fun hs => hs.ifPcIP _ (hs.target _)) fun hs => hs.target _))
  | else_ b =>
    exact .ofControl h (.ite (.spfBranch fun hs => hs.target _)
      (.converge (fun hs => hs.moveEnabled _ (hs.target _)) fun hs => hs.target _))
  | endif b =>
    exact .ofControl h (.ite (.spfBranch fun hs => hs.nextIP) (.ite (.advance s false) (.spfBranch fun hs => hs.target _)))
  | while_ b =>
    exact .ofControl h (.ite (.spfBranch fun hs => aligned8_ite (hs.target _) hs.nextIP)
      (.branchTo (fun hs => hs.movePcIP _ (hs.target _) hs.nextIP) fun hs => aligned8_ite (hs.target _) hs.nextIP))
  | break_ b =>
    exact .ofControl h (.ite (.spfBranch fun hs => aligned8_ite (hs.target _) hs.nextIP)
      (.branchTo (fun hs => hs.moveGroup _ (hs.target _)) fun hs => aligned8_ite hs.nextIP (hs.target _)))
  | cont b =>
    exact .ofControl h (.ite (.spfBranch fun hs => aligned8_ite (hs.target _) hs.nextIP)
      (.converge (fun hs => hs.moveGroup _ (hs.target _)) fun hs => hs.target _))

end Sys2Proof.Machine
end

section
/-! SUPPORT. The step keeps the legal states, and the flags outside the enabled channels (spec/10_state.md R60, R69, R72 to R83). -/

namespace Sys2Proof.Machine

/-! ## Every instruction keeps the legal states -/

/-- The status bit that `illegal` sets is populated (10_state R77). -/
theorem latchIllegal_inv {s : State} (h : s.Inv) : State.Inv { s with cr01 := s.cr01 ||| 0x10000000 } :=
  { h with cr01 := or_within h.cr01 (by decide) }

theorem exec_inv {i : Instr} {s t : State} (h : exec i s = .next t) (hs : s.Inv) : t.Inv := by
  cases completion_of_exec h with
  | data e _ _ done => exact finish_inv done (e.apply_inv hs)
  | division m done => exact finish_inv done (divBoth_inv hs m)
  | control step => exact step.frame.inv hs (step.addresses hs)
  | raised done => exact done ▸ raise_inv (latchIllegal_inv hs) s.ip
  | latched done => exact done ▸ advance_inv (latchIllegal_inv hs) s.spf

/-! ## Issue, breakpoints and exceptions -/

/-- An instruction has 8 or 16 bytes (30 R253). -/
theorem decodeBytes_length {bs : List Byte} {i : Instr} {len : Nat} (h : decodeBytes bs = .ok (i, len)) :
    len = 8 ∨ len = 16 := by
  unfold decodeBytes at h
  split at h
  · exact nomatch h
  dsimp only at h
  split at h
  · split at h
    · exact .inl (congrArg Prod.snd (Except.ok.inj h)).symm
    · exact nomatch h
  split at h
  · exact nomatch h
  · split at h
    · exact .inr (congrArg Prod.snd (Except.ok.inj h)).symm
    · exact nomatch h

theorem issue_inv {s : State} (h : s.Inv) (i : Instr) {len : Nat} (hlen : len = 8 ∨ len = 16) : (issue s i len).Inv := by
  have hbytes : aligned8 (BitVec.ofNat 32 len) = true := by rcases hlen with rfl | rfl <;> decide
  exact { h with nextIP := aligned8_add h.ip hbytes }

theorem latchBreak_inv {s : State} (h : s.Inv) : (latchBreak s).Inv := { h with cr01 := or_within h.cr01 (by decide) }

theorem takeException_inv {s : State} (h : s.Inv) : (takeException s).Inv := (raise_inv h s.ip).congr rfl

theorem breakCheck_inv {s s' : State} {trig : Bool} (h : s.Inv) (hb : breakCheck s trig = some s') : s'.Inv := by
  have hlatch : State.Inv (if trig then latchBreak s else s) := by
    split
    · exact latchBreak_inv h
    · exact h
  unfold breakCheck at hb
  split at hb
  · exact Option.some.inj hb ▸ hlatch
  split at hb
  · split at hb
    · exact Option.some.inj hb ▸ { h with cr00 := and_within_left _ h.cr00 }
    · exact nomatch hb
  · exact Option.some.inj hb ▸ hlatch

theorem runInstr_inv {s t : State} {op : Byte} {i : Instr} {len : Nat} (h : s.Inv) (hlen : len = 8 ∨ len = 16)
    (hr : runInstr s op i len = .next t) : t.Inv := by
  unfold runInstr at hr
  split at hr
  · exact Host.Outcome.next.inj hr ▸ takeException_inv (latchBreak_inv h)
  next s1 hbreak =>
    split at hr
    · exact Host.Outcome.next.inj hr ▸ h
    · exact exec_inv hr (issue_inv (breakCheck_inv h hbreak) i hlen)

/-! ## The thread and the host -/

theorem runBoundary_inv {s t : State} (h : s.Inv) (hr : runBoundary s = .next t) : t.Inv := by
  unfold runBoundary at hr
  split at hr
  · exact Host.Outcome.next.inj hr ▸ takeException_inv h
  split at hr
  · exact nomatch hr
  split at hr
  · exact nomatch hr
  next hdecode => exact runInstr_inv h (decodeBytes_length hdecode) hr

theorem addNotify_inv {s : State} (h : s.Inv) (k : Fin 3) (up : Bool) : (s.addNotify k up).Inv := by
  match k with
  | 0 | 1 | 2 => exact h.congr rfl

theorem withRun_inv {s : State} (h : s.Inv) (r : RunState) : State.Inv { s with run := r } := h.congr rfl

theorem runWaiting_inv {s t : State} {k : Fin 3} (h : s.Inv) (hr : runWaiting s k = .next t) : t.Inv := by
  unfold runWaiting at hr
  split at hr
  · exact Host.Outcome.next.inj hr ▸ takeException_inv (withRun_inv h .running)
  split at hr
  · exact Host.Outcome.next.inj hr ▸ advance_inv (withRun_inv (addNotify_inv h k false) .running) s.spf
  · exact Host.Outcome.next.inj hr ▸ h

theorem threadStep_inv {s t : State} (h : s.Inv) (hr : threadStep s = .next t) : t.Inv := by
  unfold threadStep at hr
  split at hr
  · exact nomatch hr
  · exact runWaiting_inv h hr
  · exact runBoundary_inv h hr

/-- A response phase writes general registers, what is owed, and marks (20_memory R212). -/
theorem deliver_legalPart (s : State) (idx : Nat) (phase : BitVec 5) (data : Reg256) (mask : BitVec 8) :
    (deliver s idx phase data mask).legalPart = s.legalPart := by
  unfold deliver
  split
  · rfl
  split
  · rfl
  · dsimp only
    split <;> rfl

theorem preempt_inv {s : State} (h : s.Inv) : (preempt s).Inv := by
  unfold preempt
  split
  · exact takeException_inv (withRun_inv h .running)
  · exact h

/-- The Priority field that the host raises is populated (10_state R72). -/
theorem setPriority_within {v : DWord} (h : v &&& ~~~sr00Stored = 0) (p : BitVec 3) :
    ((v &&& 0xFFF8FFFF) ||| (p.zeroExtend 32 <<< 16)) &&& ~~~sr00Stored = 0 := by
  refine or_within (and_within_left _ h) ?_
  revert p
  decide

theorem hostAct_inv {s : State} (h : s.Inv) (a : HostAction) : (hostAct s a).Inv := by
  cases a with
  | run => exact h
  | deliver idx phase data mask => exact h.congr (deliver_legalPart s idx phase data mask)
  | notify k => exact addNotify_inv h k true
  | externalHalt => exact { h with cr01 := or_within h.cr01 (by decide) }
  | retire id => exact h.congr rfl
  | setPriority p => exact { h with sr00 := setPriority_within h.sr00 p }
  | timeEvent => exact h.congr rfl
  | preempt => exact preempt_inv h

theorem hostApply_inv {s : State} (h : s.Inv) (a : HostAction) : (hostApply s a).Inv := by
  unfold hostApply
  split
  · exact h
  · exact hostAct_inv h a

/-- Settles O6: the host's actions and the entry of an exception keep the legal states, and so does every instruction. -/
theorem stepKeepsInv : Obligations.StepKeepsInv := by
  intro s t h hstep
  unfold step machineStep at hstep
  split at hstep
  · exact threadStep_inv h hstep
  next rest _ =>
    have htail : State.Inv { s with host := rest } := h.congr rfl
    exact threadStep_inv htail hstep
  next a rest _ _ =>
    have htail : State.Inv { s with host := rest } := h.congr rfl
    exact Host.Outcome.next.inj hstep ▸ hostApply_inv htail a

/-! ## Flags -/

/-- Settles O11: of the ways an instruction completes only a data instruction writes flags, and that by `flagWrites`. -/
theorem flagsChangeOnlyOnEnabledChannels : Obligations.FlagsChangeOnlyOnEnabledChannels := by
  intro i s t h hdst r k hother
  cases completion_of_exec h with
  | data e flags dst done =>
    obtain ⟨hf0, hf1⟩ := dst hdst
    rw [finish_flagReg done]
    refine e.apply_flagReg_kept s hf0 hf1 r k fun hflags hr => ?_
    obtain ⟨cm, hwriter, hcm⟩ := flags hflags
    exact hother e.hdr cm hwriter hcm hr
  | division m done => rw [finish_flagReg done]; cases r <;> rfl
  | control step => rw [step.frame.flagReg]
  | raised done => rw [done]; rfl
  | latched done => rw [done]; rfl

end Sys2Proof.Machine
end

section
/-! SUPPORT. A DWord written to an architecture register: which bits of the register's image it replaces, and what each register keeps of it (spec/10_state.md R57 to R85; spec/20_memory.md R200). -/

namespace Sys2Proof.Machine

/-! ## The bits of a register -/

/-- The four byte writes of a DWord at a byte address (20_memory R200). -/
def dwordWrites (a : Nat) (v : DWord) : List (Nat × Byte) :=
  (List.range 4).map fun i => (a + i, v.extractLsb' (8 * i) 8)

theorem mem_dwordWrites {a : Nat} {v : DWord} {w : Nat × Byte} :
    w ∈ dwordWrites a v ↔ ∃ i, i < 4 ∧ w = (a + i, v.extractLsb' (8 * i) 8) := by
  simp only [dwordWrites, List.mem_map, List.mem_range, eq_comm]

theorem getLsbD_byteOf (r : Reg256) (p : Nat) : (byteOf r (p / 8)).getLsbD (p % 8) = r.getLsbD p := by
  rw [byteOf, BitVec.getLsbD_extractLsb', Nat.div_add_mod]
  simp [Nat.mod_lt]

theorem byteOf_setBytes_dword (r : Reg256) (j : Nat) (v : DWord) (k : Nat) (hk : k < 32) :
    byteOf (setBytes r (dwordWrites (4 * j) v)) k =
      if k / 4 = j then v.extractLsb' (8 * (k % 4)) 8 else byteOf r k := by
  have hwrites : setBytes r (dwordWrites (4 * j) v) =
      setByte (setByte (setByte (setByte r (4 * j) (v.extractLsb' 0 8)) (4 * j + 1) (v.extractLsb' 8 8))
        (4 * j + 2) (v.extractLsb' 16 8)) (4 * j + 3) (v.extractLsb' 24 8) := rfl
  rw [hwrites]
  simp only [byteOf_setByte _ _ _ _ hk]
  by_cases hj : k / 4 = j
  · have hrem : k % 4 < 4 := Nat.mod_lt _ (by decide)
    rw [if_pos hj]
    obtain ⟨c, hc⟩ : ∃ c, k % 4 = c := ⟨_, rfl⟩
    have hk' : k = 4 * j + c := by omega
    rw [hc] at hrem ⊢
    subst hk'
    interval_cases c <;> simp
  · rw [if_neg hj, if_neg (by omega), if_neg (by omega), if_neg (by omega), if_neg (by omega)]

theorem getLsbD_setBytes_dword (r : Reg256) (j : Nat) (v : DWord) (p : Nat) (hp : p < 256) :
    (setBytes r (dwordWrites (4 * j) v)).getLsbD p = if p / 32 = j then v.getLsbD (p % 32) else r.getLsbD p := by
  rw [← getLsbD_byteOf, byteOf_setBytes_dword _ _ _ _ (by omega), Nat.div_div_eq_div_mul]
  split
  · rw [BitVec.getLsbD_extractLsb', show 8 * (p / 8 % 4) + p % 8 = p % 32 by omega]
    simp [Nat.mod_lt]
  · exact getLsbD_byteOf r p

theorem dwordOf_setBytes_dword (r : Reg256) (j : Nat) (v : DWord) (k : Nat) (hk : k < 8) :
    dwordOf (setBytes r (dwordWrites (4 * j) v)) k = if j = k then v else dwordOf r k := by
  ext i hi
  rw [dwordOf, BitVec.getElem_extractLsb', getLsbD_setBytes_dword _ _ _ _ (by omega), show (32 * k + i) / 32 = k by omega,
    show (32 * k + i) % 32 = i by omega]
  by_cases hj : j = k
  · simp [hj, BitVec.getLsbD_eq_getElem hi]
  · rw [if_neg (Ne.symm hj), if_neg hj, dwordOf, BitVec.getElem_extractLsb']

theorem wordOf_setBytes_dword (r : Reg256) (j : Nat) (v : DWord) (k : Nat) (hk : k < 16) :
    wordOf (setBytes r (dwordWrites (4 * j) v)) k =
      if k = 2 * j then v.extractLsb' 0 16 else if k = 2 * j + 1 then v.extractLsb' 16 16 else wordOf r k := by
  ext i hi
  rw [wordOf, BitVec.getElem_extractLsb', getLsbD_setBytes_dword _ _ _ _ (by omega), show (16 * k + i) / 32 = k / 2 by omega]
  by_cases hlow : k = 2 * j
  · rw [if_pos (by omega), if_pos hlow, BitVec.getElem_extractLsb', show (16 * k + i) % 32 = 0 + i by omega]
  by_cases hhigh : k = 2 * j + 1
  · rw [if_pos (by omega), if_neg hlow, if_pos hhigh, BitVec.getElem_extractLsb', show (16 * k + i) % 32 = 16 + i by omega]
  · rw [if_neg (by omega), if_neg hlow, if_neg hhigh, wordOf, BitVec.getElem_extractLsb']

/-- Fields of one width packed into a register, read back. -/
theorem extractLsb'_pack (n : Nat) (l : List (BitVec n)) (k : Nat) (hk : n * (k + 1) ≤ 256) :
    (l.foldr (fun w (r : Reg256) => (r <<< n) ||| w.zeroExtend 256) 0).extractLsb' (n * k) n = l.getD k 0 := by
  induction l generalizing k with
  | nil => simp
  | cons w l ih =>
    ext i hi
    rw [List.foldr_cons, BitVec.getElem_extractLsb', BitVec.getLsbD_or, BitVec.getLsbD_shiftLeft, BitVec.getLsbD_setWidth]
    cases k with
    | zero => simp [hi]; omega
    | succ k =>
      rw [Nat.mul_succ, Nat.mul_succ] at hk
      have hbit := congrArg (·.getLsbD i) (ih k (by rw [Nat.mul_succ]; omega))
      simp only [BitVec.getLsbD_extractLsb', hi, decide_true, Bool.true_and] at hbit
      rw [Nat.mul_succ, show n * k + n + i - n = n * k + i by omega, hbit, BitVec.getLsbD_of_ge w _ (by omega),
        List.getD_cons_succ, ← BitVec.getLsbD_eq_getElem hi]
      simp [show n * k + n + i < 256 by omega, show ¬ n * k + n + i < n by omega]

theorem dwordOf_packDWords (l : List DWord) (k : Nat) (hk : k < 8) : dwordOf (packDWords l) k = l.getD k 0 :=
  extractLsb'_pack 32 l k (by omega)

theorem wordOf_packWords (l : List Word) (k : Nat) (hk : k < 16) : wordOf (packWords l) k = l.getD k 0 :=
  extractLsb'_pack 16 l k (by omega)

/-! ## A DWord written to a register -/

/-- A DWord covers the granules that it touches. -/
theorem arfWritten_dword (s : State) (r : Arf) (j : Nat) (v : DWord) :
    arfWritten s r (dwordWrites (4 * j) v) = setBytes (arfImage s r).1 (dwordWrites (4 * j) v) := by
  have hrest : ((dwordWrites (4 * j) v).flatMap fun w => (List.range (arfGranule r)).map fun i =>
      w.1 / arfGranule r * arfGranule r + i).filter
        (fun p => !(dwordWrites (4 * j) v).any fun w => w.1 = p) = [] := by
    rw [List.filter_eq_nil_iff]
    intro p hp
    obtain ⟨w, hw, hp⟩ := List.mem_flatMap.1 hp
    obtain ⟨c, hc, rfl⟩ := mem_dwordWrites.1 hw
    obtain ⟨i, hi, rfl⟩ := List.mem_map.1 hp
    have hi := List.mem_range.1 hi
    have hgranule : arfGranule r = 1 ∨ arfGranule r = 2 ∨ arfGranule r = 4 := by cases r <;> decide
    have hcovered : ∃ d, d < 4 ∧ 4 * j + d = (4 * j + c) / arfGranule r * arfGranule r + i := by
      refine ⟨(4 * j + c) / arfGranule r * arfGranule r + i - 4 * j, ?_⟩
      rcases hgranule with hg | hg | hg <;> rw [hg] at hi ⊢ <;> omega
    obtain ⟨d, hd, hp⟩ := hcovered
    simp only [Bool.not_eq_true', Bool.not_eq_false, List.any_eq_true, decide_eq_true_eq]
    exact ⟨_, mem_dwordWrites.2 ⟨d, hd, rfl⟩, hp⟩
  unfold arfWritten
  dsimp only
  rw [hrest]
  rfl

theorem dwordOf_arfWritten (s : State) (r : Arf) (j : Nat) (v : DWord) (k : Nat) (hk : k < 8) :
    dwordOf (arfWritten s r (dwordWrites (4 * j) v)) k = if j = k then v else dwordOf (arfImage s r).1 k := by
  rw [arfWritten_dword, dwordOf_setBytes_dword _ _ _ _ hk]

end Sys2Proof.Machine
end

section
/-! SUPPORT. The scalar `mov` of an immediate to an architecture register, and what every register keeps of it (spec/41_move_logic.md R600; spec/10_state.md R57 to R85). -/

namespace Sys2Proof.Machine

/-! ## What each register keeps of a DWord -/

/-- A field of which the mask keeps all, after a write that may replace it. -/
theorem ite_and_of_within {p : Prop} [Decidable p] {v m : DWord} (hv : v &&& ~~~m = 0) (w : DWord) :
    (if p then w else v) &&& m = if p then w &&& m else v := by
  split
  · rfl
  · exact and_eq_of_within hv

theorem cr00Stored_self {v : DWord} (hv : v &&& ~~~cr00Mask = 0) : cr00Stored v v = v := by
  calc cr00Stored v v = (v &&& 0x0000807F) ||| (v &&& 0x80000000) := by rw [cr00Stored, BitVec.and_self]
    _ = v &&& cr00Mask := (BitVec.and_or_distrib_left ..).symm
    _ = v := and_eq_of_within hv

theorem cr01Stored_self (inSR : Bool) {v : DWord} (hv : v &&& ~~~cr01Mask = 0) : cr01Stored inSR v v = v := by
  rw [cr01Stored, and_eq_of_within hv]
  cases inSR
  · calc v ||| (v &&& 0x20000000) = (v &&& cr01Mask) ||| (v &&& 0x20000000) := by rw [and_eq_of_within hv]
      _ = v &&& (cr01Mask ||| 0x20000000) := (BitVec.and_or_distrib_left ..).symm
      _ = v := and_eq_of_within hv
  · exact BitVec.or_zero

theorem a0Stored_self {s : State} (h : s.Inv) (k : Fin 8) : a0Stored k.val s.a0[k] = s.a0[k] := by
  unfold a0Stored
  split
  · rfl
  next hk =>
    apply BitVec.eq_of_toNat_eq
    rw [BitVec.toNat_and]
    have hlt := h.a0 k (by omega)
    exact (Nat.and_two_pow_sub_one_eq_mod _ 12).trans (Nat.mod_eq_of_lt hlt)

theorem dwordWrites_any_div (j k : Nat) (v : DWord) :
    ((dwordWrites (4 * j) v).any fun w => w.1 / 2 = k) = decide (k = 2 * j ∨ k = 2 * j + 1) := by
  rw [Bool.eq_iff_iff, List.any_eq_true, decide_eq_true_iff]
  constructor
  · rintro ⟨w, hw, hk⟩
    obtain ⟨c, hc, rfl⟩ := mem_dwordWrites.1 hw
    have hk := of_decide_eq_true hk
    dsimp only at hk
    omega
  · intro hk
    refine ⟨_, mem_dwordWrites.2 ⟨2 * (k - 2 * j), by omega, rfl⟩, decide_eq_true ?_⟩
    dsimp only
    omega

theorem dwordWrites_any_low (j : Nat) (v : DWord) : ((dwordWrites (4 * j) v).any fun w => w.1 < 4) = decide (j = 0) := by
  rw [Bool.eq_iff_iff, List.any_eq_true, decide_eq_true_iff]
  constructor
  · rintro ⟨w, hw, hlow⟩
    obtain ⟨c, hc, rfl⟩ := mem_dwordWrites.1 hw
    have hlow := of_decide_eq_true hlow
    dsimp only at hlow
    omega
  · rintro rfl
    exact ⟨_, mem_dwordWrites.2 ⟨0, by decide, rfl⟩, rfl⟩

/-! ## A DWord written to each register -/

section
variable (s : State) (j : Nat) (v : DWord)

theorem writeArf_f0_dword : writeArf s .f0 (dwordWrites (4 * j) v) = { s with f0 := if j = 0 then v else s.f0 } := by
  have h0 : dwordOf (arfImage s .f0).1 0 = s.f0 := dwordOf_packDWords _ _ (by decide)
  change { s with f0 := dwordOf (arfWritten s .f0 (dwordWrites (4 * j) v)) 0 } = _
  rw [dwordOf_arfWritten _ _ _ _ _ (by decide), h0]

theorem writeArf_f1_dword : writeArf s .f1 (dwordWrites (4 * j) v) = { s with f1 := if j = 0 then v else s.f1 } := by
  have h0 : dwordOf (arfImage s .f1).1 0 = s.f1 := dwordOf_packDWords _ _ (by decide)
  change { s with f1 := dwordOf (arfWritten s .f1 (dwordWrites (4 * j) v)) 0 } = _
  rw [dwordOf_arfWritten _ _ _ _ _ (by decide), h0]

theorem writeArf_ip_dword : writeArf s .ip (dwordWrites (4 * j) v) =
    { s with nextIP := if j = 0 then alignIP v else s.nextIP } := by
  change { s with
    nextIP := if (dwordWrites (4 * j) v).any (fun w => w.1 < 4)
      then alignIP (dwordOf (arfWritten s .ip (dwordWrites (4 * j) v)) 0) else s.nextIP } = _
  rw [dwordWrites_any_low, dwordOf_arfWritten _ _ _ _ _ (by decide)]
  by_cases hj : j = 0 <;> simp [hj]

theorem writeArf_n0_dword : writeArf s .n0 (dwordWrites (4 * j) v) = { s with
    n00 := if s.restoring = true ∧ j = 0 then v.setWidth 16 else s.n00
    n01 := if s.restoring = true ∧ j = 1 then v.setWidth 1 else s.n01
    n02 := if s.restoring = true ∧ j = 2 then v.setWidth 16 else s.n02 } := by
  have h0 : dwordOf (arfImage s .n0).1 0 = s.n00.zeroExtend 32 := dwordOf_packDWords _ _ (by decide)
  have h1 : dwordOf (arfImage s .n0).1 1 = s.n01.zeroExtend 32 := dwordOf_packDWords _ _ (by decide)
  have h2 : dwordOf (arfImage s .n0).1 2 = s.n02.zeroExtend 32 := dwordOf_packDWords _ _ (by decide)
  change (if s.restoring then { s with
    n00 := (dwordOf (arfWritten s .n0 (dwordWrites (4 * j) v)) 0).setWidth 16
    n01 := (dwordOf (arfWritten s .n0 (dwordWrites (4 * j) v)) 1).setWidth 1
    n02 := (dwordOf (arfWritten s .n0 (dwordWrites (4 * j) v)) 2).setWidth 16 } else s) = _
  rw [dwordOf_arfWritten _ _ _ _ _ (by decide), dwordOf_arfWritten _ _ _ _ _ (by decide),
    dwordOf_arfWritten _ _ _ _ _ (by decide), h0, h1, h2]
  by_cases hr : s.restoring = true
  · simp only [hr, if_true, true_and, apply_ite (BitVec.setWidth _)]
    simp
  · simp [hr]

theorem writeArf_tm0_dword : writeArf s .tm0 (dwordWrites (4 * j) v) =
    { s with tmEvent := s.restoring || s.tmEvent } := by
  change (if s.restoring then { s with tmEvent := true } else s) = _
  cases s.restoring <;> rfl

theorem writeArf_tdr0_dword : writeArf s .tdr0 (dwordWrites (4 * j) v) = { s with
    tdr := Vector.ofFn fun k : Fin 8 =>
      if k.val = 2 * j ∨ k.val = 2 * j + 1 then { s.tdr[k] with valid := false } else s.tdr[k] } := by
  change { s with
    tdr := Vector.ofFn fun k : Fin 8 =>
      if (dwordWrites (4 * j) v).any (fun w => w.1 / 2 = k.val) then { s.tdr[k] with valid := false } else s.tdr[k] } = _
  simp only [dwordWrites_any_div, decide_eq_true_eq]

variable {s}

theorem writeArf_a0_dword (h : s.Inv) : writeArf s .a0 (dwordWrites (4 * j) v) = { s with
    a0 := Vector.ofFn fun k : Fin 8 =>
      if k.val = 2 * j then a0Stored k.val (v.extractLsb' 0 16)
      else if k.val = 2 * j + 1 then a0Stored k.val (v.extractLsb' 16 16) else s.a0[k] } := by
  have hword : ∀ k : Fin 8, wordOf (arfImage s .a0).1 k.val = s.a0[k] := fun k =>
    (wordOf_packWords _ _ (by omega)).trans (by simp)
  change { s with
    a0 := Vector.ofFn fun k : Fin 8 => a0Stored k.val (wordOf (arfWritten s .a0 (dwordWrites (4 * j) v)) k.val) } = _
  congr 2
  funext k
  rw [arfWritten_dword, wordOf_setBytes_dword _ _ _ _ (by omega), hword, apply_ite (a0Stored k.val),
    apply_ite (a0Stored k.val), a0Stored_self h]

theorem writeArf_sr0_dword (h : s.Inv) : writeArf s .sr0 (dwordWrites (4 * j) v) = { s with
    sr00 := if j = 0 then v &&& sr00Stored else s.sr00, sr01 := if j = 1 then v &&& sr01Mask else s.sr01
    sr02 := if j = 2 then v else s.sr02, sr03 := if j = 3 then v else s.sr03 } := by
  have h0 : dwordOf (arfImage s .sr0).1 0 = s.sr00 := dwordOf_packDWords _ _ (by decide)
  have h1 : dwordOf (arfImage s .sr0).1 1 = s.sr01 := dwordOf_packDWords _ _ (by decide)
  have h2 : dwordOf (arfImage s .sr0).1 2 = s.sr02 := dwordOf_packDWords _ _ (by decide)
  have h3 : dwordOf (arfImage s .sr0).1 3 = s.sr03 := dwordOf_packDWords _ _ (by decide)
  change { s with
    sr00 := dwordOf (arfWritten s .sr0 (dwordWrites (4 * j) v)) 0 &&& sr00Stored
    sr01 := dwordOf (arfWritten s .sr0 (dwordWrites (4 * j) v)) 1 &&& sr01Mask
    sr02 := dwordOf (arfWritten s .sr0 (dwordWrites (4 * j) v)) 2
    sr03 := dwordOf (arfWritten s .sr0 (dwordWrites (4 * j) v)) 3 } = _
  rw [dwordOf_arfWritten _ _ _ _ _ (by decide), dwordOf_arfWritten _ _ _ _ _ (by decide),
    dwordOf_arfWritten _ _ _ _ _ (by decide), dwordOf_arfWritten _ _ _ _ _ (by decide), h0, h1, h2, h3,
    ite_and_of_within h.sr00, ite_and_of_within h.sr01]

theorem writeArf_cr0_dword (h : s.Inv) : writeArf s .cr0 (dwordWrites (4 * j) v) = { s with
    cr00 := if j = 0 then cr00Stored s.cr00 v else s.cr00
    cr01 := if j = 1 then cr01Stored s.inSR s.cr01 v else s.cr01
    cr02 := if j = 2 then alignIP v else s.cr02 } := by
  have h0 : dwordOf (arfImage s .cr0).1 0 = s.cr00 := dwordOf_packDWords _ _ (by decide)
  have h1 : dwordOf (arfImage s .cr0).1 1 = s.cr01 := dwordOf_packDWords _ _ (by decide)
  have h2 : dwordOf (arfImage s .cr0).1 2 = s.cr02 := dwordOf_packDWords _ _ (by decide)
  change { s with
    cr00 := cr00Stored s.cr00 (dwordOf (arfWritten s .cr0 (dwordWrites (4 * j) v)) 0)
    cr01 := cr01Stored s.inSR s.cr01 (dwordOf (arfWritten s .cr0 (dwordWrites (4 * j) v)) 1)
    cr02 := alignIP (dwordOf (arfWritten s .cr0 (dwordWrites (4 * j) v)) 2) } = _
  rw [dwordOf_arfWritten _ _ _ _ _ (by decide), dwordOf_arfWritten _ _ _ _ _ (by decide),
    dwordOf_arfWritten _ _ _ _ _ (by decide), h0, h1, h2, apply_ite (cr00Stored s.cr00), cr00Stored_self h.cr00,
    apply_ite (cr01Stored s.inSR s.cr01), cr01Stored_self _ h.cr01, apply_ite alignIP, alignIP_of_aligned8 h.aip]

end

end Sys2Proof.Machine
end

section
/-! SUPPORT. The scalar `mov` of an immediate to an architecture register: its restrictions, its writes and its end (spec/41_move_logic.md R600; spec/60_exceptions.md R908). -/

namespace Sys2Proof.Machine

section
variable {s : State} {h : Header} {r : Arf} {sub : BitVec 5} {v : DWord}

/-! ## Restrictions -/

theorem scalarMov_dataChecks (hal : Allowed (movChecks s (scalarMov h r sub v))) :
    Allowed (dataChecks s h .none (scalarMov h r sub v).dst [.imm .ud v] (isRawMov (scalarMov h r sub v))) :=
  ((allowed_append _ _).1 hal).2

/-- A DWord stands at a DWord boundary of a register other than null (40 R401). -/
theorem scalarMov_sub (hal : Allowed (movChecks s (scalarMov h r sub v))) (hr : r ≠ .null) :
    sub.toNat = 4 * (sub.toNat / 4) := by
  have hdst := dataChecks_dst (scalarMov_dataChecks hal)
  have hplace := allowed_mem hdst (c := (misplaced false .ud [(sub.toNat : Int)] (dstElems s h (scalarMov h r sub v).dst),
    .misaligned)) (by
      cases r with
      | null => exact absurd rfl hr
      | _ => simp [dstChecks, scalarMov, dstOrigins, originsOf, DstRegion.isA16])
  have horigin : (sub.toNat : Int) % 4 = 0 := by
    simp only [misplaced, Bool.or_eq_false_iff, List.any_eq_false] at hplace
    simpa [originAlign, RegType.size] using hplace.1
  omega

/-- acc1 holds floats alone (10_state R64). -/
theorem scalarMov_not_acc1 (hal : Allowed (movChecks s (scalarMov h .acc1 sub v))) : False := by
  have hdata := scalarMov_dataChecks hal
  simp only [dataChecks, allowed_append] at hdata
  obtain ⟨⟨_, hacc⟩, _⟩ := hdata
  have htype := ((allowed_cons _ _).1 hacc).1
  exact absurd htype (by simp [badAccType, scalarMov])

/-! ## The result and its writes -/

theorem movOut_scalarMov (n : Nat) : movOut s (scalarMov h r sub v) n = intOutAs s h .none .ud v.toNat n := by
  have hfits : fitsInt 64 v.toNat = true := by
    have hlt := v.isLt
    simp only [fitsInt, Bool.and_eq_true, decide_eq_true_eq]
    omega
  change intOut s h .none .ud 64 v.toNat n = _
  rw [intOut, if_pos hfits]

theorem movOut_scalarMov_bits (hsat : h.sat = false) (n : Nat) : (movOut s (scalarMov h r sub v) n).bits = v := by
  rw [movOut_scalarMov]
  simp [intOutAs, hsat]

theorem movOut_scalarMov_wide (hsat : h.sat = false) (n : Nat) : (movOut s (scalarMov h r sub v) n).wide = v.setWidth 64 := by
  rw [movOut_scalarMov]
  apply BitVec.eq_of_toNat_eq
  simp [intOutAs, hsat]

/-- The bytes of the one channel. -/
theorem dstWrites_scalarMov (hsize : h.size = .s1) (hsat : h.sat = false) (hen : wrEn s h 0 = true) :
    dstWrites s h (scalarMov h r sub v).dst (wrEn s h)
    (fun n => (movOut s (scalarMov h r sub v) n).bits) = dwordWrites sub.toNat v := by
  simp only [movOut_scalarMov_bits hsat]
  simp [dstWrites, elemWrites, Header.count, hsize, ExecSize.toNat, hen, scalarMov, DstRegion.chanOn, dwordWrites, dstAddr,
    RegType.size]

theorem writeDst_scalarMov (hsize : h.size = .s1) (hsat : h.sat = false) (hen : wrEn s h 0 = true)
    (h0 : r ≠ .acc0) (h1 : r ≠ .acc1) :
    writeDst s h (scalarMov h r sub v).dst (wrEn s h) (movOut s (scalarMov h r sub v)) =
      writeArf s r (dwordWrites sub.toNat v) := by
  rw [writeDst_arf s h _ _ _ r sub rfl h0 h1, dstWrites_scalarMov hsize hsat hen]

/-- In an aligned place the write is that of DWord `sub / 4` of the register. -/
theorem writeDst_scalarMov_dword (hsize : h.size = .s1) (hsat : h.sat = false) (hen : wrEn s h 0 = true)
    (hal : Allowed (movChecks s (scalarMov h r sub v))) (hnull : r ≠ .null) (h0 : r ≠ .acc0) (h1 : r ≠ .acc1) :
    writeDst s h (scalarMov h r sub v).dst (wrEn s h) (movOut s (scalarMov h r sub v)) =
      writeArf s r (dwordWrites (4 * (sub.toNat / 4)) v) := by
  rw [← scalarMov_sub hal hnull]
  exact writeDst_scalarMov hsize hsat hen h0 h1

/-- acc0 takes channel 0 in the format of DWords. -/
theorem writeDst_scalarMov_acc0 (hsize : h.size = .s1) (hsat : h.sat = false) (hen : wrEn s h 0 = true) :
    writeDst s h (scalarMov h .acc0 sub v).dst (wrEn s h) (movOut s (scalarMov h .acc0 sub v)) =
      accSet s .d [(0, v.setWidth 64)] := by
  change accSet s .d (accDstWrites s h (scalarMov h .acc0 sub v).dst 0 (wrEn s h) (movOut s (scalarMov h .acc0 sub v))) = _
  simp only [accDstWrites, movOut_scalarMov_wide hsat]
  simp [scalarMov, Header.count, hsize, ExecSize.toNat, hen, DstRegion.chanOn]

/-- Beside the destination only the mark of a0 can change. -/
theorem apply_scalarMov (hsize : h.size = .s1) (haccWr : h.accWr = false) (hen : wrEn s h 0 = true) (out : Nat → Out) :
    (effect s h .none (scalarMov h r sub v).dst [.imm .ud v] out).apply s =
      { writeDst s h (scalarMov h r sub v).dst (wrEn s h) out with
        depA0 := if (scalarMov h r sub v).dst.isA0 then h.noDDClr else s.depA0 } := by
  have hany : (List.range h.count).any (wrEn s h) = true := by simp [Header.count, hsize, ExecSize.toNat, hen]
  have hacc : implicitFmt h [.imm .ud v] = none := by simp [implicitFmt, haccWr]
  have hdep := writeDst_depA0 s h (scalarMov h r sub v).dst (wrEn s h) out
  change commit s h _ false (implicitFmt h [.imm .ud v]) (wrEn s h) (wrEn s h) out = _
  rw [commit_eq, hany, hacc, ← hdep]
  rfl

/-! ## The end -/

/-- An instruction that does not clear Master Exception State goes on (60 R908). -/
theorem exec_scalarMov (hsize : h.size = .s1) (haccWr : h.accWr = false) (hen : wrEn s h 0 = true)
    (hal : Allowed (movChecks s (scalarMov h r sub v))) {u : State}
    (hu : { writeDst s h (scalarMov h r sub v).dst (wrEn s h) (movOut s (scalarMov h r sub v)) with
      depA0 := if (scalarMov h r sub v).dst.isA0 then h.noDDClr else s.depA0 } = u)
    (hsr : s.inSR = true → u.inSR = true) :
    exec (.mov (scalarMov h r sub v)) s = .next (advance s.spf u) := by
  have hstep : exec (.mov (scalarMov h r sub v)) s =
      guarded (firstViolation (movChecks s (scalarMov h r sub v)))
        (finish s ((effect s h .none (scalarMov h r sub v).dst [.imm .ud v] (movOut s (scalarMov h r sub v))).apply s)) := rfl
  rw [hstep, show firstViolation _ = none from hal, apply_scalarMov hsize haccWr hen, hu, guarded, finish, if_neg]
  cases hin : s.inSR
  · simp
  · simp [hsr hin]

/-- The same for a register that `writeDst` leaves in the state `u`, where the mark of a0 stays. -/
theorem exec_scalarMov_of_ne_a0 (hsize : h.size = .s1) (haccWr : h.accWr = false) (hen : wrEn s h 0 = true)
    (hal : Allowed (movChecks s (scalarMov h r sub v))) (hr : r ≠ .a0) {u : State}
    (hu : writeDst s h (scalarMov h r sub v).dst (wrEn s h) (movOut s (scalarMov h r sub v)) = u)
    (hsr : s.inSR = true → u.inSR = true) :
    exec (.mov (scalarMov h r sub v)) s = .next (advance s.spf u) := by
  have ha0 : (scalarMov h r sub v).dst.isA0 = false := by
    cases r with
    | a0 => exact absurd rfl hr
    | _ => rfl
  refine exec_scalarMov hsize haccWr hen hal ?_ hsr
  rw [ha0, ← writeDst_depA0 s h (scalarMov h r sub v).dst (wrEn s h) (movOut s (scalarMov h r sub v)), ← hu]
  rfl

end

/-- A write of cr0.0 leaves Master Exception State where its bit 31 is 1 (10_state R76). -/
theorem inSR_cr00Stored {s : State} {j : Nat} {v : DWord} (hin : s.inSR = true) (hv : j = 0 → v.getLsbD 31 = true) :
    (if j = 0 then cr00Stored s.cr00 v else s.cr00).getLsbD 31 = true := by
  have hold : s.cr00.getLsbD 31 = true := hin
  split
  next hj => simp [cr00Stored, hold, hv hj]
  · exact hold

/-- Settles O19, register by register: what the register keeps of a DWord is the lemma `writeArf_<register>_dword`. -/
theorem scalarMoveToArchitectureRegister : Obligations.ScalarMoveToArchitectureRegister := by
  intro s h r sub v b j hinv hsize hsat haccWr hen hal hstay
  have hwrite := writeDst_scalarMov_dword hsize hsat hen hal
  have hexec {u : State} (hr : r ≠ .a0) := exec_scalarMov_of_ne_a0 (u := u) hsize haccWr hen hal hr
  cases r with
  | null => exact ⟨_, hexec nofun (u := s) (writeDst_scalarMov hsize hsat hen nofun nofun) id, rfl⟩
  | a0 =>
    have hkept := (hwrite nofun nofun nofun).trans (writeArf_a0_dword j v hinv)
    have hmarked := congrArg (fun u : State => { u with depA0 := h.noDDClr }) hkept
    refine ⟨_, exec_scalarMov hsize haccWr hen hal hmarked id, fun k => ?_, rfl⟩
    simp [advance]
  | acc0 =>
    exact ⟨_, hexec nofun (writeDst_scalarMov_acc0 hsize hsat hen) id,
      (Acc.set_post s.acc .d s.draw 0 (v.setWidth 64) (by decide)).1 0 (by decide) rfl, rfl⟩
  | acc1 => exact (scalarMov_not_acc1 hal).elim
  | f0 => exact ⟨_, hexec nofun ((hwrite nofun nofun nofun).trans (writeArf_f0_dword s j v)) id, rfl⟩
  | f1 => exact ⟨_, hexec nofun ((hwrite nofun nofun nofun).trans (writeArf_f1_dword s j v)) id, rfl⟩
  | sr0 => exact ⟨_, hexec nofun ((hwrite nofun nofun nofun).trans (writeArf_sr0_dword j v hinv)) id, rfl⟩
  | cr0 =>
    exact ⟨_, hexec nofun ((hwrite nofun nofun nofun).trans (writeArf_cr0_dword j v hinv))
      fun hin => inSR_cr00Stored hin (hstay rfl hin), rfl⟩
  | n0 => exact ⟨_, hexec nofun ((hwrite nofun nofun nofun).trans (writeArf_n0_dword s j v)) id, rfl⟩
  | ip => exact ⟨_, hexec nofun ((hwrite nofun nofun nofun).trans (writeArf_ip_dword s j v)) id, rfl⟩
  | tdr0 =>
    refine ⟨_, hexec nofun ((hwrite nofun nofun nofun).trans (writeArf_tdr0_dword s j v)) id, fun k => ?_, rfl⟩
    simp [advance]
  | tm0 => exact ⟨_, hexec nofun ((hwrite nofun nofun nofun).trans (writeArf_tm0_dword s j v)) id, rfl⟩

end Sys2Proof.Machine
end

section
/-! SUPPORT. Instruction memory, the launch parameters and the messages enqueued: no instruction but `send` and `sendc` touches them, and these enqueue one message (spec/20_memory.md R206, R210; spec/10_state.md R79). -/

namespace Sys2Proof.Machine

/-- Instruction memory, the launch parameters and the messages enqueued. -/
def State.ledger (s : State) := (s.imem, s.launch, s.messages)

/-- From `s` to `t` code and launch parameters stay, and at most one message is enqueued (20_memory R206, R210). -/
structure LedgerStep (s t : State) : Prop where
  imem : t.imem = s.imem
  launch : t.launch = s.launch
  messages : t.messages = s.messages ∨ ∃ msg, t.messages = s.messages ++ [msg]

theorem LedgerStep.of_eq {s t : State} (h : t.ledger = s.ledger) : LedgerStep s t := by
  simp only [State.ledger, Prod.mk.injEq] at h
  obtain ⟨himem, hlaunch, hmessages⟩ := h
  exact ⟨himem, hlaunch, .inl hmessages⟩

theorem LedgerStep.congr {s u t : State} (h : LedgerStep u t) (hu : u.ledger = s.ledger) : LedgerStep s t := by
  simp only [State.ledger, Prod.mk.injEq] at hu
  obtain ⟨himem, hlaunch, hmessages⟩ := hu
  exact ⟨himem ▸ h.imem, hlaunch ▸ h.launch, hmessages ▸ h.messages⟩

/-- Whichever of two steps was taken. -/
theorem LedgerStep.ite {s u v : State} {p : Prop} [Decidable p] (hu : LedgerStep s u) (hv : LedgerStep s v) :
    LedgerStep s (if p then u else v) := by
  split <;> assumption

/-! ## Data instructions -/

theorem writeDst_ledger (s : State) (h : Header) (d : Dst) (en : Nat → Bool) (out : Nat → Out) :
    (writeDst s h d en out).ledger = s.ledger := by
  simp [State.ledger]

theorem Effect.apply_ledger (e : Effect) (s : State) : (e.apply s).ledger = s.ledger := by
  have hread : (readTm0 s e.tm0).ledger = s.ledger := by simp [State.ledger]
  have hwrite : (e.apply s).ledger = (writeDst (readTm0 s e.tm0) e.hdr e.dst e.en e.out).ledger :=
    write_field State.ledger e _ (by simp [State.ledger]) (by simp [State.ledger]) (by simp [State.ledger])
      (by simp [State.ledger])
  rw [hwrite, writeDst_ledger, hread]

theorem finish_ledger {s0 s1 t : State} (h : finish s0 s1 = .next t) : t.ledger = s1.ledger := by
  rcases finish_next h with rfl | rfl <;> rfl

/-- A data instruction behind its restrictions. -/
theorem execute_ledger {s t : State} {v : Option Restriction} {e : Effect} (h : execute s v e = .next t) :
    LedgerStep s t :=
  .of_eq ((finish_ledger (guarded_next h).2).trans (e.apply_ledger s))

theorem execMath_ledger {m : Math} {s t : State} (h : execMath m s = .next t) : LedgerStep s t := by
  unfold execMath at h
  split at h
  · exact nomatch h
  obtain ⟨-, hdone⟩ := guarded_next h
  refine .of_eq ((finish_ledger hdone).trans ?_)
  split
  · rfl
  · exact Effect.apply_ledger _ s

/-! ## Control flow, wait and send -/

/-- An instruction that goes to one state behind its restrictions. -/
theorem guarded_ledger {s u t : State} {v : Option Restriction} (h : guarded v (.next u) = .next t)
    (hu : LedgerStep s u) : LedgerStep s t := by
  obtain ⟨-, ⟨⟩⟩ := guarded_next h
  exact hu

theorem spfBranch_ledger (s : State) (dest : DWord) : (spfBranch s dest).ledger = s.ledger := rfl

theorem branchTo_ledger (s : State) (p : Vector DWord 32) (ip : DWord) : (branchTo s p ip).ledger = s.ledger := rfl

/-- A branch: in a single program flow IP alone moves, otherwise the channels too (42 R631, R633). -/
theorem branch_ledger {s t : State} {v : Option Restriction} {c : Prop} [Decidable c] {p : Vector DWord 32} {ip dest : DWord}
    (h : guarded v (.next (if c then spfBranch s dest else branchTo s p ip)) = .next t) : LedgerStep s t :=
  guarded_ledger h (.ite (.of_eq (spfBranch_ledger s dest)) (.of_eq (branchTo_ledger s p ip)))

theorem addNotify_ledger (s : State) (k : Fin 3) (up : Bool) : (s.addNotify k up).ledger = s.ledger := by
  simp [State.ledger]

theorem execWait_ledger {b : Basic1} {s t : State} (h : execWait b s = .next t) : LedgerStep s t := by
  obtain ⟨-, hdone⟩ := guarded_next h
  split at hdone
  · exact nomatch hdone
  next k _ =>
    split at hdone
    · obtain ⟨⟩ := hdone
      exact .of_eq (addNotify_ledger s k false)
    · obtain ⟨⟩ := hdone
      exact .of_eq rfl

theorem execCall_ledger {c : Call} {s t : State} (h : execCall c s = .next t) : LedgerStep s t := by
  refine guarded_ledger h (.of_eq ?_)
  simp only [State.ledger, markDst_imem, markDst_launch, markDst_messages]
  split <;> rfl

theorem execIllegal_ledger {s t : State} (h : execIllegal s = .next t) : LedgerStep s t := by
  unfold execIllegal at h
  dsimp only at h
  split at h <;> (obtain ⟨⟩ := h; exact .of_eq rfl)

/-- A message is enqueued behind those already there (20_memory R210). -/
theorem sendState_ledger (s : State) (m : Send) : LedgerStep s (sendState s m) := by
  unfold sendState
  refine .ite ⟨?_, ?_, .inr ⟨messageOf s m, ?_⟩⟩ ⟨?_, ?_, .inr ⟨messageOf s m, ?_⟩⟩ <;> simp

/-! ## Every instruction -/

theorem exec_ledger {i : Instr} {s t : State} (h : exec i s = .next t) : LedgerStep s t := by
  cases i with
  | mov b | not_ b | f32to16 b | f16to32 b | frc b | rndu b | rndd b | rnde b | rndz b | lzd b | movi b | bfrev b | fbh b
  | fbl b | cbit b => exact execute_ledger h
  | and_ b | or_ b | xor_ b | shr b | shl b | asr b | cmp b | cmpn b | add b | mul b | avg b | mac b | mach b | addc b | subb b
  | sad2 b | sada2 b | dp4 b | dph b | dp3 b | dp2 b | line b | pln b | sel b | bfi1 b => exact execute_ledger h
  | mad t | lrp t | bfe t | bfi2 t => exact execute_ledger h
  | math m => exact execMath_ledger h
  | illegal => exact execIllegal_ledger h
  | nop d => exact Host.Outcome.next.inj h ▸ .of_eq rfl
  | case_ b => exact nomatch h
  | wait b => exact execWait_ledger h
  | send m => exact guarded_ledger h (sendState_ledger s m)
  | sendc m => exact guarded_ledger h (.ite (.of_eq rfl) (sendState_ledger s m))
  | call c => exact execCall_ledger h
  | jmpi b => exact guarded_ledger h (.of_eq rfl)
  | brd b | while_ b | else_ b => exact branch_ledger h
  | if_ b | brc b | halt b | break_ b | cont b => exact branch_ledger h
  | ret b => exact guarded_ledger h (.ite (.of_eq rfl) (.of_eq rfl))
  | endif b => exact guarded_ledger h (.ite (.of_eq rfl) (.ite (.of_eq rfl) (.of_eq rfl)))

/-! ## The thread and the host -/

theorem breakCheck_ledger {s s' : State} {trig : Bool} (h : breakCheck s trig = some s') : s'.ledger = s.ledger := by
  have hlatch : (if trig then latchBreak s else s).ledger = s.ledger := by cases trig <;> rfl
  unfold breakCheck at h
  split at h
  · exact Option.some.inj h ▸ hlatch
  split at h
  · split at h
    · exact Option.some.inj h ▸ rfl
    · exact nomatch h
  · exact Option.some.inj h ▸ hlatch

theorem runInstr_ledger {s t : State} {op : Byte} {i : Instr} {len : Nat} (h : runInstr s op i len = .next t) :
    LedgerStep s t := by
  unfold runInstr at h
  split at h
  · obtain ⟨⟩ := h
    exact .of_eq rfl
  next s1 hbreak =>
    split at h
    · obtain ⟨⟩ := h
      exact .of_eq rfl
    · have hissue : (issue s1 i len).ledger = s1.ledger := rfl
      exact (exec_ledger h).congr (hissue.trans (breakCheck_ledger hbreak))

theorem runBoundary_ledger {s t : State} (h : runBoundary s = .next t) : LedgerStep s t := by
  unfold runBoundary at h
  split at h
  · obtain ⟨⟩ := h
    exact .of_eq rfl
  split at h
  · exact nomatch h
  split at h
  · exact nomatch h
  · exact runInstr_ledger h

theorem runWaiting_ledger {s t : State} {k : Fin 3} (h : runWaiting s k = .next t) : LedgerStep s t := by
  unfold runWaiting at h
  split at h
  · obtain ⟨⟩ := h
    exact .of_eq rfl
  split at h
  · obtain ⟨⟩ := h
    exact .of_eq (addNotify_ledger s k false)
  · obtain ⟨⟩ := h
    exact .of_eq rfl

theorem threadStep_ledger {s t : State} (h : threadStep s = .next t) : LedgerStep s t := by
  unfold threadStep at h
  split at h
  · exact nomatch h
  · exact runWaiting_ledger h
  · exact runBoundary_ledger h

theorem deliver_ledger (s : State) (idx : Nat) (phase : BitVec 5) (data : Reg256) (mask : BitVec 8) :
    (deliver s idx phase data mask).ledger = s.ledger := by
  unfold deliver
  split
  · rfl
  split
  · rfl
  · dsimp only
    split <;> rfl

theorem hostAct_ledger (s : State) (a : HostAction) : (hostAct s a).ledger = s.ledger := by
  cases a with
  | deliver idx phase data mask => exact deliver_ledger s idx phase data mask
  | notify k => exact addNotify_ledger s k true
  | preempt =>
    change (if _ then _ else _ : State).ledger = _
    split <;> rfl
  | run | externalHalt | retire | setPriority | timeEvent => rfl

theorem hostApply_ledger (s : State) (a : HostAction) : (hostApply s a).ledger = s.ledger := by
  unfold hostApply
  split
  · rfl
  · exact hostAct_ledger s a

theorem step_ledger {s t : State} (h : step s = .next t) : LedgerStep s t := by
  unfold step machineStep at h
  split at h
  · exact threadStep_ledger h
  · exact (threadStep_ledger h).congr rfl
  next a rest _ _ =>
    obtain ⟨⟩ := h
    exact .of_eq (hostApply_ledger { s with host := rest } a)

/-- Settles O7: only `send` and `sendc` touch what the ledger holds, and a step runs at most one instruction. -/
theorem codeLaunchAndSentMessagesStay : Obligations.CodeLaunchAndSentMessagesStay := by
  intro s t h
  obtain ⟨himem, hlaunch, hmessages⟩ := step_ledger h
  exact ⟨himem, hlaunch, hmessages⟩

end Sys2Proof.Machine
end

section
/-! SUPPORT. The host's steps: what each action leaves, response phases and their marks (spec/20_memory.md R212, R219; spec/10_state.md R72, R80, R81, R84, R85; spec/60_exceptions.md R912, R915; spec/70_reset_and_hazards.md R953, R961). -/

namespace Sys2Proof.Machine

/-! ## The step of an action -/

/-- An action that comes first in the queue is taken; none reaches a thread that has ended. -/
theorem step_host {s : State} {a : HostAction} {rest : List HostAction} (ha : a ≠ .run) (hs : s.host = a :: rest) :
    step s = .next (hostApply { s with host := rest } a) := by
  unfold step machineStep
  rw [hs]
  cases a with
  | run => exact absurd rfl ha
  | _ => rfl

theorem step_host_ended {s : State} {a : HostAction} {rest : List HostAction} (ha : a ≠ .run) (hs : s.host = a :: rest)
    (hrun : s.run = .ended) : step s = .next { s with host := rest } := by
  rw [step_host ha hs, hostApply, if_pos hrun]

theorem step_host_live {s : State} {a : HostAction} {rest : List HostAction} (ha : a ≠ .run) (hs : s.host = a :: rest)
    (hrun : s.run ≠ .ended) : step s = .next (hostAct { s with host := rest } a) := by
  rw [step_host ha hs, hostApply, if_neg hrun]

/-! ## DWords of a register -/

/-- DWord k of a register replaced by that of another where `b` is set: one turn of `maskedDWords`. -/
def putDWord (data : Reg256) (b : Bool) (r : Reg256) (k : Nat) : Reg256 :=
  if b then (r &&& ~~~(0xFFFFFFFF#256 <<< (32 * k))) ||| (data &&& (0xFFFFFFFF#256 <<< (32 * k))) else r

theorem getLsbD_dwordMask (k i : Nat) (hi : i < 256) :
    (0xFFFFFFFF#256 <<< (32 * k)).getLsbD i = decide (i / 32 = k) := by
  have hones : (0xFFFFFFFF#256).getLsbD (i - 32 * k) = decide (i - 32 * k < 32) := by
    rw [show 0xFFFFFFFF#256 = BitVec.ofNat 256 (2 ^ 32 - 1) from rfl, BitVec.getLsbD_ofNat, Nat.testBit_two_pow_sub_one]
    simp [show i - 32 * k < 256 by omega]
  rw [BitVec.getLsbD_shiftLeft, hones]
  by_cases hk : i / 32 = k
  · simp [hi, show ¬ i < 32 * k by omega, show i - 32 * k < 32 by omega, hk]
  · simp only [hi, hk, decide_true, decide_false, Bool.true_and, Bool.and_eq_false_iff]
    by_cases hlow : i < 32 * k
    · simp [hlow]
    · simp [show ¬ i - 32 * k < 32 by omega]

theorem getLsbD_putDWord (data r : Reg256) (b : Bool) (k i : Nat) (hi : i < 256) :
    (putDWord data b r k).getLsbD i = if i / 32 = k ∧ b = true then data.getLsbD i else r.getLsbD i := by
  cases b with
  | false => simp [putDWord]
  | true =>
    simp only [putDWord, if_true, BitVec.getLsbD_or, BitVec.getLsbD_and, BitVec.getLsbD_not, getLsbD_dwordMask k i hi, hi,
      decide_true, Bool.true_and]
    by_cases hk : i / 32 = k <;> simp [hk]

theorem dwordOf_putDWord (data r : Reg256) (b : Bool) (k j : Nat) (hj : j < 8) :
    dwordOf (putDWord data b r k) j = if j = k ∧ b = true then dwordOf data j else dwordOf r j := by
  ext i hi
  have hdword : (32 * j + i) / 32 = j := by omega
  simp only [dwordOf, BitVec.getElem_extractLsb', getLsbD_putDWord data r b k _ (show 32 * j + i < 256 by omega), hdword]
  split <;> simp

theorem dwordOf_foldl_putDWord (data : Reg256) (mask : Nat → Bool) (j : Nat) (hj : j < 8) (ks : List Nat) (r : Reg256) :
    dwordOf (ks.foldl (fun r k => putDWord data (mask k) r k) r) j =
      if j ∈ ks ∧ mask j = true then dwordOf data j else dwordOf r j := by
  induction ks generalizing r with
  | nil => simp
  | cons k ks ih =>
    rw [List.foldl_cons, ih, dwordOf_putDWord _ _ _ _ _ hj]
    by_cases hkj : j = k
    · subst hkj
      by_cases hm : mask j = true <;> simp [hm]
    · simp [hkj]

/-- The DWords that the mask enables are those of the data, the others stay (20_memory R212). -/
theorem dwordOf_maskedDWords (old data : Reg256) (mask : BitVec 8) (j : Nat) (hj : j < 8) :
    dwordOf (maskedDWords old data mask) j = if mask.getLsbD j then dwordOf data j else dwordOf old j := by
  refine (dwordOf_foldl_putDWord data mask.getLsbD j hj (List.range 8) old).trans ?_
  simp [hj]

/-! ## Marks and phases -/

theorem markRange_get (d : BitVec 128) (first count : Nat) (b : Bool) (q : Nat) (hq : q < 128) :
    (markRange d first count b).getLsbD q = if first ≤ q ∧ q < first + count then b else d.getLsbD q := by
  have hmap : markRange d first count b =
      ((List.range count).map (first + ·)).foldl (fun d r => setDep d r ((fun _ => b) r)) d := by
    rw [List.foldl_map]
    rfl
  have hmem : q ∈ (List.range count).map (first + ·) ↔ first ≤ q ∧ q < first + count := by
    simp only [List.mem_map, List.mem_range]
    constructor
    · rintro ⟨k, hk, rfl⟩
      omega
    · rintro ⟨hlo, hhi⟩
      exact ⟨q - first, by omega, by omega⟩
  rw [hmap, foldl_setDep_get _ _ _ _ hq]
  simp only [hmem]

/-- The marks of a range cleared. -/
theorem markRange_false_get (d : BitVec 128) (first count q : Nat) (hq : q < 128) :
    (markRange d first count false).getLsbD q =
      (d.getLsbD q && !(decide (first ≤ q) && decide (q < first + count))) := by
  rw [markRange_get _ _ _ _ _ hq]
  by_cases hin : first ≤ q ∧ q < first + count
  · simp [hin]
  · rw [if_neg hin, ← Bool.decide_and, decide_eq_false hin]
    simp

/-- The response with one more phase landed. -/
def Response.land (r : Response) (phase : BitVec 5) : Response :=
  { r with landed := r.landed ||| (1#32 <<< phase.toNat) }

theorem Response.land_complete_iff (r : Response) (phase : BitVec 5) :
    (r.land phase).complete = true ↔
      ∀ k, k < r.rlen.toNat → k = phase.toNat ∨ r.landed.getLsbD k = true := by
  have hrlen := r.rlen.isLt
  simp only [Response.complete, Response.land, List.all_eq_true, List.mem_range, BitVec.getLsbD_or, Bool.or_eq_true]
  refine forall₂_congr fun k hk => ?_
  rw [getLsbD_one_shiftLeft 32 _ _ (by decide)]
  simp [show k < 32 by omega, or_comm]

/-- What a phase that was still owed, of a response within the register file, leaves (20_memory R212). -/
theorem deliver_eq {s : State} {idx : Nat} {phase : BitVec 5} {r : Response} (data : Reg256) (mask : BitVec 8)
    (hr : s.outstanding[idx]? = some r) (hphase : phase.toNat < r.rlen.toNat) (hnew : r.landed.getLsbD phase.toNat = false)
    (hreg : r.reg.toNat + phase.toNat < 128) :
    deliver s idx phase data mask = { s with
      grf := s.grf.set (r.reg.toNat + phase.toNat) (maskedDWords s.grf[r.reg.toNat + phase.toNat] data mask)
      outstanding :=
        if (r.land phase).complete then s.outstanding.eraseIdx idx else s.outstanding.set idx (r.land phase)
      dep :=
        if (r.land phase).complete && r.clear then markRange s.dep r.reg.toNat r.rlen.toNat false else s.dep } := by
  have howed : (r.landed.getLsbD phase.toNat || decide (r.rlen.toNat ≤ phase.toNat)) = false := by
    simp [hnew, hphase]
  unfold deliver
  rw [hr]
  simp only [howed, Bool.false_eq_true, if_false, dif_pos hreg]
  by_cases hdone : (r.land phase).complete = true
  · rw [if_pos hdone, hdone, Bool.true_and]
    exact if_pos hdone
  · rw [if_neg hdone, Bool.eq_false_of_not_eq_true hdone]
    exact if_neg hdone

theorem grfReg_set (g : Vector Reg256 128) {a : Nat} (ha : a < 128) (v : Reg256) (q : Nat) :
    grfReg (g.set a v) q = if q = a then v else grfReg g q := by
  unfold grfReg
  by_cases hqa : q = a
  · simp [hqa, ha]
  · by_cases hq : q < 128
    · simp [hq, hqa, Ne.symm hqa]
    · simp [hq, hqa]

/-- Settles O22: the phase writes one register, DWord by DWord, and the response ends with its last phase. -/
theorem responsePhaseLands : Obligations.ResponsePhaseLands := by
  intro s idx phase data mask rest r hhost hrun hr hphase hnew hreg
  have hstep := step_host_live (by simp) hhost hrun
  have hdeliver := deliver_eq (s := { s with host := rest }) data mask hr hphase hnew hreg
  refine ⟨_, hstep.trans (congrArg Host.Outcome.next hdeliver), fun j hj => ?_, fun q hq => ?_, fun hall => ?_,
    fun hmissing => ?_, rfl⟩
  · dsimp only
    rw [grfReg_set _ hreg, if_pos rfl, dwordOf_maskedDWords _ _ _ _ hj, grfReg, dif_pos hreg]
  · exact (grfReg_set _ hreg _ q).trans (if_neg hq)
  · have hdone := (r.land_complete_iff phase).2 hall
    refine ⟨if_pos hdone, fun q hq => ?_⟩
    dsimp only [State.depOf]
    rw [hdone, Bool.true_and, apply_ite (BitVec.getLsbD · q), markRange_false_get _ _ _ _ hq]
    cases r.clear
    · simp
    · rfl
  · obtain ⟨k, hk, hne, hunlanded⟩ := hmissing
    have hopen : ¬ (r.land phase).complete = true := fun hdone => by
      rcases (r.land_complete_iff phase).1 hdone k hk with heq | hlanded
      · exact hne heq
      · exact Bool.false_ne_true (hunlanded.symm.trans hlanded)
    exact ⟨if_neg hopen, by simp [hopen]⟩

end Sys2Proof.Machine
end

section
/-! SUPPORT. What the host's other actions leave: notifications, the retirement of a thread, the priority, and a preemption (spec/20_memory.md R219; spec/10_state.md R72, R80, R81, R84; spec/60_exceptions.md R905, R912, R915; spec/70_reset_and_hazards.md R953). -/

namespace Sys2Proof.Machine

theorem step_ended {s : State} (hhost : s.host = []) (hrun : s.run = .ended) : step s = .fault .threadEnded := by
  unfold step machineStep
  rw [hhost]
  unfold threadStep
  rw [hrun]

/-! ## Notifications -/

theorem notify_addNotify_ne (s : State) {j k : Fin 3} (up : Bool) (hj : j ≠ k) :
    (s.addNotify k up).notify j = s.notify j := by
  match j, k with
  | 0, 0 | 1, 1 | 2, 2 => exact absurd rfl hj
  | 0, 1 | 0, 2 | 1, 0 | 1, 2 | 2, 0 | 2, 1 => rfl

/-- The one bit of n0.1 is set at a notification, whatever it was (log 54). -/
theorem oneBit_or_one (v : BitVec 1) : (v ||| 1).toNat = 1 := by
  revert v
  decide

theorem notify_addNotify_up (s : State) (k : Fin 3) :
    (s.addNotify k true).notify k = if k = 1 then 1 else (s.notify k + 1) % 65536 := by
  match k with
  | 0 => exact BitVec.toNat_add s.n00 1
  | 1 => exact oneBit_or_one s.n01
  | 2 => exact BitVec.toNat_add s.n02 1

theorem addNotify_eq (s : State) (k : Fin 3) (up : Bool) :
    s.addNotify k up = { s with
      n00 := (s.addNotify k up).n00, n01 := (s.addNotify k up).n01, n02 := (s.addNotify k up).n02 } := by
  match k with
  | 0 | 1 | 2 => rfl

/-! ## The Priority field of sr0.0 -/

/-- sr0.0 with another priority in bits 18:16 (10_state R72). -/
def withPriority (v : DWord) (p : BitVec 3) : DWord := (v &&& 0xFFF8FFFF#32) ||| (p.zeroExtend 32 <<< 16)

theorem getLsbD_withoutPriority (i : Nat) (hi : i < 32) :
    (0xFFF8FFFF#32).getLsbD i = !decide (16 ≤ i ∧ i < 19) := by
  have hbits : ∀ k : Fin 32, (0xFFF8FFFF#32).getLsbD k.val = !decide (16 ≤ k.val ∧ k.val < 19) := by decide
  exact hbits ⟨i, hi⟩

theorem getLsbD_withPriority (v : DWord) (p : BitVec 3) (i : Nat) (hi : i < 32) :
    (withPriority v p).getLsbD i = if 16 ≤ i ∧ i < 19 then p.getLsbD (i - 16) else v.getLsbD i := by
  simp only [withPriority, BitVec.getLsbD_or, BitVec.getLsbD_and, getLsbD_withoutPriority i hi, BitVec.getLsbD_shiftLeft,
    BitVec.truncate_eq_setWidth, BitVec.getLsbD_setWidth, hi, decide_true, Bool.true_and]
  by_cases hfield : 16 ≤ i ∧ i < 19
  · simp [hfield, show ¬ i < 16 by omega, show i - 16 < 32 by omega]
  · rw [if_neg hfield, decide_eq_false hfield]
    by_cases hlow : i < 16
    · simp [hlow]
    · simp [BitVec.getLsbD_of_ge p (i - 16) (by omega)]

theorem withPriority_field (v : DWord) (p : BitVec 3) : (withPriority v p).extractLsb' 16 3 = p := by
  ext i hi
  rw [BitVec.getElem_extractLsb', getLsbD_withPriority _ _ _ (by omega), if_pos (by omega), Nat.add_sub_cancel_left]
  exact BitVec.getLsbD_eq_getElem hi

/-- Bits outside 18:16 stay. -/
theorem withPriority_kept (v : DWord) (p : BitVec 3) (lo len : Nat) (hlen : lo + len ≤ 32)
    (hout : lo + len ≤ 16 ∨ 19 ≤ lo) : (withPriority v p).extractLsb' lo len = v.extractLsb' lo len := by
  ext i hi
  rw [BitVec.getElem_extractLsb', BitVec.getElem_extractLsb', getLsbD_withPriority _ _ _ (by omega), if_neg (by omega)]

theorem hostAct_setPriority (s : State) (p : BitVec 3) :
    hostAct s (.setPriority p) = { s with sr00 := withPriority s.sr00 p } := rfl

/-! ## Preemption -/

/-- Where the launch lets the host generate one, the thread is in the application and no response is owed (60 R915). -/
theorem preempt_taken {s : State} (hallowed : s.launch.preemption = true) (hin : s.inSR = false)
    (howed : s.outstanding = []) : preempt s = EnteredFrom s := by
  unfold preempt
  exact if_pos (by simp [hallowed, hin, howed])

theorem preempt_ignored {s : State} (h : s.launch.preemption = false ∨ s.inSR = true ∨ s.outstanding ≠ []) :
    preempt s = s := by
  unfold preempt
  refine if_neg ?_
  simp only [Bool.and_eq_true, Bool.not_eq_true', List.isEmpty_iff, not_and]
  rintro ⟨hallowed, hin⟩ howed
  rcases h with h | h | h
  · exact Bool.false_ne_true (h.symm.trans hallowed)
  · exact Bool.false_ne_true (hin.symm.trans h)
  · exact h howed

/-- Settles O23, action by action. -/
theorem hostEvents : Obligations.HostEvents := by
  intro s rest
  refine ⟨fun hrun => ⟨fun k hhost => ?_, fun hhost => ?_, fun id hhost => ?_, fun p hhost => ?_, fun hhost => ?_,
    fun hhost => ⟨fun hallowed hin howed => ?_, fun hignored => ?_⟩⟩, fun hrun => ⟨fun hhost => ?_, fun a ha hhost => ?_⟩⟩
  · exact ⟨_, step_host_live (by simp) hhost hrun, fun j hj => notify_addNotify_ne _ true hj, notify_addNotify_up _ k,
      addNotify_eq _ k true⟩
  · exact step_host_live (by simp) hhost hrun
  · refine ⟨_, step_host_live (by simp) hhost hrun, rfl, fun k => ?_⟩
    simp [hostAct]
  · have hset := hostAct_setPriority { s with host := rest } p
    exact ⟨_, (step_host_live (by simp) hhost hrun).trans (congrArg _ hset), rfl, withPriority_field _ p,
      withPriority_kept _ p 0 16 (by decide) (by decide), withPriority_kept _ p 19 13 (by decide) (by decide)⟩
  · exact step_host_live (by simp) hhost hrun
  · exact (step_host_live (by simp) hhost hrun).trans (congrArg _ (preempt_taken hallowed hin howed))
  · exact (step_host_live (by simp) hhost hrun).trans (congrArg _ (preempt_ignored hignored))
  · exact step_ended hhost hrun
  · exact step_host_ended ha hhost hrun

end Sys2Proof.Machine
end

section
/-! SUPPORT. The fields of a native word: what the encoder laid out is what the decoder reads in their places (spec/30_encoding.md R255 to R285). -/

namespace Sys2Proof

/-! ## Codes: the decoder of a field value inverts its code -/

@[simp] theorem AccessMode.ofBit_code (a : AccessMode) : AccessMode.ofBit (a.code.getLsbD 0) = a := by cases a <;> rfl

@[simp] theorem ThreadCtrl.ofCode_code (t : ThreadCtrl) : ThreadCtrl.ofCode t.code = .ok t := by cases t <;> rfl

@[simp] theorem ExecSize.ofCode_code (e : ExecSize) : ExecSize.ofCode e.code = .ok e := by cases e <;> rfl

theorem PredCtrl.ofCode_code {a : AccessMode} {p : PredCtrl} (h : p.wf a = true) : PredCtrl.ofCode a p.code = .ok p := by
  cases p with
  | none | seq | any4h | all4h => cases a <;> rfl
  | anyv | allv | any2h | all2h | any8h | all8h | any16h | all16h | any32h | all32h =>
    obtain rfl : a = .align1 := of_decide_eq_true h
    rfl
  | replX | replY | replZ | replW =>
    obtain rfl : a = .align16 := of_decide_eq_true h
    rfl

@[simp] theorem CondMod.ofCode_code (c : CondMod) : CondMod.ofCode c.code = .ok c := by cases c <;> rfl

@[simp] theorem RegType.ofCode_code (t : RegType) : RegType.ofCode t.code = t := by cases t <;> rfl

@[simp] theorem ImmType.ofCode_code (t : ImmType) : ImmType.ofCode t.code = t := by cases t <;> rfl

@[simp] theorem TriType.ofCode_code (t : TriType) : TriType.ofCode t.code = t := by cases t <;> rfl

@[simp] theorem SrcMod.ofCode_code (m : SrcMod) : SrcMod.ofCode m.code = m := by cases m <;> rfl

theorem VertStride.ofCode_code {v : VertStride} {allow : Bool} (h : v = .vx → allow = true) :
    VertStride.ofCode allow v.code = .ok v := by
  cases v with
  | vx => rw [h rfl]; rfl
  | _ => rfl

@[simp] theorem Width.ofCode_code (w : Width) : Width.ofCode w.code = .ok w := by cases w <;> rfl

@[simp] theorem HorzStride.ofCode_code (z : HorzStride) : HorzStride.ofCode z.code = z := by cases z <;> rfl

@[simp] theorem RegFile.ofCode_code (f : RegFile) : RegFile.ofCode f.code = .ok f := by cases f <;> rfl

@[simp] theorem Arf.ofCode_code (r : Arf) : Arf.ofCode r.code = .ok r := by cases r <;> rfl

theorem need_true (e : DecodeErr) : need true e = .ok () := rfl

/-! ## DW0 -/

/-! ## Parts of parts -/

/-- A bit of the last part of a word. -/
theorem bit_below {n m : Nat} (x : BitVec n) (y : BitVec m) (i : Nat) (hi : i < m) : (x ++ y).getLsbD i = y.getLsbD i := by
  simp [BitVec.getLsbD_append, hi]

/-- The bits of a part of a word. -/
theorem getLsbD_of_fld {n lo len : Nat} {w : BitVec n} {d : BitVec len} (h : w.extractLsb' lo len = d) {i : Nat}
    (hi : i < len) : w.getLsbD (lo + i) = d.getLsbD i := by
  rw [← h, BitVec.getLsbD_extractLsb']
  simp [hi]

/-- A part of a part of a word. -/
theorem fld_of_fld {n lo len : Nat} {w : BitVec n} {d : BitVec len} (h : w.extractLsb' lo len = d) {i k : Nat}
    (hik : i + k ≤ len) : w.extractLsb' (lo + i) k = d.extractLsb' i k := by
  ext j hj
  rw [BitVec.getElem_extractLsb', BitVec.getElem_extractLsb', Nat.add_assoc]
  exact getLsbD_of_fld h (by omega)

/-! ## DW0 -/

section
variable (h : Header) (c : BitVec 4) (op : BitVec 8)

theorem encodeDW0_access : (encodeDW0 h c op).getLsbD 8 = h.access.code.getLsbD 0 := by
  simp (disch := decide) only [encodeDW0, Laws.bit_above, bit_below, Nat.reduceSub]

theorem encodeDW0_noMask : (encodeDW0 h c op).getLsbD 9 = h.noMask := by
  simp (disch := decide) only [encodeDW0, Laws.bit_above, bit_below, Nat.reduceSub, BitVec.getLsbD_ofBool,
    decide_true, Bool.true_and]

theorem encodeDW0_noDDClr : (encodeDW0 h c op).getLsbD 10 = h.noDDClr := by
  simp (disch := decide) only [encodeDW0, Laws.bit_above, bit_below, Nat.reduceSub, BitVec.getLsbD_ofBool,
    decide_true, Bool.true_and]

theorem encodeDW0_noDDChk : (encodeDW0 h c op).getLsbD 11 = h.noDDChk := by
  simp (disch := decide) only [encodeDW0, Laws.bit_above, bit_below, Nat.reduceSub, BitVec.getLsbD_ofBool,
    decide_true, Bool.true_and]

theorem encodeDW0_predInv : (encodeDW0 h c op).getLsbD 20 = h.predInv := by
  simp (disch := decide) only [encodeDW0, Laws.bit_above, bit_below, Nat.reduceSub, BitVec.getLsbD_ofBool,
    decide_true, Bool.true_and]

theorem encodeDW0_accWr : (encodeDW0 h c op).getLsbD 28 = h.accWr := by
  simp (disch := decide) only [encodeDW0, Laws.bit_above, bit_below, Nat.reduceSub, BitVec.getLsbD_ofBool,
    decide_true, Bool.true_and]

theorem encodeDW0_debug : (encodeDW0 h c op).getLsbD 30 = h.debug := by
  simp (disch := decide) only [encodeDW0, Laws.bit_above, bit_below, Nat.reduceSub, BitVec.getLsbD_ofBool,
    decide_true, Bool.true_and]

theorem encodeDW0_sat : (encodeDW0 h c op).getLsbD 31 = h.sat := by
  simp (disch := decide) only [encodeDW0, Laws.bit_above, Nat.reduceSub, BitVec.getLsbD_ofBool,
    decide_true, Bool.true_and]

theorem encodeDW0_qtr : (encodeDW0 h c op).extractLsb' 12 2 = h.qtr := by
  simp (disch := decide) only [encodeDW0, BitVec.extractLsb'_append_eq_of_le, BitVec.extractLsb'_append_eq_of_add_le,
    Nat.reduceSub, BitVec.extractLsb'_eq_self]

theorem encodeDW0_thread : (encodeDW0 h c op).extractLsb' 14 2 = h.thread.code := by
  simp (disch := decide) only [encodeDW0, BitVec.extractLsb'_append_eq_of_le, BitVec.extractLsb'_append_eq_of_add_le,
    Nat.reduceSub, BitVec.extractLsb'_eq_self]

theorem encodeDW0_pred : (encodeDW0 h c op).extractLsb' 16 4 = h.pred.code := by
  simp (disch := decide) only [encodeDW0, BitVec.extractLsb'_append_eq_of_le, BitVec.extractLsb'_append_eq_of_add_le,
    Nat.reduceSub, BitVec.extractLsb'_eq_self]

theorem encodeDW0_size : (encodeDW0 h c op).extractLsb' 21 3 = h.size.code := by
  simp (disch := decide) only [encodeDW0, BitVec.extractLsb'_append_eq_of_le, BitVec.extractLsb'_append_eq_of_add_le,
    Nat.reduceSub, BitVec.extractLsb'_eq_self]

theorem encodeDW0_cond : (encodeDW0 h c op).extractLsb' 24 4 = c := by
  simp (disch := decide) only [encodeDW0, BitVec.extractLsb'_append_eq_of_le, BitVec.extractLsb'_append_eq_of_add_le,
    Nat.reduceSub, BitVec.extractLsb'_eq_self]

end

/-- The header of a word in whose low DWord it was laid out, with its three bits above (R260, R270). -/
theorem decodeHeader_of_fields {w : NativeWord} {h : Header} {c : BitVec 4} {op : BitVec 8} {flagLo : Nat} (hwf : h.wf = true)
    (h0 : w.extractLsb' 0 32 = encodeDW0 h c op) (hnib : w.getLsbD 47 = h.nib)
    (hreg : w.getLsbD (flagLo + 1) = h.flagReg) (hsub : w.getLsbD flagLo = h.flagSub) :
    decodeHeader w flagLo = .ok h := by
  have bit {i : Nat} (hi : i < 32) : w.getLsbD i = (encodeDW0 h c op).getLsbD i := by
    simpa using getLsbD_of_fld h0 hi
  have field {lo len : Nat} (hlen : lo + len ≤ 32) : w.extractLsb' lo len = (encodeDW0 h c op).extractLsb' lo len := by
    simpa using fld_of_fld h0 hlen
  simp (disch := decide) only [decodeHeader, fld, bit, field, hnib, hreg, hsub, encodeDW0_access, AccessMode.ofBit_code,
    encodeDW0_noMask, encodeDW0_noDDClr, encodeDW0_noDDChk, encodeDW0_qtr, encodeDW0_thread, ThreadCtrl.ofCode_code,
    encodeDW0_pred, PredCtrl.ofCode_code hwf, encodeDW0_predInv, encodeDW0_size, ExecSize.ofCode_code, encodeDW0_accWr,
    encodeDW0_debug, encodeDW0_sat]
  rfl

/-! ## The basic layout (R260) -/

/-- The fields of the basic layout, which every format but the bare one and that of three sources has. -/
structure BasicFields where
  hdr : Header
  cond : BitVec 4
  op : BitVec 8
  dst : BitVec 16
  dstTy : BitVec 3
  dstFile : BitVec 2
  src0 : BitVec 25
  src0Ty : BitVec 3
  src0File : BitVec 2
  src1Ty : BitVec 3
  src1File : BitVec 2
  dw3 : DWord

def BasicFields.dw1 (f : BasicFields) : DWord :=
  encodeDW1 f.dst f.hdr.nib f.src1Ty f.src1File f.src0Ty f.src0File f.dstTy f.dstFile

/-- The word that the encoder lays out of them. -/
def BasicFields.word (f : BasicFields) : NativeWord :=
  f.dw3 ++ encodeDW2 f.hdr f.src0 ++ f.dw1 ++ encodeDW0 f.hdr f.cond f.op

namespace BasicFields
variable (f : BasicFields)

theorem word_dw0 : f.word.extractLsb' 0 32 = encodeDW0 f.hdr f.cond f.op := by
  simp (disch := decide) only [word, BitVec.extractLsb'_append_eq_of_add_le, BitVec.extractLsb'_eq_self]

theorem word_op : f.word.extractLsb' 0 8 = f.op := by
  simp (disch := decide) only [word, encodeDW0, BitVec.extractLsb'_append_eq_of_add_le, BitVec.extractLsb'_eq_self]

theorem word_cond : f.word.extractLsb' 24 4 = f.cond := by
  simp (disch := decide) only [word, encodeDW0, BitVec.extractLsb'_append_eq_of_le, BitVec.extractLsb'_append_eq_of_add_le,
    Nat.reduceSub, BitVec.extractLsb'_eq_self]

theorem word_dstFile : f.word.extractLsb' 32 2 = f.dstFile := by
  simp (disch := decide) only [word, dw1, encodeDW1, BitVec.extractLsb'_append_eq_of_le, BitVec.extractLsb'_append_eq_of_add_le,
    Nat.reduceSub, BitVec.extractLsb'_eq_self]

theorem word_dstTy : f.word.extractLsb' 34 3 = f.dstTy := by
  simp (disch := decide) only [word, dw1, encodeDW1, BitVec.extractLsb'_append_eq_of_le, BitVec.extractLsb'_append_eq_of_add_le,
    Nat.reduceSub, BitVec.extractLsb'_eq_self]

theorem word_src0File : f.word.extractLsb' 37 2 = f.src0File := by
  simp (disch := decide) only [word, dw1, encodeDW1, BitVec.extractLsb'_append_eq_of_le, BitVec.extractLsb'_append_eq_of_add_le,
    Nat.reduceSub, BitVec.extractLsb'_eq_self]

theorem word_src0Ty : f.word.extractLsb' 39 3 = f.src0Ty := by
  simp (disch := decide) only [word, dw1, encodeDW1, BitVec.extractLsb'_append_eq_of_le, BitVec.extractLsb'_append_eq_of_add_le,
    Nat.reduceSub, BitVec.extractLsb'_eq_self]

theorem word_src1File : f.word.extractLsb' 42 2 = f.src1File := by
  simp (disch := decide) only [word, dw1, encodeDW1, BitVec.extractLsb'_append_eq_of_le, BitVec.extractLsb'_append_eq_of_add_le,
    Nat.reduceSub, BitVec.extractLsb'_eq_self]

theorem word_src1Ty : f.word.extractLsb' 44 3 = f.src1Ty := by
  simp (disch := decide) only [word, dw1, encodeDW1, BitVec.extractLsb'_append_eq_of_le, BitVec.extractLsb'_append_eq_of_add_le,
    Nat.reduceSub, BitVec.extractLsb'_eq_self]

theorem word_dst : f.word.extractLsb' 48 16 = f.dst := by
  simp (disch := decide) only [word, dw1, encodeDW1, BitVec.extractLsb'_append_eq_of_le, BitVec.extractLsb'_append_eq_of_add_le,
    Nat.reduceSub, BitVec.extractLsb'_eq_self]

theorem word_nib : f.word.getLsbD 47 = f.hdr.nib := by
  simp (disch := decide) only [word, dw1, encodeDW1, Laws.bit_above, bit_below, Nat.reduceSub, BitVec.getLsbD_ofBool,
    decide_true, Bool.true_and]

theorem word_src0 : f.word.extractLsb' 64 25 = f.src0 := by
  simp (disch := decide) only [word, encodeDW2, BitVec.extractLsb'_append_eq_of_le, BitVec.extractLsb'_append_eq_of_add_le,
    Nat.reduceSub, BitVec.extractLsb'_eq_self]

theorem word_flagSub : f.word.getLsbD 89 = f.hdr.flagSub := by
  simp (disch := decide) only [word, encodeDW2, Laws.bit_above, bit_below, Nat.reduceSub, BitVec.getLsbD_ofBool,
    decide_true, Bool.true_and]

theorem word_flagReg : f.word.getLsbD 90 = f.hdr.flagReg := by
  simp (disch := decide) only [word, encodeDW2, Laws.bit_above, bit_below, Nat.reduceSub, BitVec.getLsbD_ofBool,
    decide_true, Bool.true_and]

theorem word_zero : f.word.extractLsb' 91 5 = 0#5 := by
  simp (disch := decide) only [word, encodeDW2, BitVec.extractLsb'_append_eq_of_le, BitVec.extractLsb'_append_eq_of_add_le,
    Nat.reduceSub, BitVec.extractLsb'_eq_self]

theorem word_dw3 : f.word.extractLsb' 96 32 = f.dw3 := by
  simp (disch := decide) only [word, BitVec.extractLsb'_append_eq_of_le, Nat.reduceSub, BitVec.extractLsb'_eq_self]

/-- A part of DW3. -/
theorem word_dw3_part {i k : Nat} (hik : i + k ≤ 32) : f.word.extractLsb' (96 + i) k = f.dw3.extractLsb' i k :=
  fld_of_fld f.word_dw3 hik

theorem decodeHeader_word (hwf : f.hdr.wf = true) : decodeHeader f.word 89 = .ok f.hdr :=
  decodeHeader_of_fields hwf f.word_dw0 f.word_nib f.word_flagReg f.word_flagSub

end BasicFields

end Sys2Proof
end

section
/-! SUPPORT. Operands: a place, a source region and a destination decode from the bits that they encode to (spec/30_encoding.md R255 to R264, R290). -/

namespace Sys2Proof

/-! ## Places (R255 to R258) -/

/-- In Align16 the low four bits of a well-formed place are zero. -/
theorem Loc.bits_low {l : Loc} (h : l.wf .align16 = true) : l.bits.extractLsb' 0 4 = 0#4 := by
  cases l with
  | grf _ _ | arf _ _ | ind _ _ =>
    exact (BitVec.extractLsb'_append_eq_of_add_le (by decide)).trans (by simpa [Loc.wf] using h)

/-- The two parts of a value, the low one of k bits. -/
theorem high_append_low {m k : Nat} (x : BitVec (m + k)) : x.extractLsb' k m ++ x.extractLsb' 0 k = x :=
  (BitVec.extractLsb'_append_extractLsb'_eq_extractLsb' (Nat.zero_add k).symm).trans BitVec.extractLsb'_eq_self

/-- In Align16 the encoder keeps the nine bits above them. -/
theorem locBits_align16 {l : Loc} (h : l.wf .align16 = true) {x : BitVec 13}
    (hx : x.extractLsb' 4 9 = l.bits.extractLsb' 4 9) : locBits .align16 x = l.bits := by
  calc locBits .align16 x = l.bits.extractLsb' 4 9 ++ l.bits.extractLsb' 0 4 := by rw [l.bits_low h, ← hx]; rfl
    _ = l.bits := high_append_low (m := 9) (k := 4) l.bits

theorem decodeLoc_bits (l : Loc) : decodeLoc l.file (l.addrMode.getLsbD 0) l.bits = .ok l := by
  have direct : (0#1).getLsbD 0 = false := by decide
  have indirect : (1#1).getLsbD 0 = true := by decide
  cases l with
  | grf n sub =>
    have hfile : (Loc.grf n sub).file.toNat = 1 := rfl
    have hmode : (Loc.grf n sub).addrMode.getLsbD 0 = false := direct
    have hnum : (Loc.grf n sub).bits.extractLsb' 5 7 = n := by
      simp (disch := decide) only [Loc.bits, BitVec.extractLsb'_append_eq_of_le,
        BitVec.extractLsb'_append_eq_of_add_le, Nat.reduceSub, BitVec.extractLsb'_eq_self]
    have hsub : (Loc.grf n sub).bits.extractLsb' 0 5 = sub := by
      simp (disch := decide) only [Loc.bits, BitVec.extractLsb'_append_eq_of_add_le, BitVec.extractLsb'_eq_self]
    have hhigh : (Loc.grf n sub).bits.getLsbD 12 = false := by
      simp (disch := decide) only [Loc.bits, Laws.bit_above, Nat.reduceSub, BitVec.getLsbD_zero]
    simp only [decodeLoc, hfile, hmode, hnum, hsub, hhigh, Bool.false_eq_true, if_false]
  | arf r sub =>
    have hfile : (Loc.arf r sub).file.toNat = 0 := rfl
    have hmode : (Loc.arf r sub).addrMode.getLsbD 0 = false := direct
    have hreg : (Loc.arf r sub).bits.extractLsb' 5 8 = r.code := by
      simp (disch := decide) only [Loc.bits, BitVec.extractLsb'_append_eq_of_le, Nat.reduceSub,
        BitVec.extractLsb'_eq_self]
    have hsub : (Loc.arf r sub).bits.extractLsb' 0 5 = sub := by
      simp (disch := decide) only [Loc.bits, BitVec.extractLsb'_append_eq_of_add_le, BitVec.extractLsb'_eq_self]
    simp only [decodeLoc, hfile, hmode, hreg, Arf.ofCode_code, hsub, Bool.false_eq_true, if_false]
    rfl
  | ind a imm =>
    have hfile : (Loc.ind a imm).file.toNat = 1 := rfl
    have hmode : (Loc.ind a imm).addrMode.getLsbD 0 = true := indirect
    have haddr : (Loc.ind a imm).bits.extractLsb' 10 3 = a := by
      simp (disch := decide) only [Loc.bits, BitVec.extractLsb'_append_eq_of_le, Nat.reduceSub,
        BitVec.extractLsb'_eq_self]
    have himm : (Loc.ind a imm).bits.extractLsb' 0 10 = imm := by
      simp (disch := decide) only [Loc.bits, BitVec.extractLsb'_append_eq_of_add_le, BitVec.extractLsb'_eq_self]
    simp only [decodeLoc, hfile, hmode, if_true, haddr, himm]

/-! ## Destinations -/

/-- The destination of a word in which it was laid out (R260). -/
theorem decodeDst_of_fields {w : NativeWord} {a : AccessMode} {d : Dst} (hwf : d.wf a = true)
    (hdst : w.extractLsb' 48 16 = encodeDst d) (hty : w.extractLsb' 34 3 = d.ty.code)
    (hfile : w.extractLsb' 32 2 = d.loc.file) : decodeDst w a = .ok d := by
  obtain ⟨loc, ty, region⟩ := d
  simp only [Dst.wf, Bool.and_eq_true] at hwf
  obtain ⟨hloc, hregion⟩ := hwf
  have hmode : w.getLsbD 63 = loc.addrMode.getLsbD 0 := by
    refine (getLsbD_of_fld hdst (i := 15) (by decide)).trans ?_
    cases region with
    | a1 _ | a16 _ => simp (disch := decide) only [encodeDst, Laws.bit_above, Nat.reduceSub]
  have hpart {lo k : Nat} (hk : lo + k ≤ 16) := fld_of_fld hdst hk
  cases region with
  | a1 z =>
    obtain rfl : a = .align1 := by simpa using hregion
    have hbits : w.extractLsb' 48 13 = loc.bits := by
      refine (hpart (lo := 0) (by decide)).trans ?_
      simp (disch := decide) only [encodeDst, BitVec.extractLsb'_append_eq_of_add_le, BitVec.extractLsb'_eq_self]
    have hstride : w.extractLsb' 61 2 = z.code := by
      refine (hpart (lo := 13) (by decide)).trans ?_
      simp (disch := decide) only [encodeDst, BitVec.extractLsb'_append_eq_of_le,
        BitVec.extractLsb'_append_eq_of_add_le, Nat.reduceSub, BitVec.extractLsb'_eq_self]
    simp only [decodeDst, fld, hfile, hmode, hbits, locBits, decodeLoc_bits, hty, RegType.ofCode_code, hstride,
      HorzStride.ofCode_code]
    rfl
  | a16 ce =>
    obtain rfl : a = .align16 := by simpa using hregion
    have hhigh : (w.extractLsb' 48 13).extractLsb' 4 9 = loc.bits.extractLsb' 4 9 := by
      refine (fld_of_fld rfl (by decide)).symm.trans ((hpart (lo := 4) (by decide)).trans ?_)
      simp (disch := decide) only [encodeDst, BitVec.extractLsb'_append_eq_of_le,
        BitVec.extractLsb'_append_eq_of_add_le, Nat.reduceSub, BitVec.extractLsb'_eq_self]
    have hchan : w.extractLsb' 48 4 = ce := by
      refine (hpart (lo := 0) (by decide)).trans ?_
      simp (disch := decide) only [encodeDst, BitVec.extractLsb'_append_eq_of_add_le, BitVec.extractLsb'_eq_self]
    simp only [decodeDst, fld, hfile, hmode, locBits_align16 hloc hhigh, decodeLoc_bits, hty, RegType.ofCode_code, hchan]
    rfl

/-! ## Sources -/

/-- AddrMode in bit 15 of the bits of a source (R260). -/
theorem encodeRegSrc_addrMode (r : RegSrc) : (encodeRegSrc r).getLsbD 15 = r.loc.addrMode.getLsbD 0 := by
  unfold encodeRegSrc
  cases r.region with
  | a1 _ _ _ | a16 _ _ => simp (disch := decide) only [Laws.bit_above, bit_below, Nat.reduceSub]

theorem encodeRegSrc_mod (r : RegSrc) : (encodeRegSrc r).extractLsb' 13 2 = r.mod.code := by
  unfold encodeRegSrc
  cases r.region with
  | a1 _ _ _ | a16 _ _ =>
    simp (disch := decide) only [BitVec.extractLsb'_append_eq_of_le, BitVec.extractLsb'_append_eq_of_add_le,
      Nat.reduceSub, BitVec.extractLsb'_eq_self]

/-- Vx1 and VxH stand on an indirect src0 alone (R252). -/
theorem RegSrc.allowsVx {r : RegSrc} {isSrc1 : Bool} {wd : Width} {z : HorzStride} (hregion : r.region = .a1 .vx wd z)
    (h : r.wf .align1 isSrc1 = true) : (r.loc.addrMode.getLsbD 0 && !isSrc1) = true := by
  obtain ⟨loc, ty, mod, region⟩ := r
  obtain rfl : region = _ := hregion
  cases loc with
  | ind _ _ =>
    cases isSrc1 with
    | false => simp [Loc.addrMode]
    | true => simp [RegSrc.wf] at h
  | grf _ _ | arf _ _ => simp [RegSrc.wf] at h

theorem decodeRegSrc_encodeRegSrc {r : RegSrc} {a : AccessMode} {isSrc1 : Bool} (hwf : r.wf a isSrc1 = true) :
    decodeRegSrc a isSrc1 r.loc.file r.ty.code (encodeRegSrc r) = .ok r := by
  have hmode := encodeRegSrc_addrMode r
  have hmod := encodeRegSrc_mod r
  have hvx {wd : Width} {z : HorzStride} := RegSrc.allowsVx (r := r) (isSrc1 := isSrc1) (wd := wd) (z := z)
  obtain ⟨loc, ty, mod, region⟩ := r
  have hparts := hwf
  simp only [RegSrc.wf, Bool.and_eq_true] at hparts
  obtain ⟨hloc, hregion⟩ := hparts
  cases region with
  | a1 v wd z =>
    simp only [Bool.and_eq_true, decide_eq_true_eq] at hregion
    obtain ⟨rfl, -⟩ := hregion
    have hbits : (encodeRegSrc ⟨loc, ty, mod, .a1 v wd z⟩).extractLsb' 0 13 = loc.bits := by
      simp (disch := decide) only [encodeRegSrc, BitVec.extractLsb'_append_eq_of_add_le, BitVec.extractLsb'_eq_self]
    have hvert : (encodeRegSrc ⟨loc, ty, mod, .a1 v wd z⟩).extractLsb' 21 4 = v.code := by
      simp (disch := decide) only [encodeRegSrc, BitVec.extractLsb'_append_eq_of_le,
        Nat.reduceSub, BitVec.extractLsb'_eq_self]
    have hwidth : (encodeRegSrc ⟨loc, ty, mod, .a1 v wd z⟩).extractLsb' 18 3 = wd.code := by
      simp (disch := decide) only [encodeRegSrc, BitVec.extractLsb'_append_eq_of_le,
        BitVec.extractLsb'_append_eq_of_add_le, Nat.reduceSub, BitVec.extractLsb'_eq_self]
    have hhorz : (encodeRegSrc ⟨loc, ty, mod, .a1 v wd z⟩).extractLsb' 16 2 = z.code := by
      simp (disch := decide) only [encodeRegSrc, BitVec.extractLsb'_append_eq_of_le,
        BitVec.extractLsb'_append_eq_of_add_le, Nat.reduceSub, BitVec.extractLsb'_eq_self]
    have hallow : v = .vx → (loc.addrMode.getLsbD 0 && !isSrc1) = true := by
      rintro rfl
      exact hvx rfl hwf
    simp only [decodeRegSrc, hmode, hmod, hbits, locBits, decodeLoc_bits, hvert, VertStride.ofCode_code hallow, hwidth,
      Width.ofCode_code, hhorz, HorzStride.ofCode_code, RegType.ofCode_code, SrcMod.ofCode_code]
    rfl
  | a16 v cs =>
    obtain ⟨rfl, hv⟩ : a = .align16 ∧ v ≠ .vx := by simpa using hregion
    have hkept : (encodeRegSrc ⟨loc, ty, mod, .a16 v cs⟩).extractLsb' 4 9 = loc.bits.extractLsb' 4 9 := by
      simp (disch := decide) only [encodeRegSrc, BitVec.extractLsb'_append_eq_of_le,
        BitVec.extractLsb'_append_eq_of_add_le, Nat.reduceSub, BitVec.extractLsb'_eq_self]
    have hhigh : ((encodeRegSrc ⟨loc, ty, mod, .a16 v cs⟩).extractLsb' 0 13).extractLsb' 4 9 = loc.bits.extractLsb' 4 9 :=
      (fld_of_fld rfl (by decide)).symm.trans hkept
    have hvert : (encodeRegSrc ⟨loc, ty, mod, .a16 v cs⟩).extractLsb' 21 4 = v.code := by
      simp (disch := decide) only [encodeRegSrc, BitVec.extractLsb'_append_eq_of_le,
        Nat.reduceSub, BitVec.extractLsb'_eq_self]
    have hzero : (encodeRegSrc ⟨loc, ty, mod, .a16 v cs⟩).getLsbD 20 = false := by
      simp (disch := decide) only [encodeRegSrc, Laws.bit_above, bit_below, Nat.reduceSub, BitVec.getLsbD_zero]
    have hcsHigh : (encodeRegSrc ⟨loc, ty, mod, .a16 v cs⟩).extractLsb' 16 4 = cs.extractLsb' 4 4 := by
      simp (disch := decide) only [encodeRegSrc, BitVec.extractLsb'_append_eq_of_le,
        BitVec.extractLsb'_append_eq_of_add_le, Nat.reduceSub, BitVec.extractLsb'_eq_self]
    have hcsLow : (encodeRegSrc ⟨loc, ty, mod, .a16 v cs⟩).extractLsb' 0 4 = cs.extractLsb' 0 4 := by
      simp (disch := decide) only [encodeRegSrc, BitVec.extractLsb'_append_eq_of_add_le, BitVec.extractLsb'_eq_self]
    have hcs : cs.extractLsb' 4 4 ++ cs.extractLsb' 0 4 = cs := high_append_low (m := 4) (k := 4) cs
    simp only [decodeRegSrc, hmode, hmod, locBits_align16 hloc hhigh, decodeLoc_bits, hvert,
      VertStride.ofCode_code (fun h => absurd h hv), hzero, Bool.not_false, need_true, hcsHigh, hcsLow, hcs,
      RegType.ofCode_code, SrcMod.ofCode_code]
    rfl

end Sys2Proof
end

section
/-! SUPPORT. Formats: the native word of a well-formed format decodes to it, and the word of a well-formed instruction to the instruction (spec/30_encoding.md R253 to R302). -/

namespace Sys2Proof

/-- A part that decodes hands its value on. -/
theorem ok_bind {α β : Type} (x : α) (k : α → Except DecodeErr β) : (Except.ok x >>= k) = k x := rfl

/-! ## Operands of a word in the basic layout -/

/-- The zeros of an absent source name null (R290). -/
theorem decodeFiller_zero (a : AccessMode) (isSrc1 : Bool) (ty : BitVec 3) :
    decodeFiller a isSrc1 0#2 ty 0#25 = .ok () := by
  cases a with
  | align1 | align16 => rfl

theorem Loc.file_ne_imm (l : Loc) : l.file ≠ 3#2 := by
  cases l with
  | grf _ _ | ind _ _ => exact (by decide : 1#2 ≠ 3#2)
  | arf _ _ => exact (by decide : 0#2 ≠ 3#2)

section
variable {f : BasicFields} {a : AccessMode}

theorem decodeDst_word {d : Dst} (hwf : d.wf a = true) (hdst : f.dst = encodeDst d) (hty : f.dstTy = d.ty.code)
    (hfile : f.dstFile = d.loc.file) : decodeDst f.word a = .ok d :=
  decodeDst_of_fields hwf (f.word_dst.trans hdst) (f.word_dstTy.trans hty) (f.word_dstFile.trans hfile)

theorem decodeSrc0_word {r : RegSrc} (hwf : r.wf a false = true) (hsrc : f.src0 = encodeRegSrc r)
    (hty : f.src0Ty = r.ty.code) (hfile : f.src0File = r.loc.file) : decodeSrc0 f.word a = .ok r := by
  simp only [decodeSrc0, fld, f.word_src0File, f.word_src0Ty, f.word_src0, hsrc, hty, hfile]
  exact decodeRegSrc_encodeRegSrc hwf

/-- The 25 bits of src1 and those above them (R260). -/
theorem word_src1 {x : BitVec 25} (hdw3 : f.dw3 = 0#7 ++ x) :
    f.word.extractLsb' 96 25 = x ∧ f.word.extractLsb' 121 7 = 0#7 := by
  have hlow := f.word_dw3_part (i := 0) (k := 25) (by decide)
  have hhigh := f.word_dw3_part (i := 25) (k := 7) (by decide)
  rw [hdw3] at hlow hhigh
  refine ⟨hlow.trans ?_, hhigh.trans ?_⟩
  · simp (disch := decide) only [BitVec.extractLsb'_append_eq_of_add_le, BitVec.extractLsb'_eq_self]
  · simp (disch := decide) only [BitVec.extractLsb'_append_eq_of_le, Nat.reduceSub, BitVec.extractLsb'_eq_self]

theorem decodeSrc1_word {src : Src} (hwf : src.wf a true = true) (hdw3 : f.dw3 = encodeDW3 src)
    (hty : f.src1Ty = src.typeCode) (hfile : f.src1File = src.file) : decodeSrc1 f.word a = .ok src := by
  cases src with
  | imm t v =>
    have himm : f.src1File = 3#2 := hfile
    simp only [decodeSrc1, fld, f.word_src1File, himm, if_true, f.word_src1Ty, hty, Src.typeCode,
      ImmType.ofCode_code, f.word_dw3, hdw3, encodeDW3]
  | reg r =>
    obtain ⟨hbits, hzero⟩ := word_src1 hdw3
    simp only [decodeSrc1, fld, f.word_src1File, hfile, Src.file, r.loc.file_ne_imm, if_false, hzero, decide_true, need_true,
      f.word_src1Ty, hty, Src.typeCode, hbits, decodeRegSrc_encodeRegSrc hwf]
    rfl

end

/-! ## Basic format (R260, R290) -/

/-- The fields of an instruction with one source. -/
def Basic1.fields (op : BitVec 8) (b : Basic1) : BasicFields where
  hdr := b.hdr
  cond := b.cmod.code
  op := op
  dst := encodeDst b.dst
  dstTy := b.dst.ty.code
  dstFile := b.dst.loc.file
  src0 := match b.src0 with
    | .reg r => encodeRegSrc r
    | .imm _ _ => 0
  src0Ty := b.src0.typeCode
  src0File := b.src0.file
  src1Ty := b.src0.typeCode
  src1File := 0
  dw3 := match b.src0 with
    | .reg _ => 0
    | .imm _ v => v

theorem encodeBasic1_eq (op : BitVec 8) (b : Basic1) : encodeBasic1 op b = (b.fields op).word := by
  obtain ⟨hdr, cmod, dst, src0⟩ := b
  cases src0 with
  | reg _ | imm _ _ => rfl

theorem decodeBasic1_encodeBasic1 {b : Basic1} (op : BitVec 8) (hwf : (Form.basic1 b).wf = true) :
    decodeBasic1 (encodeBasic1 op b) = .ok b := by
  simp only [Form.wf, Bool.and_eq_true] at hwf
  obtain ⟨⟨hhdr, hdst⟩, hsrc⟩ := hwf
  have hheader : decodeHeader (b.fields op).word 89 = .ok b.hdr := BasicFields.decodeHeader_word _ hhdr
  have hcond : (b.fields op).cond = b.cmod.code := rfl
  have hdecoded : decodeDst (b.fields op).word b.hdr.access = .ok b.dst := decodeDst_word hdst rfl rfl rfl
  have hnullTy : (b.fields op).src1Ty = (b.fields op).src0Ty := rfl
  have hnullFile : (b.fields op).src1File = 0#2 := rfl
  rw [encodeBasic1_eq]
  cases hs : b.src0 with
  | imm t v =>
    have hfile : (b.fields op).src0File = 3#2 := congrArg Src.file hs
    have hty : (b.fields op).src0Ty = t.code := congrArg Src.typeCode hs
    have hsrc0 : (b.fields op).src0 = 0#25 := by rw [Basic1.fields, hs]; rfl
    have hval : (b.fields op).dw3 = v := by rw [Basic1.fields, hs]
    have hnoMod : (b.fields op).word.extractLsb' 77 2 = 0#2 := by
      refine (fld_of_fld (BasicFields.word_src0 _) (i := 13) (by decide)).trans ?_
      rw [hsrc0]
      decide
    simp only [decodeBasic1, fld, BasicFields.word_zero, decide_true, need_true, ok_bind, hheader,
      BasicFields.word_cond, hcond, CondMod.ofCode_code, hdecoded, BasicFields.word_src1Ty, BasicFields.word_src0Ty,
      hnullTy, BasicFields.word_src0File, hfile,
      if_true, BasicFields.word_src1File, hnullFile, hnoMod, hty, ImmType.ofCode_code, BasicFields.word_dw3, hval]
    rw [← hs]
    rfl
  | reg r =>
    have hfile : (b.fields op).src0File ≠ 3#2 := by
      rw [show (b.fields op).src0File = r.loc.file from congrArg Src.file hs]
      exact r.loc.file_ne_imm
    have hsource : decodeSrc0 (b.fields op).word b.hdr.access = .ok r :=
      decodeSrc0_word (by rw [hs] at hsrc; exact hsrc) (by rw [Basic1.fields, hs]) (congrArg Src.typeCode hs)
        (congrArg Src.file hs)
    obtain ⟨hbits, hzero⟩ := word_src1 (f := b.fields op) (x := 0#25) (by rw [Basic1.fields, hs]; rfl)
    simp only [decodeBasic1, fld, BasicFields.word_zero, decide_true, need_true, ok_bind, hheader,
      BasicFields.word_cond, hcond, CondMod.ofCode_code, hdecoded, BasicFields.word_src1Ty, BasicFields.word_src0Ty,
      hnullTy, BasicFields.word_src0File, hfile,
      if_false, BasicFields.word_src1File, hnullFile, hzero, hbits, decodeFiller_zero, hsource]
    rw [← hs]
    rfl

/-! ## Two sources (R260, R285) -/

/-- The fields of an instruction with two sources. -/
def twoFields (op : BitVec 8) (h : Header) (b2724 : BitVec 4) (dst : Dst) (s0 : RegSrc) (s1 : Src) : BasicFields where
  hdr := h
  cond := b2724
  op := op
  dst := encodeDst dst
  dstTy := dst.ty.code
  dstFile := dst.loc.file
  src0 := encodeRegSrc s0
  src0Ty := s0.ty.code
  src0File := s0.loc.file
  src1Ty := s1.typeCode
  src1File := s1.file
  dw3 := encodeDW3 s1

theorem encodeTwo_eq (op : BitVec 8) (h : Header) (b2724 : BitVec 4) (dst : Dst) (s0 : RegSrc) (s1 : Src) :
    encodeTwo op h b2724 dst s0 s1 = (twoFields op h b2724 dst s0 s1).word := rfl

/-- What the two formats read of the shared fields. -/
theorem decodeTwo_parts {h : Header} {dst : Dst} {s0 : RegSrc} {s1 : Src} (op : BitVec 8) (b2724 : BitVec 4)
    (hwf : (h.wf && dst.wf h.access && s0.wf h.access false && s1.wf h.access true) = true) :
    decodeHeader (twoFields op h b2724 dst s0 s1).word 89 = .ok h ∧
    decodeDst (twoFields op h b2724 dst s0 s1).word h.access = .ok dst ∧
    decodeSrc0 (twoFields op h b2724 dst s0 s1).word h.access = .ok s0 ∧
    decodeSrc1 (twoFields op h b2724 dst s0 s1).word h.access = .ok s1 := by
  simp only [Bool.and_eq_true] at hwf
  obtain ⟨⟨⟨hhdr, hdst⟩, hsrc0⟩, hsrc1⟩ := hwf
  exact ⟨BasicFields.decodeHeader_word _ hhdr, decodeDst_word hdst rfl rfl rfl, decodeSrc0_word hsrc0 rfl rfl rfl,
    decodeSrc1_word hsrc1 rfl rfl rfl⟩

theorem decodeBasic2_encodeTwo {b : Basic2} (op : BitVec 8) (hwf : (Form.basic2 b).wf = true) :
    decodeBasic2 (encodeTwo op b.hdr b.cmod.code b.dst b.src0 b.src1) = .ok b := by
  obtain ⟨hheader, hdst, hsrc0, hsrc1⟩ := decodeTwo_parts op b.cmod.code hwf
  have hcond : (twoFields op b.hdr b.cmod.code b.dst b.src0 b.src1).cond = b.cmod.code := rfl
  simp only [encodeTwo_eq, decodeBasic2, fld, BasicFields.word_zero, decide_true, need_true, ok_bind, hheader,
    BasicFields.word_cond, hcond, CondMod.ofCode_code, hdst, hsrc0, hsrc1]
  rfl

theorem decodeMath_encodeTwo {m : Math} (op : BitVec 8) (hwf : (Form.math m).wf = true) :
    decodeMath (encodeTwo op m.hdr m.fc m.dst m.src0 m.src1) = .ok m := by
  obtain ⟨hheader, hdst, hsrc0, hsrc1⟩ := decodeTwo_parts op m.fc hwf
  have hcond : (twoFields op m.hdr m.fc m.dst m.src0 m.src1).cond = m.fc := rfl
  simp only [encodeTwo_eq, decodeMath, fld, BasicFields.word_zero, decide_true, need_true, ok_bind, hheader,
    BasicFields.word_cond, hcond, hdst, hsrc0, hsrc1]
  rfl

/-! ## Branches (R275) -/

/-- The fields of a branch: a null src0 of type D, and the offsets in DW3. -/
def branchFields (op : BitVec 8) (h : Header) (dst16 : BitVec 16) (dty : BitVec 3) (dfile : BitVec 2) (file : RegFile)
    (ty : BitVec 3) (jip uip : BitVec 16) : BasicFields where
  hdr := h
  cond := 0
  op := op
  dst := dst16
  dstTy := dty
  dstFile := dfile
  src0 := 0
  src0Ty := 1
  src0File := 0
  src1Ty := ty
  src1File := file.code
  dw3 := uip ++ jip

section
variable {op : BitVec 8} {h : Header} {dst16 : BitVec 16} {dty : BitVec 3} {dfile : BitVec 2} {file : RegFile}
  {ty : BitVec 3} {jip uip : BitVec 16}

theorem encodeBranch_eq : encodeBranch op h dst16 dty dfile file ty jip uip =
    (branchFields op h dst16 dty dfile file ty jip uip).word := rfl

theorem branchFields_jip : (branchFields op h dst16 dty dfile file ty jip uip).word.extractLsb' 96 16 = jip := by
  refine (BasicFields.word_dw3_part _ (i := 0) (by decide)).trans ?_
  exact (BitVec.extractLsb'_append_eq_of_add_le (by decide)).trans BitVec.extractLsb'_eq_self

theorem branchFields_uip : (branchFields op h dst16 dty dfile file ty jip uip).word.extractLsb' 112 16 = uip := by
  refine (BasicFields.word_dw3_part _ (i := 16) (by decide)).trans ?_
  exact (BitVec.extractLsb'_append_eq_of_le (by decide)).trans BitVec.extractLsb'_eq_self

theorem decodeBranchHeader_word (hwf : h.wf = true) :
    decodeBranchHeader (branchFields op h dst16 dty dfile file ty jip uip).word = .ok h := by
  have hheader : decodeHeader (branchFields op h dst16 dty dfile file ty jip uip).word 89 = .ok h :=
    BasicFields.decodeHeader_word _ hwf
  have hcond : (branchFields op h dst16 dty dfile file ty jip uip).word.extractLsb' 24 4 = 0#4 := BasicFields.word_cond _
  have hnull : decodeFiller h.access false ((branchFields op h dst16 dty dfile file ty jip uip).word.extractLsb' 37 2)
      ((branchFields op h dst16 dty dfile file ty jip uip).word.extractLsb' 39 3)
      ((branchFields op h dst16 dty dfile file ty jip uip).word.extractLsb' 64 25) = .ok () := by
    rw [BasicFields.word_src0File, BasicFields.word_src0]
    exact decodeFiller_zero _ _ _
  simp only [decodeBranchHeader, fld, hcond, BasicFields.word_zero, decide_true, need_true, ok_bind, hheader, hnull]
  rfl

theorem branchFields_file :
    RegFile.ofCode ((branchFields op h dst16 dty dfile file ty jip uip).word.extractLsb' 42 2) = .ok file := by
  rw [BasicFields.word_src1File]
  exact file.ofCode_code

theorem branchFields_offTy : (branchFields op h dst16 dty dfile file ty jip uip).word.extractLsb' 44 3 = ty :=
  BasicFields.word_src1Ty _

/-- The destination field of a branch without one names null. -/
theorem fillerNull_word (a : AccessMode) : fillerNull a
    ((branchFields op h branchNullDst 1#3 0#2 file ty jip uip).word.extractLsb' 32 2)
    ((branchFields op h branchNullDst 1#3 0#2 file ty jip uip).word.getLsbD 63)
    ((branchFields op h branchNullDst 1#3 0#2 file ty jip uip).word.extractLsb' 48 13) = true := by
  have hdst : (branchFields op h branchNullDst 1#3 0#2 file ty jip uip).word.extractLsb' 48 16 = branchNullDst :=
    BasicFields.word_dst _
  have hfile : (branchFields op h branchNullDst 1#3 0#2 file ty jip uip).word.extractLsb' 32 2 = 0#2 :=
    BasicFields.word_dstFile _
  have hmode := getLsbD_of_fld hdst (i := 15) (by decide)
  have hbits := fld_of_fld hdst (i := 0) (k := 13) (by decide)
  rw [hfile, hmode, hbits]
  cases a with
  | align1 | align16 => decide

theorem decodeBranch1_encodeBranch {b : Branch1} (op : BitVec 8) (hwf : (Form.branch1 b).wf = true) :
    decodeBranch1 (encodeBranch op b.hdr branchNullDst 1#3 0#2 b.offFile b.offTy b.jip 0#16) = .ok b := by
  simp only [encodeBranch_eq, decodeBranch1, fld, decodeBranchHeader_word hwf, ok_bind, fillerNull_word, need_true,
    branchFields_file, branchFields_uip, decide_true, branchFields_offTy, branchFields_jip]
  rfl

theorem decodeBranch2_encodeBranch {b : Branch2} (op : BitVec 8) (hwf : (Form.branch2 b).wf = true) :
    decodeBranch2 (encodeBranch op b.hdr branchNullDst 1#3 0#2 b.offFile b.offTy b.jip b.uip) = .ok b := by
  simp only [encodeBranch_eq, decodeBranch2, fld, decodeBranchHeader_word hwf, ok_bind, fillerNull_word, need_true,
    branchFields_file, branchFields_uip, branchFields_offTy, branchFields_jip]
  rfl

/-- The region bits of the null source of `call` are zero (42 R651). -/
theorem callRegionOk_word (a : AccessMode) :
    callRegionOk a ((branchFields op h dst16 dty dfile file ty jip uip).word.extractLsb' 80 9) = true := by
  have hsrc : (branchFields op h dst16 dty dfile file ty jip uip).word.extractLsb' 64 25 = 0#25 := BasicFields.word_src0 _
  rw [fld_of_fld hsrc (i := 16) (k := 9) (by decide)]
  cases a with
  | align1 | align16 => decide

theorem decodeCall_encodeBranch {c : Call} (op : BitVec 8) (hwf : (Form.call c).wf = true) :
    decodeCall (encodeBranch op c.hdr (encodeDst c.dst) c.dst.ty.code c.dst.loc.file c.offFile c.offTy c.jip 0#16) =
      .ok c := by
  simp only [Form.wf, Bool.and_eq_true] at hwf
  obtain ⟨hhdr, hdst⟩ := hwf
  have hdecoded : decodeDst (branchFields op c.hdr (encodeDst c.dst) c.dst.ty.code c.dst.loc.file c.offFile c.offTy c.jip
      0#16).word c.hdr.access = .ok c.dst := decodeDst_word hdst rfl rfl rfl
  simp only [encodeBranch_eq, decodeCall, fld, decodeBranchHeader_word hhdr, ok_bind, callRegionOk_word, need_true, hdecoded,
    branchFields_file, branchFields_uip, decide_true, branchFields_offTy, branchFields_jip]
  rfl

end

/-! ## Send (R280) -/

/-- The fields of a `send`: EOT and the descriptor in DW3. -/
def Send.fields (op : BitVec 8) (m : Send) : BasicFields where
  hdr := m.hdr
  cond := m.sfid
  op := op
  dst := encodeDst m.dst
  dstTy := m.dst.ty.code
  dstFile := m.dst.loc.file
  src0 := encodeRegSrc m.src0
  src0Ty := m.src0.ty.code
  src0File := m.src0.loc.file
  src1Ty := match m.desc with
    | .imm _ => 0
    | .reg r => r.ty.code
  src1File := match m.desc with
    | .imm _ => 3
    | .reg r => r.loc.file
  dw3 := match m.desc with
    | .imm v => BitVec.ofBool m.eot ++ v
    | .reg r => BitVec.ofBool m.eot ++ 0#6 ++ encodeRegSrc r

theorem encodeSend_eq (op : BitVec 8) (m : Send) : encodeSend op m = (m.fields op).word := by
  obtain ⟨hdr, sfid, dst, src0, desc, eot⟩ := m
  cases desc with
  | imm _ | reg _ => rfl

theorem decodeSend_encodeSend {m : Send} (op : BitVec 8) (hwf : (Form.send m).wf = true) :
    decodeSend (encodeSend op m) = .ok m := by
  simp only [Form.wf, Bool.and_eq_true] at hwf
  obtain ⟨⟨⟨hhdr, hdst⟩, hsrc⟩, hdesc⟩ := hwf
  have hheader : decodeHeader (m.fields op).word 89 = .ok m.hdr := BasicFields.decodeHeader_word _ hhdr
  have hcond : (m.fields op).cond = m.sfid := rfl
  have hdecoded : decodeDst (m.fields op).word m.hdr.access = .ok m.dst := decodeDst_word hdst rfl rfl rfl
  have hsource : decodeSrc0 (m.fields op).word m.hdr.access = .ok m.src0 := decodeSrc0_word hsrc rfl rfl rfl
  have part {i k : Nat} (hik : i + k ≤ 32) := (m.fields op).word_dw3_part hik
  have heot : (m.fields op).word.getLsbD 127 = (m.fields op).dw3.getLsbD 31 :=
    getLsbD_of_fld (m.fields op).word_dw3 (i := 31) (by decide)
  rw [encodeSend_eq]
  cases hd : m.desc with
  | imm v =>
    have hfile : (m.fields op).src1File = 3#2 := by rw [Send.fields, hd]; rfl
    have hdw3 : (m.fields op).dw3 = BitVec.ofBool m.eot ++ v := by rw [Send.fields, hd]
    have hval : (m.fields op).word.extractLsb' 96 31 = v := by
      refine (part (i := 0) (by decide)).trans ?_
      rw [hdw3]
      exact (BitVec.extractLsb'_append_eq_of_add_le (by decide)).trans BitVec.extractLsb'_eq_self
    have hend : (m.fields op).word.getLsbD 127 = m.eot := by
      rw [heot, hdw3]
      simp (disch := decide) only [Laws.bit_above, Nat.reduceSub, BitVec.getLsbD_ofBool, decide_true, Bool.true_and]
    simp only [decodeSend, fld, BasicFields.word_zero, decide_true, need_true, ok_bind, hheader, hdecoded, hsource,
      BasicFields.word_src1File, hfile, if_true, BasicFields.word_cond, hcond, hval, hend]
    rw [← hd]
    rfl
  | reg r =>
    rw [hd] at hdesc
    have hfile : (m.fields op).src1File = r.loc.file := by rw [Send.fields, hd]
    have hty : (m.fields op).src1Ty = r.ty.code := by rw [Send.fields, hd]
    have hdw3 : (m.fields op).dw3 = BitVec.ofBool m.eot ++ 0#6 ++ encodeRegSrc r := by rw [Send.fields, hd]
    have hbits : (m.fields op).word.extractLsb' 96 25 = encodeRegSrc r := by
      refine (part (i := 0) (by decide)).trans ?_
      rw [hdw3]
      exact (BitVec.extractLsb'_append_eq_of_add_le (by decide)).trans BitVec.extractLsb'_eq_self
    have hzero : (m.fields op).word.extractLsb' 121 6 = 0#6 := by
      refine (part (i := 25) (by decide)).trans ?_
      rw [hdw3]
      simp (disch := decide) only [BitVec.extractLsb'_append_eq_of_le, BitVec.extractLsb'_append_eq_of_add_le,
        Nat.reduceSub, BitVec.extractLsb'_eq_self]
    have hend : (m.fields op).word.getLsbD 127 = m.eot := by
      rw [heot, hdw3]
      simp (disch := decide) only [Laws.bit_above, Nat.reduceSub, BitVec.getLsbD_ofBool, decide_true, Bool.true_and]
    simp only [decodeSend, fld, BasicFields.word_zero, decide_true, need_true, ok_bind, hheader, hdecoded, hsource,
      BasicFields.word_src1File, hfile, r.loc.file_ne_imm, if_false, hzero, BasicFields.word_src1Ty, hty, hbits,
      decodeRegSrc_encodeRegSrc hdesc, BasicFields.word_cond, hcond, hend]
    rw [← hd]
    rfl

/-! ## Three sources (R270, R272) -/

theorem decodeTriSrc_encodeTriSrc (s : TriSrc) : decodeTriSrc (encodeTriSrc s) s.mod.code = .ok s := by
  have hhigh : (encodeTriSrc s).getLsbD 19 = false := by
    simp (disch := decide) only [encodeTriSrc, Laws.bit_above, Nat.reduceSub, BitVec.getLsbD_zero]
  have hrep : (encodeTriSrc s).getLsbD 0 = s.rep := by
    simp (disch := decide) only [encodeTriSrc, bit_below, BitVec.getLsbD_ofBool, decide_true, Bool.true_and]
  have hnum : (encodeTriSrc s).extractLsb' 12 7 = s.num := by
    simp (disch := decide) only [encodeTriSrc, BitVec.extractLsb'_append_eq_of_le,
      BitVec.extractLsb'_append_eq_of_add_le, Nat.reduceSub, BitVec.extractLsb'_eq_self]
  have hsub : (encodeTriSrc s).extractLsb' 9 3 = s.sub := by
    simp (disch := decide) only [encodeTriSrc, BitVec.extractLsb'_append_eq_of_le,
      BitVec.extractLsb'_append_eq_of_add_le, Nat.reduceSub, BitVec.extractLsb'_eq_self]
  have hchanSel : (encodeTriSrc s).extractLsb' 1 8 = s.chanSel := by
    simp (disch := decide) only [encodeTriSrc, BitVec.extractLsb'_append_eq_of_le,
      BitVec.extractLsb'_append_eq_of_add_le, Nat.reduceSub, BitVec.extractLsb'_eq_self]
  simp only [decodeTriSrc, hhigh, Bool.not_false, need_true, ok_bind, hnum, hsub, hchanSel, hrep, SrcMod.ofCode_code]
  rfl

section
variable (op : BitVec 8) (t : Tri)

theorem encodeTri_dw0 : (encodeTri op t).extractLsb' 0 32 = encodeDW0 t.hdr t.cmod.code op := by
  simp (disch := decide) only [encodeTri, BitVec.extractLsb'_append_eq_of_add_le, BitVec.extractLsb'_eq_self]

/-- The reserved bits of the format. -/
theorem encodeTri_reserved : (decide ((encodeTri op t).extractLsb' 126 2 = 0#2) && !(encodeTri op t).getLsbD 105 &&
    !(encodeTri op t).getLsbD 84 && !(encodeTri op t).getLsbD 48 && !(encodeTri op t).getLsbD 46 &&
    !(encodeTri op t).getLsbD 35 && !(encodeTri op t).getLsbD 32) = true := by
  simp (disch := decide) only [encodeTri, BitVec.extractLsb'_append_eq_of_le, BitVec.extractLsb'_eq_self, Laws.bit_above,
    bit_below, Nat.reduceSub, BitVec.getLsbD_zero, decide_true, Bool.not_false, Bool.and_self]

/-- The destination's RegNum is below 128. -/
theorem encodeTri_dstHigh : (encodeTri op t).getLsbD 63 = false := by
  simp (disch := decide) only [encodeTri, Laws.bit_above, bit_below, Nat.reduceSub, BitVec.getLsbD_zero]

theorem encodeTri_flagSub : (encodeTri op t).getLsbD 33 = t.hdr.flagSub := by
  simp (disch := decide) only [encodeTri, Laws.bit_above, bit_below, Nat.reduceSub, BitVec.getLsbD_ofBool,
    decide_true, Bool.true_and]

theorem encodeTri_flagReg : (encodeTri op t).getLsbD 34 = t.hdr.flagReg := by
  simp (disch := decide) only [encodeTri, Laws.bit_above, bit_below, Nat.reduceSub, BitVec.getLsbD_ofBool,
    decide_true, Bool.true_and]

theorem encodeTri_nib : (encodeTri op t).getLsbD 47 = t.hdr.nib := by
  simp (disch := decide) only [encodeTri, Laws.bit_above, bit_below, Nat.reduceSub, BitVec.getLsbD_ofBool,
    decide_true, Bool.true_and]

theorem encodeTri_mod0 : (encodeTri op t).extractLsb' 36 2 = t.src0.mod.code := by
  simp (disch := decide) only [encodeTri, BitVec.extractLsb'_append_eq_of_le,
    BitVec.extractLsb'_append_eq_of_add_le, Nat.reduceSub, BitVec.extractLsb'_eq_self]

theorem encodeTri_mod1 : (encodeTri op t).extractLsb' 38 2 = t.src1.mod.code := by
  simp (disch := decide) only [encodeTri, BitVec.extractLsb'_append_eq_of_le,
    BitVec.extractLsb'_append_eq_of_add_le, Nat.reduceSub, BitVec.extractLsb'_eq_self]

theorem encodeTri_mod2 : (encodeTri op t).extractLsb' 40 2 = t.src2.mod.code := by
  simp (disch := decide) only [encodeTri, BitVec.extractLsb'_append_eq_of_le,
    BitVec.extractLsb'_append_eq_of_add_le, Nat.reduceSub, BitVec.extractLsb'_eq_self]

theorem encodeTri_srcTy : (encodeTri op t).extractLsb' 42 2 = t.srcTy.code := by
  simp (disch := decide) only [encodeTri, BitVec.extractLsb'_append_eq_of_le,
    BitVec.extractLsb'_append_eq_of_add_le, Nat.reduceSub, BitVec.extractLsb'_eq_self]

theorem encodeTri_dstTy : (encodeTri op t).extractLsb' 44 2 = t.dstTy.code := by
  simp (disch := decide) only [encodeTri, BitVec.extractLsb'_append_eq_of_le,
    BitVec.extractLsb'_append_eq_of_add_le, Nat.reduceSub, BitVec.extractLsb'_eq_self]

theorem encodeTri_chanEn : (encodeTri op t).extractLsb' 49 4 = t.chanEn := by
  simp (disch := decide) only [encodeTri, BitVec.extractLsb'_append_eq_of_le,
    BitVec.extractLsb'_append_eq_of_add_le, Nat.reduceSub, BitVec.extractLsb'_eq_self]

theorem encodeTri_dstSub : (encodeTri op t).extractLsb' 53 3 = t.dstSub := by
  simp (disch := decide) only [encodeTri, BitVec.extractLsb'_append_eq_of_le,
    BitVec.extractLsb'_append_eq_of_add_le, Nat.reduceSub, BitVec.extractLsb'_eq_self]

theorem encodeTri_dstNum : (encodeTri op t).extractLsb' 56 7 = t.dstNum := by
  simp (disch := decide) only [encodeTri, BitVec.extractLsb'_append_eq_of_le,
    BitVec.extractLsb'_append_eq_of_add_le, Nat.reduceSub, BitVec.extractLsb'_eq_self]

theorem encodeTri_src0 : (encodeTri op t).extractLsb' 64 20 = encodeTriSrc t.src0 := by
  simp (disch := decide) only [encodeTri, BitVec.extractLsb'_append_eq_of_le,
    BitVec.extractLsb'_append_eq_of_add_le, Nat.reduceSub, BitVec.extractLsb'_eq_self]

theorem encodeTri_src1 : (encodeTri op t).extractLsb' 85 20 = encodeTriSrc t.src1 := by
  simp (disch := decide) only [encodeTri, BitVec.extractLsb'_append_eq_of_le,
    BitVec.extractLsb'_append_eq_of_add_le, Nat.reduceSub, BitVec.extractLsb'_eq_self]

theorem encodeTri_src2 : (encodeTri op t).extractLsb' 106 20 = encodeTriSrc t.src2 := by
  simp (disch := decide) only [encodeTri, BitVec.extractLsb'_append_eq_of_le,
    BitVec.extractLsb'_append_eq_of_add_le, Nat.reduceSub, BitVec.extractLsb'_eq_self]

end

theorem decodeTri_encodeTri {t : Tri} (op : BitVec 8) (hwf : (Form.tri t).wf = true) :
    decodeTri (encodeTri op t) = .ok t := by
  have hheader : decodeHeader (encodeTri op t) 33 = .ok t.hdr :=
    decodeHeader_of_fields hwf (encodeTri_dw0 op t) (encodeTri_nib op t) (encodeTri_flagReg op t) (encodeTri_flagSub op t)
  have hcond : CondMod.ofCode ((encodeTri op t).extractLsb' 24 4) = .ok t.cmod := by
    have hdw0 := fld_of_fld (encodeTri_dw0 op t) (i := 24) (k := 4) (by decide)
    rw [encodeDW0_cond] at hdw0
    exact (congrArg CondMod.ofCode hdw0).trans t.cmod.ofCode_code
  simp only [decodeTri, fld, encodeTri_reserved, encodeTri_dstHigh, Bool.not_false, need_true, ok_bind, hheader,
    hcond, encodeTri_src0, encodeTri_src1, encodeTri_src2, encodeTri_mod0, encodeTri_mod1, encodeTri_mod2,
    decodeTriSrc_encodeTriSrc, encodeTri_dstTy, encodeTri_srcTy, TriType.ofCode_code, encodeTri_dstNum, encodeTri_dstSub,
    encodeTri_chanEn]
  rfl

/-! ## Instructions (R253, R300) -/

theorem map_ok {α β : Type} {x : Except DecodeErr α} {a : α} (h : x = .ok a) (k : α → β) : k <$> x = .ok (k a) := by
  rw [h]
  rfl

theorem then_ok {β : Type} {x : Except DecodeErr Unit} {y : Except DecodeErr β} {b : β} (hx : x = .ok ()) (hy : y = .ok b) :
    (x >>= fun _ => y) = .ok b := by
  rw [hx, ok_bind, hy]

/-- `nop` has DebugCtrl in bit 30 (R302). -/
theorem encodeBare_debug (op : BitVec 8) (d : Bool) : (encodeBare op d).getLsbD 30 = d := by
  simp (disch := decide) only [encodeBare, bit_below, Laws.bit_above, Nat.reduceSub, BitVec.getLsbD_ofBool, decide_true,
    Bool.true_and]

theorem needNoCmod_word {f : BasicFields} (hcond : f.cond = 0#4) : needNoCmod f.word = .ok () := by
  simp only [needNoCmod, fld, BasicFields.word_cond, hcond, decide_true, need_true]

/-- The opcode byte of the word selects the row of the instruction. -/
theorem encodeWord_opcode (i : Instr) : fld (encodeWord i) 0 8 = i.opcode := (Laws.encodeForm_head i.opcode i.form).1

theorem decodeNative_encodeWord {i : Instr} (h : i.wf = true) : decodeNative (encodeWord i) = .ok i := by
  simp only [Instr.wf, Bool.and_eq_true] at h
  obtain ⟨hwf, hcmod⟩ := h
  rw [decodeNative, encodeWord_opcode]
  cases i with
  | illegal => rfl
  | nop d => exact congrArg (fun b => Except.ok (Instr.nop b)) (encodeBare_debug _ d)
  | mov b | movi b | not_ b | f32to16 b | f16to32 b | bfrev b | wait b | frc b | rndu b | rndd b | rnde b | rndz b | lzd b
  | fbh b | fbl b | cbit b => exact map_ok (decodeBasic1_encodeBasic1 _ hwf) _
  | sel b | and_ b | or_ b | xor_ b | shr b | shl b | asr b | cmp b | cmpn b | bfi1 b | add b | mul b | avg b | mac b | mach b
  | addc b | subb b | sad2 b | sada2 b | dp4 b | dph b | dp3 b | dp2 b | line b | pln b =>
    exact map_ok (decodeBasic2_encodeTwo _ hwf) _
  | bfe t | bfi2 t | mad t | lrp t => exact map_ok (decodeTri_encodeTri _ hwf) _
  | brd b | else_ b | endif b | while_ b => exact map_ok (decodeBranch1_encodeBranch _ hwf) _
  | if_ b | brc b | case_ b | break_ b | cont b | halt b => exact map_ok (decodeBranch2_encodeBranch _ hwf) _
  | call c => exact map_ok (decodeCall_encodeBranch _ hwf) _
  | send m | sendc m => exact map_ok (decodeSend_encodeSend _ hwf) _
  | math m => exact map_ok (decodeMath_encodeTwo _ hwf) _
  | jmpi b =>
    have hnone : b.cmod = .none := by simpa [Instr.noCmodWf] using hcmod
    have hcond : (twoFields (Instr.jmpi b).opcode b.hdr b.cmod.code b.dst b.src0 b.src1).cond = 0#4 :=
      congrArg CondMod.code hnone
    refine then_ok ?_ (map_ok (decodeBasic2_encodeTwo _ hwf) _)
    exact (congrArg needNoCmod (encodeTwo_eq ..)).trans (needNoCmod_word hcond)
  | ret b =>
    have hnone : b.cmod = .none := by simpa [Instr.noCmodWf] using hcmod
    have hcond : (b.fields (Instr.ret b).opcode).cond = 0#4 := congrArg CondMod.code hnone
    refine then_ok ?_ (map_ok (decodeBasic1_encodeBasic1 _ hwf) _)
    exact (congrArg needNoCmod (encodeBasic1_eq _ b)).trans (needNoCmod_word hcond)

end Sys2Proof
end

section
/-! SUPPORT. Bytes and instruction memory: the little-endian bytes of a word, what a fetch reads where an instruction was placed, and the step that runs it (spec/20_memory.md R200, R201, R203; spec/30_encoding.md R253). -/

namespace Sys2Proof

/-! ## Little-endian bytes (20_memory R200, R201) -/

@[simp] theorem leBytes_length (n v : Nat) : (leBytes n v).length = n := by
  induction n generalizing v with
  | zero => rfl
  | succ n ih => simp [leBytes, ih]

/-- Byte k of a number. -/
theorem leBytes_getElem? (n v k : Nat) (hk : k < n) : (leBytes n v)[k]? = some (BitVec.ofNat 8 (v / 256 ^ k)) := by
  induction n generalizing v k with
  | zero => omega
  | succ n ih =>
    cases k with
    | zero => simp [leBytes]
    | succ k =>
      rw [leBytes, List.getElem?_cons_succ, ih _ _ (by omega), Nat.div_div_eq_div_mul, ← Nat.pow_succ']

theorem take_leBytes (n m v : Nat) (h : n ≤ m) : (leBytes m v).take n = leBytes n v := by
  refine List.ext_getElem? fun k => ?_
  by_cases hk : k < n
  · rw [List.getElem?_take_of_lt hk, leBytes_getElem? _ _ _ hk, leBytes_getElem? _ _ _ (by omega)]
  · rw [List.getElem?_eq_none (by simp; omega), List.getElem?_eq_none (by simp; omega)]

theorem leNat_leBytes (n v : Nat) : leNat (leBytes n v) = v % 256 ^ n := by
  induction n generalizing v with
  | zero => simp [leBytes, leNat, Nat.mod_one]
  | succ n ih =>
    rw [leBytes, leNat, ih, BitVec.toNat_ofNat, Nat.pow_succ' (m := 256), Nat.mod_mul]

/-- The first n bytes of a number, as a word of no more bits. -/
theorem ofNat_leNat_take {n m k v : Nat} (hn : n ≤ m) (hk : 2 ^ k = 256 ^ n) :
    BitVec.ofNat k (leNat ((leBytes m v).take n)) = BitVec.ofNat k v := by
  rw [take_leBytes _ _ _ hn, leNat_leBytes, ← hk]
  exact BitVec.eq_of_toNat_eq (by simp)

/-- A native word decodes from its bytes as it does by itself: CmptCtrl is 0 (30 R253). -/
theorem decodeBytes_leBytes {w : NativeWord} {i : Instr} (hcmpt : w.getLsbD 29 = false) (h : decodeNative w = .ok i) :
    decodeBytes (leBytes 16 w.toNat) = .ok (i, 16) := by
  have hlow : (BitVec.ofNat 64 (leNat ((leBytes 16 w.toNat).take 8))).getLsbD 29 = false := by
    rw [ofNat_leNat_take (by decide) (by decide), BitVec.getLsbD_ofNat]
    exact (Bool.and_eq_right_iff_imp.2 fun _ => rfl).trans hcmpt
  have hword : BitVec.ofNat 128 (leNat ((leBytes 16 w.toNat).take 16)) = w := by
    rw [ofNat_leNat_take (by decide) (by decide)]
    exact BitVec.eq_of_toNat_eq (by simp)
  simp only [decodeBytes, leBytes_length, Nat.reduceLT, if_false, hlow, Bool.false_eq_true, hword, h]

end Sys2Proof
end

section
/-! SUPPORT. What a fetch reads where an instruction was placed, and the step that runs the instruction it fetches (spec/20_memory.md R201, R203; spec/30_encoding.md R253; spec/60_exceptions.md R913, R920). -/

namespace Sys2Proof.Machine

/-! ## Bytes in memory -/

/-- An address that the bytes do not reach. -/
theorem Memory.read_writeBytes_kept (bs : List Byte) (m : List Host.Cell) (a c : Nat)
    (h : ∀ k, k < bs.length → c ≠ (a + k) % 2 ^ 32) :
    Memory.read (Memory.writeBytes m a bs) c = Memory.read m c := by
  induction bs generalizing m a with
  | nil => rfl
  | cons b bs ih =>
    have hrest : ∀ k, k < bs.length → c ≠ (a + 1 + k) % 2 ^ 32 := fun k hk => by
      rw [Nat.add_assoc, Nat.add_comm 1 k]
      exact h (k + 1) (Nat.succ_lt_succ hk)
    rw [Memory.writeBytes, ih _ _ hrest, Memory.read_write]
    exact if_neg (h 0 (Nat.succ_pos _))

/-- Byte k of the bytes stored, no more of them than there are addresses. -/
theorem Memory.read_writeBytes (bs : List Byte) (m : List Host.Cell) (a k : Nat) (hk : k < bs.length)
    (hlen : bs.length ≤ 2 ^ 32) : Memory.read (Memory.writeBytes m a bs) ((a + k) % 2 ^ 32) = bs[k]? := by
  induction bs generalizing m a k with
  | nil => exact absurd hk (Nat.not_lt_zero k)
  | cons b bs ih =>
    rw [List.length_cons] at hk hlen
    cases k with
    | zero =>
      rw [Memory.writeBytes, Memory.read_writeBytes_kept _ _ _ _ (by omega), Memory.read_write]
      exact if_pos rfl
    | succ k =>
      rw [Memory.writeBytes, List.getElem?_cons_succ, ← ih (Memory.write m (a % 2 ^ 32) b) (a + 1) k (by omega) (by omega),
        Nat.add_assoc, Nat.add_comm 1 k]

theorem Memory.readBytes_of_read (n : Nat) (bs : List Byte) (m : List Host.Cell) (a : Nat) (hn : n ≤ bs.length)
    (h : ∀ k, k < n → Memory.read m ((a + k) % 2 ^ 32) = bs[k]?) : Memory.readBytes m a n = .ok (bs.take n) := by
  induction n generalizing bs a with
  | zero => rfl
  | succ n ih =>
    cases bs with
    | nil => exact absurd hn (Nat.not_succ_le_zero n)
    | cons b bs =>
      have hfirst : Memory.read m (a % 2 ^ 32) = some b := h 0 (Nat.succ_pos n)
      have hlater : ∀ k, k < n → Memory.read m ((a + 1 + k) % 2 ^ 32) = bs[k]? := fun k hk => by
        rw [Nat.add_assoc, Nat.add_comm 1 k]
        exact h (k + 1) (Nat.succ_lt_succ hk)
      have hrest := ih bs (a + 1) (by simpa using hn) hlater
      rw [Memory.readBytes, hfirst]
      simp only [hrest, List.take_succ_cons]

/-- Bytes read back from where they were stored (20_memory R203). -/
theorem Memory.readBytes_writeBytes (bs : List Byte) (m : List Host.Cell) (a n : Nat) (hn : n ≤ bs.length)
    (hlen : bs.length ≤ 2 ^ 32) : Memory.readBytes (Memory.writeBytes m a bs) a n = .ok (bs.take n) :=
  Memory.readBytes_of_read n bs _ a hn fun k hk => Memory.read_writeBytes bs m a k (Nat.lt_of_lt_of_le hk hn) hlen

/-! ## Fetch (20_memory R203) -/

theorem imem_withFetchWord (s : State) (w : NativeWord) :
    (s.withFetchWord 128 w.toNat).imem = Memory.writeBytes s.imem s.ip.toNat (leBytes 16 w.toNat) := by
  rw [withFetchWord_imem, Nat.mod_eq_of_lt w.isLt]

/-- Bit 29 of a word stands in its fourth byte. -/
theorem leBytes_cmptCtrl (w : NativeWord) : (((leBytes 16 w.toNat).take 8).getD 3 0).getLsbD 5 = w.getLsbD 29 := by
  rw [take_leBytes _ _ _ (by decide), List.getD_eq_getElem?_getD, leBytes_getElem? _ _ _ (by decide), Option.getD_some,
    BitVec.getLsbD_ofNat, show 256 ^ 3 = 2 ^ 24 from rfl, Nat.testBit_div_two_pow]
  rfl

/-- A fetch of a native word reads its 16 bytes where it was placed. -/
theorem fetchBytes_withFetchWord (s : State) {w : NativeWord} (hcmpt : w.getLsbD 29 = false) :
    fetchBytes (s.withFetchWord 128 w.toNat) = .ok (leBytes 16 w.toNat) := by
  have hread {n : Nat} (hn : n ≤ 16) : Memory.readBytes (s.withFetchWord 128 w.toNat).imem
      (s.withFetchWord 128 w.toNat).ip.toNat n = .ok ((leBytes 16 w.toNat).take n) := by
    rw [imem_withFetchWord, withFetchWord_ip]
    exact Memory.readBytes_writeBytes _ _ _ _ (by simpa using hn) (by simp)
  have hall : (leBytes 16 w.toNat).take 16 = leBytes 16 w.toNat := take_leBytes 16 16 _ (Nat.le_refl _)
  simp only [fetchBytes, hread (show 8 ≤ 16 by decide), leBytes_cmptCtrl, hcmpt, hread (Nat.le_refl 16), hall,
    Bool.false_eq_true, if_false]

/-! ## The step that runs an instruction (60 R913, R920) -/

theorem breakCheck_of_noBreak {s : State} {i : Instr} {op : Byte} (h : NoBreak s i op) :
    breakCheck s (breakTrigger s op i) = some s := by
  obtain ⟨htrigger, hlatched⟩ := h
  rw [htrigger, breakCheck]
  cases hin : s.inSR with
  | true => rfl
  | false =>
    have hquiet : ((false || s.cr01.getLsbD 31) && s.cr01.getLsbD 15) = false := by
      rcases hlatched with hsr | hstatus | hdisabled
      · exact absurd (hin.symm.trans hsr) Bool.false_ne_true
      · rw [hstatus]
        rfl
      · rw [hdisabled, Bool.and_false]
    rw [hquiet]
    rfl

/-- A fetched instruction that nothing stops or holds is executed. -/
theorem step_of_fetches {s : State} {i : Instr} {len : Nat} {op : Byte} (hf : Fetches s i len op) (hb : NoBreak s i op)
    (hheld : isHeld s i = false) : step s = exec i (issue s i len) := by
  obtain ⟨hhost, hrun, hpending, bs, hfetch, hdecode, rfl⟩ := hf
  have hnone : (!s.inSR && (s.pendHalt || s.pendSW)) = false := by
    rcases hpending with hin | ⟨hhalt, hsw⟩
    · simp [hin]
    · simp [hhalt, hsw]
  unfold step machineStep
  rw [hhost]
  unfold threadStep
  rw [hrun]
  simp only [runBoundary, hnone, hfetch, hdecode, runInstr, breakCheck_of_noBreak hb, hheld, Bool.false_eq_true, if_false]

/-- Settles O13: the bytes of the word are fetched where they were placed, and decode to the instruction. -/
theorem placedInstructionRuns : Obligations.PlacedInstructionRuns := by
  intro s i hwf s' hhost hrun hpending hbreak hheld
  have hcmpt : (encodeWord i).getLsbD 29 = false := (Laws.encodeForm_head i.opcode i.form).2
  have hopcode : i.opcode = (leBytes 16 (encodeWord i).toNat).getD 0 0 := by
    rw [← encodeWord_opcode i]
    rfl
  have hpending' : s'.inSR = true ∨ (s'.pendHalt = false ∧ s'.pendSW = false) := by
    simpa only [s', State.inSR, State.pendHalt, State.pendSW, withFetchWord_cr00, withFetchWord_cr01] using hpending
  have hfetches : Fetches s' i 16 i.opcode :=
    ⟨(withFetchWord_host ..).trans hhost, (withFetchWord_run ..).trans hrun, hpending', _, fetchBytes_withFetchWord s hcmpt,
      decodeBytes_leBytes hcmpt (decodeNative_encodeWord hwf), hopcode⟩
  exact step_of_fetches hfetches hbreak hheld

end Sys2Proof.Machine
end

section
/-! OBLIGATIONS: O1 and O4. A word laid out from the formats or written out from the encoding tables decodes to its instruction (spec/30_encoding.md R250 to R300, R333 to R336; spec/95_test_vectors.md E1 to E23). -/

namespace Sys2Proof

/-- Settles O1: the bytes hold the native word, in which the decoder finds every field where the encoder laid it out. -/
theorem encodingRoundTrip : Obligations.EncodingRoundTrip := fun i hwf =>
  decodeBytes_leBytes (Laws.encodeForm_head i.opcode i.form).2 (decodeNative_encodeWord hwf)

/-- The header of a word that sets nothing in DW0 but the execution size. -/
def plainHeader (size : ExecSize) : Header where
  access := .align1
  noMask := false
  noDDClr := false
  noDDChk := false
  qtr := 0
  nib := false
  thread := .normal
  pred := .none
  predInv := false
  size := size
  accWr := false
  debug := false
  sat := false
  flagReg := false
  flagSub := false

/-- 95 E1. -/
theorem decodeTableWord_mov : decodeTableWord 128 0x00000000_008D0040_21400021_00600001 = some (.mov {
    hdr := plainHeader .s8
    cmod := .none
    dst := { loc := .grf 10 0, ty := .ud, region := .a1 .h1 }
    src0 := .reg { loc := .grf 2 0, ty := .ud, mod := .none, region := .a1 .v8 .w8 .h1 } }) := by
  decide

/-- 95 E12. -/
theorem decodeTableWord_brc : decodeTableWord 128 0x000A0004_00000000_20003C84_00618023 = some (.brc {
    hdr := { plainHeader .s8 with thread := .switch, pred := .seq }
    offFile := .imm
    offTy := 3
    jip := 4
    uip := 10 }) := by
  decide

/-- 95 E17. -/
theorem decodeTableWord_jmpi : decodeTableWord 128 0x00000004_00001400_34001C00_00000220 = some (.jmpi {
    hdr := { plainHeader .s1 with noMask := true }
    cmod := .none
    dst := { loc := .arf .ip 0, ty := .ud, region := .a1 .h1 }
    src0 := { loc := .arf .ip 0, ty := .ud, mod := .none, region := .a1 .v0 .w1 .h0 }
    src1 := .imm .d 4 }) := by
  decide

/-- 95 E20. -/
theorem decodeTableWord_wait : decodeTableWord 128 0x00000000_00001204_32040000_00000030 = some (.wait {
    hdr := plainHeader .s1
    cmod := .none
    dst := { loc := .arf .n0 4, ty := .ud, region := .a1 .h1 }
    src0 := .reg { loc := .arf .n0 4, ty := .ud, mod := .none, region := .a1 .v0 .w1 .h0 } }) := by
  decide

/-- 95 E23. -/
theorem decodeTableWord_nop : decodeTableWord 128 0x00000000_00000000_00000000_0080007E = some (.nop false) := by
  decide

/-- Settles O4: each word by its whole instruction, each table row by row. -/
theorem knownWords : Obligations.KnownWords :=
  ⟨⟨_, decodeTableWord_mov, rfl, rfl, rfl⟩, ⟨_, decodeTableWord_brc, rfl, rfl, rfl, rfl⟩,
    ⟨_, decodeTableWord_jmpi, rfl, rfl⟩, ⟨_, decodeTableWord_wait, rfl⟩, decodeTableWord_nop, by decide, by decide, by decide, by decide⟩

end Sys2Proof
end

section
/-! SUPPORT. What the decoder accepts has an encoding and is of the row that its opcode byte selects (spec/30_encoding.md R253 to R302); with it, O2. -/

namespace Sys2Proof

/-! ## What a decoder that answers has read -/

theorem bind_eq_ok {α β : Type} {x : Except DecodeErr α} {k : α → Except DecodeErr β} {b : β} (h : (x >>= k) = .ok b) :
    ∃ a, x = .ok a ∧ k a = .ok b := by
  cases x with
  | error e => exact absurd h (by nofun)
  | ok a => exact ⟨a, rfl, h⟩

theorem map_eq_ok {α β : Type} {x : Except DecodeErr α} {k : α → β} {b : β} (h : k <$> x = .ok b) :
    ∃ a, x = .ok a ∧ k a = b := by
  cases x with
  | error e => exact absurd h (by nofun)
  | ok a => exact ⟨a, rfl, Except.ok.inj h⟩

theorem need_eq_ok {c : Bool} {e : DecodeErr} {u : Unit} (h : need c e = .ok u) : c = true := by
  cases c with
  | true => rfl
  | false => exact absurd h (by nofun)

/-! ## Field values (R261, R273) -/

theorem PredCtrl.wf_of_ofCode {a : AccessMode} {c : BitVec 4} {p : PredCtrl} (h : PredCtrl.ofCode a c = .ok p) :
    p.wf a = true := by
  unfold PredCtrl.ofCode at h
  split at h <;> cases h <;> rfl

/-- VertStride 1111b is accepted only where it is allowed (R252). -/
theorem VertStride.allowed_of_ofCode {allow : Bool} {c : BitVec 4} (h : VertStride.ofCode allow c = .ok .vx) :
    allow = true := by
  unfold VertStride.ofCode at h
  split at h
  case h_8 =>
    cases allow with
    | true => rfl
    | false => exact absurd h (by nofun)
  all_goals cases h

/-! ## Operands (R255 to R264) -/

/-- A decoded place has the low bits of its field as subregister number or address immediate; AddrMode says which. -/
theorem decodeLoc_cases {file : BitVec 2} {indirect : Bool} {x : BitVec 13} {l : Loc} (h : decodeLoc file indirect x = .ok l) :
    (∃ r, l = .arf r (x.extractLsb' 0 5)) ∧ indirect = false ∨
      (∃ n, l = .grf n (x.extractLsb' 0 5)) ∧ indirect = false ∨
      (∃ s, l = .ind s (x.extractLsb' 0 10)) ∧ indirect = true := by
  unfold decodeLoc at h
  cases indirect with
  | true =>
    split at h
    case h_2 => exact .inr (.inr ⟨⟨_, (Except.ok.inj h).symm⟩, rfl⟩)
    all_goals cases h
  | false =>
    split at h
    case h_1 =>
      obtain ⟨r, -, h⟩ := bind_eq_ok h
      exact .inl ⟨⟨r, (Except.ok.inj h).symm⟩, rfl⟩
    case h_2 =>
      simp only [Bool.false_eq_true, if_false] at h
      split at h
      · cases h
      · exact .inr (.inl ⟨⟨_, (Except.ok.inj h).symm⟩, rfl⟩)
    case h_3 => cases h

theorem Loc.wf_align1 (l : Loc) : l.wf .align1 = true := by
  cases l with
  | grf _ _ | arf _ _ | ind _ _ => rfl

/-- In Align16 the low four bits of the field are read as 0 (R257, R258). -/
theorem locBits_low (x : BitVec 13) {n : Nat} (hn : 4 ≤ n) : ((locBits .align16 x).extractLsb' 0 n).extractLsb' 0 4 = 0#4 :=
  (fld_of_fld rfl (i := 0) (by omega)).symm.trans <|
    (BitVec.extractLsb'_append_eq_of_add_le (by decide)).trans BitVec.extractLsb'_eq_self

theorem decodeLoc_wf {file : BitVec 2} {indirect : Bool} {a : AccessMode} {x : BitVec 13} {l : Loc}
    (h : decodeLoc file indirect (locBits a x) = .ok l) : l.wf a = true := by
  cases a with
  | align1 => exact l.wf_align1
  | align16 =>
    rcases decodeLoc_cases h with ⟨⟨_, rfl⟩, -⟩ | ⟨⟨_, rfl⟩, -⟩ | ⟨⟨_, rfl⟩, -⟩
    all_goals exact decide_eq_true (locBits_low x (by decide))

theorem decodeRegSrc_wf {a : AccessMode} {isSrc1 : Bool} {file : BitVec 2} {ty : BitVec 3} {x : BitVec 25} {r : RegSrc}
    (h : decodeRegSrc a isSrc1 file ty x = .ok r) : r.wf a isSrc1 = true := by
  obtain ⟨loc, hloc, h⟩ := bind_eq_ok h
  have hwf := decodeLoc_wf hloc
  cases a with
  | align1 =>
    obtain ⟨v, hv, h⟩ := bind_eq_ok h
    obtain ⟨wd, -, h⟩ := bind_eq_ok h
    obtain rfl := Except.ok.inj h
    by_cases hvx : v = .vx
    · subst hvx
      have hallow := VertStride.allowed_of_ofCode hv
      simp only [Bool.and_eq_true] at hallow
      obtain ⟨hindirect, hsrc0⟩ := hallow
      rcases decodeLoc_cases hloc with ⟨-, hdirect⟩ | ⟨-, hdirect⟩ | ⟨⟨s, rfl⟩, -⟩
      · exact absurd (hindirect.symm.trans hdirect) (by decide)
      · exact absurd (hindirect.symm.trans hdirect) (by decide)
      · simp [RegSrc.wf, hwf, hsrc0]
    · simp [RegSrc.wf, hwf, hvx]
  | align16 =>
    obtain ⟨v, hv, h⟩ := bind_eq_ok h
    obtain ⟨_, -, h⟩ := bind_eq_ok h
    obtain rfl := Except.ok.inj h
    have hvx : v ≠ .vx := by
      rintro rfl
      exact Bool.false_ne_true (VertStride.allowed_of_ofCode hv)
    simp [RegSrc.wf, hwf, hvx]

theorem decodeDst_wf {w : NativeWord} {a : AccessMode} {d : Dst} (h : decodeDst w a = .ok d) : d.wf a = true := by
  obtain ⟨loc, hloc, h⟩ := bind_eq_ok h
  obtain rfl := Except.ok.inj h
  cases a with
  | align1 | align16 => simp [Dst.wf, decodeLoc_wf hloc]

theorem decodeSrc1_wf {w : NativeWord} {a : AccessMode} {src : Src} (h : decodeSrc1 w a = .ok src) :
    src.wf a true = true := by
  unfold decodeSrc1 at h
  split at h
  · obtain rfl := Except.ok.inj h
    rfl
  · obtain ⟨_, -, h⟩ := bind_eq_ok h
    obtain ⟨r, hr, h⟩ := bind_eq_ok h
    obtain rfl := Except.ok.inj h
    exact decodeRegSrc_wf hr

/-! ## Formats (R260 to R285) -/

theorem decodeHeader_wf {w : NativeWord} {flagLo : Nat} {h : Header} (hdec : decodeHeader w flagLo = .ok h) :
    h.wf = true := by
  obtain ⟨_, -, hdec⟩ := bind_eq_ok hdec
  obtain ⟨p, hp, hdec⟩ := bind_eq_ok hdec
  obtain ⟨_, -, hdec⟩ := bind_eq_ok hdec
  obtain rfl := Except.ok.inj hdec
  exact PredCtrl.wf_of_ofCode hp

/-- What an accepted word with one source holds. -/
theorem decodeBasic1_reads {w : NativeWord} {b : Basic1} (h : decodeBasic1 w = .ok b) :
    decodeHeader w 89 = .ok b.hdr ∧ CondMod.ofCode (fld w 24 4) = .ok b.cmod ∧ decodeDst w b.hdr.access = .ok b.dst ∧
      ∀ r, b.src0 = .reg r → decodeSrc0 w b.hdr.access = .ok r := by
  obtain ⟨_, -, h⟩ := bind_eq_ok h
  obtain ⟨hdr, hhdr, h⟩ := bind_eq_ok h
  obtain ⟨c, hc, h⟩ := bind_eq_ok h
  obtain ⟨dst, hdst, h⟩ := bind_eq_ok h
  obtain ⟨_, -, h⟩ := bind_eq_ok h
  split at h
  · obtain ⟨_, -, h⟩ := bind_eq_ok h
    obtain ⟨_, -, h⟩ := bind_eq_ok h
    obtain rfl := Except.ok.inj h
    exact ⟨hhdr, hc, hdst, fun _ he => Src.noConfusion he⟩
  · obtain ⟨_, -, h⟩ := bind_eq_ok h
    obtain ⟨_, -, h⟩ := bind_eq_ok h
    obtain ⟨s, hs, h⟩ := bind_eq_ok h
    obtain rfl := Except.ok.inj h
    exact ⟨hhdr, hc, hdst, fun _ he => Src.reg.inj he ▸ hs⟩

theorem decodeBasic1_wf {w : NativeWord} {b : Basic1} (h : decodeBasic1 w = .ok b) : (Form.basic1 b).wf = true := by
  obtain ⟨hhdr, -, hdst, hsrc⟩ := decodeBasic1_reads h
  have hwf : b.src0.wf b.hdr.access false = true := by
    cases hs : b.src0 with
    | imm _ _ => rfl
    | reg r => exact decodeRegSrc_wf (hsrc r hs)
  simp [Form.wf, decodeHeader_wf hhdr, decodeDst_wf hdst, hwf]

/-- What an accepted word with two sources holds. -/
theorem decodeBasic2_reads {w : NativeWord} {b : Basic2} (h : decodeBasic2 w = .ok b) :
    decodeHeader w 89 = .ok b.hdr ∧ CondMod.ofCode (fld w 24 4) = .ok b.cmod ∧ decodeDst w b.hdr.access = .ok b.dst ∧
      decodeSrc0 w b.hdr.access = .ok b.src0 ∧ decodeSrc1 w b.hdr.access = .ok b.src1 := by
  obtain ⟨_, -, h⟩ := bind_eq_ok h
  obtain ⟨hdr, hhdr, h⟩ := bind_eq_ok h
  obtain ⟨c, hc, h⟩ := bind_eq_ok h
  obtain ⟨dst, hdst, h⟩ := bind_eq_ok h
  obtain ⟨s0, hs0, h⟩ := bind_eq_ok h
  obtain ⟨s1, hs1, h⟩ := bind_eq_ok h
  obtain rfl := Except.ok.inj h
  exact ⟨hhdr, hc, hdst, hs0, hs1⟩

theorem decodeBasic2_wf {w : NativeWord} {b : Basic2} (h : decodeBasic2 w = .ok b) : (Form.basic2 b).wf = true := by
  obtain ⟨hhdr, -, hdst, hs0, hs1⟩ := decodeBasic2_reads h
  simp [Form.wf, decodeHeader_wf hhdr, decodeDst_wf hdst, decodeRegSrc_wf hs0, decodeSrc1_wf hs1]

theorem decodeMath_wf {w : NativeWord} {m : Math} (h : decodeMath w = .ok m) : (Form.math m).wf = true := by
  obtain ⟨_, -, h⟩ := bind_eq_ok h
  obtain ⟨hdr, hhdr, h⟩ := bind_eq_ok h
  obtain ⟨dst, hdst, h⟩ := bind_eq_ok h
  obtain ⟨s0, hs0, h⟩ := bind_eq_ok h
  obtain ⟨s1, hs1, h⟩ := bind_eq_ok h
  obtain rfl := Except.ok.inj h
  simp [Form.wf, decodeHeader_wf hhdr, decodeDst_wf hdst, decodeRegSrc_wf hs0, decodeSrc1_wf hs1]

theorem decodeTri_wf {w : NativeWord} {t : Tri} (h : decodeTri w = .ok t) : (Form.tri t).wf = true := by
  obtain ⟨_, -, h⟩ := bind_eq_ok h
  obtain ⟨_, -, h⟩ := bind_eq_ok h
  obtain ⟨hdr, hhdr, h⟩ := bind_eq_ok h
  obtain ⟨_, -, h⟩ := bind_eq_ok h
  obtain ⟨_, -, h⟩ := bind_eq_ok h
  obtain ⟨_, -, h⟩ := bind_eq_ok h
  obtain ⟨_, -, h⟩ := bind_eq_ok h
  obtain rfl := Except.ok.inj h
  exact decodeHeader_wf hhdr

theorem decodeBranchHeader_wf {w : NativeWord} {h : Header} (hdec : decodeBranchHeader w = .ok h) : h.wf = true := by
  obtain ⟨_, -, hdec⟩ := bind_eq_ok hdec
  obtain ⟨_, -, hdec⟩ := bind_eq_ok hdec
  obtain ⟨hdr, hhdr, hdec⟩ := bind_eq_ok hdec
  obtain ⟨_, -, hdec⟩ := bind_eq_ok hdec
  obtain rfl := Except.ok.inj hdec
  exact decodeHeader_wf hhdr

theorem decodeBranch1_wf {w : NativeWord} {b : Branch1} (h : decodeBranch1 w = .ok b) : (Form.branch1 b).wf = true := by
  obtain ⟨hdr, hhdr, h⟩ := bind_eq_ok h
  obtain ⟨_, -, h⟩ := bind_eq_ok h
  obtain ⟨_, -, h⟩ := bind_eq_ok h
  obtain ⟨_, -, h⟩ := bind_eq_ok h
  obtain rfl := Except.ok.inj h
  exact decodeBranchHeader_wf hhdr

theorem decodeBranch2_wf {w : NativeWord} {b : Branch2} (h : decodeBranch2 w = .ok b) : (Form.branch2 b).wf = true := by
  obtain ⟨hdr, hhdr, h⟩ := bind_eq_ok h
  obtain ⟨_, -, h⟩ := bind_eq_ok h
  obtain ⟨_, -, h⟩ := bind_eq_ok h
  obtain rfl := Except.ok.inj h
  exact decodeBranchHeader_wf hhdr

theorem decodeCall_wf {w : NativeWord} {c : Call} (h : decodeCall w = .ok c) : (Form.call c).wf = true := by
  obtain ⟨hdr, hhdr, h⟩ := bind_eq_ok h
  obtain ⟨_, -, h⟩ := bind_eq_ok h
  obtain ⟨dst, hdst, h⟩ := bind_eq_ok h
  obtain ⟨_, -, h⟩ := bind_eq_ok h
  obtain ⟨_, -, h⟩ := bind_eq_ok h
  obtain rfl := Except.ok.inj h
  simp [Form.wf, decodeBranchHeader_wf hhdr, decodeDst_wf hdst]

theorem decodeSend_wf {w : NativeWord} {m : Send} (h : decodeSend w = .ok m) : (Form.send m).wf = true := by
  obtain ⟨_, -, h⟩ := bind_eq_ok h
  obtain ⟨hdr, hhdr, h⟩ := bind_eq_ok h
  obtain ⟨dst, hdst, h⟩ := bind_eq_ok h
  obtain ⟨s0, hs0, h⟩ := bind_eq_ok h
  have hparts : (hdr.wf && dst.wf hdr.access && s0.wf hdr.access false) = true := by
    rw [decodeHeader_wf hhdr, decodeDst_wf hdst, decodeRegSrc_wf hs0]
    rfl
  split at h
  · obtain rfl := Except.ok.inj h
    simp [Form.wf, hparts]
  · obtain ⟨_, -, h⟩ := bind_eq_ok h
    obtain ⟨r, hr, h⟩ := bind_eq_ok h
    obtain rfl := Except.ok.inj h
    simp [Form.wf, hparts, decodeRegSrc_wf hr]

/-! ## The rows of the opcode table (R253, R300) -/

theorem row_of_map {α : Type} {x : Except DecodeErr α} {k : α → Instr} {i : Instr} {op : Byte} (h : k <$> x = .ok i)
    (hrow : ∀ a, x = .ok a → (k a).wf = true ∧ (k a).opcode = op) : i.wf = true ∧ i.opcode = op := by
  obtain ⟨a, ha, rfl⟩ := map_eq_ok h
  exact hrow a ha

/-- The conditional modifier of a branch that uses the basic layout (R275). -/
theorem condMod_of_needNoCmod {w : NativeWord} {u : Unit} (h : needNoCmod w = .ok u) :
    CondMod.ofCode (fld w 24 4) = .ok .none := by
  rw [of_decide_eq_true (need_eq_ok h)]
  rfl

theorem wf_of_form {i : Instr} (hform : i.form.wf = true) (hcmod : i.noCmodWf = true) : i.wf = true := by
  rw [Instr.wf, hform, hcmod]
  rfl

/-- A word with the opcode of some row decodes to a well-formed instruction of that row. -/
theorem decodeNative_row {w : NativeWord} {i j : Instr} (hop : fld w 0 8 = j.opcode) (h : decodeNative w = .ok i) :
    i.wf = true ∧ i.opcode = j.opcode := by
  rw [decodeNative, hop] at h
  cases j with
  | illegal | nop d =>
    obtain rfl := Except.ok.inj h
    exact ⟨rfl, rfl⟩
  | mov b | movi b | not_ b | f32to16 b | f16to32 b | bfrev b | wait b | frc b | rndu b | rndd b | rnde b | rndz b | lzd b
  | fbh b | fbl b | cbit b =>
    exact row_of_map h fun a ha => ⟨wf_of_form (decodeBasic1_wf ha) rfl, rfl⟩
  | sel b | and_ b | or_ b | xor_ b | shr b | shl b | asr b | cmp b | cmpn b | bfi1 b | add b | mul b | avg b | mac b | mach b
  | addc b | subb b | sad2 b | sada2 b | dp4 b | dph b | dp3 b | dp2 b | line b | pln b =>
    exact row_of_map h fun a ha => ⟨wf_of_form (decodeBasic2_wf ha) rfl, rfl⟩
  | bfe t | bfi2 t | mad t | lrp t =>
    exact row_of_map h fun a ha => ⟨wf_of_form (decodeTri_wf ha) rfl, rfl⟩
  | brd b | else_ b | endif b | while_ b =>
    exact row_of_map h fun a ha => ⟨wf_of_form (decodeBranch1_wf ha) rfl, rfl⟩
  | if_ b | brc b | case_ b | break_ b | cont b | halt b =>
    exact row_of_map h fun a ha => ⟨wf_of_form (decodeBranch2_wf ha) rfl, rfl⟩
  | call c => exact row_of_map h fun a ha => ⟨wf_of_form (decodeCall_wf ha) rfl, rfl⟩
  | send m | sendc m => exact row_of_map h fun a ha => ⟨wf_of_form (decodeSend_wf ha) rfl, rfl⟩
  | math m => exact row_of_map h fun a ha => ⟨wf_of_form (decodeMath_wf ha) rfl, rfl⟩
  | jmpi b =>
    obtain ⟨_, hnone, h⟩ := bind_eq_ok h
    refine row_of_map h fun a ha => ⟨wf_of_form (decodeBasic2_wf ha) (decide_eq_true ?_), rfl⟩
    obtain ⟨-, hcmod, -⟩ := decodeBasic2_reads ha
    exact Except.ok.inj (hcmod.symm.trans (condMod_of_needNoCmod hnone))
  | ret b =>
    obtain ⟨_, hnone, h⟩ := bind_eq_ok h
    refine row_of_map h fun a ha => ⟨wf_of_form (decodeBasic1_wf ha) (decide_eq_true ?_), rfl⟩
    obtain ⟨-, hcmod, -⟩ := decodeBasic1_reads ha
    exact Except.ok.inj (hcmod.symm.trans (condMod_of_needNoCmod hnone))

/-! ## Unassigned opcode bytes (R253) -/

/-- The null destination, type UD. -/
def nullDst : Dst := { loc := .arf .null 0, ty := .ud, region := .a1 .h1 }

/-- The null source `<0;1,0>`, type UD. -/
def nullSrc : RegSrc := { loc := .arf .null 0, ty := .ud, mod := .none, region := .a1 .v0 .w1 .h0 }

/-! One set of fields for each format; only that there is one matters. -/

def nullBasic1 : Basic1 := { hdr := plainHeader .s1, cmod := .none, dst := nullDst, src0 := .reg nullSrc }
def nullBasic2 : Basic2 := { hdr := plainHeader .s1, cmod := .none, dst := nullDst, src0 := nullSrc, src1 := .reg nullSrc }
def nullBranch1 : Branch1 := { hdr := plainHeader .s1, offFile := .imm, offTy := 3, jip := 0 }
def nullBranch2 : Branch2 := { hdr := plainHeader .s1, offFile := .imm, offTy := 3, jip := 0, uip := 0 }
def zeroTri : Tri :=
  let src : TriSrc := { num := 0, sub := 0, chanSel := 0, rep := false, mod := .none }
  { hdr := plainHeader .s1, cmod := .none, dstTy := .f, srcTy := .f, dstNum := 0, dstSub := 0, chanEn := 0,
    src0 := src, src1 := src, src2 := src }
def nullCall : Call := { hdr := plainHeader .s1, dst := nullDst, offFile := .imm, offTy := 3, jip := 0 }
def nullSend : Send := { hdr := plainHeader .s1, sfid := 0, dst := nullDst, src0 := nullSrc, desc := .imm 0, eot := false }
def nullMath : Math := { hdr := plainHeader .s1, fc := 0, dst := nullDst, src0 := nullSrc, src1 := .reg nullSrc }

/-- One instruction of every row of the opcode table. -/
def rowInstrs : List Instr :=
  [.illegal, .nop false, .call nullCall, .send nullSend, .sendc nullSend, .math nullMath] ++
  [Instr.mov, .movi, .not_, .f32to16, .f16to32, .bfrev, .ret, .wait, .frc, .rndu, .rndd, .rnde, .rndz, .lzd, .fbh, .fbl,
    .cbit].map (fun row => row nullBasic1) ++
  [Instr.sel, .and_, .or_, .xor_, .shr, .shl, .asr, .cmp, .cmpn, .bfi1, .jmpi, .add, .mul, .avg, .mac, .mach, .addc, .subb,
    .sad2, .sada2, .dp4, .dph, .dp3, .dp2, .line, .pln].map (fun row => row nullBasic2) ++
  [Instr.bfe, .bfi2, .mad, .lrp].map (fun row => row zeroTri) ++
  [Instr.brd, .else_, .endif, .while_].map (fun row => row nullBranch1) ++
  [Instr.if_, .brc, .case_, .break_, .cont, .halt].map (fun row => row nullBranch2)

/-- No row has the opcode byte. -/
def Unassigned (op : Byte) : Prop := ∀ j : Instr, j.opcode ≠ op

theorem Unassigned.toNat_ne {op : Byte} (h : Unassigned op) {k : Nat} (hk : BitVec.ofNat 8 k ∈ rowInstrs.map Instr.opcode) :
    op.toNat ≠ k := by
  rintro rfl
  obtain ⟨j, -, hj⟩ := List.mem_map.1 hk
  exact h j (hj.trans (by simp))

theorem decodeNative_unassigned {w : NativeWord} (h : Unassigned (fld w 0 8)) : decodeNative w = .ok .illegal := by
  unfold decodeNative
  split
  case h_1 | h_64 => rfl
  all_goals exact absurd ‹_› (h.toNat_ne (by decide))

/-- The instruction is of the row that the opcode byte selects; an unassigned byte is `illegal`. -/
def OfRow (op : Byte) (i : Instr) : Prop := i.opcode = op ∨ (i = .illegal ∧ Unassigned op)

theorem decodeNative_ofRow {w : NativeWord} {i : Instr} (h : decodeNative w = .ok i) : i.wf = true ∧ OfRow (fld w 0 8) i := by
  by_cases hrow : ∃ j : Instr, j.opcode = fld w 0 8
  · obtain ⟨j, hj⟩ := hrow
    obtain ⟨hwf, hop⟩ := decodeNative_row hj.symm h
    exact ⟨hwf, .inl (hop.trans hj)⟩
  · have hnone : Unassigned (fld w 0 8) := fun j hj => hrow ⟨j, hj⟩
    obtain rfl := Except.ok.inj (h.symm.trans (decodeNative_unassigned hnone))
    exact ⟨rfl, .inr ⟨rfl, hnone⟩⟩

/-! ## Compact words (R330, R331) -/

theorem expandCompact_op (c : CompactWord) : (expandCompact c).extractLsb' 0 8 = c.extractLsb' 0 8 := by
  simp (disch := decide) only [expandCompact, BitVec.extractLsb'_append_eq_of_add_le, BitVec.extractLsb'_eq_self]

/-- The type of a null src1 replaces bits 46:44 alone (log 75). -/
theorem fillSrc1Type_low (w : NativeWord) : (fillSrc1Type w).extractLsb' 0 44 = w.extractLsb' 0 44 := by
  unfold fillSrc1Type
  split
  · simp (disch := decide) only [BitVec.extractLsb'_append_eq_of_add_le, BitVec.extractLsb'_eq_self]
  · rfl

theorem fillSrc1Type_high (w : NativeWord) : (fillSrc1Type w).extractLsb' 47 81 = w.extractLsb' 47 81 := by
  unfold fillSrc1Type
  split
  · simp (disch := decide) only [BitVec.extractLsb'_append_eq_of_le, Nat.reduceSub, BitVec.extractLsb'_eq_self]
  · rfl

theorem fillSrc1Type_src1Ty {w : NativeWord} (h : lacksSrc1 w = true) :
    (fillSrc1Type w).extractLsb' 44 3 = w.extractLsb' 39 3 := by
  rw [fillSrc1Type, if_pos h]
  simp (disch := decide) only [BitVec.extractLsb'_append_eq_of_le, BitVec.extractLsb'_append_eq_of_add_le, Nat.reduceSub,
    BitVec.extractLsb'_eq_self]

theorem fillSrc1Type_id {w : NativeWord} (h : lacksSrc1 w = false) : fillSrc1Type w = w := by
  rw [fillSrc1Type, h]
  rfl

theorem fillSrc1Type_expandCompact_op (c : CompactWord) :
    fld (fillSrc1Type (expandCompact c)) 0 8 = c.extractLsb' 0 8 :=
  calc fld (fillSrc1Type (expandCompact c)) 0 8
      = (expandCompact c).extractLsb' 0 8 :=
        (fld_of_fld (fillSrc1Type_low _) (i := 0) (by decide)).trans (fld_of_fld rfl (by decide)).symm
    _ = c.extractLsb' 0 8 := expandCompact_op c

/-- A compact word without bit 28 and past the opcodes that it treats itself decodes as its native word. -/
theorem decodeCompact_native {c : CompactWord} (hnop : c.extractLsb' 0 8 ≠ 0x7E#8)
    (htri : isTriOpcode (c.extractLsb' 0 8) = false) (hmbz : c.getLsbD 28 = false) :
    decodeCompact c = decodeNative (fillSrc1Type (expandCompact c)) := by
  simp only [decodeCompact, hnop, htri, hmbz, if_false, Bool.false_eq_true]
  split <;> next hdec => exact hdec.symm

/-- What a compact word decodes to is `nop`, or what its native word decodes to. -/
theorem decodeCompact_cases {c : CompactWord} {i : Instr} (h : decodeCompact c = .ok i) :
    c.extractLsb' 0 8 = 0x7E#8 ∧ i = .nop false ∨ decodeNative (fillSrc1Type (expandCompact c)) = .ok i := by
  simp only [decodeCompact] at h
  split at h
  next hnop => exact .inl ⟨hnop, (Except.ok.inj h).symm⟩
  split at h
  · cases h
  right
  split at h
  next hdec => exact hdec.trans h
  next hdec =>
    split at h
    · cases h
    · exact hdec.trans h
  next => cases h

theorem decodeCompact_ofRow {c : CompactWord} {i : Instr} (h : decodeCompact c = .ok i) :
    i.wf = true ∧ OfRow (c.extractLsb' 0 8) i := by
  rcases decodeCompact_cases h with ⟨hop, rfl⟩ | hdec
  · exact ⟨rfl, .inl hop.symm⟩
  · rw [← fillSrc1Type_expandCompact_op c]
    exact decodeNative_ofRow hdec

/-- The three-source opcodes are assigned. -/
theorem Unassigned.not_tri {op : Byte} (h : Unassigned op) : isTriOpcode op = false := by
  have hbfe : op ≠ 0x18#8 := (h (.bfe zeroTri)).symm
  have hbfi2 : op ≠ 0x1A#8 := (h (.bfi2 zeroTri)).symm
  have hmad : op ≠ 0x5B#8 := (h (.mad zeroTri)).symm
  have hlrp : op ≠ 0x5C#8 := (h (.lrp zeroTri)).symm
  simp [isTriOpcode, hbfe, hbfi2, hmad, hlrp]

/-- Bit 28 does not bear on an unassigned byte (R254). -/
theorem decodeCompact_unassigned {c : CompactWord} (h : Unassigned (c.extractLsb' 0 8)) : decodeCompact c = .ok .illegal := by
  have hnop : c.extractLsb' 0 8 ≠ 0x7E#8 := (h (.nop false)).symm
  have hdec : decodeNative (fillSrc1Type (expandCompact c)) = .ok .illegal :=
    decodeNative_unassigned (fillSrc1Type_expandCompact_op c ▸ h)
  simp only [decodeCompact, hnop, h.not_tri, hdec, if_false, Bool.false_eq_true]

/-! ## Bytes (R253; spec/20_memory.md R200, R203) -/

theorem getD_eq_of_leNat (bs : List Byte) (k : Nat) : bs.getD k 0 = BitVec.ofNat 8 (leNat bs / 256 ^ k) := by
  induction bs generalizing k with
  | nil => simp [leNat]
  | cons b bs ih =>
    cases k with
    | zero => exact BitVec.eq_of_toNat_eq (by simpa [leNat] using (Nat.mod_eq_of_lt b.isLt).symm)
    | succ k =>
      have hrest : leNat (b :: bs) / 256 ^ (k + 1) = leNat bs / 256 ^ k := by
        rw [Nat.pow_succ', ← Nat.div_div_eq_div_mul, leNat]
        congr 1
        omega
      rw [hrest, ← ih k, List.getD_cons_succ]

/-- The bits of byte k in a word read from the first n bytes. -/
theorem getLsbD_word_of_bytes (bs : List Byte) {m n k i : Nat} (hk : k < n) (hi : i < 8) (hm : 8 * k + i < m) :
    (BitVec.ofNat m (leNat (bs.take n))).getLsbD (8 * k + i) = (bs.getD k 0).getLsbD i := by
  have hbyte : bs.getD k 0 = (bs.take n).getD k 0 := by
    simp only [List.getD_eq_getElem?_getD, List.getElem?_take_of_lt hk]
  rw [hbyte, getD_eq_of_leNat, BitVec.getLsbD_ofNat, BitVec.getLsbD_ofNat, show 256 ^ k = 2 ^ (8 * k) from
    (Nat.pow_mul 2 8 k).symm, Nat.testBit_div_two_pow, decide_eq_true hm, decide_eq_true hi, Nat.add_comm]

/-- The opcode byte is the first one. -/
theorem opcode_of_bytes (bs : List Byte) {m n : Nat} (hn : 0 < n) (hm : 8 ≤ m) :
    (BitVec.ofNat m (leNat (bs.take n))).extractLsb' 0 8 = bs.getD 0 0 := by
  refine BitVec.eq_of_getLsbD_eq fun i hi => ?_
  rw [BitVec.getLsbD_extractLsb', decide_eq_true hi, Bool.true_and]
  exact getLsbD_word_of_bytes bs (k := 0) hn hi (by omega)

/-- CmptCtrl is bit 5 of the fourth byte. -/
theorem cmptCtrl_of_bytes (bs : List Byte) :
    (BitVec.ofNat 64 (leNat (bs.take 8))).getLsbD 29 = (bs.getD 3 0).getLsbD 5 :=
  getLsbD_word_of_bytes bs (k := 3) (i := 5) (by decide) (by decide) (by decide)

/-- The instruction that the bytes hold is the compact or the native one, as CmptCtrl says. -/
theorem decodeBytes_cases {bs : List Byte} {i : Instr} {len : Nat} (h : decodeBytes bs = .ok (i, len)) :
    ((bs.getD 3 0).getLsbD 5 = true ∧ decodeCompact (BitVec.ofNat 64 (leNat (bs.take 8))) = .ok i ∧ len = 8) ∨
      ((bs.getD 3 0).getLsbD 5 = false ∧ decodeNative (BitVec.ofNat 128 (leNat (bs.take 16))) = .ok i ∧ len = 16) := by
  simp only [decodeBytes, cmptCtrl_of_bytes] at h
  split at h
  · cases h
  split at h
  next hcmpt =>
    split at h
    next hdec =>
      cases h
      exact .inl ⟨hcmpt, hdec, rfl⟩
    next => cases h
  next hcmpt =>
    split at h
    · cases h
    split at h
    next hdec =>
      cases h
      exact .inr ⟨by simpa using hcmpt, hdec, rfl⟩
    next => cases h

theorem decodeBytes_unassigned {bs : List Byte} (hlen : 16 ≤ bs.length) (h : Unassigned (bs.getD 0 0)) :
    ∃ len, decodeBytes bs = .ok (.illegal, len) := by
  have hcompact : decodeCompact (BitVec.ofNat 64 (leNat (bs.take 8))) = .ok .illegal :=
    decodeCompact_unassigned (by rwa [opcode_of_bytes bs (by decide) (by decide)])
  have hnative : decodeNative (BitVec.ofNat 128 (leNat (bs.take 16))) = .ok .illegal :=
    decodeNative_unassigned (by rwa [fld, opcode_of_bytes bs (by decide) (by decide)])
  have h8 : ¬ bs.length < 8 := by omega
  have h16 : ¬ bs.length < 16 := by omega
  simp only [decodeBytes, h8, h16, if_false, hcompact, hnative]
  split
  · exact ⟨8, rfl⟩
  · exact ⟨16, rfl⟩

/-- Settles O2: the word is the compact or the native one, and each decodes to a well-formed instruction of its row. -/
theorem decodedInstruction : Obligations.DecodedInstruction := by
  refine ⟨fun bs i len h => ?_, fun bs => decodeBytes_unassigned⟩
  rcases decodeBytes_cases h with ⟨hcmpt, hdec, rfl⟩ | ⟨hcmpt, hdec, rfl⟩
  · obtain ⟨hwf, hrow⟩ := decodeCompact_ofRow hdec
    rw [opcode_of_bytes bs (by decide) (by decide)] at hrow
    exact ⟨hwf, hrow, (if_pos hcmpt).symm⟩
  · obtain ⟨hwf, hrow⟩ := decodeNative_ofRow hdec
    rw [fld, opcode_of_bytes bs (by decide) (by decide)] at hrow
    exact ⟨hwf, hrow, by rw [hcmpt]; rfl⟩

end Sys2Proof
end

section
/-! OBLIGATION O3: the native word that a compact word stands for, field by field, and that it decodes as it (spec/30_encoding.md R330 to R336). -/

namespace Sys2Proof

section
variable (c : CompactWord)

/-! ## The map of R331, by DWords -/

abbrev controlRow : BitVec 19 := tableRow controlIndexTable (c.extractLsb' 8 5)
abbrev dataTypeRow : BitVec 18 := tableRow dataTypeIndexTable (c.extractLsb' 13 5)
abbrev subRegRow : BitVec 15 := tableRow subRegIndexTable (c.extractLsb' 18 5)

def compactDW0 : DWord :=
  (controlRow c).extractLsb' 16 1 ++ 0#2 ++ c.extractLsb' 23 1 ++ c.extractLsb' 24 4 ++ (controlRow c).extractLsb' 0 16 ++
    c.extractLsb' 0 8

def compactDW1 : DWord :=
  (dataTypeRow c).extractLsb' 15 3 ++ c.extractLsb' 40 8 ++ (subRegRow c).extractLsb' 0 5 ++ 0#1 ++
    (dataTypeRow c).extractLsb' 0 15

def compactDW2 : DWord :=
  0#5 ++ (controlRow c).extractLsb' 17 2 ++ tableRow srcIndexTable (c.extractLsb' 30 5) ++ c.extractLsb' 48 8 ++
    (subRegRow c).extractLsb' 5 5

theorem expandCompact_eq : expandCompact c =
    expandDW3 c (dataTypeRow c) (subRegRow c) ++ compactDW2 c ++ compactDW1 c ++ compactDW0 c := rfl

theorem expandCompact_dw0 : (expandCompact c).extractLsb' 0 32 = compactDW0 c := by
  simp (disch := decide) only [expandCompact_eq, BitVec.extractLsb'_append_eq_of_add_le, BitVec.extractLsb'_eq_self]

theorem expandCompact_dw1 : (expandCompact c).extractLsb' 32 32 = compactDW1 c := by
  simp (disch := decide) only [expandCompact_eq, BitVec.extractLsb'_append_eq_of_le,
    BitVec.extractLsb'_append_eq_of_add_le, Nat.reduceSub, BitVec.extractLsb'_eq_self]

theorem expandCompact_dw2 : (expandCompact c).extractLsb' 64 32 = compactDW2 c := by
  simp (disch := decide) only [expandCompact_eq, BitVec.extractLsb'_append_eq_of_le,
    BitVec.extractLsb'_append_eq_of_add_le, Nat.reduceSub, BitVec.extractLsb'_eq_self]

theorem expandCompact_dw3 : (expandCompact c).extractLsb' 96 32 = expandDW3 c (dataTypeRow c) (subRegRow c) := by
  simp (disch := decide) only [expandCompact_eq, BitVec.extractLsb'_append_eq_of_le, Nat.reduceSub,
    BitVec.extractLsb'_eq_self]

/-! ## Its fields -/

theorem expandCompact_control : (expandCompact c).extractLsb' 8 16 = (controlRow c).extractLsb' 0 16 := by
  refine (fld_of_fld (expandCompact_dw0 c) (i := 8) (by decide)).trans ?_
  simp (disch := decide) only [compactDW0, BitVec.extractLsb'_append_eq_of_le,
    BitVec.extractLsb'_append_eq_of_add_le, Nat.reduceSub, BitVec.extractLsb'_eq_self]

theorem expandCompact_cond : (expandCompact c).extractLsb' 24 4 = c.extractLsb' 24 4 := by
  refine (fld_of_fld (expandCompact_dw0 c) (i := 24) (by decide)).trans ?_
  simp (disch := decide) only [compactDW0, BitVec.extractLsb'_append_eq_of_le,
    BitVec.extractLsb'_append_eq_of_add_le, Nat.reduceSub, BitVec.extractLsb'_eq_self]

theorem expandCompact_types : (expandCompact c).extractLsb' 32 15 = (dataTypeRow c).extractLsb' 0 15 := by
  refine (fld_of_fld (expandCompact_dw1 c) (i := 0) (by decide)).trans ?_
  simp (disch := decide) only [compactDW1, BitVec.extractLsb'_append_eq_of_add_le, BitVec.extractLsb'_eq_self]

theorem expandCompact_dstSub : (expandCompact c).extractLsb' 48 5 = (subRegRow c).extractLsb' 0 5 := by
  refine (fld_of_fld (expandCompact_dw1 c) (i := 16) (by decide)).trans ?_
  simp (disch := decide) only [compactDW1, BitVec.extractLsb'_append_eq_of_le,
    BitVec.extractLsb'_append_eq_of_add_le, Nat.reduceSub, BitVec.extractLsb'_eq_self]

theorem expandCompact_dstNum : (expandCompact c).extractLsb' 53 8 = c.extractLsb' 40 8 := by
  refine (fld_of_fld (expandCompact_dw1 c) (i := 21) (by decide)).trans ?_
  simp (disch := decide) only [compactDW1, BitVec.extractLsb'_append_eq_of_le,
    BitVec.extractLsb'_append_eq_of_add_le, Nat.reduceSub, BitVec.extractLsb'_eq_self]

theorem expandCompact_dstRegion : (expandCompact c).extractLsb' 61 3 = (dataTypeRow c).extractLsb' 15 3 := by
  refine (fld_of_fld (expandCompact_dw1 c) (i := 29) (by decide)).trans ?_
  simp (disch := decide) only [compactDW1, BitVec.extractLsb'_append_eq_of_le, Nat.reduceSub, BitVec.extractLsb'_eq_self]

theorem expandCompact_src0Sub : (expandCompact c).extractLsb' 64 5 = (subRegRow c).extractLsb' 5 5 := by
  refine (fld_of_fld (expandCompact_dw2 c) (i := 0) (by decide)).trans ?_
  simp (disch := decide) only [compactDW2, BitVec.extractLsb'_append_eq_of_add_le, BitVec.extractLsb'_eq_self]

theorem expandCompact_src0Num : (expandCompact c).extractLsb' 69 8 = c.extractLsb' 48 8 := by
  refine (fld_of_fld (expandCompact_dw2 c) (i := 5) (by decide)).trans ?_
  simp (disch := decide) only [compactDW2, BitVec.extractLsb'_append_eq_of_le,
    BitVec.extractLsb'_append_eq_of_add_le, Nat.reduceSub, BitVec.extractLsb'_eq_self]

theorem expandCompact_src0Region : (expandCompact c).extractLsb' 77 12 = tableRow srcIndexTable (c.extractLsb' 30 5) := by
  refine (fld_of_fld (expandCompact_dw2 c) (i := 13) (by decide)).trans ?_
  simp (disch := decide) only [compactDW2, BitVec.extractLsb'_append_eq_of_le,
    BitVec.extractLsb'_append_eq_of_add_le, Nat.reduceSub, BitVec.extractLsb'_eq_self]

theorem expandCompact_flags : (expandCompact c).extractLsb' 89 2 = (controlRow c).extractLsb' 17 2 := by
  refine (fld_of_fld (expandCompact_dw2 c) (i := 25) (by decide)).trans ?_
  simp (disch := decide) only [compactDW2, BitVec.extractLsb'_append_eq_of_le,
    BitVec.extractLsb'_append_eq_of_add_le, Nat.reduceSub, BitVec.extractLsb'_eq_self]

theorem expandCompact_reserved : (expandCompact c).extractLsb' 91 5 = 0#5 := by
  refine (fld_of_fld (expandCompact_dw2 c) (i := 27) (by decide)).trans ?_
  simp (disch := decide) only [compactDW2, BitVec.extractLsb'_append_eq_of_le, Nat.reduceSub, BitVec.extractLsb'_eq_self]

theorem expandCompact_sat : (expandCompact c).getLsbD 31 = (controlRow c).getLsbD 16 := by
  refine (getLsbD_of_fld (expandCompact_dw0 c) (i := 31) (by decide)).trans ?_
  simp (disch := decide) only [compactDW0, Laws.bit_above, Nat.reduceSub, BitVec.getLsbD_extractLsb']
  rfl

theorem expandCompact_accWr : (expandCompact c).getLsbD 28 = c.getLsbD 23 := by
  refine (getLsbD_of_fld (expandCompact_dw0 c) (i := 28) (by decide)).trans ?_
  simp (disch := decide) only [compactDW0, Laws.bit_above, bit_below, Nat.reduceSub, BitVec.getLsbD_extractLsb']
  rfl

/-- Every native bit that receives nothing is 0 (R331). -/
theorem expandCompact_zeros : (expandCompact c).getLsbD 29 = false ∧ (expandCompact c).getLsbD 30 = false ∧
    (expandCompact c).getLsbD 47 = false := by
  refine ⟨(getLsbD_of_fld (expandCompact_dw0 c) (i := 29) (by decide)).trans ?_,
    (getLsbD_of_fld (expandCompact_dw0 c) (i := 30) (by decide)).trans ?_,
    (getLsbD_of_fld (expandCompact_dw1 c) (i := 15) (by decide)).trans ?_⟩
  all_goals
    simp (disch := decide) only [compactDW0, compactDW1, Laws.bit_above, bit_below, Nat.reduceSub, BitVec.getLsbD_zero]

/-! ## DW3: the immediate or src1 (R331) -/

/-- The register files of the native word say whether DW3 holds an immediate. -/
theorem compactImm_iff : compactImm (dataTypeRow c) = true ↔
    (expandCompact c).extractLsb' 37 2 = 3#2 ∨ (expandCompact c).extractLsb' 42 2 = 3#2 := by
  have hsrc0 : (expandCompact c).extractLsb' 37 2 = (dataTypeRow c).extractLsb' 5 2 :=
    (fld_of_fld (expandCompact_types c) (i := 5) (by decide)).trans (fld_of_fld rfl (by decide)).symm
  have hsrc1 : (expandCompact c).extractLsb' 42 2 = (dataTypeRow c).extractLsb' 10 2 :=
    (fld_of_fld (expandCompact_types c) (i := 10) (by decide)).trans (fld_of_fld rfl (by decide)).symm
  rw [hsrc0, hsrc1, compactImm, Bool.or_eq_true, decide_eq_true_eq, decide_eq_true_eq, or_comm]

/-- What DW3 is to hold in the native word w of a compact word. -/
def CompactDW3 (w : NativeWord) : Prop :=
  if w.extractLsb' 37 2 = 3 ∨ w.extractLsb' 42 2 = 3 then
    w.extractLsb' 96 32 = (c.extractLsb' 35 5 ++ c.extractLsb' 56 8).signExtend 32
  else
    w.extractLsb' 96 5 = (subRegRow c).extractLsb' 10 5 ∧ w.extractLsb' 101 8 = c.extractLsb' 56 8 ∧
      w.extractLsb' 109 12 = tableRow srcIndexTable (c.extractLsb' 35 5) ∧ w.extractLsb' 121 7 = 0#7

theorem expandCompact_compactDW3 : CompactDW3 c (expandCompact c) := by
  have hdw3 := expandCompact_dw3 c
  unfold CompactDW3
  split
  next himm => rw [hdw3, expandDW3, if_pos ((compactImm_iff c).2 himm)]
  next hreg =>
    rw [expandDW3, if_neg (mt (compactImm_iff c).1 hreg)] at hdw3
    refine ⟨(fld_of_fld hdw3 (i := 0) (by decide)).trans ?_, (fld_of_fld hdw3 (i := 5) (by decide)).trans ?_,
      (fld_of_fld hdw3 (i := 13) (by decide)).trans ?_, (fld_of_fld hdw3 (i := 25) (by decide)).trans ?_⟩
    all_goals
      simp (disch := decide) only [BitVec.extractLsb'_append_eq_of_le, BitVec.extractLsb'_append_eq_of_add_le,
        Nat.reduceSub, BitVec.extractLsb'_eq_self]

end

/-- Settles O3: the fields land by the map and the tables, and the word that is decoded differs from the reconstructed one in
the type of a null src1 alone. -/
theorem compactFieldsLand : Obligations.CompactFieldsLand := by
  intro c
  obtain ⟨hcmpt, hdebug, hnib⟩ := expandCompact_zeros c
  refine ⟨expandCompact_op c, expandCompact_control c, expandCompact_sat c, expandCompact_flags c, expandCompact_cond c,
    expandCompact_accWr c, expandCompact_types c, expandCompact_dstRegion c, expandCompact_dstSub c, expandCompact_dstNum c,
    expandCompact_src0Sub c, expandCompact_src0Num c, expandCompact_src0Region c, hcmpt, hdebug, hnib,
    expandCompact_reserved c, expandCompact_compactDW3 c, fun hnop htri hmbz => ?_⟩
  exact ⟨_, decodeCompact_native hnop htri hmbz, fillSrc1Type_low _, fillSrc1Type_high _, fillSrc1Type_src1Ty,
    fillSrc1Type_id⟩

end Sys2Proof
end

section
/-! SUPPORT. Finite float patterns: what number a pattern below the infinity holds, and how the order of patterns is that of the numbers (spec/40_common_execution.md R403). -/

namespace Sys2Proof.Machine

/-! ## Powers of two -/

theorem pow2_eq_zpow (e : Int) : pow2 e = (2 : Rat) ^ e := by
  unfold pow2
  split
  next he =>
    lift e to Nat using he
    simp
  next he =>
    obtain ⟨k, rfl⟩ : ∃ k : Nat, e = -(k : Int) := ⟨(-e).toNat, by omega⟩
    simp

theorem pow2_pos (e : Int) : 0 < pow2 e := by
  rw [pow2_eq_zpow]
  positivity

theorem pow2_add (a b : Int) : pow2 (a + b) = pow2 a * pow2 b := by
  simp only [pow2_eq_zpow]
  exact zpow_add₀ (by norm_num) a b

theorem pow2_natCast (k : Nat) : pow2 k = (2 : Rat) ^ k := by
  rw [pow2_eq_zpow, zpow_natCast]

theorem pow2_le_pow2 {a b : Int} (h : a ≤ b) : pow2 a ≤ pow2 b := by
  simp only [pow2_eq_zpow]
  exact zpow_le_zpow_right₀ (by norm_num) h

/-- A significand times a power of two, as a number of quanta of a smaller exponent. -/
theorem mul_pow2_of_le (m : Rat) {e q : Int} (h : q ≤ e) : m * pow2 e = m * 2 ^ (e - q).toNat * pow2 q := by
  obtain ⟨k, rfl⟩ : ∃ k : Nat, e = k + q := ⟨(e - q).toNat, by omega⟩
  rw [pow2_add, pow2_natCast, add_sub_cancel_right, Int.toNat_natCast, mul_assoc]

/-! ## Numbers with a sign -/

/-- 1, or -1 for a negative number. -/
def signRat (neg : Bool) : Rat := if neg then -1 else 1

theorem toRat_fin (neg : Bool) (m : Nat) (e : Int) : (FVal.fin neg m e).toRat = signRat neg * (m * pow2 e) := by
  cases neg <;> simp [FVal.toRat, signRat]

theorem abs_signRat_mul (neg : Bool) (v : Rat) : |signRat neg * v| = |v| := by
  cases neg <;> simp [signRat]

/-! ## Patterns -/

/-- The sign bit of a pattern. -/
def FFmt.signOf (f : FFmt) (neg : Bool) : Nat := if neg then f.signBits else 0

theorem infBits_lt_signBits (f : FFmt) : f.infBits < f.signBits := by
  unfold FFmt.infBits FFmt.signBits
  rw [pow_add, mul_comm]
  exact Nat.mul_lt_mul_of_pos_left (Nat.sub_lt (by positivity) one_pos) (by positivity)

/-- The exponent and fraction fields of a pattern below the infinity, whatever its sign. -/
theorem ofBits_of_lt_infBits (f : FFmt) (neg : Bool) {b : Nat} (hb : b < f.infBits) :
    FVal.ofBits f (b + f.signOf neg) =
      if b / 2 ^ f.frac = 0 then .fin neg (b % 2 ^ f.frac) f.emin
      else .fin neg (2 ^ f.frac + b % 2 ^ f.frac) (f.emin + (↑(b / 2 ^ f.frac) - 1)) := by
  have hsign : b < f.signBits := hb.trans (infBits_lt_signBits f)
  have hneg : (b + f.signOf neg) / f.signBits % 2 = if neg then 1 else 0 := by
    cases neg
    · simp [FFmt.signOf, Nat.div_eq_of_lt hsign]
    · simp [FFmt.signOf, Nat.add_div_right _ (Nat.zero_lt_of_lt hsign), Nat.div_eq_of_lt hsign]
  have hfrac : (b + f.signOf neg) % 2 ^ f.frac = b % 2 ^ f.frac := by
    cases neg
    · rfl
    · simp [FFmt.signOf, FFmt.signBits, pow_add, Nat.add_mul_mod_self_left]
  have hlt : b / 2 ^ f.frac < 2 ^ f.expBits - 1 := Nat.div_lt_of_lt_mul (by rwa [mul_comm])
  have hexp : (b + f.signOf neg) / 2 ^ f.frac % 2 ^ f.expBits = b / 2 ^ f.frac := by
    have hmod : b / 2 ^ f.frac % 2 ^ f.expBits = b / 2 ^ f.frac := Nat.mod_eq_of_lt (hlt.trans_le (Nat.sub_le _ _))
    cases neg
    · exact hmod
    · rw [FFmt.signOf, if_pos rfl, FFmt.signBits, pow_add, Nat.add_mul_div_left _ _ (by positivity), Nat.add_mod_right, hmod]
  unfold FVal.ofBits
  simp only [hneg, hfrac, hexp, if_neg hlt.ne]
  cases neg <;> rfl

/-- A pattern is written as t binades and a significand M in them: below the normal numbers t is 0, and M may have reached the
next binade. -/
structure Significand (f : FFmt) (t M : Nat) : Prop where
  normal : 0 < t → 2 ^ f.frac ≤ M
  carry : M ≤ 2 * 2 ^ f.frac

/-- The number that such a pattern holds. -/
theorem Significand.ofBits {f : FFmt} {t M : Nat} (h : Significand f t M) (neg : Bool)
    (hb : t * 2 ^ f.frac + M < f.infBits) :
    ∃ m e, FVal.ofBits f (t * 2 ^ f.frac + M + f.signOf neg) = .fin neg m e ∧ m * pow2 e = M * pow2 (f.emin + t) := by
  rw [ofBits_of_lt_infBits f neg hb]
  have hpos : 0 < 2 ^ f.frac := by positivity
  obtain hlow | hhigh := Nat.lt_or_ge M (2 ^ f.frac)
  · obtain rfl : t = 0 := by by_contra ht; exact absurd (h.normal (by omega)) (by omega)
    simp [Nat.mod_eq_of_lt hlow, Nat.div_eq_of_lt hlow]
  obtain ⟨r, rfl⟩ := Nat.exists_eq_add_of_le hhigh
  obtain hr | rfl : r < 2 ^ f.frac ∨ r = 2 ^ f.frac := by have := h.carry; omega
  · have hpat : t * 2 ^ f.frac + (2 ^ f.frac + r) = r + 2 ^ f.frac * (t + 1) := by ring
    rw [hpat, Nat.add_mul_div_left _ _ hpos, Nat.add_mul_mod_self_left, Nat.div_eq_of_lt hr, Nat.mod_eq_of_lt hr,
      if_neg (by omega)]
    refine ⟨_, _, rfl, ?_⟩
    congr 2
    push_cast
    ring
  · have hpat : t * 2 ^ f.frac + (2 ^ f.frac + 2 ^ f.frac) = 2 ^ f.frac * (t + 2) := by ring
    rw [hpat, Nat.mul_div_cancel_left _ hpos, Nat.mul_mod_right, if_neg (by omega)]
    refine ⟨_, _, rfl, ?_⟩
    rw [show f.emin + (↑(t + 2) - 1) = ((1 : Nat) : Int) + (f.emin + t) by push_cast; ring, pow2_add, pow2_natCast]
    push_cast
    ring

/-- The pattern has reached binade k + 1 where the number has: the order of patterns is that of the numbers. -/
theorem Significand.binade_le_iff {f : FFmt} {t M : Nat} (h : Significand f t M) (k : Nat) :
    (k + 1) * 2 ^ f.frac ≤ t * 2 ^ f.frac + M ↔ pow2 (f.emin + k + f.frac) ≤ M * pow2 (f.emin + t) := by
  have hquanta : pow2 (f.emin + k + f.frac) ≤ M * pow2 (f.emin + t) ↔ 2 ^ k * 2 ^ f.frac ≤ M * 2 ^ t := by
    have hleft : pow2 (f.emin + k + f.frac) = pow2 f.emin * ((2 ^ k * 2 ^ f.frac : Nat) : Rat) := by
      rw [add_assoc, pow2_add, pow2_add, pow2_natCast, pow2_natCast]
      push_cast
      rfl
    have hright : M * pow2 (f.emin + t) = pow2 f.emin * ((M * 2 ^ t : Nat) : Rat) := by
      rw [pow2_add, pow2_natCast]
      push_cast
      ring
    rw [hleft, hright, mul_le_mul_iff_right₀ (pow2_pos _), Nat.cast_le]
  have hpos : 0 < 2 ^ f.frac := by positivity
  rw [hquanta]
  obtain hlt | rfl | rfl | ⟨d, rfl⟩ : k < t ∨ k = t ∨ k = t + 1 ∨ ∃ d, k = t + 2 + d := by
    rcases Nat.lt_or_ge k (t + 2) with hk | hk
    · omega
    · exact .inr (.inr (.inr ⟨k - (t + 2), by omega⟩))
  · have hM := h.normal (by omega)
    refine iff_of_true ?_ ?_
    · calc (k + 1) * 2 ^ f.frac ≤ t * 2 ^ f.frac := Nat.mul_le_mul_right _ hlt
        _ ≤ t * 2 ^ f.frac + M := Nat.le_add_right _ _
    · rw [mul_comm]
      exact Nat.mul_le_mul hM (Nat.pow_le_pow_right (by decide) hlt.le)
  · rw [mul_comm M, Nat.mul_le_mul_left_iff (by positivity), add_mul]
    omega
  · rw [pow_succ, mul_assoc, mul_comm M, Nat.mul_le_mul_left_iff (by positivity), add_mul, add_mul]
    omega
  · have hM := h.carry
    refine iff_of_false ?_ ?_
    · rw [not_le, show (t + 2 + d + 1) * 2 ^ f.frac = t * 2 ^ f.frac + 3 * 2 ^ f.frac + d * 2 ^ f.frac by ring]
      have := Nat.zero_le (d * 2 ^ f.frac)
      omega
    · rw [not_le]
      calc M * 2 ^ t ≤ 2 * 2 ^ f.frac * 2 ^ t := Nat.mul_le_mul_right _ hM
        _ < 2 ^ (t + 2 + d) * 2 ^ f.frac := by
          rw [mul_right_comm, ← pow_succ']
          exact Nat.mul_lt_mul_of_pos_right (Nat.pow_lt_pow_right (by decide) (by omega)) hpos

end Sys2Proof.Machine
end

section
/-! OBLIGATION O35: the rounding of an exact number (spec/40_common_execution.md R480 to R483, R460). -/

namespace Sys2Proof.Machine

/-! ## The rounded significand -/

/-- The exponent of the unit in the last place of m * 2^e in a format. -/
def FFmt.quantum (f : FFmt) (m : Nat) (e : Int) : Int := max f.emin (e + Nat.log2 m - f.frac)

/-- The magnitude of an exact number in units of the last place: the integer part n and the remainder r of 2^k. -/
structure Split (f : FFmt) (m : Nat) (e : Int) (n r k : Nat) : Prop where
  rem : r < 2 ^ k
  exact : m * pow2 e = (n + (r : Rat) / 2 ^ k) * pow2 (f.quantum m e)

/-- Rounding adds one to the integer part or not. -/
theorem roundMag_split (f : FFmt) (rm : Round) (neg : Bool) {m : Nat} (e : Int) (hm : m ≠ 0) :
    ∃ n r k, Split f m e n r k ∧ roundMag f rm neg m e =
      (f.quantum m e - f.emin).toNat * 2 ^ f.frac + (n + if rm.up neg n r k then 1 else 0) := by
  have hunfold : roundMag f rm neg m e = if f.quantum m e ≤ e then
      (f.quantum m e - f.emin).toNat * 2 ^ f.frac + m * 2 ^ (e - f.quantum m e).toNat
    else (f.quantum m e - f.emin).toNat * 2 ^ f.frac + m / 2 ^ (f.quantum m e - e).toNat +
      if rm.up neg (m / 2 ^ (f.quantum m e - e).toNat) (m % 2 ^ (f.quantum m e - e).toNat) (f.quantum m e - e).toNat
        then 1 else 0 := if_neg hm
  rw [hunfold]
  split
  next hle =>
    refine ⟨m * 2 ^ (e - f.quantum m e).toNat, 0, 0, ⟨by decide, ?_⟩, ?_⟩
    · rw [mul_pow2_of_le _ hle]
      push_cast
      ring
    · have hup : rm.up neg (m * 2 ^ (e - f.quantum m e).toNat) 0 0 = false := by cases rm <;> simp [Round.up]
      rw [hup]
      rfl
  next hgt =>
    set k := (f.quantum m e - e).toNat with hk
    refine ⟨m / 2 ^ k, m % 2 ^ k, k, ⟨Nat.mod_lt _ (by positivity), ?_⟩, Nat.add_assoc _ _ _⟩
    have hdiv : (m : Rat) = 2 ^ k * (m / 2 ^ k : Nat) + (m % 2 ^ k : Nat) := by
      exact_mod_cast (Nat.div_add_mod m (2 ^ k)).symm
    have hpow : pow2 (f.quantum m e) = 2 ^ k * pow2 e := by
      rw [← pow2_natCast, ← pow2_add]
      congr 1
      omega
    rw [hpow]
    nth_rw 1 [hdiv]
    field_simp

namespace Split
variable {f : FFmt} {m : Nat} {e : Int} {n r k : Nat}

theorem rem_div_nonneg : 0 ≤ (r : Rat) / 2 ^ k := by positivity

theorem rem_div_lt_one (h : Split f m e n r k) : (r : Rat) / 2 ^ k < 1 := by
  rw [div_lt_one (by positivity)]
  exact_mod_cast h.rem

/-- The integer part fills the significand, and no more, unless the number is below the normal ones. -/
theorem significand (h : Split f m e n r k) (hm : m ≠ 0) (c : Bool) :
    Significand f (f.quantum m e - f.emin).toNat (n + if c then 1 else 0) := by
  have hunit := pow2_pos (f.quantum m e)
  have hlog : pow2 (Nat.log2 m + e) ≤ m * pow2 e ∧ m * pow2 e < pow2 (Nat.log2 m + 1 + e) := by
    have hself := (Nat.log2_eq_iff hm).1 rfl
    constructor
    · rw [pow2_add, pow2_natCast]
      exact mul_le_mul_of_nonneg_right (by exact_mod_cast hself.1) (pow2_pos e).le
    · rw [pow2_add]
      refine mul_lt_mul_of_pos_right ?_ (pow2_pos e)
      rw [show ((Nat.log2 m : Int) + 1) = ((Nat.log2 m + 1 : Nat) : Int) by push_cast; rfl, pow2_natCast]
      exact_mod_cast hself.2
  have hle : (n : Rat) * pow2 (f.quantum m e) ≤ m * pow2 e := by
    rw [h.exact]
    exact mul_le_mul_of_nonneg_right (le_add_of_nonneg_right rem_div_nonneg) hunit.le
  have hlt : m * pow2 e < (n + 1) * pow2 (f.quantum m e) := by
    rw [h.exact]
    exact mul_lt_mul_of_pos_right (by linarith [h.rem_div_lt_one]) hunit
  have hfull : n < 2 * 2 ^ f.frac := by
    have hq : pow2 (Nat.log2 m + 1 + e) ≤ pow2 (((f.frac + 1 : Nat) : Int) + f.quantum m e) :=
      pow2_le_pow2 (by unfold FFmt.quantum; push_cast; omega)
    rw [pow2_add _ (f.quantum m e), pow2_natCast] at hq
    have hn : (n : Rat) < 2 ^ (f.frac + 1) := lt_of_mul_lt_mul_right (by linarith [hlog.2]) hunit.le
    rw [← pow_succ']
    exact_mod_cast hn
  refine ⟨fun ht => ?_, by split <;> omega⟩
  have hq : (f.frac : Int) + f.quantum m e = Nat.log2 m + e := by unfold FFmt.quantum at ht ⊢; omega
  have hn : (2 : Rat) ^ f.frac < n + 1 := by
    refine lt_of_mul_lt_mul_right ?_ hunit.le
    rw [← pow2_natCast, ← pow2_add, hq]
    linarith [hlog.1]
  have : 2 ^ f.frac < n + 1 := by exact_mod_cast hn
  omega

end Split

/-! ## The rounding modes -/

/-- The number w is a multiple of the unit u, the one that the mode chooses for x (R483). -/
structure RoundsTo (rm : Round) (x u w : Rat) : Prop where
  multiple : ∃ z : Int, w = z * u
  nearest : rm = .rne → 2 * |w - x| ≤ u ∧ (2 * |w - x| = u → ∃ z : Int, w = 2 * z * u)
  up : rm = .ru → x ≤ w ∧ w < x + u
  down : rm = .rd → w ≤ x ∧ x - u < w
  zero : rm = .rz → |w| ≤ |x| ∧ |x| - u < |w| ∧ 0 ≤ w * x

/-- The number w is the next one in units of u from x on: upward or downward. -/
def Directed (upward : Bool) (x u w : Rat) : Prop := if upward then x ≤ w ∧ w < x + u else w ≤ x ∧ x - u < w

theorem Directed.signed {upward : Bool} {x u w : Rat} (h : Directed upward x u w) (neg : Bool) :
    Directed (upward != neg) (signRat neg * x) u (signRat neg * w) := by
  cases neg
  · simpa [signRat] using h
  cases upward
  all_goals
    obtain ⟨hnear, hfar⟩ : _ ∧ _ := h
    constructor <;> simp only [signRat, if_true, neg_one_mul] <;> linarith

/-- Away from zero a remainder rounds up, toward zero it is dropped. -/
theorem directed_magnitude (n : Nat) {r k : Nat} (hr : r < 2 ^ k) (away : Bool) {u : Rat} (hu : 0 < u) :
    Directed away ((n + (r : Rat) / 2 ^ k) * u) u ((n + if r > 0 && away then 1 else 0 : Nat) * u) := by
  have hlt : (r : Rat) / 2 ^ k * u < u := by
    refine mul_lt_of_lt_one_left hu ?_
    rw [div_lt_one (by positivity)]
    exact_mod_cast hr
  have hnonneg : 0 ≤ (r : Rat) / 2 ^ k * u := by positivity
  rw [add_mul]
  cases away
  · simp only [Bool.and_false, Bool.false_eq_true, if_false, Nat.add_zero]
    constructor <;> linarith
  obtain rfl | hpos := Nat.eq_zero_or_pos r
  · simpa [Directed] using hu
  · have : 0 < (r : Rat) / 2 ^ k * u := by positivity
    simp only [hpos, decide_true, Bool.and_true, if_true, Nat.cast_add, Nat.cast_one, add_mul, one_mul]
    constructor <;> linarith

/-- To nearest: the distance is at most one half, and at one half the integer is even. -/
theorem nearest_dist (neg : Bool) (n : Nat) {r k : Nat} (hr : r < 2 ^ k) :
    let M := n + if Round.rne.up neg n r k then 1 else 0
    let d : Rat := M - (n + (r : Rat) / 2 ^ k)
    2 * |d| ≤ 1 ∧ (2 * |d| = 1 → M % 2 = 0) := by
  intro M d
  have hpow : (0 : Rat) < 2 ^ k := by positivity
  have hlt : (r : Rat) / 2 ^ k < 1 := by
    rw [div_lt_one hpow]
    exact_mod_cast hr
  have hkept (hM : M = n) : |d| = (r : Rat) / 2 ^ k := by
    rw [show d = -((r : Rat) / 2 ^ k) by simp [d, hM], abs_neg, abs_of_nonneg (by positivity)]
  have hraised (hM : M = n + 1) : |d| = 1 - (r : Rat) / 2 ^ k := by
    rw [show d = 1 - (r : Rat) / 2 ^ k by simp [d, hM], abs_of_pos (by linarith)]
  obtain hlow | hhalf | hhigh := Nat.lt_trichotomy (2 * r) (2 ^ k)
  · have hdist : 2 * ((r : Rat) / 2 ^ k) < 1 := by
      rw [← mul_div_assoc, div_lt_one hpow]
      exact_mod_cast hlow
    rw [hkept (by simp [M, Round.up, hlow.not_gt, hlow.ne])]
    exact ⟨hdist.le, fun heq => absurd heq hdist.ne⟩
  · have hdist : 2 * ((r : Rat) / 2 ^ k) = 1 := by
      rw [← mul_div_assoc, div_eq_one_iff_eq hpow.ne']
      exact_mod_cast hhalf
    obtain heven | hodd := Nat.mod_two_eq_zero_or_one n
    · have hM : M = n := by simp [M, Round.up, hhalf, heven]
      rw [hkept hM, hM]
      exact ⟨hdist.le, fun _ => heven⟩
    · have hM : M = n + 1 := by simp [M, Round.up, hhalf, hodd]
      rw [hraised hM, hM]
      exact ⟨by linarith, fun _ => by omega⟩
  · have hdist : 1 < 2 * ((r : Rat) / 2 ^ k) := by
      rw [← mul_div_assoc, one_lt_div hpow]
      exact_mod_cast hhigh
    rw [hraised (by simp [M, Round.up, hhigh])]
    exact ⟨by linarith, fun heq => absurd heq (by linarith)⟩

/-- Rounding in units of the last place is rounding by the unit. -/
theorem roundsTo_up (rm : Round) (neg : Bool) (n : Nat) {r k : Nat} (hr : r < 2 ^ k) {u : Rat} (hu : 0 < u) :
    RoundsTo rm (signRat neg * ((n + (r : Rat) / 2 ^ k) * u)) u
      (signRat neg * ((n + if rm.up neg n r k then 1 else 0 : Nat) * u)) := by
  set a : Rat := n + (r : Rat) / 2 ^ k
  set M : Nat := n + if rm.up neg n r k then 1 else 0
  have hnonneg : 0 ≤ a * u ∧ 0 ≤ M * u := ⟨by positivity, by positivity⟩
  refine ⟨⟨if neg then -M else M, ?_⟩, ?nearest, ?up, ?down, ?zero⟩
  · cases neg <;> simp [signRat]
  case nearest =>
    rintro rfl
    obtain ⟨hdist, heven⟩ := nearest_dist neg n hr
    have habs : |signRat neg * (M * u) - signRat neg * (a * u)| = |(M : Rat) - a| * u := by
      rw [← mul_sub, abs_signRat_mul, ← sub_mul, abs_mul, abs_of_pos hu]
    rw [habs, ← mul_assoc]
    refine ⟨mul_le_of_le_one_left hu.le hdist, fun heq => ?_⟩
    obtain ⟨j, hj⟩ : ∃ j, M = 2 * j := by
      have := heven ((mul_eq_right₀ hu.ne').1 heq)
      exact ⟨M / 2, by omega⟩
    refine ⟨if neg then -j else j, ?_⟩
    rw [hj]
    cases neg <;> simp [signRat, mul_assoc]
  case up =>
    rintro rfl
    have hup := (directed_magnitude n hr (!neg) hu).signed neg
    rwa [show ((!neg) != neg) = true by cases neg <;> rfl] at hup
  case down =>
    rintro rfl
    have hdown := (directed_magnitude n hr neg hu).signed neg
    rwa [show (neg != neg) = false by cases neg <;> rfl] at hdown
  case zero =>
    rintro rfl
    obtain ⟨hle, hlt⟩ : _ ∧ _ := directed_magnitude n hr false hu
    rw [Bool.and_false] at hle hlt
    rw [abs_signRat_mul, abs_signRat_mul, abs_of_nonneg hnonneg.1, abs_of_nonneg hnonneg.2, mul_mul_mul_comm]
    refine ⟨hle, hlt, mul_nonneg ?_ (mul_nonneg hnonneg.2 hnonneg.1)⟩
    cases neg <;> simp [signRat]

/-! ## The result -/

/-- The magnitude after rounding, and the pattern that holds it if it is in range. -/
theorem roundMag_roundsTo (f : FFmt) (rm : Round) (neg : Bool) {m : Nat} (e : Int) (hm : m ≠ 0) :
    ∃ t M, Significand f t M ∧ roundMag f rm neg m e = t * 2 ^ f.frac + M ∧
      RoundsTo rm (FVal.fin neg m e).toRat (pow2 (f.quantum m e)) (signRat neg * (M * pow2 (f.emin + t))) := by
  obtain ⟨n, r, k, hsplit, hpat⟩ := roundMag_split f rm neg e hm
  refine ⟨_, _, hsplit.significand hm (rm.up neg n r k), hpat, ?_⟩
  have hq : f.emin + ((f.quantum m e - f.emin).toNat : Int) = f.quantum m e := by
    have : f.emin ≤ f.quantum m e := le_max_left _ _
    omega
  rw [hq, toRat_fin, hsplit.exact]
  exact roundsTo_up rm neg n hsplit.rem (pow2_pos _)

/-- What an overflow gives. -/
def FMode.overflowVal (md : FMode) (neg : Bool) : FVal :=
  if !md.alt && md.rm.overflowsToInf neg then .inf neg else md.fmt.maxVal neg

theorem roundFin_eq (md : FMode) (neg : Bool) (m : Nat) (e : Int) {b : Nat} (hb : roundMag md.fmt md.rm neg m e = b) :
    roundFin md neg m e =
      if md.fmt.infBits ≤ b then { val := md.overflowVal neg, ov := true }
      else if md.flush && b < 2 ^ md.fmt.frac then { val := .fin neg 0 md.fmt.emin, ov := false }
      else { val := FVal.ofBits md.fmt (b + md.fmt.signOf neg), ov := false } := by
  subst hb
  rfl

theorem overflowVal_eq (md : FMode) (neg : Bool) : md.overflowVal neg =
    if md.alt = false ∧ (md.rm = .rne ∨ (md.rm = .ru ∧ neg = false) ∨ (md.rm = .rd ∧ neg = true)) then .inf neg
    else md.fmt.maxVal neg := by
  unfold FMode.overflowVal
  cases md.alt <;> cases md.rm <;> cases neg <;> rfl

/-- Settles O35: the rounded magnitude is a significand of its binade, which the pattern holds, and the order of patterns is
that of the numbers. -/
theorem roundingOfFiniteNumbers : Obligations.RoundingOfFiniteNumbers := by
  intro md neg m e hm hfmt r x u limit
  have hexp : 1 ≤ md.fmt.expBits := by rcases hfmt with h | h | h <;> rw [h] <;> decide
  obtain ⟨t, M, hsig, hpat, hround⟩ := roundMag_roundsTo md.fmt md.rm neg e hm
  have hr : r = _ := roundFin_eq md neg m e hpat
  have habs : |signRat neg * (M * pow2 (md.fmt.emin + t))| = M * pow2 (md.fmt.emin + t) := by
    have := (pow2_pos (md.fmt.emin + t)).le
    rw [abs_signRat_mul, abs_of_nonneg (by positivity)]
  have hlimit : md.fmt.infBits ≤ t * 2 ^ md.fmt.frac + M ↔ limit ≤ M * pow2 (md.fmt.emin + t) := by
    have hpow : 2 ≤ 2 ^ md.fmt.expBits := Nat.pow_le_pow_right (n := 2) (by decide) hexp
    have := hsig.binade_le_iff (2 ^ md.fmt.expBits - 2)
    rw [show 2 ^ md.fmt.expBits - 2 + 1 = 2 ^ md.fmt.expBits - 1 by omega] at this
    rw [FFmt.infBits, this]
    push_cast [hpow]
    rfl
  have hnormal : 2 ^ md.fmt.frac ≤ t * 2 ^ md.fmt.frac + M ↔ pow2 (md.fmt.emin + md.fmt.frac) ≤ M * pow2 (md.fmt.emin + t) := by
    simpa using hsig.binade_le_iff 0
  refine ⟨_, hround.multiple, hround.nearest, hround.up, hround.down, hround.zero, ?_⟩
  rw [habs, ← hlimit, ← hnormal, ← not_le, ← hnormal, hr]
  split
  next hov => simp [hov, overflowVal_eq]
  next hin =>
    obtain ⟨k, d, hval, hmag⟩ := hsig.ofBits neg (not_le.1 hin)
    split
    next hflush =>
      obtain ⟨hon, hlow⟩ : md.flush = true ∧ t * 2 ^ md.fmt.frac + M < 2 ^ md.fmt.frac := by simpa using hflush
      simp [hin, hon, hlow.not_ge]
    next hkept =>
      have hoff : md.flush = true → 2 ^ md.fmt.frac ≤ t * 2 ^ md.fmt.frac + M := by simpa using hkept
      refine ⟨iff_of_false Bool.false_ne_true hin, fun h => absurd h Bool.false_ne_true,
        fun _ hflush hlow => absurd (hoff hflush) hlow, fun _ _ => ?_⟩
      rw [hval, toRat_fin, hmag]
      exact ⟨rfl, rfl, rfl⟩

end Sys2Proof.Machine
end

section
/-! OBLIGATION O33: a packed restricted float is the number that its fields denote (spec/40_common_execution.md R406, R426). -/

namespace Sys2Proof.Machine

theorem toNat_append_eq_add {n m : Nat} (x : BitVec n) (y : BitVec m) : (x ++ y).toNat = x.toNat * 2 ^ m + y.toNat := by
  rw [BitVec.toNat_append, ← Nat.shiftLeft_add_eq_or_of_lt y.isLt, Nat.shiftLeft_eq]

theorem toNat_extractLsb'_one {n : Nat} (x : BitVec n) (i : Nat) : (x.extractLsb' i 1).toNat = (x.getLsbD i).toNat := by
  rw [BitVec.getLsbD_eq_extractLsb']
  generalize x.extractLsb' i 1 = b
  revert b
  decide

/-- The exponent field of F: the coded exponent, whose bias is 3, in the bias of F. -/
theorem toNat_vfExponent (c : BitVec 3) :
    (c.extractLsb' 2 1 ++ ~~~c.extractLsb' 2 1 ++ ~~~c.extractLsb' 2 1 ++ ~~~c.extractLsb' 2 1 ++ ~~~c.extractLsb' 2 1 ++
      ~~~c.extractLsb' 2 1 ++ c.extractLsb' 0 2 : BitVec 8).toNat = 124 + c.toNat := by
  revert c
  decide

/-- The F pattern of a restricted float without its sign: 0, or the fields with the exponent in the bias of F. -/
def vfMagnitude (e : Byte) : Nat :=
  if e.extractLsb' 0 7 = 0#7 then 0 else (124 + (e.extractLsb' 4 3).toNat) * 2 ^ 23 + (e.extractLsb' 0 4).toNat * 2 ^ 19

theorem toNat_vfElement (e : Byte) : (vfElement e).toNat = vfMagnitude e + fmtF.signOf (e.getLsbD 7) := by
  have hsign : fmtF.signOf (e.getLsbD 7) = (e.extractLsb' 7 1).toNat * 2 ^ 31 := by
    rw [toNat_extractLsb'_one]
    cases e.getLsbD 7 <;> rfl
  have hexp := toNat_vfExponent (e.extractLsb' 4 3)
  rw [← fld_of_fld (w := e) (lo := 4) rfl (i := 2) (by decide), ← fld_of_fld (w := e) (lo := 4) rfl (i := 0) (by decide)] at hexp
  rw [hsign, vfElement, vfMagnitude]
  split
  next =>
    refine (toNat_append_eq_add (e.extractLsb' 7 1) 0#31).trans ?_
    rw [BitVec.toNat_zero, Nat.zero_add, Nat.add_zero]
  next =>
    dsimp only
    rw [toNat_append_eq_add, toNat_append_eq_add, toNat_append_eq_add, hexp, BitVec.toNat_zero]
    ring

/-- The number that the fields denote (R406). -/
def vfValue (e : Byte) : Rat :=
  if e.extractLsb' 0 7 = 0#7 then 0
  else (1 + ((e.extractLsb' 0 4).toNat : Rat) / 16) * pow2 ((e.extractLsb' 4 3).toNat - 3)

/-- The pattern is that of a zero, or of a normal number with the fraction in its four highest bits. -/
theorem vfMagnitude_significand (e : Byte) : ∃ t M, Significand fmtF t M ∧ vfMagnitude e = t * 2 ^ fmtF.frac + M ∧
    vfMagnitude e < fmtF.infBits ∧ M * pow2 (fmtF.emin + t) = vfValue e := by
  have hfrac := (e.extractLsb' 0 4).isLt
  have hexp := (e.extractLsb' 4 3).isLt
  unfold vfMagnitude vfValue
  split
  next => exact ⟨0, 0, ⟨fun h => absurd h (by decide), by decide⟩, rfl, by decide, by simp⟩
  next =>
    generalize (e.extractLsb' 0 4).toNat = x at hfrac
    generalize (e.extractLsb' 4 3).toNat = c at hexp
    refine ⟨123 + c, 2 ^ 23 + x * 2 ^ 19, ⟨fun _ => ?_, ?_⟩, ?_, ?_, ?_⟩
    · simp only [fmtF]; omega
    · simp only [fmtF]; omega
    · simp only [fmtF]; omega
    · simp only [fmtF, FFmt.infBits]; omega
    · rw [show fmtF.emin + ((123 + c : Nat) : Int) = -23 + ((c : Int) - 3) by
        rw [show fmtF.emin = -149 from rfl]; push_cast; ring, pow2_add, show pow2 (-23) = 1 / 2 ^ 23 by rw [pow2_eq_zpow]; norm_num]
      push_cast
      ring

/-- Settles O33: an F pattern with these fields holds the number, with the sign of the sign bit. -/
theorem restrictedFloatVector : Obligations.RestrictedFloatVector := by
  intro s h two k n v e x
  obtain ⟨t, M, hsig, hmag, hfinite, hvalue⟩ := vfMagnitude_significand e
  have hpattern : x = FVal.ofBits fmtF (t * 2 ^ fmtF.frac + M + fmtF.signOf (e.getLsbD 7)) :=
    congrArg (FVal.ofBits fmtF) ((toNat_vfElement e).trans (by rw [hmag]))
  obtain ⟨m, d, hfin, hnumber⟩ := hsig.ofBits (e.getLsbD 7) (hmag ▸ hfinite)
  rw [hpattern, hfin]
  refine ⟨rfl, rfl, ?_⟩
  rw [toRat_fin, hnumber, hvalue]
  rfl

end Sys2Proof.Machine
end

section
/-! OBLIGATION O34: the channels that an instruction enables (spec/40_common_execution.md R410, R411, R440). -/

namespace Sys2Proof.Machine

/-! ## Channel groups (R411) -/

theorem chOff_eq (h : Header) (n : Nat) :
    (if decide (h.size = .s32) = true then n else if h.size = .s16 then 16 * (h.qtr.toNat / 2) + n
      else 8 * h.qtr.toNat + (if h.nib then 4 else 0) + n) = chOff h + n := by
  unfold chOff
  cases h.size <;> simp

theorem flagOff_of_s32 {h : Header} (hsize : h.size = .s32) : flagOff h = 0 := by
  simp only [flagOff, chOff, hsize]

/-! ## Flag bits (R440) -/

/-- The number of flag bits that a selection has: those of a subregister, or of the register. -/
def flagLimit (wide : Bool) : Nat := if wide then 32 else 16

/-- Bit i of the selection, where the subregister has it. -/
def flagBit (s : State) (h : Header) (wide : Bool) (i : Nat) : Bool :=
  (s.flagReg h.flagReg).getLsbD ((if wide = false ∧ h.flagSub = true then 16 else 0) + flagOff h + i)

section
variable {s : State} {h : Header} {n : Nat}

theorem predFlag_eq {i : Nat} (hi : flagOff h + i < flagLimit (h.size = .s32)) :
    predFlag s h (h.size = .s32) i = flagBit s h (h.size = .s32) i := by
  by_cases hsize : h.size = .s32
  · simp [predFlag, flagBit, hsize, flagOff_of_s32 hsize]
  · have : flagOff h + i < 16 := by simpa [flagLimit, hsize] using hi
    simp [predFlag, flagBit, hsize, this]

theorem predVert_eq (sub : Bool) (hn : flagOff h + n < 16) : predVert s h (h.size = .s32) sub n =
    (s.flagReg h.flagReg).getLsbD ((if sub then 16 else 0) + flagOff h + n) := by
  by_cases hsize : h.size = .s32
  · have : n < 16 := by simpa [flagOff_of_s32 hsize] using hn
    simp [predVert, hsize, flagOff_of_s32 hsize, this]
  · simp [predVert, hsize, hn]

/-! ## Predicate controls (R440) -/

/-- The mask before its inversion is the combination of flag bits. -/
theorem pmask_bne_predInv {wide : Bool} (hpred : h.pred ≠ .none) :
    (pmask s h wide n != h.predInv) = predRaw s h wide n := by
  rw [pmask, if_neg hpred]
  cases predRaw s h wide n <;> cases h.predInv <;> rfl

theorem predGroup_any_iff {f : Nat → Bool} {k : Nat} :
    (predGroup k n).any f = true ↔ ∃ i, i < k ∧ f (k * (n / k) + i) = true := by
  simp [predGroup]

theorem predGroup_all_iff {f : Nat → Bool} {k : Nat} :
    (predGroup k n).all f = true ↔ ∀ i, i < k → f (k * (n / k) + i) = true := by
  simp [predGroup]

/-- A control that combines the k bits of the channel's group, by disjunction or by conjunction. -/
def AnyGroup (c : PredCtrl) (k : Nat) : Prop :=
  (c = .any2h ∧ k = 2) ∨ (c = .any4h ∧ k = 4) ∨ (c = .any8h ∧ k = 8) ∨ (c = .any16h ∧ k = 16)
def AllGroup (c : PredCtrl) (k : Nat) : Prop :=
  (c = .all2h ∧ k = 2) ∨ (c = .all4h ∧ k = 4) ∨ (c = .all8h ∧ k = 8) ∨ (c = .all16h ∧ k = 16)

/-- A control that takes component j of the channel's group of four. -/
def Replicates (c : PredCtrl) (j : Nat) : Prop :=
  (c = .replX ∧ j = 0) ∨ (c = .replY ∧ j = 1) ∨ (c = .replZ ∧ j = 2) ∨ (c = .replW ∧ j = 3)

theorem pmask_seq (hp : h.pred = .seq) {wide : Bool} : (pmask s h wide n != h.predInv) = predFlag s h wide n := by
  rw [pmask_bne_predInv (by simp [hp]), predRaw, hp]

theorem pmask_anyv (hp : h.pred = .anyv) {wide : Bool} :
    (pmask s h wide n != h.predInv) = (predVert s h wide false n || predVert s h wide true n) := by
  rw [pmask_bne_predInv (by simp [hp]), predRaw, hp]

theorem pmask_allv (hp : h.pred = .allv) {wide : Bool} :
    (pmask s h wide n != h.predInv) = (predVert s h wide false n && predVert s h wide true n) := by
  rw [pmask_bne_predInv (by simp [hp]), predRaw, hp]

theorem pmask_any32h (hp : h.pred = .any32h) {wide : Bool} : (pmask s h wide n != h.predInv) = true ↔
    ∃ i, i < 32 ∧ (s.flagReg h.flagReg).getLsbD i = true := by
  simp [pmask_bne_predInv, predRaw, hp]

theorem pmask_all32h (hp : h.pred = .all32h) {wide : Bool} : (pmask s h wide n != h.predInv) = true ↔
    ∀ i, i < 32 → (s.flagReg h.flagReg).getLsbD i = true := by
  simp [pmask_bne_predInv, predRaw, hp]

theorem pmask_anyGroup {k : Nat} (hk : AnyGroup h.pred k) {wide : Bool} :
    (pmask s h wide n != h.predInv) = (predGroup k n).any (predFlag s h wide) := by
  rcases hk with ⟨hp, rfl⟩ | ⟨hp, rfl⟩ | ⟨hp, rfl⟩ | ⟨hp, rfl⟩ <;>
    rw [pmask_bne_predInv (by simp [hp]), predRaw, hp]

theorem pmask_allGroup {k : Nat} (hk : AllGroup h.pred k) {wide : Bool} :
    (pmask s h wide n != h.predInv) = (predGroup k n).all (predFlag s h wide) := by
  rcases hk with ⟨hp, rfl⟩ | ⟨hp, rfl⟩ | ⟨hp, rfl⟩ | ⟨hp, rfl⟩ <;>
    rw [pmask_bne_predInv (by simp [hp]), predRaw, hp]

theorem pmask_replicates {j : Nat} (hj : Replicates h.pred j) {wide : Bool} :
    (pmask s h wide n != h.predInv) = predFlag s h wide (4 * (n / 4) + j) := by
  rcases hj with ⟨hp, rfl⟩ | ⟨hp, rfl⟩ | ⟨hp, rfl⟩ | ⟨hp, rfl⟩ <;>
    rw [pmask_bne_predInv (by simp [hp]), predRaw, hp]
  rfl

/-- A group's bits all lie in the selection if its end does. -/
theorem predFlag_group {k i : Nat} (hk : flagOff h + (k * (n / k) + k) ≤ flagLimit (h.size = .s32)) (hi : i < k) :
    predFlag s h (h.size = .s32) (k * (n / k) + i) = flagBit s h (h.size = .s32) (k * (n / k) + i) :=
  predFlag_eq (by omega)

/-! ## Write enables (R410) -/

theorem wrEn_iff (hn : n < h.count) : wrEn s h n = true ↔
    (h.noMask = true ∨ ((dispatchMask s).getLsbD (if h.size = .s32 then n % 16 else chOff h + n) = true ∧
      (s.cr00.getLsbD 2 = true ∨ s.pcIP.getD (chOff h + n) 0 = s.ip))) ∧ pmask s h (h.size = .s32) n = true := by
  simp [wrEn, wrEnNoPred, execEnable, atIP, State.spf, hn]

end

/-- Settles O34: each predicate control by its combination of flag bits, which the group offset places. -/
theorem writeEnables : Obligations.WriteEnables := by
  intro s h n wide c m off flag bit limit p
  have hc : c = chOff h + n := chOff_eq h n
  have hoff : off = flagOff h := by simp only [off, hc, Nat.add_sub_cancel, flagOff]
  have hbit : ∀ i, flagBit s h wide i = bit i := fun i => by rw [flagBit, ← hoff]; rfl
  rw [hoff]
  refine ⟨fun hn => ?_, fun hn => ?_, fun hp => if_pos hp, fun hp hn => ?_, fun hp hn => ?_, fun hp hn => ?_,
    fun k hk hle => ?_, fun k hk hle => ?_, fun hp => ?_, fun hp => ?_, fun j hj hlt => ?_⟩
  · simp [wrEn, wrEnNoPred, hn.not_gt]
  · have hm : m = if h.size = .s32 then n % 16 else chOff h + n := by simp only [m, hc, wide, decide_eq_true_eq]
    rw [hm, hc]
    exact wrEn_iff hn
  · exact (pmask_seq hp).trans ((predFlag_eq hn).trans (hbit n))
  · rw [show p = _ from pmask_anyv hp, predVert_eq false hn, predVert_eq true hn]
    simp [flag, State.flagReg]
  · rw [show p = _ from pmask_allv hp, predVert_eq false hn, predVert_eq true hn]
    simp [flag, State.flagReg]
  · exact (Bool.eq_iff_iff.1 (pmask_anyGroup hk)).trans (predGroup_any_iff.trans (exists_congr fun i =>
      and_congr_right fun hi => by rw [predFlag_group hle hi, hbit]))
  · exact (Bool.eq_iff_iff.1 (pmask_allGroup hk)).trans (predGroup_all_iff.trans (forall_congr' fun i =>
      imp_congr_right fun hi => by rw [predFlag_group hle hi, hbit]))
  · exact pmask_any32h hp
  · exact pmask_all32h hp
  · exact (pmask_replicates hj).trans ((predFlag_eq hlt).trans (hbit _))

end Sys2Proof.Machine
end

section
/-! SUPPORT. The two kinds of register source: an accumulator channel, or the bytes of an element (spec/40_common_execution.md R400, R427, R428; spec/10_state.md R64). -/

namespace Sys2Proof.Machine

section
variable {s : State} {h : Header} {two : Bool} {k n : Nat} {r : RegSrc} {base : Nat}

theorem regInt_of_not_acc (hloc : accOperand r.loc = none) :
    regInt s h two k r n = intOfRaw r.ty (srcRaw s h two k r n) := by
  rw [regInt, hloc]

theorem regInt_of_acc {fmt : AccFmt} (hloc : accOperand r.loc = some base) (hfmt : accFmt r.ty = some fmt) :
    regInt s h two k r n = (accGet s fmt (base + r.region.accChan r.ty.size n)).toInt := by
  rw [regInt, hloc, hfmt]

theorem srcF_of_not_acc (hloc : accOperand r.loc = none) :
    srcF s h two k (.reg r) n = modBits r.mod (srcRaw s h two k r n) := by
  simp only [srcF, hloc]

theorem srcF_of_acc (hloc : accOperand r.loc = some base) :
    srcF s h two k (.reg r) n = modBits r.mod ((accGet s .f (base + r.region.accChan 4 n)).setWidth 32) := by
  simp only [srcF, hloc]

theorem srcDF_of_not_acc (hloc : accOperand r.loc = none) : srcDF s h two k (.reg r) n =
    modBits r.mod (srcRaw s h two k r (2 * (n / 2) + 1) ++ srcRaw s h two k r (2 * (n / 2))) := by
  simp only [srcDF, hloc]

theorem srcDF_of_acc (hloc : accOperand r.loc = some base) :
    srcDF s h two k (.reg r) n = modBits r.mod (accGet s .df (r.region.accPairChan n)) := by
  simp only [srcDF, hloc]

/-- The source with its modifier taken away. -/
def plainSrc (r : RegSrc) : RegSrc := { r with mod := .none }

/-- A modified source is the modified pattern of the plain one. -/
theorem srcF_eq_modBits (r : RegSrc) : srcF s h two k (.reg r) n = modBits r.mod (srcF s h two k (.reg (plainSrc r)) n) := by
  cases hloc : accOperand r.loc with
  | none =>
    rw [srcF_of_not_acc hloc, srcF_of_not_acc (r := plainSrc r) hloc]
    rfl
  | some base =>
    rw [srcF_of_acc hloc, srcF_of_acc (r := plainSrc r) hloc]
    rfl

theorem srcDF_eq_modBits (r : RegSrc) :
    srcDF s h two k (.reg r) n = modBits r.mod (srcDF s h two k (.reg (plainSrc r)) n) := by
  cases hloc : accOperand r.loc with
  | none =>
    rw [srcDF_of_not_acc hloc, srcDF_of_not_acc (r := plainSrc r) hloc]
    rfl
  | some base =>
    rw [srcDF_of_acc hloc, srcDF_of_acc (r := plainSrc r) hloc]
    rfl

end

end Sys2Proof.Machine
end

section
/-! OBLIGATION O32: source modifiers and immediates (spec/40_common_execution.md R402, R404, R405, R421, R426, R445). -/

namespace Sys2Proof.Machine

/-! ## Source modifiers (R445) -/

theorem modInt_eq (m : SrcMod) (v : Int) : modInt m v = match m with
    | .none => v
    | .abs => |v|
    | .neg => -v
    | .negAbs => -|v| := by
  cases m
  case abs => exact Int.natCast_natAbs v
  case negAbs => exact congrArg Neg.neg (Int.natCast_natAbs v)
  all_goals rfl

/-- What a modifier makes of a sign bit. -/
def SrcMod.onSign (m : SrcMod) (p : Bool) : Bool :=
  match m with
  | .none => p
  | .abs => false
  | .neg => !p
  | .negAbs => true

theorem modBits_low {w : Nat} (m : SrcMod) (v : BitVec w) {i : Nat} (hi : i < w - 1) :
    (modBits m v).getLsbD i = v.getLsbD i := by
  have htop : (1#w <<< (w - 1)).getLsbD i = false := by
    rw [getLsbD_one_shiftLeft w (w - 1) i (by omega)]
    simp [hi.ne]
  have hiw : i < w := by omega
  unfold modBits
  generalize 1#w <<< (w - 1) = top at htop
  rw [BitVec.getLsbD_eq_getElem hiw] at htop
  cases m <;> simp [htop, hiw]

theorem modBits_sign {w : Nat} (m : SrcMod) (v : BitVec w) (hw : 0 < w) :
    (modBits m v).getLsbD (w - 1) = SrcMod.onSign m (v.getLsbD (w - 1)) := by
  have htop : (1#w <<< (w - 1)).getLsbD (w - 1) = true := by
    rw [getLsbD_one_shiftLeft w (w - 1) (w - 1) hw]
    simp [hw]
  unfold modBits
  generalize 1#w <<< (w - 1) = top at htop
  rw [BitVec.getLsbD_eq_getElem (by omega)] at htop
  cases m <;> simp [SrcMod.onSign, htop, hw]

/-! ## Immediates (R404, R405, R421) -/

theorem setWidth_word_of_signExtend (x : Word) : (x.signExtend 32).setWidth 16 = x := by
  ext i hi
  rw [BitVec.getElem_setWidth, BitVec.getLsbD_signExtend, if_pos hi, BitVec.getLsbD_eq_getElem hi]
  simp [show i < 32 by omega]

theorem toInt_vElement (e : BitVec 4) : ((e.signExtend 32).setWidth 16).toInt = e.toInt := by
  revert e
  decide

theorem toNat_uvElement (e : BitVec 4) : ((e.setWidth 32).setWidth 16).toNat = e.toNat := by
  revert e
  decide

/-- Settles O32: a modifier by what it does to a sign bit, an immediate by the type of its elements. -/
theorem modifiersAndImmediates : Obligations.ModifiersAndImmediates := by
  intro s h two k n
  refine ⟨fun r => ⟨modInt_eq r.mod _, fun i hi => ?_, ?_, fun i hi => ?_, ?_⟩, fun v => ?_⟩
  · rw [srcF_eq_modBits]
    exact modBits_low r.mod _ hi
  · rw [srcF_eq_modBits]
    exact modBits_sign r.mod _ (by decide)
  · rw [srcDF_eq_modBits]
    exact modBits_low r.mod _ hi
  · rw [srcDF_eq_modBits]
    exact modBits_sign r.mod _ (by decide)
  · intro e
    have hlow : v.setWidth 16 = v.extractLsb' 0 16 := BitVec.setWidth_eq_extractLsb' (by decide)
    have huw : srcInt s h two k (.imm .uw v) n = (v.extractLsb' 0 16).toNat :=
      congrArg (fun x : Word => (x.toNat : Int)) 
        ((BitVec.setWidth_setWidth_of_le _ (by decide)).trans ((BitVec.setWidth_eq _).trans hlow))
    have hw : srcInt s h two k (.imm .w v) n = (v.extractLsb' 0 16).toInt :=
      congrArg BitVec.toInt ((setWidth_word_of_signExtend _).trans hlow)
    have hv : srcInt s h two k (.imm .v v) n = e.toInt := toInt_vElement e
    have huv : srcInt s h two k (.imm .uv v) n = e.toNat := congrArg Nat.cast (toNat_uvElement e)
    have hvlow : -8 ≤ e.toInt := BitVec.le_toInt e
    have hvhigh : e.toInt < 8 := BitVec.toInt_lt (x := e)
    have huvhigh : e.toNat < 16 := e.isLt
    refine ⟨rfl, rfl, huw, hw, rfl, hv, rfl, ?_, ?_, huv, ?_, ?_⟩ <;> omega

end Sys2Proof.Machine
end

section
/-! OBLIGATION O30: the byte addresses of regions (spec/40_common_execution.md R422 to R424, R452, R453, R470, R471). -/

namespace Sys2Proof.Machine

section
variable {s : State} {h : Header} {two : Bool} {n : Nat} {k : BitVec 3} {imm : BitVec 10}

theorem count_pos (h : Header) : 0 < h.count := by
  unfold Header.count
  cases h.size <;> decide

/-! ## The halves of an instruction (R470, R471) -/

theorem halfIndex_whole (hone : two = false ∨ h.count < 2) : halfIndex h two n = (0, n) := by
  have : (two && decide (h.count ≥ 2)) = false := by
    rcases hone with rfl | hcount
    · rfl
    · simp [hcount]
  rw [halfIndex, this, if_neg Bool.false_ne_true]

theorem halfIndex_halves (htwo : two = true) (hcount : 2 ≤ h.count) :
    halfIndex h two n = (n / (h.count / 2), n % (h.count / 2)) := by
  simp [halfIndex, htwo, hcount]

/-! ## Sources (R422 to R424) -/

theorem isScalar_a1_iff {l : Loc} {ty : RegType} {m : SrcMod} {v : VertStride} {w : Width} {z : HorzStride} :
    ({ loc := l, ty := ty, mod := m, region := .a1 v w z } : RegSrc).isScalar = true ↔
      v = .v0 ∧ ((w = .w1 ∧ z = .h0) ∨ (ty = .df ∧ w = .w2 ∧ z = .h1)) := by
  simp [RegSrc.isScalar, and_assoc]

theorem isScalar_a16_iff {l : Loc} {ty : RegType} {m : SrcMod} {v : VertStride} {cs : BitVec 8} :
    ({ loc := l, ty := ty, mod := m, region := .a16 v cs } : RegSrc).isScalar = true ↔
      v = .v0 ∧ ∀ j, j < 4 → swizzle cs j = swizzle cs (if ty = .df then j % 2 else 0) := by
  simp [RegSrc.isScalar]

theorem srcAddr_ind {r : RegSrc} (hloc : r.loc = .ind k imm) (hvx : r.region.isVx = false) :
    srcAddr s h two r n = indexAddr s (k.toNat + (halfIndex h (two && !r.isScalar) n).1) imm +
      (r.region.off r.ty.size (halfIndex h (two && !r.isScalar) n).2 : Nat) := by
  unfold srcAddr
  rw [hloc]
  dsimp only
  split
  next heq => rw [heq] at hvx; exact absurd hvx (by simp [SrcRegion.isVx])
  next => rfl

/-- Every channel takes its element of the one region. -/
theorem srcAddr_ind_whole {r : RegSrc} (hloc : r.loc = .ind k imm) (hvx : r.region.isVx = false)
    (hone : ¬ (two = true ∧ 2 ≤ h.count) ∨ r.isScalar = true) :
    srcAddr s h two r n = indexAddr s k.toNat imm + (r.region.off r.ty.size n : Nat) := by
  have hhalf : halfIndex h (two && !r.isScalar) n = (0, n) := by
    apply halfIndex_whole
    rcases hone with hone | hscalar
    · cases two
      · exact .inl rfl
      · exact .inr (by simpa using hone)
    · exact .inl (by simp [hscalar])
  rw [srcAddr_ind hloc hvx, hhalf, Nat.add_zero]

/-- The second half of the channels begins the region anew at the next index register. -/
theorem srcAddr_ind_halves {r : RegSrc} (hloc : r.loc = .ind k imm) (hvx : r.region.isVx = false)
    (htwo : two = true) (hcount : 2 ≤ h.count) (hscalar : ¬ r.isScalar = true) :
    srcAddr s h two r n = indexAddr s (k.toNat + n / (h.count / 2)) imm +
      (r.region.off r.ty.size (n % (h.count / 2)) : Nat) := by
  rw [srcAddr_ind hloc hvx, halfIndex_halves (by simp [htwo, hscalar]) hcount]

theorem isVx_a1 {v : VertStride} (hv : v ≠ .vx) (w : Width) (z : HorzStride) : (SrcRegion.a1 v w z).isVx = false := by
  simpa [SrcRegion.isVx] using hv

/-! ## Destinations (R452, R453) -/

theorem dstTwoRegs_iff {d : Dst} : dstTwoRegs s h d = true ↔
    (32 : Int) < dstSub s d + (h.count - 1) * (d.region.stride * d.ty.size : Nat) + d.ty.size := by
  rw [dstTwoRegs, decide_eq_true_iff, Nat.mul_assoc, gt_iff_lt, ← Nat.cast_lt (α := Int)]
  push_cast [count_pos h]
  rfl

theorem dstSub_ind {d : Dst} (hloc : d.loc = .ind k imm) : (dstSub s d : Int) = indexAddr s k.toNat imm % 32 := by
  rw [dstSub, hloc]
  exact Int.toNat_of_nonneg (Int.emod_nonneg _ (by decide))

theorem dstAddr_ind {d : Dst} (hloc : d.loc = .ind k imm) :
    dstAddr s h d n = indexAddr s (k.toNat + (halfIndex h (dstTwoRegs s h d) n).1) imm +
      ((halfIndex h (dstTwoRegs s h d) n).2 * (d.region.stride * d.ty.size) : Nat) := by
  rw [dstAddr, hloc]

end

/-- Settles O30: an address is an origin and the offset of an element, which R471 counts in the half of the channel. -/
theorem regionAddresses : Obligations.RegionAddresses := by
  intro s h ty m n index elem comp elem16 stride half
  have helem : ∀ v w z j, elem v w z j = (SrcRegion.a1 v w z).off ty.size j := fun v w z j => Nat.add_mul _ _ _
  have helem16 : ∀ v cs j, elem16 v cs j = (SrcRegion.a16 v cs).off ty.size j := fun v cs j => Nat.add_mul _ _ _
  have hstride : ∀ g, stride g = (g.stride * ty.size : Nat) := fun g => by
    cases g
    · exact (Nat.cast_mul _ _).symm
    · exact congrArg Nat.cast (Nat.one_mul ty.size).symm
  simp only [helem, helem16, hstride]
  refine ⟨fun two num sub v w z => rfl, fun two num sub v cs => rfl, fun two k imm w z _ => ?_, fun two k imm v w z hv _ => ?_,
    fun two k imm v cs _ => ⟨fun hone => ?_, fun htwo hcount hscalar => ?_⟩, fun num sub g => ⟨?_, dstTwoRegs_iff⟩,
    fun k imm g => ⟨?_, fun hone => ?_, fun htwo hcount _ => ?_⟩⟩
  · rw [← Int.natCast_emod, ← Nat.cast_mul, ← Nat.cast_mul]
    rfl
  · split
    next hhalves =>
      obtain ⟨htwo, hcount, hscalar⟩ := hhalves
      exact srcAddr_ind_halves rfl (isVx_a1 hv w z) htwo hcount (mt isScalar_a1_iff.1 hscalar)
    next hwhole =>
      refine srcAddr_ind_whole rfl (isVx_a1 hv w z) (or_iff_not_imp_left.2 fun htwo => isScalar_a1_iff.2 ?_)
      obtain ⟨htwo, hcount⟩ := not_not.1 htwo
      by_contra hscalar
      exact hwhole ⟨htwo, hcount, hscalar⟩
  · exact srcAddr_ind_whole rfl rfl (hone.imp_right isScalar_a16_iff.2)
  · exact srcAddr_ind_halves rfl rfl htwo hcount (mt isScalar_a16_iff.1 hscalar)
  · rw [← Nat.cast_mul]
    rfl
  · rw [dstTwoRegs_iff, dstSub_ind rfl]
    exact Iff.rfl
  · rw [dstAddr_ind rfl, halfIndex_whole (hone.imp_right fun h1 => by omega), Nat.add_zero, Nat.cast_mul]
    rfl
  · rw [dstAddr_ind rfl, halfIndex_halves htwo hcount, Nat.cast_mul, Int.natCast_emod]
    rfl

end Sys2Proof.Machine
end

section
/-! SUPPORT. The elements of general registers, of architecture registers and of accumulators: bytes, populated bits, channels (spec/40_common_execution.md R427; spec/20_memory.md R200; spec/10_state.md R57 to R85). -/

namespace Sys2Proof.Machine

/-! ## Bytes of the general registers (20_memory R200) -/

theorem grfElem_four (g : Vector Reg256 128) (a : Nat) :
    grfElem g a 4 = grfByte g (a + 3) ++ grfByte g (a + 2) ++ grfByte g (a + 1) ++ grfByte g (a + 0) := by
  apply BitVec.eq_of_toNat_eq
  rw [toNat_append_eq_add, toNat_append_eq_add, toNat_append_eq_add]
  simp [grfElem, leNat, List.range_succ]
  omega

theorem grfElem_two (g : Vector Reg256 128) (a : Nat) :
    (grfElem g a 2).setWidth 16 = grfByte g (a + 1) ++ grfByte g (a + 0) := by
  apply BitVec.eq_of_toNat_eq
  rw [toNat_append_eq_add]
  simp [grfElem, leNat, List.range_succ]
  omega

theorem grfElem_one (g : Vector Reg256 128) (a : Nat) : (grfElem g a 1).setWidth 8 = grfByte g (a + 0) := by
  apply BitVec.eq_of_toNat_eq
  simp [grfElem, leNat, List.range_succ]

/-! ## Bits of the architecture registers (10_state R57) -/

theorem getLsbD_packDWords (l : List DWord) {j p : Nat} (hj : j < 8) (hlo : 32 * j ≤ p) (hhi : p < 32 * j + 32) :
    (packDWords l).getLsbD p = (l.getD j 0).getLsbD (p - 32 * j) := by
  rw [← dwordOf_packDWords l j hj, dwordOf, BitVec.getLsbD_extractLsb', Nat.add_sub_cancel' hlo]
  simp [show p - 32 * j < 32 by omega]

theorem getLsbD_packWords (l : List Word) {p : Nat} (hp : p < 256) :
    (packWords l).getLsbD p = (l.getD (p / 16) 0).getLsbD (p % 16) := by
  rw [← wordOf_packWords l (p / 16) (by omega), wordOf, BitVec.getLsbD_extractLsb', Nat.div_add_mod]
  simp [Nat.mod_lt]

/-- A populated bit of a register reads as the bit of its image. -/
theorem getLsbD_arfSeen (s : State) (a : Arf) (slot : FreeSlot) {p : Nat} (hp : (arfImage s a).2.getLsbD p = true) :
    (arfSeen s a slot).getLsbD p = (arfImage s a).1.getLsbD p := by
  have hlt : p < 256 := BitVec.lt_of_getLsbD hp
  simp [arfSeen, BitVec.getLsbD_or, BitVec.getLsbD_and, BitVec.getLsbD_not, hp]

theorem getLsbD_ones {i : Nat} (hi : i < 32) : (0xFFFFFFFF#32).getLsbD i = true := by
  revert i
  decide

/-- The populated bits of a register of c full DWords. -/
theorem getLsbD_fullDWords {c p : Nat} (hc : c ≤ 8) (hp : p < 32 * c) :
    (packDWords (List.replicate c 0xFFFFFFFF)).getLsbD p = true := by
  rw [getLsbD_packDWords _ (j := p / 32) (by omega) (by omega) (by omega), List.getD_replicate _ (by omega)]
  exact getLsbD_ones (by omega)

section
variable {s : State} {a : Arf} {slot : FreeSlot} {p : Nat}

/-- A populated bit q of DWord j of a register. -/
theorem getLsbD_arfSeen_dword {l m : List DWord} {x y : DWord} (j q : Nat)
    (him : arfImage s a = (packDWords l, packDWords m)) (hx : l.getD j 0 = x) (hy : m.getD j 0 = y) (hj : j < 8) (hq : q < 32)
    (hp : p = 32 * j + q) (hbit : y.getLsbD q = true) : (arfSeen s a slot).getLsbD p = x.getLsbD q := by
  have hsub : p - 32 * j = q := by omega
  rw [getLsbD_arfSeen, him, getLsbD_packDWords l hj (by omega) (by omega), hx, hsub]
  rw [him, getLsbD_packDWords m hj (by omega) (by omega), hy, hsub, hbit]

/-- A bit of a register of eight words. -/
theorem getLsbD_arfSeen_word {l : List Word}
    (him : arfImage s a = (packWords l, packDWords (List.replicate 4 0xFFFFFFFF))) (hp : p < 128) :
    (arfSeen s a slot).getLsbD p = (l.getD (p / 16) 0).getLsbD (p % 16) := by
  rw [getLsbD_arfSeen, him, getLsbD_packWords l (by omega)]
  rw [him]
  exact getLsbD_fullDWords (by decide) hp

theorem getLsbD_arfSeen_a0 (hp : p < 128) : (arfSeen s .a0 slot).getLsbD p = (s.a0.getD (p / 16) 0).getLsbD (p % 16) := by
  rw [getLsbD_arfSeen_word (l := s.a0.toList) rfl hp]
  simp [Vector.getD, List.getD]

theorem getLsbD_arfSeen_tdr0 (j : Fin 8) (hp : p / 16 = j.val) :
    (arfSeen s .tdr0 slot).getLsbD p = s.tdr[j].word.getLsbD (p % 16) := by
  rw [getLsbD_arfSeen_word (l := s.tdr.toList.map TdrEntry.word) rfl (by omega), hp]
  simp [List.getD]

theorem getLsbD_arfSeen_tm0 (hp : p < 64) : (arfSeen s .tm0 slot).getLsbD p = s.tm0.getLsbD p := by
  rw [getLsbD_arfSeen]
  · exact (BitVec.getLsbD_setWidth _ _ _).trans (by simp [show p < 256 by omega])
  · exact getLsbD_fullDWords (c := 2) (by decide) hp

/-- The fields of an element of tdr0 (10_state R84). -/
theorem getLsbD_tdrWord (e : TdrEntry) (i : Nat) :
    (i < 8 → e.word.getLsbD i = e.fftid.getLsbD i) ∧ (8 ≤ i → i < 15 → e.word.getLsbD i = false) ∧
      (i = 15 → e.word.getLsbD i = e.valid) := by
  refine ⟨fun hi => bit_below _ _ _ hi, fun hlo hhi => ?_, ?_⟩
  · refine (Laws.bit_above _ _ _ hlo).trans ((bit_below _ _ _ (by omega)).trans BitVec.getLsbD_zero)
  · rintro rfl
    refine (Laws.bit_above _ _ _ (by decide)).trans ((Laws.bit_above _ _ _ (by decide)).trans ?_)
    simp

end

/-! ## Registers of DWords (10_state R67, R72 to R80, R82) -/

theorem getLsbD_wordMask {i : Nat} (hi : i < 16) : (0xFFFF#32).getLsbD i = true := by
  revert i
  decide

/-- Bits 31:3 of AIP are populated. -/
theorem getLsbD_aipMask {i : Nat} (hlo : 3 ≤ i) (hi : i < 32) : (0xFFFFFFF8#32).getLsbD i = true := by
  revert i
  decide

section
variable {s : State} {slot : FreeSlot} {p : Nat}

theorem getLsbD_arfSeen_ip (hp : p < 32) : (arfSeen s .ip slot).getLsbD p = s.ip.getLsbD p :=
  getLsbD_arfSeen_dword 0 p rfl rfl rfl (by decide) hp (by omega) (getLsbD_ones hp)

theorem getLsbD_arfSeen_f0 (hp : p < 32) : (arfSeen s .f0 slot).getLsbD p = s.f0.getLsbD p :=
  getLsbD_arfSeen_dword 0 p rfl rfl rfl (by decide) hp (by omega) (getLsbD_ones hp)

theorem getLsbD_arfSeen_f1 (hp : p < 32) : (arfSeen s .f1 slot).getLsbD p = s.f1.getLsbD p :=
  getLsbD_arfSeen_dword 0 p rfl rfl rfl (by decide) hp (by omega) (getLsbD_ones hp)

theorem getLsbD_arfSeen_sr0 :
    (p < 32 → sr00Mask.getLsbD p = true → (arfSeen s .sr0 slot).getLsbD p = s.sr00.getLsbD p) ∧
    (32 ≤ p → p < 64 → sr01Mask.getLsbD (p - 32) = true → (arfSeen s .sr0 slot).getLsbD p = s.sr01.getLsbD (p - 32)) ∧
    (64 ≤ p → p < 96 → (arfSeen s .sr0 slot).getLsbD p = s.sr02.getLsbD (p - 64)) ∧
    (96 ≤ p → p < 128 → (arfSeen s .sr0 slot).getLsbD p = s.sr03.getLsbD (p - 96)) :=
  ⟨fun hp => getLsbD_arfSeen_dword 0 p rfl rfl rfl (by decide) hp (by omega),
    fun hlo hhi => getLsbD_arfSeen_dword 1 (p - 32) rfl rfl rfl (by decide) (by omega) (by omega),
    fun hlo hhi => getLsbD_arfSeen_dword 2 (p - 64) rfl rfl rfl (by decide) (by omega) (by omega) (getLsbD_ones (by omega)),
    fun hlo hhi => getLsbD_arfSeen_dword 3 (p - 96) rfl rfl rfl (by decide) (by omega) (by omega) (getLsbD_ones (by omega))⟩

theorem getLsbD_arfSeen_cr0 :
    (p < 32 → cr00Mask.getLsbD p = true → (arfSeen s .cr0 slot).getLsbD p = s.cr00.getLsbD p) ∧
    (32 ≤ p → p < 64 → cr01Mask.getLsbD (p - 32) = true → (arfSeen s .cr0 slot).getLsbD p = s.cr01.getLsbD (p - 32)) ∧
    (67 ≤ p → p < 96 → (arfSeen s .cr0 slot).getLsbD p = s.cr02.getLsbD (p - 64)) :=
  ⟨fun hp => getLsbD_arfSeen_dword 0 p rfl rfl rfl (by decide) hp (by omega),
    fun hlo hhi => getLsbD_arfSeen_dword 1 (p - 32) rfl rfl rfl (by decide) (by omega) (by omega),
    fun hlo hhi => getLsbD_arfSeen_dword 2 (p - 64) rfl rfl rfl (by decide) (by omega) (by omega)
      (getLsbD_aipMask (by omega) (by omega))⟩

theorem getLsbD_arfSeen_n0 :
    (p < 16 → (arfSeen s .n0 slot).getLsbD p = s.n00.getLsbD p) ∧
    (p = 32 → (arfSeen s .n0 slot).getLsbD p = s.n01.getLsbD 0) ∧
    (64 ≤ p → p < 80 → (arfSeen s .n0 slot).getLsbD p = s.n02.getLsbD (p - 64)) := by
  refine ⟨fun hp => ?_, fun hp => ?_, fun hlo hhi => ?_⟩
  · rw [getLsbD_arfSeen_dword (x := s.n00.setWidth 32) (y := 0xFFFF) 0 p rfl rfl rfl (by decide) (by omega) (by omega)
      (getLsbD_wordMask hp), BitVec.getLsbD_setWidth]
    simp [show p < 32 by omega]
  · rw [getLsbD_arfSeen_dword (x := s.n01.setWidth 32) (y := 1) 1 0 rfl rfl rfl (by decide) (by decide) hp rfl,
      BitVec.getLsbD_setWidth]
    rfl
  · rw [getLsbD_arfSeen_dword (x := s.n02.setWidth 32) (y := 0xFFFF) 2 (p - 64) rfl rfl rfl (by decide) (by omega) (by omega)
      (getLsbD_wordMask (by omega)), BitVec.getLsbD_setWidth]
    simp [show p - 64 < 32 by omega]

end

/-! ## Elements -/

section
variable {s : State} {h : Header} {two : Bool} {k n : Nat} {r : RegSrc}

theorem srcRaw_of_not_arf (hloc : r.loc.isArf = false) :
    srcRaw s h two k r n = grfElem s.grf (srcAddr s h two r n).toNat r.ty.size := by
  unfold srcRaw
  cases hl : r.loc with
  | arf a sub => rw [hl] at hloc; exact absurd hloc (by simp [Loc.isArf])
  | grf num sub => rfl
  | ind sub imm => rfl

theorem accOperand_of_not_arf {l : Loc} (hloc : l.isArf = false) : accOperand l = none := by
  cases l with
  | arf a sub => exact absurd hloc (by simp [Loc.isArf])
  | grf num sub => rfl
  | ind sub imm => rfl

theorem accOperand_of_arf {a : Arf} {sub : BitVec 5} (ha0 : a ≠ .acc0) (ha1 : a ≠ .acc1) :
    accOperand (.arf a sub) = none := by
  cases a
  case acc0 => exact absurd rfl ha0
  case acc1 => exact absurd rfl ha1
  all_goals rfl

/-- An element has the low bits of its type's width. -/
def lowBits (ty : RegType) (x : DWord) : DWord := x &&& BitVec.ofNat 32 (2 ^ (8 * ty.size) - 1)

theorem getLsbD_lowBits (ty : RegType) (x : DWord) (i : Nat) :
    (lowBits ty x).getLsbD i = (decide (i < 8 * ty.size) && x.getLsbD i) := by
  rw [lowBits, BitVec.getLsbD_and, BitVec.getLsbD_ofNat, Nat.testBit_two_pow_sub_one]
  by_cases hi : i < 32
  · simp [hi, Bool.and_comm]
  · simp [hi, BitVec.getLsbD_of_ge x i (by omega)]

theorem srcRaw_of_arf {a : Arf} {sub : BitVec 5} (hloc : r.loc = .arf a sub) (ha : a ≠ .null) : srcRaw s h two k r n =
    lowBits r.ty ((arfSeen s a (.arf k n) >>> (8 * (sub.toNat + r.region.off r.ty.size n))).setWidth 32) := by
  have haddr : (srcAddr s h two r n).toNat = sub.toNat + r.region.off r.ty.size n := by
    rw [srcAddr, hloc]
    rfl
  unfold srcRaw
  rw [haddr, hloc]
  cases a
  case null => exact absurd rfl ha
  all_goals rfl

theorem srcRaw_of_null {sub : BitVec 5} (hloc : r.loc = .arf .null sub) :
    srcRaw s h two k r n = lowBits r.ty ((Config.free s.draw (.nullSrc k n)).setWidth 32) := by
  unfold srcRaw
  rw [hloc]
  rfl

/-- An element of an architecture register is what is seen of the register from its byte address on. -/
theorem getLsbD_srcRaw_arf {a : Arf} {sub : BitVec 5} (hloc : r.loc = .arf a sub) (ha : a ≠ .null) {i : Nat}
    (hi : i < 8 * r.ty.size) : (srcRaw s h two k r n).getLsbD i =
      (arfSeen s a (.arf k n)).getLsbD (8 * (sub.toNat + r.region.off r.ty.size n) + i) := by
  have hi32 : i < 32 := hi.trans_le (by cases r.ty <;> decide)
  rw [srcRaw_of_arf hloc ha, getLsbD_lowBits, BitVec.getLsbD_setWidth, BitVec.getLsbD_ushiftRight]
  simp [hi, hi32]

theorem getLsbD_srcRaw_above {a : Arf} {sub : BitVec 5} (hloc : r.loc = .arf a sub) {i : Nat}
    (hi : 8 * r.ty.size ≤ i) : (srcRaw s h two k r n).getLsbD i = false := by
  have hbits : ∃ x, srcRaw s h two k r n = lowBits r.ty x := by
    by_cases ha : a = .null
    · subst ha
      exact ⟨_, srcRaw_of_null hloc⟩
    · exact ⟨_, srcRaw_of_arf hloc ha⟩
  obtain ⟨x, hx⟩ := hbits
  rw [hx, getLsbD_lowBits]
  simp [hi.not_gt]

end

/-! ## Accumulator channels (10_state R64) -/

section
variable {s : State} {j : Nat}

theorem accGet_d {v : Vector (BitVec 64) 8} (hacc : s.acc.acc0 = .d v) (hj : j < 8) : accGet s .d j = v[j] := by
  rw [accGet, Acc.get_eq _ _ _ _ hj, hacc]
  simp [AccFmt.inAcc1, Acc0.view, Acc0.get, Vector.getD, hj]

theorem accGet_w {v : Vector (BitVec 33) 16} (hacc : s.acc.acc0 = .w v) (hj : j < 16) :
    accGet s .w j = v[j].signExtend 64 := by
  rw [accGet, Acc.get_eq _ _ _ _ hj, hacc]
  simp [AccFmt.inAcc1, Acc0.view, Acc0.get, Vector.getD, hj]

theorem accGet_f {v : Vector (BitVec 32) 8} (hacc : s.acc.acc0 = .f v) (hj : j < 8) :
    (accGet s .f j).setWidth 32 = v[j] := by
  rw [accGet, Acc.get_eq _ _ _ _ (hj.trans (by decide)), hacc]
  simp [AccFmt.inAcc1, Acc0.view, Acc0.get, Vector.getD, hj, hj.not_ge]

theorem accGet_acc1 (hj : j < 8) : (accGet s .f (8 + j)).setWidth 32 = s.acc.acc1[j] := by
  rw [accGet, Acc.get_eq _ _ _ _ (Nat.add_lt_add_left hj 8)]
  simp [AccFmt.inAcc1, Vector.getD, hj]

theorem accGet_df {v : Vector (BitVec 64) 4} (hacc : s.acc.acc0 = .df v) (hj : j < 4) : accGet s .df j = v[j] := by
  rw [accGet, Acc.get_eq _ _ _ _ hj, hacc]
  simp [AccFmt.inAcc1, Acc0.view, Acc0.get, Vector.getD, hj]

end

end Sys2Proof.Machine
end

section
/-! OBLIGATION O31: source elements (spec/40_common_execution.md R402, R427, R428; spec/20_memory.md R200; spec/10_state.md R57 to R85). -/

namespace Sys2Proof.Machine

/-- Settles O31: a general register by its bytes, an architecture register by its populated bits, an accumulator by its
channel. -/
theorem sourceElements : Obligations.SourceElements := by
  refine ⟨fun s h two k n r hloc => ?_, fun s h two k n r a sub hloc => ?_, fun s h two k n r base hloc =>
    ⟨fun v j hacc hty hj hj8 hb => ?_, fun v j hacc hty hj hj16 hb => ?_, fun v j hacc hmod hj hj8 hb => ?_,
      fun j hmod hj hj8 hb => ?_, fun v j hacc hb hmod hj hj4 => ?_⟩⟩
  · intro b dword
    have hacc := accOperand_of_not_arf hloc
    have hint := regInt_of_not_acc (s := s) (h := h) (two := two) (k := k) (n := n) hacc
    rw [srcRaw_of_not_arf hloc] at hint
    have hdword (hsize : r.ty.size = 4) (j : Nat) : srcRaw s h two k r j = dword j := by
      rw [srcRaw_of_not_arf hloc, hsize]
      exact grfElem_four _ _
    cases hty : r.ty <;> rw [hty] at hint hdword
    case ud => exact hint.trans (congrArg (fun x : DWord => (x.toNat : Int)) (grfElem_four _ _))
    case d => exact hint.trans (congrArg BitVec.toInt (grfElem_four _ _))
    case uw => exact hint.trans (congrArg (fun x : Word => (x.toNat : Int)) (grfElem_two _ _))
    case w => exact hint.trans (congrArg BitVec.toInt (grfElem_two _ _))
    case ub => exact hint.trans (congrArg (fun x : Byte => (x.toNat : Int)) (grfElem_one _ _))
    case b => exact hint.trans (congrArg BitVec.toInt (grfElem_one _ _))
    case f =>
      intro hmod
      rw [srcF_of_not_acc hacc, hmod, hdword rfl]
      rfl
    case df =>
      intro hmod
      rw [srcDF_of_not_acc hacc, hmod, hdword rfl, hdword rfl]
      rfl
  · intro e
    refine ⟨fun ha0 ha1 => ?_, fun i hi => getLsbD_srcRaw_above hloc hi, fun i hi => ?_⟩
    · have hacc : accOperand r.loc = none := hloc ▸ accOperand_of_arf ha0 ha1
      refine ⟨regInt_of_not_acc hacc, fun hmod => ?_⟩
      rw [srcF_of_not_acc hacc, hmod]
      rfl
    · intro p
      have hbit (ha : a ≠ .null) : e.getLsbD i = (arfSeen s a (.arf k n)).getLsbD p := getLsbD_srcRaw_arf hloc ha hi
      cases a
      case null | acc0 | acc1 => trivial
      all_goals rw [hbit (by decide)]
      case ip => exact getLsbD_arfSeen_ip
      case f0 => exact getLsbD_arfSeen_f0
      case f1 => exact getLsbD_arfSeen_f1
      case a0 => exact getLsbD_arfSeen_a0
      case sr0 => exact getLsbD_arfSeen_sr0
      case cr0 => exact getLsbD_arfSeen_cr0
      case n0 => exact getLsbD_arfSeen_n0
      case tdr0 =>
        intro j hp
        rw [getLsbD_arfSeen_tdr0 j hp]
        exact getLsbD_tdrWord s.tdr[j] (p % 16)
      case tm0 => exact getLsbD_arfSeen_tm0
  · have hfmt : accFmt r.ty = some .d := by rcases hty with h | h <;> rw [h] <;> rfl
    have hchan : base + r.region.accChan r.ty.size n = j := by
      rcases hty with h | h <;> rw [h, hb, hj, Nat.zero_add] <;> rfl
    rw [regInt_of_acc hloc hfmt, hchan, accGet_d hacc hj8]
  · have hfmt : accFmt r.ty = some .w := by rcases hty with h | h <;> rw [h] <;> rfl
    have hchan : base + r.region.accChan r.ty.size n = j := by
      rcases hty with h | h <;> rw [h, hb, hj, Nat.zero_add] <;> rfl
    rw [regInt_of_acc hloc hfmt, hchan, accGet_w hacc hj16, BitVec.toInt_signExtend_of_le (by decide)]
  · have hchan : base + r.region.accChan 4 n = j := by rw [hb, hj, Nat.zero_add]; rfl
    rw [srcF_of_acc hloc, hchan, accGet_f hacc hj8, hmod]
    rfl
  · have hchan : base + r.region.accChan 4 n = 8 + j := by rw [hb, hj]; rfl
    rw [srcF_of_acc hloc, hchan, accGet_acc1 hj8, hmod]
    rfl
  · have hchan : r.region.accPairChan n = j := hj.symm
    rw [srcDF_of_acc hloc, hchan, accGet_df hacc hj4, hmod]
    rfl

end Sys2Proof.Machine
end

section
/-! OBLIGATIONS O41 and O42: the logic instructions and the shifts (spec/41_move_logic.md R603 to R609). -/

namespace Sys2Proof.Machine

/-- The checks that stand last in a list. -/
theorem allowed_of_append {l m : List Check} (ha : Allowed (l ++ m)) : Allowed m := ((allowed_append l m).1 ha).2

/-! ## Logic (R603 to R606) -/

theorem logicOut_value (s : State) (b : Basic2) (f : QWord → QWord → QWord) (n : Nat) :
    IntValue s b.hdr b.cmod b.dst.ty (accWidth b) (f (BitVec.ofInt 64 (int0 s b n)) (BitVec.ofInt 64 (int1 s b n))).toInt n
      (logicOut s b f n).bits (logicOut s b f n).flag (logicOut s b f n).acc (logicOut s b f n).wide :=
  intOut_value s b.hdr b.cmod b.dst.ty (accWidth b) _ n

/-- A two-source instruction that applies a bitwise operation to its sources. -/
theorem logic_intStep {s : State} {b : Basic2} {i : Instr} {f : QWord → QWord → QWord} (hs : StaysIn s b.dst)
    (ha : Allowed (logicChecks s b.hdr b.cmod b.dst b.srcs))
    (hexec : exec i s = execute s (firstViolation (logicChecks s b.hdr b.cmod b.dst b.srcs))
      (effect s b.hdr b.cmod b.dst b.srcs (logicOut s b f))) :
    IntStep s i b (accWidth b) fun n => (f (BitVec.ofInt 64 (int0 s b n)) (BitVec.ofInt 64 (int1 s b n))).toInt :=
  dataStep_of_checks hexec ha (allowed_of_append ha) hs fun n _ _ => logicOut_value s b f n

/-- Settles O41: the exact integer of each channel is the operation on the sources in two's complement. -/
theorem logicInstructions : Obligations.LogicInstructions := by
  refine ⟨fun s b hs ha => ?_, fun s b i f hs ha hi => ?_⟩
  · exact dataStep_of_checks rfl ha (allowed_of_append ha) hs fun n _ _ => intOut_value s b.hdr b.cmod b.dst.ty _ _ n
  · rcases hi with ⟨rfl, hf⟩ | ⟨rfl, hf⟩ | ⟨rfl, hf⟩
    · exact logic_intStep hs ha (funext₂ hf ▸ rfl)
    · exact logic_intStep hs ha (funext₂ hf ▸ rfl)
    · exact logic_intStep hs ha (funext₂ hf ▸ rfl)

/-! ## Shifts (R607 to R609) -/

theorem int2_value (s : State) (b : Basic2) (f : Int → Int → Int) (n : Nat) :
    IntValue s b.hdr b.cmod b.dst.ty (accWidth b) (f (int0 s b n) (int1 s b n)) n
      (int2 s b f n).bits (int2 s b f n).flag (int2 s b f n).acc (int2 s b f n).wide :=
  intOut_value s b.hdr b.cmod b.dst.ty (accWidth b) _ n

/-- A shift to the left whose saturation is not that of packed DWords is exact within 33 bits (U23). -/
theorem shlOut_value {s : State} {b : Basic2} (hpacked : ¬ (b.hdr.sat = true ∧ packedDWords b = true)) (n : Nat) :
    IntValue s b.hdr b.cmod b.dst.ty 33 (shiftLeft (int0 s b n) (int1 s b n)) n
      (shlOut s b n).bits (shlOut s b n).flag (shlOut s b n).acc (shlOut s b n).wide := by
  have hout : shlOut s b n = intOut s b.hdr b.cmod b.dst.ty 33 (shiftLeft (int0 s b n) (int1 s b n)) n :=
    if_neg (by simpa using hpacked)
  rw [hout]
  exact intOut_value s b.hdr b.cmod b.dst.ty 33 _ n

/-- Settles O42: each shift is the exact integer that its rule names, of the low five bits of src1. -/
theorem shifts : Obligations.Shifts := by
  intro s b hs count
  refine ⟨fun ha hpacked => ?_, fun ha => ?_, fun ha => ?_, fun ha => ?_⟩
  · exact dataStep_of_checks rfl ha (allowed_of_append (allowed_of_append ha)) hs fun n _ _ => shlOut_value hpacked n
  · exact dataStep_of_checks rfl ha (allowed_of_append (allowed_of_append ha)) hs fun _ _ _ => trivial
  · exact dataStep_of_checks rfl ha (allowed_of_append ha) hs fun n _ _ =>
      int2_value s b (shiftRightLogical (shiftWidth b)) n
  · exact dataStep_of_checks rfl ha (allowed_of_append ha) hs fun n _ _ =>
      int2_value s b (shiftRightArith b.src0.ty.isSigned (shiftWidth b)) n

end Sys2Proof.Machine
end

section
/-! SUPPORT. Floats as numbers: truncation to an integer, the order of two floats, denormals by the exponent field of a pattern (spec/40_common_execution.md R403, R432, R462, R482, R485). -/

namespace Sys2Proof.Machine

/-! ## Numbers with a signed significand -/

theorem toRat_fin_signedM (neg : Bool) (m : Nat) (e : Int) : (FVal.fin neg m e).toRat = signedM neg m * pow2 e := by
  cases neg <;> simp [FVal.toRat, signedM]

/-- The exact sum is the sum of the numbers. -/
theorem addExact_value (m₁ e₁ m₂ e₂ : Int) :
    ((addExact m₁ e₁ m₂ e₂).1 : Rat) * pow2 (addExact m₁ e₁ m₂ e₂).2 = m₁ * pow2 e₁ + m₂ * pow2 e₂ := by
  unfold addExact
  split
  next hle =>
    rw [mul_pow2_of_le m₂ hle]
    push_cast
    ring
  next hgt =>
    rw [mul_pow2_of_le m₁ (not_le.1 hgt).le]
    push_cast
    ring

/-! ## Truncation (R432) -/

/-- The magnitude of a finite number without its fraction. -/
def truncMag (m : Nat) (e : Int) : Nat := if 0 ≤ e then m * 2 ^ e.toNat else m / 2 ^ (-e).toNat

theorem floor_mul_pow2 (m : Nat) (e : Int) : ((m : Rat) * pow2 e).floor = truncMag m e := by
  unfold truncMag pow2
  split
  · rw [← Nat.cast_mul]
    exact Rat.floor_intCast _
  · rw [mul_one_div]
    exact (Rat.floor_natCast_div_natCast m _).trans (Int.natCast_ediv m _).symm

theorem truncRat_fin (neg : Bool) (m : Nat) (e : Int) :
    truncRat (FVal.fin neg m e).toRat = signedM neg (truncMag m e) := by
  have hnonneg : 0 ≤ (m : Rat) * pow2 e := mul_nonneg (Nat.cast_nonneg m) (pow2_pos e).le
  cases neg
  · exact (if_pos hnonneg).trans (floor_mul_pow2 m e)
  · change (if 0 ≤ -((m : Rat) * pow2 e) then (-((m : Rat) * pow2 e)).floor else -(- -((m : Rat) * pow2 e)).floor) =
      -(truncMag m e : Int)
    rw [neg_neg, ← floor_mul_pow2]
    split
    next hneg =>
      rw [le_antisymm (neg_nonneg.1 hneg) hnonneg]
      rfl
    · rfl

/-- An infinity stands above every integer of a type. -/
theorem clampInt_truncRat_inf (ty : RegType) (neg : Bool) :
    clampInt ty (truncRat (FVal.inf neg).toRat) = if neg then ty.lo else ty.hi := by
  have hpow : pow2 128 = ((2 ^ 128 : Int) : Rat) := by simp [pow2]
  have htrunc : truncRat (FVal.inf neg).toRat = if neg then -2 ^ 128 else 2 ^ 128 := by
    unfold FVal.toRat truncRat
    cases neg
    · rw [hpow]
      decide
    · rw [hpow]
      decide
  rw [htrunc]
  cases ty <;> cases neg <;> rfl

/-- The conversion to an integer truncates the number and clamps it; a NaN gives 0. -/
theorem floatToInt_eq (ty : RegType) (v : FVal) :
    (floatToInt ty.lo ty.hi v).1 = if v.isNan then 0 else clampInt ty (truncRat v.toRat) := by
  cases v with
  | nan => rfl
  | inf neg => exact (clampInt_truncRat_inf ty neg).symm
  | fin neg m e =>
    rw [if_neg (by simp [FVal.isNan]), truncRat_fin]
    change (if signedM neg (truncMag m e) < ty.lo then _
      else if ty.hi < signedM neg (truncMag m e) then _ else _ : Int × Bool).1 = _
    unfold clampInt
    split
    · rfl
    · split <;> rfl

/-! ## Denormals (R403, R482) -/

theorem isDenorm_of_lt (f : FFmt) {m : Nat} (hm : m < 2 ^ f.frac) : f.isDenorm m f.emin = true := by
  simp only [FFmt.isDenorm, addExact, le_refl, if_true, sub_self, decide_eq_true_eq]
  have : (m : Int) < 2 ^ f.frac := by exact_mod_cast hm
  simpa using this

theorem isDenorm_of_le (f : FFmt) {m : Nat} (k : Nat) (hm : 2 ^ f.frac ≤ m) : f.isDenorm m (f.emin + k) = false := by
  have hvalue := addExact_value m (f.emin + k) (-(2 ^ f.frac)) f.emin
  have hle : (2 : Rat) ^ f.frac ≤ m := by exact_mod_cast hm
  have hpow : pow2 f.emin ≤ pow2 (f.emin + k) := pow2_le_pow2 (by omega)
  have hnonneg : 0 ≤ (m : Rat) * pow2 (f.emin + k) + ((-(2 ^ f.frac) : Int) : Rat) * pow2 f.emin := by
    have hscaled : 2 ^ f.frac * pow2 f.emin ≤ (m : Rat) * pow2 (f.emin + k) :=
      mul_le_mul hle hpow (pow2_pos _).le (Nat.cast_nonneg m)
    push_cast
    linarith
  rw [FFmt.isDenorm, decide_eq_false_iff_not, not_lt]
  rw [Int.cast_natCast] at hvalue
  rw [← hvalue] at hnonneg
  exact_mod_cast nonneg_of_mul_nonneg_left hnonneg (pow2_pos _)

/-- A pattern by its exponent field: all ones, zero, or the biased exponent of a normal number. -/
theorem ofBits_of_exponent (f : FFmt) (hexp : 1 ≤ f.expBits) (p : Nat) :
    (p / 2 ^ f.frac % 2 ^ f.expBits = 0 ∧ ∃ neg m, m < 2 ^ f.frac ∧ FVal.ofBits f p = .fin neg m f.emin) ∨
    (∃ neg m k, 2 ^ f.frac ≤ m ∧ m < 2 * 2 ^ f.frac ∧ k + 2 < 2 ^ f.expBits ∧ p / 2 ^ f.frac % 2 ^ f.expBits = k + 1 ∧
      FVal.ofBits f p = .fin neg m (f.emin + k)) ∨
    (p / 2 ^ f.frac % 2 ^ f.expBits ≠ 0 ∧ (FVal.ofBits f p).isSpecial = true) := by
  have hpow : 2 ≤ 2 ^ f.expBits := Nat.pow_le_pow_right (n := 2) (by decide) hexp
  have hfrac : p % 2 ^ f.frac < 2 ^ f.frac := Nat.mod_lt _ (by positivity)
  have hex : p / 2 ^ f.frac % 2 ^ f.expBits < 2 ^ f.expBits := Nat.mod_lt _ (by positivity)
  unfold FVal.ofBits
  generalize p / 2 ^ f.frac % 2 ^ f.expBits = ex at hex
  generalize p % 2 ^ f.frac = fr at hfrac
  dsimp only
  split
  next hones =>
    refine .inr (.inr ⟨by omega, ?_⟩)
    split <;> rfl
  split
  next hzero => exact .inl ⟨hzero, _, fr, hfrac, rfl⟩
  next hnotOnes hnormal =>
    obtain ⟨k, rfl⟩ := Nat.exists_eq_succ_of_ne_zero hnormal
    have hbias : f.emin + (((k + 1 : Nat) : Int) - 1) = f.emin + k := by omega
    exact .inr (.inl ⟨_, 2 ^ f.frac + fr, k, by omega, by omega, by omega, rfl, congrArg _ hbias⟩)

/-- Where denormals are flushed, a pattern is a zero if and only if its exponent field is 0. -/
theorem isZero_flushIn_ofBits (md : FMode) (hflush : md.flush = true) (hexp : 1 ≤ md.fmt.expBits) (p : Nat) :
    ((FVal.ofBits md.fmt p).flushIn md).isZero = true ↔ p / 2 ^ md.fmt.frac % 2 ^ md.fmt.expBits = 0 := by
  rcases ofBits_of_exponent md.fmt hexp p with ⟨hzero, neg, m, hm, hval⟩ | ⟨neg, m, k, hm, _, _, hnormal, hval⟩ | ⟨hones, hval⟩
  · simp [hval, FVal.flushIn, hflush, isDenorm_of_lt md.fmt hm, FVal.isZero, hzero]
  · have hpos : 0 < 2 ^ md.fmt.frac := by positivity
    simp [hval, FVal.flushIn, isDenorm_of_le md.fmt k hm, FVal.isZero, hnormal, show m ≠ 0 by omega]
  · refine iff_of_false ?_ hones
    cases hv : FVal.ofBits md.fmt p with
    | fin neg m e => rw [hv] at hval; exact absurd hval (by simp [FVal.isSpecial])
    | nan | inf => simp [FVal.flushIn, FVal.isZero]

/-- The signals of a number are those of what the flush makes of it. -/
theorem floatSignals_flushIn (md : FMode) (v : FVal) (ov : Bool) :
    floatSignals md (v.flushIn md) ov = floatSignals md v ov := by
  cases v with
  | nan | inf => rfl
  | fin neg m e =>
    by_cases hden : (md.flush && md.fmt.isDenorm m e) = true
    · have hflushed : (FVal.fin neg m e).flushIn md = .fin neg 0 md.fmt.emin := if_pos hden
      have htwice : ((FVal.fin neg 0 md.fmt.emin).flushIn md).isZero = true := by
        unfold FVal.flushIn
        dsimp only
        split <;> rfl
      rw [floatSignals, floatSignals, hflushed, htwice]
      rfl
    · rw [show (FVal.fin neg m e).flushIn md = .fin neg m e from if_neg hden]

/-! ## The order of two floats (R462, R485) -/

theorem compareCond_eq_relates (c : CondMod) {r : Int} {x y : Rat} (hlt : r < 0 ↔ x < y) (heq : r = 0 ↔ x = y) :
    compareCond c (some r) = relates c x y := by
  rcases lt_trichotomy x y with h | h | h
  · have hr : r < 0 := hlt.2 h
    cases c <;> simp [compareCond, condition, relates, h, h.le, h.ne, h.not_ge, h.not_gt, hr, hr.ne]
  · have hr : r = 0 := heq.2 h
    cases c <;> simp [compareCond, condition, relates, h, hr]
  · have hr : ¬ r < 0 := mt hlt.1 h.not_gt
    have hne : r ≠ 0 := mt heq.1 h.ne'
    cases c <;> simp [compareCond, condition, relates, h, h.le, h.ne', h.not_ge, h.not_gt, hr, hne]

theorem compareCond_int (c : CondMod) (x y : Int) : compareCond c (some (x - y).sign) = relates c x y :=
  compareCond_eq_relates c (by rw [Int.sign_neg_iff, Int.cast_lt]; omega) (by rw [Int.sign_eq_zero_iff_zero, Int.cast_inj]; omega)

theorem fcompare_eq_none_iff (x y : FVal) : fcompare x y = none ↔ (x.isNan || y.isNan) = true := by
  cases x <;> cases y <;> simp [fcompare, FVal.isNan]

/-- A number of the format F: its finite values lie between the infinities. -/
def FVal.InF (v : FVal) : Prop := ∀ neg m e, v = .fin neg m e → m * pow2 e < pow2 128

theorem inF_ofBits (p : Nat) : (FVal.ofBits fmtF p).InF := by
  intro neg m e hval
  have hbound {m : Nat} {e : Int} (hm : m < 2 * 2 ^ 23) (he : e ≤ 104) : (m : Rat) * pow2 e < pow2 128 := by
    calc (m : Rat) * pow2 e < 2 * 2 ^ 23 * pow2 e := mul_lt_mul_of_pos_right (by exact_mod_cast hm) (pow2_pos e)
      _ ≤ 2 * 2 ^ 23 * pow2 104 := mul_le_mul_of_nonneg_left (pow2_le_pow2 he) (by norm_num)
      _ = pow2 128 := by rw [show (128 : Int) = ((24 : Nat) : Int) + 104 by norm_num, pow2_add, pow2_natCast]; norm_num
  have hemin : fmtF.emin = -149 := by decide
  rcases ofBits_of_exponent fmtF (by decide) p with ⟨_, neg', m', hm, hfin⟩ | ⟨neg', m', k, _, hm, hk, _, hfin⟩ | ⟨_, hspecial⟩
  · obtain ⟨_, rfl, rfl⟩ := FVal.fin.inj (hval.symm.trans hfin)
    exact hbound (hm.trans (by decide)) (by omega)
  · obtain ⟨_, rfl, rfl⟩ := FVal.fin.inj (hval.symm.trans hfin)
    exact hbound hm (by change k + 2 < 2 ^ 8 at hk; omega)
  · rw [hval] at hspecial
    exact absurd hspecial (by simp [FVal.isSpecial])

theorem inF_flushIn {v : FVal} (hv : v.InF) (md : FMode) : (v.flushIn md).InF := by
  cases v with
  | nan | inf => exact hv
  | fin neg m e =>
    unfold FVal.flushIn
    dsimp only
    split
    · intro _ _ _ hzero
      obtain ⟨_, rfl, rfl⟩ := FVal.fin.inj hzero
      simpa using pow2_pos 128
    · exact hv

theorem abs_toRat_lt {neg : Bool} {m : Nat} {e : Int} (hv : (FVal.fin neg m e).InF) :
    -pow2 128 < (FVal.fin neg m e).toRat ∧ (FVal.fin neg m e).toRat < pow2 128 := by
  have hlt := hv neg m e rfl
  have hnonneg : 0 ≤ (m : Rat) * pow2 e := mul_nonneg (Nat.cast_nonneg m) (pow2_pos e).le
  have hpos := pow2_pos 128
  cases neg
  · exact ⟨by change _ < (m : Rat) * pow2 e; linarith, hlt⟩
  · exact ⟨neg_lt_neg hlt, by change -((m : Rat) * pow2 e) < _; linarith⟩

theorem cmpFin_order (s t : Bool) (m n : Nat) (e f : Int) :
    (cmpFin s m e t n f < 0 ↔ (FVal.fin s m e).toRat < (FVal.fin t n f).toRat) ∧
    (cmpFin s m e t n f = 0 ↔ (FVal.fin s m e).toRat = (FVal.fin t n f).toRat) := by
  have hvalue := addExact_value (signedM s m) e (-(signedM t n)) f
  have hdiff : ((addExact (signedM s m) e (-(signedM t n)) f).1 : Rat) * pow2 (addExact (signedM s m) e (-(signedM t n)) f).2 =
      (FVal.fin s m e).toRat - (FVal.fin t n f).toRat := by
    rw [hvalue, toRat_fin_signedM, toRat_fin_signedM]
    push_cast
    ring
  have hpos := pow2_pos (addExact (signedM s m) e (-(signedM t n)) f).2
  unfold cmpFin
  constructor
  · rw [Int.sign_neg_iff, ← sub_neg (a := FVal.toRat _), ← hdiff, ← neg_pos (a := _ * pow2 _), ← neg_mul,
      mul_pos_iff_of_pos_right hpos, neg_pos, Int.cast_lt_zero]
  · rw [Int.sign_eq_zero_iff_zero, ← sub_eq_zero (a := FVal.toRat _), ← hdiff, mul_eq_zero_iff_right hpos.ne',
      Int.cast_eq_zero]

/-- The order of two F values that are no NaN is that of their numbers, an infinity being beyond the finite ones. -/
theorem fcompare_order {x y : FVal} (hx : x.InF) (hy : y.InF) (hnx : x.isNan = false) (hny : y.isNan = false) :
    ∃ r, fcompare x y = some r ∧ (r < 0 ↔ x.toRat < y.toRat) ∧ (r = 0 ↔ x.toRat = y.toRat) := by
  have hpos := pow2_pos 128
  have hless : -pow2 128 < pow2 128 := by linarith
  have hinf : ∀ neg, (FVal.inf neg).toRat = if neg then -pow2 128 else pow2 128 := fun _ => rfl
  cases x with
  | nan => exact absurd hnx (by simp [FVal.isNan])
  | inf s =>
    cases y with
    | nan => exact absurd hny (by simp [FVal.isNan])
    | inf t =>
      refine ⟨_, rfl, ?_⟩
      cases s <;> cases t <;> simp [hinf, hpos.le, hless, hless.ne, hless.ne']
    | fin t n f =>
      have hbound := abs_toRat_lt hy
      refine ⟨_, rfl, ?_⟩
      cases s <;> simp [hinf, hbound, hbound.1.ne, hbound.2.ne', hbound.2.le]
  | fin s m e =>
    have hbound := abs_toRat_lt hx
    cases y with
    | nan => exact absurd hny (by simp [FVal.isNan])
    | inf t =>
      refine ⟨_, rfl, ?_⟩
      cases t <;> simp [hinf, hbound, hbound.1.ne', hbound.2.ne, hbound.1.le]
    | fin t n f => exact ⟨_, rfl, cmpFin_order s t m n e f⟩

end Sys2Proof.Machine
end

section
/-! SUPPORT. Float results as patterns: a result in each destination type, and a copied pattern (spec/40_common_execution.md R428, R432, R435, R436, R450, R460). -/

namespace Sys2Proof.Machine

section
variable {s : State} {h : Header} {cm : CondMod} {ty : RegType} {n : Nat}

/-- A float as an instruction with or without `.sat` leaves it (40 R450). -/
def saturated (f : FFmt) (sat : Bool) (v : FVal) : FVal := if sat then fsat f v else v

theorem saturated_of_sat {sat : Bool} (hsat : sat = true) (f : FFmt) (v : FVal) : saturated f sat v = fsat f v := if_pos hsat

/-- The pattern of an F or DF number, saturated or not, holds it. -/
theorem holdsFloat_floatBitsF (n : Nat) (sat : Bool) (v : FVal) : HoldsFloat fmtF (saturated fmtF sat v)
    (BitVec.ofNat 32 (floatBits (modeF s) (nanBitsFor s fmtF n) sat v)) :=
  have ⟨hnan, hlt⟩ := nanPattern_isNan_F (Config.free s.draw (.nan n)).toNat
  holdsFloat_toBits fmtF _ _ hnan hlt

theorem holdsFloat_floatBitsDF (n : Nat) (sat : Bool) (v : FVal) : HoldsFloat fmtDF (saturated fmtDF sat v)
    (BitVec.ofNat 64 (floatBits (modeDF s) (nanBitsFor s fmtDF n) sat v)) :=
  have ⟨hnan, hlt⟩ := nanPattern_isNan_DF (Config.free s.draw (.nan n)).toNat
  holdsFloat_toBits fmtDF _ _ hnan hlt

/-- A float as an integer of a type. -/
def intOfFloat (ty : RegType) (v : FVal) : QWord :=
  BitVec.ofInt 64 (if v.isNan then 0 else clampInt ty (truncRat v.toRat))

theorem setWidth_ofInt (v : Int) : (BitVec.ofInt 64 v).setWidth 32 = BitVec.ofInt 32 v := by
  apply BitVec.eq_of_toNat_eq
  rw [BitVec.toNat_setWidth, BitVec.toNat_ofInt, BitVec.toNat_ofInt]
  omega

theorem ofInt_floatToInt (ty : RegType) (v : FVal) :
    BitVec.ofInt 32 (floatToInt ty.lo ty.hi v).1 = (intOfFloat ty v).setWidth 32 ∧
      BitVec.ofInt 64 (floatToInt ty.lo ty.hi v).1 = intOfFloat ty v := by
  rw [floatToInt_eq, ← setWidth_ofInt]
  exact ⟨rfl, rfl⟩

theorem fOut_of_isInt (hint : ty.isInt = true) (r : FRes) :
    (fOut s h cm ty r n).bits = (intOfFloat ty r.val).setWidth 32 ∧ (fOut s h cm ty r n).wide = intOfFloat ty r.val := by
  cases ty
  case f | df => exact absurd hint (by decide)
  all_goals exact ofInt_floatToInt _ r.val

/-- The even channel of a pair takes the integer. -/
theorem dfOut_of_isInt (hint : ty.isInt = true) (heven : n % 2 = 0) (r : FRes) :
    (dfOut s h cm ty r n).bits = (intOfFloat ty r.val).setWidth 32 ∧ (dfOut s h cm ty r n).wide = intOfFloat ty r.val := by
  cases ty
  case f | df => exact absurd hint (by decide)
  all_goals exact (ofInt_floatToInt _ r.val).imp (if_pos heven).trans (if_pos heven).trans

/-- The even channel of a pair takes the F number. -/
theorem dfOut_f (heven : n % 2 = 0) (r : FRes) :
    HoldsFloat fmtF (saturated fmtF h.sat (fconvert fmtF .rz r.val).val) (dfOut s h cm .f r n).bits ∧
      (dfOut s h cm .f r n).wide = (dfOut s h cm .f r n).bits.setWidth 64 := by
  simp only [dfOut, if_pos heven, and_true]
  exact holdsFloat_floatBitsF _ _ _

end

end Sys2Proof.Machine
end

section
/-! OBLIGATIONS O43 and O44: `mov` of integers and of floats (spec/41_move_logic.md R600; spec/40_common_execution.md R428, R432 to R436). -/

namespace Sys2Proof.Machine

/-- The channel whose source a move of channel n takes: of a pair with a DF destination the even one (log 29). -/
def movChannel (b : Basic1) (n : Nat) : Nat := if b.dst.ty = .df then 2 * (n / 2) else n

section
variable {s : State} {b : Basic1} {n : Nat}

theorem pairBase_eq_movChannel : pairBase (b.dst.ty = .df) n = movChannel b n := by
  simp [pairBase, movChannel]

theorem movChannel_of_ne (hdst : b.dst.ty ≠ .df) : movChannel b n = n := if_neg hdst

/-! ## Integers (R600, 40 R433, R434) -/

theorem movOut_of_isInt (hint : b.src0.regType.isInt = true) : movOut s b n =
    intOut s b.hdr b.cmod b.dst.ty (execTy [b.src0.regType]).accBits (intS s b (movChannel b n)) n := by
  rw [← pairBase_eq_movChannel]
  unfold movOut
  split
  next hf => rw [hf] at hint; exact absurd hint (by decide)
  next hdf => rw [hdf] at hint; exact absurd hint (by decide)
  next => rfl

/-- Settles O43: the exact integer, from the even channel of a pair where the destination is DF. -/
theorem movOfInteger : Obligations.MovOfInteger := by
  intro s b hs ha hint
  refine dataStep_of_checks rfl ha (allowed_of_append ha) hs fun n _ _ => ?_
  rw [movOut_of_isInt hint]
  exact intOut_value s b.hdr b.cmod b.dst.ty _ _ n

/-! ## Floats (R600, 40 R432, R435, R436) -/

/-- A raw move has one type, no modifier and no saturation. -/
theorem ty_of_isRawMov (hraw : isRawMov b = true) : b.src0.regType = b.dst.ty := by
  unfold isRawMov at hraw
  simp only [Bool.and_eq_true, decide_eq_true_eq] at hraw
  exact hraw.1.1

/-- A move that is not raw keeps denormals or flushes them (log 26). -/
theorem movedFloat_cases (s : State) (md : FMode) (n : Nat) (v : FVal) :
    movedFloat s md n v = v ∨ movedFloat s md n v = v.flushIn md := by
  unfold movedFloat
  split
  · exact .inr rfl
  · exact .inl rfl

theorem floatSignals_movedFloat (s : State) (md : FMode) (n : Nat) (v : FVal) (ov : Bool) :
    floatSignals md (movedFloat s md n v) ov = floatSignals md v ov := by
  rcases movedFloat_cases s md n v with h | h <;> rw [h]
  exact floatSignals_flushIn md v ov

/-- The pattern and the F number of channel n of the source. -/
def movBitsF (s : State) (b : Basic1) (n : Nat) : DWord := srcF s b.hdr (dstTwoRegs s b.hdr b.dst) 0 b.src0 n
def movF (s : State) (b : Basic1) (n : Nat) : FVal := FVal.ofBits fmtF (movBitsF s b n).toNat

/-- The pattern and the DF number of channel n's pair of the source. -/
def movBitsDF (s : State) (b : Basic1) (n : Nat) : QWord := srcDF s b.hdr (dstTwoRegs s b.hdr b.dst) 0 b.src0 n
def movDF (s : State) (b : Basic1) (n : Nat) : FVal := FVal.ofBits fmtDF (movBitsDF s b n).toNat

/-- A move of an F: raw, modified, or converted. -/
theorem movOut_f (hf : b.src0.regType = .f) (hdef : altUndefined s [movF s b (movChannel b n)] = false) : movOut s b n =
    if isRawMov b then copyF s b.cmod (movBitsF s b (movChannel b n))
    else if b.dst.ty = .f then
      fOut s b.hdr b.cmod .f (exactRes (movedFloat s (modeF s) n (movF s b (movChannel b n)))) n
    else fOut s b.hdr b.cmod b.dst.ty (exactRes (movF s b (movChannel b n))) n := by
  rw [← pairBase_eq_movChannel] at hdef ⊢
  simp only [movOut, hf]
  exact if_neg (Bool.eq_false_iff.1 hdef)

/-- A move of a DF: raw, modified, or converted. -/
theorem movOut_df (hdf : b.src0.regType = .df) : movOut s b n =
    if isRawMov b then copyDF s b.cmod (movBitsDF s b n) n
    else if b.dst.ty = .df then
      dfOut s b.hdr b.cmod .df (exactRes (movedFloat s (modeDF s) (2 * (n / 2)) (movDF s b n))) n
    else dfOut s b.hdr b.cmod b.dst.ty (exactRes (movDF s b n)) n := by
  simp only [movOut, hdf]
  rfl

/-- A move of an F to an F: raw the pattern, otherwise the number with its denormals kept or flushed. -/
theorem movOut_f_to_f (hf : b.src0.regType = .f) (hdst : b.dst.ty = .f) (hdef : altUndefined s [movF s b n] = false) :
    (isRawMov b = true → (movOut s b n).bits = movBitsF s b n) ∧
    ((movOut s b n).wide = (movOut s b n).bits.setWidth 64 ∧
      (movOut s b n).flag = condition b.cmod (floatSignals (modeF s) (movF s b n) false)) ∧
    (isRawMov b = false → HoldsFloat fmtF (saturated fmtF b.hdr.sat (movF s b n)) (movOut s b n).bits ∨
      HoldsFloat fmtF (saturated fmtF b.hdr.sat ((movF s b n).flushIn (modeF s))) (movOut s b n).bits) := by
  have hchan : movChannel b n = n := movChannel_of_ne (by rw [hdst]; decide)
  have hout := movOut_f hf (hchan.symm ▸ hdef)
  rw [hchan] at hout
  by_cases hraw : isRawMov b = true
  · rw [if_pos hraw] at hout
    rw [hout]
    exact ⟨fun _ => rfl, ⟨rfl, rfl⟩, fun h => absurd (h.symm.trans hraw) (by decide)⟩
  · rw [if_neg hraw, if_pos hdst] at hout
    rw [hout]
    refine ⟨fun h => absurd h hraw, ⟨rfl, congrArg (condition b.cmod) (floatSignals_movedFloat s _ n _ false)⟩, fun _ => ?_⟩
    have hholds := holdsFloat_floatBitsF (s := s) n b.hdr.sat (movedFloat s (modeF s) n (movF s b n))
    exact (movedFloat_cases s (modeF s) n (movF s b n)).imp (fun h => by rwa [h] at hholds ⊢) fun h => by rwa [h] at hholds ⊢

/-- A move of a DF to a DF: raw the pattern, otherwise the number with its denormals kept or flushed. -/
theorem movOut_df_to_df (hdf : b.src0.regType = .df) (hdst : b.dst.ty = .df) :
    (isRawMov b = true → (movOut s b n).wide = movBitsDF s b n) ∧
    (movOut s b n).bits = halfOf (movOut s b n).wide n ∧
    (movOut s b n).flag = condition b.cmod (floatSignals (modeDF s) (movDF s b n) false) ∧
    (isRawMov b = false → HoldsFloat fmtDF (saturated fmtDF b.hdr.sat (movDF s b n)) (movOut s b n).wide ∨
      HoldsFloat fmtDF (saturated fmtDF b.hdr.sat ((movDF s b n).flushIn (modeDF s))) (movOut s b n).wide) := by
  rw [movOut_df hdf]
  by_cases hraw : isRawMov b = true
  · rw [if_pos hraw]
    exact ⟨fun _ => rfl, rfl, rfl, fun h => absurd (h.symm.trans hraw) (by decide)⟩
  · rw [if_neg hraw, if_pos hdst]
    refine ⟨fun h => absurd h hraw, rfl, congrArg (condition b.cmod) (floatSignals_movedFloat s _ _ _ false), fun _ => ?_⟩
    have hholds := holdsFloat_floatBitsDF (s := s) (2 * (n / 2)) b.hdr.sat
      (movedFloat s (modeDF s) (2 * (n / 2)) (movDF s b n))
    exact (movedFloat_cases s (modeDF s) (2 * (n / 2)) (movDF s b n)).imp (fun h => by rwa [h] at hholds ⊢)
      fun h => by rwa [h] at hholds ⊢

/-- A move of an F to another type is not raw. -/
theorem movOut_f_to_other (hf : b.src0.regType = .f) (hdst : b.dst.ty ≠ .f)
    (hdef : altUndefined s [movF s b (movChannel b n)] = false) :
    isRawMov b = false ∧ movOut s b n = fOut s b.hdr b.cmod b.dst.ty (exactRes (movF s b (movChannel b n))) n := by
  have hraw : ¬ isRawMov b = true := fun h => hdst ((ty_of_isRawMov h).symm.trans hf)
  refine ⟨Bool.eq_false_iff.2 hraw, ?_⟩
  rw [movOut_f hf hdef, if_neg hraw, if_neg hdst]

/-- A move of a DF to another type is not raw. -/
theorem movOut_df_to_other (hdf : b.src0.regType = .df) (hdst : b.dst.ty ≠ .df) :
    isRawMov b = false ∧ movOut s b n = dfOut s b.hdr b.cmod b.dst.ty (exactRes (movDF s b n)) n := by
  have hraw : ¬ isRawMov b = true := fun h => hdst ((ty_of_isRawMov h).symm.trans hdf)
  refine ⟨Bool.eq_false_iff.2 hraw, ?_⟩
  rw [movOut_df hdf, if_neg hraw, if_neg hdst]

end

/-- A conditional modifier with a type change is refused (R600). -/
theorem mov_refused {s : State} {b : Basic1} (hcm : b.cmod ≠ .none) (hty : b.src0.regType ≠ b.dst.ty) :
    ∃ r, exec (.mov b) s = .refused r := by
  obtain ⟨r, hr⟩ := violated (l := movChecks s b) (c := (b.cmod != .none && b.src0.regType != b.dst.ty, .condModifier))
    (by simp [movChecks]) (by simp [hcm, hty])
  exact ⟨_, execute_refused s _ _ r hr⟩

/-- Settles O44: by the source type, then by the destination's: the same, the other float type, or an integer. -/
theorem movOfFloat : Obligations.MovOfFloat := by
  refine ⟨fun s b => mov_refused, fun s b hs ha => ?_⟩
  intro two pF xF pD xD toInt satTo
  refine ⟨fun hf => ?_, fun hdf => ?_⟩
  · refine dataStep_of_checks rfl ha (allowed_of_append ha) hs fun n _ _ hdef => ?_
    change altUndefined s [movF s b (movChannel b n)] = false at hdef
    by_cases hsame : b.dst.ty = .f
    · rw [movChannel_of_ne (by rw [hsame]; decide)] at hdef
      obtain ⟨hraw, hflag, hmoved⟩ := movOut_f_to_f hf hsame hdef
      exact ⟨hraw, fun _ => hflag, fun hint => absurd (hsame ▸ hint) (by decide), fun h _ => hmoved h,
        fun hdf => absurd (hsame.symm.trans hdf) (by decide)⟩
    · obtain ⟨hraw, hout⟩ := movOut_f_to_other hf hsame hdef
      refine ⟨fun h => absurd (hraw.symm.trans h) (by decide), fun h => absurd h hsame, fun hint => ?_,
        fun _ h => absurd h hsame, fun hdf => ?_⟩
      · rw [hout, movChannel_of_ne fun h => absurd (h ▸ hint) (by decide)]
        exact fOut_of_isInt hint _
      · rw [hout, movChannel, if_pos hdf, hdf]
        exact ⟨rfl, holdsFloat_floatBitsDF _ _ _⟩
  · refine dataStep_of_checks rfl ha (allowed_of_append ha) hs fun n _ _ => ?_
    by_cases hsame : b.dst.ty = .df
    · obtain ⟨hraw, hhalf, hflag, hmoved⟩ := movOut_df_to_df (s := s) (n := n) hdf hsame
      exact ⟨hraw, fun _ => hhalf, fun _ => hflag, fun h _ => hmoved h,
        fun h => absurd (hsame.symm.trans h) (by decide), fun h => absurd h (by simp [hsame])⟩
    · obtain ⟨hraw, hout⟩ := movOut_df_to_other (s := s) (n := n) hdf hsame
      refine ⟨fun h => absurd (hraw.symm.trans h) (by decide), fun h => absurd h hsame, fun h => absurd h hsame,
        fun _ h => absurd h hsame, fun hf heven => ?_, fun hint heven => ?_⟩
      · rw [hout, hf]
        exact dfOut_f heven (exactRes (movDF s b n))
      · rw [hout]
        exact dfOut_of_isInt (by rcases hint with h | h | h | h <;> rw [h] <;> rfl) heven _

end Sys2Proof.Machine
end

section
/-! OBLIGATIONS O45 and O46: `sel`, `cmp` and `cmpn` by the comparison of their sources (spec/41_move_logic.md R601, R610, R611; spec/40_common_execution.md R461, R462, R485, R486). -/

namespace Sys2Proof.Machine

/-! ## Execution types (40 R430) -/

theorem execTy_of_allInt {srcs : List Src} (hint : allInt srcs = true) :
    execTy (srcs.map Src.regType) = .w ∨ execTy (srcs.map Src.regType) = .d := by
  have hno {t : RegType} (ht : t.isInt = false) : (srcs.map Src.regType).any (· = t) = false := by
    simp only [List.any_eq_false, List.mem_map, decide_eq_true_eq]
    rintro _ ⟨x, hx, rfl⟩ rfl
    exact absurd (List.all_eq_true.1 hint x hx) (by simp [ht])
  rw [execTy, hno rfl, hno rfl, if_neg Bool.false_ne_true, if_neg Bool.false_ne_true]
  split
  · exact .inr rfl
  · exact .inl rfl

section
variable {s : State} {b : Basic2} {n : Nat}

theorem execTy_of_allF (hf : allTy .f b.srcs = true) : execTy (b.srcs.map Src.regType) = .f := by
  obtain ⟨h0, h1⟩ : (Src.reg b.src0).regType = .f ∧ b.src1.regType = .f := by simpa [allTy, Basic2.srcs] using hf
  simp [Basic2.srcs, execTy, h0, h1]

theorem execTy_of_allDF (hdf : allTy .df b.srcs = true) : execTy (b.srcs.map Src.regType) = .df := by
  obtain ⟨h0, -⟩ : (Src.reg b.src0).regType = .df ∧ b.src1.regType = .df := by simpa [allTy, Basic2.srcs] using hdf
  simp [Basic2.srcs, execTy, h0]

/-! ## The comparison of the sources (40 R462, R485) -/

theorem compareSrcs_int (hint : allInt b.srcs = true) :
    compareSrcs s b n = { nan0 := false, nan1 := false, ord := some (int0 s b n - int1 s b n).sign } := by
  unfold compareSrcs
  rcases execTy_of_allInt hint with h | h <;> rw [h] <;> rfl

theorem compareSrcs_f (hf : allTy .f b.srcs = true) : compareSrcs s b n = compareF (flt0 s b n) (flt1 s b n) := by
  unfold compareSrcs
  rw [execTy_of_allF hf]
  rfl

theorem compareSrcs_df (hdf : allTy .df b.srcs = true) : compareSrcs s b n = compareF (dbl0 s b n) (dbl1 s b n) := by
  unfold compareSrcs
  rw [execTy_of_allDF hdf]
  rfl

/-- Only an F comparison can be undefined (U15). -/
theorem compareUndefined_f (hf : allTy .f b.srcs = true) :
    compareUndefined s b n = altUndefined s [flt0 s b n, flt1 s b n] := by
  unfold compareUndefined
  rw [execTy_of_allF hf]
  rfl

theorem compareUndefined_int (hint : allInt b.srcs = true) : compareUndefined s b n = false := by
  unfold compareUndefined
  rcases execTy_of_allInt hint with h | h <;> rw [h] <;> rfl

theorem compareUndefined_df (hdf : allTy .df b.srcs = true) : compareUndefined s b n = false := by
  unfold compareUndefined
  rw [execTy_of_allDF hdf]
  rfl

theorem inF_flt0 : (flt0 s b n).InF := inF_flushIn (inF_ofBits _) _
theorem inF_flt1 : (flt1 s b n).InF := inF_flushIn (inF_ofBits _) _

/-- Two F sources are unordered, one being a NaN, or their relation is that of their numbers. -/
theorem fcompare_flt (s : State) (b : Basic2) (n : Nat) :
    (((flt0 s b n).isNan || (flt1 s b n).isNan) = true ∧ fcompare (flt0 s b n) (flt1 s b n) = none) ∨
    (((flt0 s b n).isNan || (flt1 s b n).isNan) = false ∧ ∃ r, fcompare (flt0 s b n) (flt1 s b n) = some r ∧
      ∀ c, compareCond c (some r) = relates c (flt0 s b n).toRat (flt1 s b n).toRat) := by
  by_cases hnan : ((flt0 s b n).isNan || (flt1 s b n).isNan) = true
  · exact .inl ⟨hnan, (fcompare_eq_none_iff _ _).2 hnan⟩
  · have hnot := Bool.eq_false_iff.2 hnan
    obtain ⟨h0, h1⟩ := Bool.or_eq_false_iff.1 hnot
    obtain ⟨r, hr, hlt, heq⟩ := fcompare_order inF_flt0 inF_flt1 h0 h1
    exact .inr ⟨hnot, r, hr, fun c => compareCond_eq_relates c hlt heq⟩

/-! ## sel (R601) -/

/-- `.o` and `.u` select src1 (log 58). -/
theorem relates_eq_ite (c : CondMod) (x y : Rat) :
    relates c x y = if c = .o ∨ c = .u then false else relates c x y := by
  cases c <;> rfl

theorem selTakes0_int (hint : allInt b.srcs = true) : selTakes0 s b n =
    if b.cmod = .none then pmask s b.hdr false n
    else if b.cmod = .o ∨ b.cmod = .u then false else relates b.cmod (int0 s b n) (int1 s b n) := by
  rw [← relates_eq_ite, selTakes0, compareSrcs_int hint, ← compareCond_int]
  rfl

theorem selTakes0_f (hf : allTy .f b.srcs = true) : selTakes0 s b n =
    if b.cmod = .none then pmask s b.hdr false n
    else if b.cmod = .o ∨ b.cmod = .u then false
    else if (flt0 s b n).isNan || (flt1 s b n).isNan then
      decide (b.cmod = .ge ∨ b.cmod = .l) && (flt1 s b n).isNan && !(flt0 s b n).isNan
    else relates b.cmod (flt0 s b n).toRat (flt1 s b n).toRat := by
  rw [selTakes0, compareSrcs_f hf, compareF]
  congr 1
  rcases fcompare_flt s b n with ⟨hnan, hord⟩ | ⟨hnan, r, hord, hrel⟩
  · rw [hnan, hord, if_pos rfl]
    cases b.cmod <;> rfl
  · rw [hnan, hord, if_neg Bool.false_ne_true, ← relates_eq_ite, ← hrel]
    rfl

theorem selTakes0_df (hdf : allTy .df b.srcs = true) : selTakes0 s b n =
    if b.cmod = .none then pmask s b.hdr false n
    else selectCond b.cmod (dbl0 s b n).isNan (dbl1 s b n).isNan (fcompare (dbl0 s b n) (dbl1 s b n)) := by
  rw [selTakes0, compareSrcs_df hdf]
  rfl

/-- The exponent field of a pattern. -/
theorem exponent_eq_zero_iff {w : Nat} (p : BitVec w) (lo len : Nat) :
    p.extractLsb' lo len = 0 ↔ p.toNat / 2 ^ lo % 2 ^ len = 0 := by
  rw [← BitVec.toNat_inj, BitVec.extractLsb'_toNat, Nat.shiftRight_eq_div_pow]
  simp

/-- A selected denormal becomes a zero of its sign where a condition selects it. -/
theorem selF_eq (p : DWord) : selF s b p = if b.cmod ≠ .none ∧ p.extractLsb' 23 8 = 0 then p &&& 0x80000000 else p := by
  have hzero : ((FVal.ofBits fmtF p.toNat).flushIn (modeF s)).isZero = true ↔ p.extractLsb' 23 8 = 0 :=
    (isZero_flushIn_ofBits (modeF s) rfl (show 1 ≤ 8 by decide) p.toNat).trans (exponent_eq_zero_iff p 23 8).symm
  simp only [selF, Bool.and_eq_true, bne_iff_ne, hzero]

theorem selDF_eq (p : QWord) :
    selDF s b p = if b.cmod ≠ .none ∧ p.extractLsb' 52 11 = 0 then p &&& 0x8000000000000000 else p := by
  have hzero : ((FVal.ofBits fmtDF p.toNat).flushIn { modeDF s with flush := true }).isZero = true ↔
      p.extractLsb' 52 11 = 0 :=
    (isZero_flushIn_ofBits { modeDF s with flush := true } rfl (show 1 ≤ 11 by decide) p.toNat).trans
      (exponent_eq_zero_iff p 52 11).symm
  simp only [selDF, Bool.and_eq_true, bne_iff_ne, hzero]

/-- The pattern that an F selection takes. -/
def selectedF (s : State) (b : Basic2) (n : Nat) : DWord :=
  selF s b (if selTakes0 s b n then srcF s b.hdr (dstTwoRegs s b.hdr b.dst) 0 (.reg b.src0) n
    else srcF s b.hdr (dstTwoRegs s b.hdr b.dst) 1 b.src1 n)

/-- The pattern that a DF selection takes. -/
def selectedDF (s : State) (b : Basic2) (n : Nat) : QWord :=
  selDF s b (if selTakes0 s b n then srcDF s b.hdr (dstTwoRegs s b.hdr b.dst) 0 (.reg b.src0) n
    else srcDF s b.hdr (dstTwoRegs s b.hdr b.dst) 1 b.src1 n)

theorem selOut_int (hint : allInt b.srcs = true) : selOut s b n =
    intOut s b.hdr .none b.dst.ty (accWidth b) (if selTakes0 s b n then int0 s b n else int1 s b n) n := by
  unfold selOut accWidth
  cases selTakes0 s b n <;> rcases execTy_of_allInt hint with h | h <;> rw [h] <;> rfl

theorem selOut_f (hf : allTy .f b.srcs = true) (hdef : altUndefined s [flt0 s b n, flt1 s b n] = false) : selOut s b n =
    if b.hdr.sat then fOut s b.hdr .none .f (exactRes (FVal.ofBits fmtF (selectedF s b n).toNat)) n
    else copyF s .none (selectedF s b n) := by
  unfold selOut selectedF
  simp only [execTy_of_allF hf, compareUndefined_f hf, hdef]
  cases selTakes0 s b n <;> rfl

theorem selOut_df (hdf : allTy .df b.srcs = true) : selOut s b n =
    if b.hdr.sat then dfOut s b.hdr .none .df (exactRes (FVal.ofBits fmtDF (selectedDF s b n).toNat)) n
    else copyDF s .none (selectedDF s b n) n := by
  unfold selOut selectedDF
  simp only [execTy_of_allDF hdf]
  cases selTakes0 s b n <;> rfl

/-- An F selection: the pattern, saturated where the instruction says so. -/
theorem selOut_f_value (hf : allTy .f b.srcs = true) (hdef : altUndefined s [flt0 s b n, flt1 s b n] = false) :
    (selOut s b n).acc = (selOut s b n).bits.setWidth 64 ∧ (selOut s b n).wide = (selOut s b n).bits.setWidth 64 ∧
    if b.hdr.sat then HoldsFloat fmtF (fsat fmtF (FVal.ofBits fmtF (selectedF s b n).toNat)) (selOut s b n).bits
    else (selOut s b n).bits = selectedF s b n := by
  rw [selOut_f hf hdef]
  split
  next hsat =>
    have hholds := holdsFloat_floatBitsF (s := s) n b.hdr.sat (FVal.ofBits fmtF (selectedF s b n).toNat)
    rw [saturated_of_sat hsat] at hholds
    exact ⟨rfl, rfl, hholds⟩
  · exact ⟨rfl, rfl, rfl⟩

/-- A DF selection: each channel holds its half of the pattern. -/
theorem selOut_df_value (hdf : allTy .df b.srcs = true) :
    (selOut s b n).bits = halfOf (selOut s b n).acc n ∧ (selOut s b n).wide = (selOut s b n).acc ∧
    if b.hdr.sat then HoldsFloat fmtDF (fsat fmtDF (FVal.ofBits fmtDF (selectedDF s b n).toNat)) (selOut s b n).acc
    else (selOut s b n).acc = selectedDF s b n := by
  rw [selOut_df hdf]
  split
  next hsat =>
    have hholds := holdsFloat_floatBitsDF (s := s) (2 * (n / 2)) b.hdr.sat (FVal.ofBits fmtDF (selectedDF s b n).toNat)
    rw [saturated_of_sat hsat] at hholds
    exact ⟨rfl, rfl, hholds⟩
  · exact ⟨rfl, rfl, rfl⟩

/-- `sel` enables its channels without the predicate and writes no flag. -/
theorem sel_next {val : Nat → DWord → Bool → QWord → QWord → Prop} (hs : StaysIn s b.dst) (ha : Allowed (selChecks s b))
    (hv : ∀ n, val n (selOut s b n).bits (selOut s b n).flag (selOut s b n).acc (selOut s b n).wide) :
    DataNext s (.sel b) b.hdr b.dst false (implicitFmt b.hdr b.srcs) (b.srcs.any Src.isTm0) (wrEnNoPred s b.hdr)
      (wrEnNoPred s b.hdr) val :=
  dataNext_of_checks
    (e := { effect s b.hdr .none b.dst b.srcs (selOut s b) with en := wrEnNoPred s b.hdr, accEn := wrEnNoPred s b.hdr })
    rfl ha (allowed_of_append ha) hs fun n _ _ => hv n

end

/-- Settles O45: which source is taken, and what a channel makes of it, by the type of the sources. -/
theorem select : Obligations.Select := by
  intro s b hs ha next two
  refine ⟨fun hint => sel_next hs ha fun n => ?_, fun hf => sel_next hs ha fun n hdef => ?_,
    fun hdf => sel_next hs ha fun n => ?_⟩
  · intro first
    rw [show first = selTakes0 s b n from (selTakes0_int hint).symm, selOut_int hint]
    exact intOut_value s b.hdr .none b.dst.ty (accWidth b) _ n
  · intro nan0 nan1 minmax first p q
    have hq : q = selectedF s b n := by
      rw [selectedF, selF_eq, selTakes0_f hf]
    rw [hq]
    exact selOut_f_value hf hdef
  · intro first p q
    have hq : q = selectedDF s b n := by
      rw [selectedDF, selDF_eq, selTakes0_df hdf]
    rw [hq]
    exact selOut_df_value hdf

/-! ## cmp, cmpn (R610, R611) -/

/-- What a comparison instruction makes of the comparison of its sources. -/
def compareHolds (i : Instr) (b : Basic2) (c : Comparison) : Bool :=
  if i = .cmpn b then compareNaN b.cmod c.nan1 c.ord else compareCond b.cmod c.ord

/-- Ordered sources compare alike in both instructions. -/
theorem compareHolds_some (i : Instr) (b : Basic2) (nan0 nan1 : Bool) (r : Int) :
    compareHolds i b { nan0 := nan0, nan1 := nan1, ord := some r } = compareCond b.cmod (some r) := ite_self _

/-- `cmp` and `cmpn` leave the comparison of the sources where it is defined. -/
theorem compare_step {s : State} {b : Basic2} {i : Instr} {val : Nat → DWord → Bool → QWord → QWord → Prop}
    (hi : i = .cmp b ∨ i = .cmpn b) (hs : StaysIn s b.dst) (ha : Allowed (cmpChecks s b))
    (hv : ∀ n out, (compareUndefined s b n = false → out = flagOut (compareHolds i b (compareSrcs s b n))) →
      val n out.bits out.flag out.acc out.wide) :
    DataStep s i b.hdr b.cmod b.dst b.srcs val := by
  rcases hi with rfl | rfl
  · exact dataStep_of_checks rfl ha (allowed_of_append ha) hs fun n _ _ => hv n (cmpOut s b n) fun hdef =>
      if_neg (Bool.eq_false_iff.1 hdef)
  · refine dataStep_of_checks rfl ha (allowed_of_append ha) hs fun n _ _ => hv n (cmpnOut s b n) fun hdef => ?_
    rw [compareHolds, if_pos rfl]
    exact if_neg (Bool.eq_false_iff.1 hdef)

/-- Settles O46: the comparison of the sources, by their type. -/
theorem compare : Obligations.Compare := by
  intro s b i hs ha hi holds
  refine ⟨fun hint => compare_step hi hs ha fun n out hout => ?_, fun hf => compare_step hi hs ha fun n out hout hdef => ?_,
    fun hdf => compare_step hi hs ha fun n out hout => ?_⟩
  · rw [hout (compareUndefined_int hint), compareSrcs_int hint, compareHolds_some, compareCond_int]
    exact ⟨rfl, rfl⟩
  · intro nan0 nan1
    rw [hout ((compareUndefined_f hf).trans hdef), compareSrcs_f hf, compareF]
    rcases fcompare_flt s b n with ⟨hnan, hord⟩ | ⟨hnan, r, hord, hrel⟩
    · rw [hord, show (nan0 || nan1) = true from hnan, if_pos rfl]
      suffices hrule : compareHolds i b { nan0 := nan0, nan1 := nan1, ord := none } =
          if i = .cmpn b ∧ nan1 = true then b.cmod != .nz else b.cmod = .nz by
        exact ⟨hrule, congrArg (fun p : Bool => if p then (0xFFFFFFFF : DWord) else 0) hrule⟩
      by_cases hcmpn : i = .cmpn b <;> cases nan1 <;> simp [compareHolds, compareNaN, compareCond, hcmpn]
    · rw [hord, compareHolds_some, hrel, show (nan0 || nan1) = false from hnan, if_neg Bool.false_ne_true]
      exact ⟨rfl, rfl⟩
  · intro ord
    rw [hout (compareUndefined_df hdf), compareSrcs_df hdf]
    exact ⟨rfl, rfl⟩

end Sys2Proof.Machine
end

section
/-! OBLIGATIONS O47 and O48: `movi`, and the conversions from and to half precision (spec/41_move_logic.md R602, R612, R613). -/

namespace Sys2Proof.Machine

/-! ## movi (R602) -/

/-- What the restrictions of `movi` say of its header, its types and its destination. -/
theorem moviChecks_parts {s : State} {b : Basic1} (ha : Allowed (moviChecks s b)) :
    Allowed (headerChecks s b.hdr false) ∧ b.src0.regType = b.dst.ty ∧
      Allowed (dstChecks s b.hdr b.dst (execTy [b.src0.regType]) true) := by
  unfold moviChecks at ha
  simp only [allowed_append] at ha
  obtain ⟨⟨⟨⟨hheader, hown⟩, _⟩, hdst⟩, _⟩ := ha
  have hty := allowed_mem hown (c := (b.src0.regType != b.dst.ty || b.dst.ty = .df, .types)) (by simp)
  obtain ⟨hsame, _⟩ := Bool.or_eq_false_iff.1 hty
  exact ⟨hheader, by simpa using hsame, hdst⟩

/-- The place that index register e selects in the register that a0.0 names. -/
theorem moviAddr_toNat (s : State) (imm : BitVec 10) (size e : Nat) : (moviAddr s imm size e).toNat =
    (indexAddr s 0 imm % 4096 / 32).toNat * 32 + (indexAddr s e imm % 32).toNat / size * size := by
  have hsub : ((indexAddr s e imm % 32).toNat : Int) = indexAddr s e imm % 32 :=
    Int.toNat_of_nonneg (Int.emod_nonneg _ (by decide))
  have haddr : moviAddr s imm size e =
      ((indexAddr s 0 imm % 4096 / 32).toNat * 32 + (indexAddr s e imm % 32).toNat / size * size : Nat) := by
    push_cast
    rw [hsub]
    rfl
  rw [haddr, Int.toNat_natCast]

/-- The element that channel n of a `movi` gathers. -/
def moviElem (s : State) (b : Basic1) (r : RegSrc) (imm : BitVec 10) (n : Nat) : DWord :=
  grfElem s.grf (moviAddr s imm r.ty.size (moviIndex s b n)).toNat r.ty.size

section
variable {s : State} {b : Basic1} {r : RegSrc} {k : BitVec 3} {imm : BitVec 10} {n : Nat}

/-- An element among the first eight, of an integer type. -/
theorem moviOut_of_isInt (hsrc : b.src0 = .reg r) (hloc : r.loc = .ind k imm) (hlt : moviIndex s b n < 8)
    (hint : r.ty.isInt = true) : moviOut s b n =
      intOut s b.hdr .none r.ty (execTy [r.ty]).accBits (modInt r.mod (intOfRaw r.ty (moviElem s b r imm n))) n := by
  obtain ⟨loc, ty, m, region⟩ := r
  obtain rfl : loc = .ind k imm := hloc
  simp only [moviOut, hsrc, if_neg hlt.not_ge]
  cases ty
  case f | df => exact absurd hint Bool.false_ne_true
  all_goals rfl

/-- An F element among the first eight, unmodified, is copied. -/
theorem moviOut_f (hsrc : b.src0 = .reg r) (hloc : r.loc = .ind k imm) (hlt : moviIndex s b n < 8) (hf : r.ty = .f)
    (hmod : r.mod = .none) (hsat : b.hdr.sat = false)
    (hdef : altUndefined s [FVal.ofBits fmtF (moviElem s b r imm n).toNat] = false) :
    moviOut s b n = copyF s .none (moviElem s b r imm n) := by
  obtain ⟨loc, ty, m, region⟩ := r
  obtain rfl : loc = .ind k imm := hloc
  obtain rfl : ty = .f := hf
  obtain rfl : m = .none := hmod
  simp only [moviOut, hsrc, if_neg hlt.not_ge]
  exact (if_neg (Bool.eq_false_iff.1 hdef)).trans (if_pos (by simp [hsat]))

end

/-- Settles O47: the restrictions give the destination the source's type, and the address is that of the element. -/
theorem moveIndexed : Obligations.MoveIndexed := by
  intro s b r k imm hs ha hsrc hloc index elem
  obtain ⟨hheader, hty, hdst⟩ := moviChecks_parts ha
  have hsize : b.dst.ty = r.ty := by rw [← hty, hsrc]; rfl
  have helem (n : Nat) : elem n = moviElem s b r imm n := by
    rw [moviElem, moviAddr_toNat, moviIndex, hsize]
    rfl
  refine dataNext_of_execute (e := effect s b.hdr .none b.dst [b.src0] (moviOut s b)) rfl ha hs
    (fun hl n hn => ?_) (headerChecks_nib hheader) fun n _ _ hlt => ?_
  · have hin := (dstChecks_inGrf hdst hl n hn).2
    change dstByte s b.hdr b.dst n + b.dst.ty.size ≤ 4096
    omega
  · have hindex : moviIndex s b n < 8 := by rwa [moviIndex, hsize]
    rw [helem]
    refine ⟨fun hint => ?_, fun hf hmod hsat hdef => ?_⟩
    · change IntValue _ _ _ _ _ _ _ (moviOut s b n).bits (moviOut s b n).flag (moviOut s b n).acc (moviOut s b n).wide
      rw [moviOut_of_isInt hsrc hloc hindex hint]
      exact intOut_value s b.hdr .none r.ty _ _ n
    · change (moviOut s b n).bits = _ ∧ (moviOut s b n).wide = _
      rw [moviOut_f hsrc hloc hindex hf hmod hsat hdef]
      exact ⟨rfl, rfl⟩

/-! ## Half precision (R612, R613) -/

theorem nanPattern_isNan_half (c : Nat) :
    (FVal.ofBits fmtHalf (nanPattern fmtHalf c)).isNan = true ∧ nanPattern fmtHalf c < 2 ^ 16 := by
  unfold nanPattern
  dsimp only
  split
  next hnan => exact ⟨hnan, Nat.mod_lt _ (by decide)⟩
  · exact ⟨by decide, by decide⟩

/-- The low word of the destination element holds the half. -/
theorem f32to16Out_holds (s : State) (b : Basic1) (n : Nat) :
    HoldsFloat fmtHalf
      (if b.hdr.sat then fsat fmtHalf (toHalf s (fltS s b n)).val else (toHalf s (fltS s b n)).val)
      ((f32to16Out s b n).bits.setWidth 16) := by
  have ⟨hnan, hlt⟩ := nanPattern_isNan_half (Config.free s.draw (.nan n)).toNat
  have hlow (p : Nat) : (BitVec.ofNat 32 p).setWidth 16 = BitVec.ofNat 16 p := BitVec.setWidth_ofNat_of_le (by decide) p
  change HoldsFloat fmtHalf _ ((BitVec.ofNat 32 _).setWidth 16)
  rw [hlow]
  exact holdsFloat_toBits fmtHalf _ _ hnan hlt

/-- An unmodified half becomes the F number that it is. -/
theorem f16to32Out_eq {s : State} {b : Basic1} (hmod : b.src0.hasMod = false) (n : Nat) : f16to32Out s b n =
    fResult s b.hdr b.cmod .f [] (exactRes (FVal.ofBits fmtHalf ((bitsS s b n).setWidth 16).toNat)) n := by
  have hdef : altUndefined s [] = false := Bool.and_false _
  rw [fResult, hdef, if_neg Bool.false_ne_true]
  exact if_neg (by simp [hmod])

/-- Settles O48: both conversions are exact values of the half format, the first one rounded. -/
theorem halfConversions : Obligations.HalfConversions := by
  intro s b hs
  refine ⟨fun ha => ?_, fun ha => ?_⟩
  · exact dataStep_of_checks rfl ha (allowed_of_append ha) hs fun n _ _ => ⟨f32to16Out_holds s b n, rfl⟩
  · refine dataStep_of_checks rfl ha (allowed_of_append ha) hs fun n _ _ hmod => ?_
    rw [f16to32Out_eq hmod]
    exact fResult_value s b.hdr b.cmod [] _ n

end Sys2Proof.Machine
end

section
/-! OBLIGATION O49: the bit-field instructions, bit by bit (spec/41_move_logic.md R614 to R617). -/

namespace Sys2Proof.Machine

theorem toNat_and_31 (v : DWord) : (v &&& 31).toNat = v.toNat % 32 := by
  rw [BitVec.toNat_and]
  exact Nat.and_two_pow_sub_one_eq_mod v.toNat 5

/-! ## Reversal (R614) -/

/-- A pattern built bit by bit from 0: after k steps its bits below k are those asked for. -/
theorem getLsbD_setBits (f : Nat → Bool) {k : Nat} (hk : k ≤ 32) (i : Nat) :
    ((List.range k).foldl (fun (r : DWord) j => if f j then r ||| (1#32 <<< j) else r) 0).getLsbD i =
      (decide (i < k) && f i) := by
  induction k with
  | zero => simp
  | succ k ih =>
    rw [List.range_succ, List.foldl_append, List.foldl_cons, List.foldl_nil]
    have hone : (1#32 <<< k).getLsbD i = decide (i = k) := by
      rw [getLsbD_one_shiftLeft 32 k i (by decide)]
      by_cases hi : i = k <;> simp [hi]
      omega
    have hbit : ((List.range k).foldl (fun (r : DWord) j => if f j then r ||| (1#32 <<< j) else r) 0).getLsbD i = _ :=
      ih (by omega)
    split
    next hf =>
      rw [BitVec.getLsbD_or, hbit, hone]
      obtain hi | rfl | hi := Nat.lt_trichotomy i k
      · simp [hi, hi.ne, show i < k + 1 by omega]
      · simp [hf]
      · simp [hi.not_gt, hi.ne', show ¬ i < k + 1 by omega]
    next hf =>
      rw [hbit]
      obtain hi | rfl | hi := Nat.lt_trichotomy i k
      · simp [hi, show i < k + 1 by omega]
      · simp [hf]
      · simp [hi.not_gt, show ¬ i < k + 1 by omega]

theorem getLsbD_reverseBits (v : DWord) {i : Nat} (hi : i < 32) : (reverseBits v).getLsbD i = v.getLsbD (31 - i) := by
  rw [reverseBits, getLsbD_setBits (fun j => v.getLsbD (31 - j)) le_rfl]
  simp [hi]

/-! ## Mask and extraction (R615, R616) -/

/-- A mask of w bits. -/
theorem getLsbD_lowMask {w : Nat} (hw : w < 32) (i : Nat) : ((1#32 <<< w) - 1).getLsbD i = decide (i < w) := by
  have hmask : (1#32 <<< w) - 1 = BitVec.ofNat 32 (2 ^ w - 1) := by
    have hpow : 2 ^ w < 2 ^ 32 := Nat.pow_lt_pow_right (by decide) hw
    have hpos : 0 < 2 ^ w := by positivity
    apply BitVec.eq_of_toNat_eq
    simp [BitVec.toNat_sub, Nat.shiftLeft_eq]
    omega
  rw [hmask, BitVec.getLsbD_ofNat, Nat.testBit_two_pow_sub_one]
  by_cases hi : i < w
  · simp [hi, show i < 32 by omega]
  · simp [hi]

theorem getLsbD_fieldMask (width offset : DWord) {i : Nat} (hi : i < 32) : (fieldMask width offset).getLsbD i =
    (decide (offset.toNat % 32 ≤ i) && decide (i < offset.toNat % 32 + width.toNat % 32)) := by
  rw [fieldMask, toNat_and_31, toNat_and_31, BitVec.getLsbD_shiftLeft, getLsbD_lowMask (Nat.mod_lt _ (by decide))]
  simp only [hi, decide_true, Bool.true_and]
  by_cases ho : i < offset.toNat % 32
  · simp [ho]
  · simp only [ho, decide_false, Bool.not_false, Bool.true_and]
    rw [decide_eq_true (not_lt.1 ho), Bool.true_and, decide_eq_decide]
    exact Nat.sub_lt_iff_lt_add' (not_lt.1 ho)

/-- A pattern shifted to the right with its sign or with zeros. -/
def shiftRightExt (signed : Bool) (v : DWord) (k : Nat) : DWord := if signed then v.sshiftRight k else v >>> k

theorem getLsbD_shiftRightExt (signed : Bool) (v : DWord) {k i : Nat} (hi : i < 32) : (shiftRightExt signed v k).getLsbD i =
    if k + i < 32 then v.getLsbD (k + i) else signed && v.getLsbD 31 := by
  cases signed
  · rw [shiftRightExt, if_neg Bool.false_ne_true, BitVec.getLsbD_ushiftRight]
    split
    · rfl
    · exact BitVec.getLsbD_of_ge _ _ (by omega)
  · rw [shiftRightExt, if_pos rfl, BitVec.getLsbD_sshiftRight]
    simp only [show ¬ 32 ≤ i by omega, decide_false, Bool.not_false, Bool.true_and, BitVec.msb_eq_getLsbD_last]

/-- A field of no bits, one inside the DWord, and one that reaches beyond it. -/
def fieldBits (signed : Bool) (w o : Nat) (value : DWord) : DWord :=
  if w = 0 then 0
  else if w + o < 32 then shiftRightExt signed (value <<< (32 - w - o)) (32 - w)
  else shiftRightExt signed value o

theorem extractField_eq (signed : Bool) (width offset value : DWord) :
    extractField signed width offset value = fieldBits signed (width.toNat % 32) (offset.toNat % 32) value := by
  rw [← toNat_and_31, ← toNat_and_31]
  rfl

theorem getLsbD_fieldBits_inside (signed : Bool) (value : DWord) {w o i : Nat} (hw : 0 < w) (hwo : w + o < 32) (hi : i < 32) :
    (fieldBits signed w o value).getLsbD i = if i < w then value.getLsbD (o + i) else signed && value.getLsbD (o + w - 1) := by
  rw [fieldBits, if_neg hw.ne', if_pos hwo, getLsbD_shiftRightExt signed _ hi, BitVec.getLsbD_shiftLeft,
    BitVec.getLsbD_shiftLeft]
  by_cases hiw : i < w
  · rw [if_pos hiw, if_pos (by omega), show 32 - w + i - (32 - w - o) = o + i by omega]
    simp [show 32 - w + i < 32 by omega, show ¬ 32 - w + i < 32 - w - o by omega]
  · rw [if_neg hiw, if_neg (by omega), show 31 - (32 - w - o) = o + w - 1 by omega]
    simp [show ¬ 31 < 32 - w - o by omega]

theorem getLsbD_fieldBits_beyond (signed : Bool) (value : DWord) {w o i : Nat} (hw : 0 < w) (hwo : 32 ≤ w + o) (hi : i < 32) :
    (fieldBits signed w o value).getLsbD i = if i < 32 - o then value.getLsbD (o + i) else signed && value.getLsbD 31 := by
  rw [fieldBits, if_neg hw.ne', if_neg hwo.not_gt, getLsbD_shiftRightExt signed _ hi]
  exact if_congr (by omega) rfl rfl

theorem getLsbD_extractField (signed : Bool) (width offset value : DWord) {i : Nat} (hi : i < 32) :
    let o := offset.toNat % 32
    let w := min (width.toNat % 32) (32 - o)
    (extractField signed width offset value).getLsbD i =
      if i < w then value.getLsbD (o + i) else signed && decide (0 < w) && value.getLsbD (o + w - 1) := by
  rw [extractField_eq]
  have ho : offset.toNat % 32 < 32 := Nat.mod_lt _ (by decide)
  generalize offset.toNat % 32 = o at ho
  obtain hnone | hsome := Nat.eq_zero_or_pos (width.toNat % 32)
  · simp [hnone, fieldBits]
  generalize width.toNat % 32 = w at hsome
  intro _ w'
  have hpos : 0 < w' := by simp only [w']; omega
  rw [decide_eq_true hpos, Bool.and_true]
  obtain hinside | hbeyond := Nat.lt_or_ge (w + o) 32
  · rw [show w' = w by simp only [w']; omega]
    exact getLsbD_fieldBits_inside signed value hsome hinside hi
  · rw [show w' = 32 - o by simp only [w']; omega, show o + (32 - o) - 1 = 31 by omega]
    exact getLsbD_fieldBits_beyond signed value hsome hbeyond hi

/-! ## Insertion (R617) -/

theorem trailingZeros_eq {v : DWord} {k : Nat} (hk : IsTrailingZeros v k) : trailingZeros v = k := by
  obtain ⟨hlt, hone, hzero⟩ := hk
  have hfind : (List.range 32).find? (fun i => v.getLsbD i) = some k := by
    rw [List.find?_range_eq_some]
    exact ⟨hone, List.mem_range.2 hlt, fun j hj => by simp [hzero j hj]⟩
  rw [trailingZeros, hfind, Option.getD_some]

/-- Under a mask of no bits the base stays. -/
theorem insertField_zero (value base : DWord) : insertField 0 value base = base := by
  apply BitVec.eq_of_getLsbD_eq
  intro i hi
  rw [insertField, BitVec.getLsbD_or, BitVec.getLsbD_and, BitVec.getLsbD_and, BitVec.getLsbD_not]
  simp [hi]

theorem getLsbD_insertField {mask : DWord} {k : Nat} (hk : IsTrailingZeros mask k) (value base : DWord) {i : Nat}
    (hi : i < 32) :
    (insertField mask value base).getLsbD i = if mask.getLsbD i then value.getLsbD (i - k) else base.getLsbD i := by
  obtain ⟨-, -, hbelow⟩ := id hk
  rw [insertField, trailingZeros_eq hk, BitVec.getLsbD_or, BitVec.getLsbD_and, BitVec.getLsbD_and, BitVec.getLsbD_shiftLeft,
    BitVec.getLsbD_not]
  cases hbit : mask.getLsbD i with
  | false => simp [hi]
  | true =>
    have hki : ¬ i < k := fun hlt => by simp [hbelow i hlt] at hbit
    simp [hi, hki]

/-! ## The instructions -/

theorem bitChecks_data {s : State} {h : Header} {cm : CondMod} {d : Dst} {tys : List RegType} {srcs : List Src}
    (ha : Allowed (bitChecks s h cm d tys srcs)) : Allowed (dataChecks s h cm d srcs false) := allowed_of_append ha

/-- A bit-field instruction leaves its pattern, whatever restrictions `more` it has beside the common ones. -/
theorem bits_step {s : State} {i : Instr} {more : List Check} {h : Header} {cm : CondMod} {d : Dst} {tys : List RegType}
    {srcs : List Src} {pattern : Nat → DWord} {val : Nat → DWord → Prop}
    (hexec : exec i s = execute s (firstViolation (more ++ bitChecks s h cm d tys srcs))
      (effect s h .none d srcs fun n => bitsOut (pattern n)))
    (ha : Allowed (more ++ bitChecks s h cm d tys srcs)) (hs : StaysIn s d) (hv : ∀ n, val n (pattern n)) :
    DataStep s i h .none d srcs fun n bits _ _ _ => val n bits :=
  dataNext_of_checks (e := effect s h .none d srcs fun n => bitsOut (pattern n)) hexec ha
    (bitChecks_data (allowed_of_append ha)) hs fun n _ _ => hv n

/-- A three-source instruction writes a general register, so that it does not leave the System Routine. -/
theorem staysIn_tri (s : State) (t : Tri) : StaysIn s t.dst := .inr rfl

/-- Settles O49: each instruction by the bits of its pattern. -/
theorem bitFields : Obligations.BitFields := by
  refine ⟨fun s b hs ha => ?_, fun s b hs ha => ?_, fun s t ha => ⟨?_, ?_⟩⟩
  · exact bits_step (more := []) (pattern := fun n => reverseBits (bitsS s b n)) rfl ha hs fun n i =>
      getLsbD_reverseBits (bitsS s b n)
  · exact bits_step (more := []) (pattern := fun n => fieldMask (bits0 s b n) (bits1 s b n)) rfl ha hs fun n i =>
      getLsbD_fieldMask (bits0 s b n) (bits1 s b n)
  · exact bits_step (pattern := fun n => extractField (t.srcTy = .d) (triInt s t 0 t.src0 n) (triInt s t 1 t.src1 n)
      (triInt s t 2 t.src2 n)) rfl ha (staysIn_tri s t) fun n i => getLsbD_extractField _ _ _ _
  · refine bits_step (pattern := fun n => insertField (triInt s t 0 t.src0 n) (triInt s t 1 t.src1 n)
      (triInt s t 2 t.src2 n)) rfl ha (staysIn_tri s t) fun n => ⟨fun hzero => ?_, fun k hk i => getLsbD_insertField hk _ _⟩
    exact (congrArg (insertField · _ _) hzero).trans (insertField_zero _ _)

end Sys2Proof.Machine
end

section
/-! SUPPORT. Branches behind their restrictions: the target, the channels that move, and the choice of IP by the channels (spec/42_flow_control.md R630 to R634). -/

namespace Sys2Proof.Machine

/-! ## Restrictions -/

/-- Restrictions that hold are passed over. -/
theorem firstViolation_append {l : List Check} (ha : Allowed l) (m : List Check) :
    firstViolation (l ++ m) = firstViolation m := by
  induction l with
  | nil => rfl
  | cons c l ih =>
    obtain ⟨hc, hl⟩ := (allowed_cons c l).1 ha
    obtain ⟨bad, r⟩ := c
    cases hc
    exact ih hl

section
variable {i : Instr} {s t : State} {l : List Check}

/-- An instruction whose restrictions hold completes. -/
theorem exec_of_allowed (he : exec i s = guarded (firstViolation l) (.next t)) (ha : Allowed l) : exec i s = .next t := by
  rw [he, show firstViolation l = none from ha]
  rfl

/-- A branch in a single program flow. -/
theorem exec_singleFlow {dest : DWord}
    (he : exec i s = guarded (firstViolation l) (.next (if s.spf then spfBranch s dest else t)))
    (ha : Allowed l) (hspf : s.spf = true) : exec i s = .next { s with ip := dest } := by
  rw [exec_of_allowed he ha, if_pos hspf]
  rfl

/-- A branch of the channels. -/
theorem exec_multiFlow {u : State} (he : exec i s = guarded (firstViolation l) (.next (if s.spf then u else t)))
    (ha : Allowed l) (hspf : s.spf = false) : exec i s = .next t := by
  rw [exec_of_allowed he ha, if_neg (Bool.eq_false_iff.1 hspf)]

end

/-! ## Targets (R630) -/

theorem ofInt_shiftLeft_three (k : Int) : BitVec.ofInt 32 k <<< 3 = BitVec.ofInt 32 (8 * k) := by
  rw [BitVec.shiftLeft_eq_mul_twoPow, BitVec.ofInt_mul, BitVec.mul_comm]
  rfl

/-- A branch target is IP plus the offset in 8-byte units. -/
theorem target_eq (s : State) (off : BitVec 16) : target s off = off8 s.ip off :=
  congrArg (s.ip + ·) (ofInt_shiftLeft_three off.toInt)

/-! ## Channels (R632) -/

theorem anyChan_iff (s : State) (h : Header) : anyChan s h = true ↔ ∃ c : Fin 32, chanEn s h c.val = true := by
  simp [anyChan, Fin.exists_iff]

theorem anyChan_eq_false {s : State} {h : Header} (hno : ∀ c : Fin 32, chanEn s h c.val = false) : anyChan s h = false :=
  Bool.eq_false_iff.2 fun hany => by
    obtain ⟨c, hc⟩ := (anyChan_iff s h).1 hany
    exact absurd ((hno c).symm.trans hc) Bool.false_ne_true

theorem someAt_iff (p : Vector DWord 32) (a : DWord) : someAt p a = true ↔ ∃ c : Fin 32, p[c] = a := by
  simp [someAt, Vector.mem_iff_getElem, Fin.exists_iff]

theorem inGroup_iff (h : Header) (c : Nat) : inGroup h c = true ↔ chOff h ≤ c ∧ c < chOff h + h.count := by
  simp [inGroup]

theorem someOfGroupAt_iff (h : Header) (p : Vector DWord 32) (a : DWord) : someOfGroupAt h p a = true ↔
    ∃ c : Fin 32, chOff h ≤ c.val ∧ c.val < chOff h + h.count ∧ p[c] = a := by
  simp only [someOfGroupAt, List.any_eq_true, List.mem_range, Bool.and_eq_true, inGroup_iff, beq_iff_eq, Fin.exists_iff,
    and_assoc]
  exact exists_congr fun c => exists_prop.symm.trans (exists_congr fun hc => by simp [Vector.getD, hc])

theorem getElem_movePcIP (s : State) (en : Nat → Bool) (taken fall : DWord) (c : Fin 32) :
    (movePcIP s en taken fall)[c] = if en c.val then taken else if s.pcIP[c] = s.ip then fall else s.pcIP[c] := by
  simp [movePcIP]

theorem getElem_moveEnabled (s : State) (en : Nat → Bool) (taken : DWord) (c : Fin 32) :
    (moveEnabled s en taken)[c] = if en c.val then taken else s.pcIP[c] := by
  simp [moveEnabled]

theorem getElem_ifPcIP (s : State) (h : Header) (park : DWord) (c : Fin 32) : (ifPcIP s h park)[c] =
    if chanEn s h c.val then s.nextIP
    else if s.pcIP[c] = s.ip ∨ (h.noMask = true ∧ chOff h ≤ c.val ∧ c.val < chOff h + h.count) then park
    else s.pcIP[c] := by
  simp [ifPcIP, inGroup_iff]

theorem getElem_moveGroup (s : State) (h : Header) (taken : DWord) (c : Fin 32) : (moveGroup s h taken)[c] =
    if chanEn s h c.val then taken
    else if chOff h ≤ c.val ∧ c.val < chOff h + h.count ∧ s.pcIP[c] = s.ip then s.nextIP else s.pcIP[c] := by
  simp [moveGroup, inGroup_iff, and_assoc]

/-! ## The state after a branch (R631, R632) -/

theorem branchTo_frame (s : State) (p : Vector DWord 32) (ip : DWord) :
    branchTo s p ip = { s with pcIP := (branchTo s p ip).pcIP, ip := (branchTo s p ip).ip } := rfl

theorem branchPost_movePcIP (s : State) (en : Nat → Bool) (taken fall ip : DWord) :
    BranchPost s (branchTo s (movePcIP s en taken fall) ip) en taken fall :=
  ⟨branchTo_frame .., getElem_movePcIP s en taken fall⟩

theorem someAt_iff_channelAt (s : State) (p : Vector DWord 32) (ip a : DWord) :
    someAt p a = true ↔ ChannelAt (branchTo s p ip) a := someAt_iff p a

/-- IP is the first address if the condition of the branch holds, and the second one if not. -/
theorem branchTo_ip_of_iff (s : State) (p : Vector DWord 32) {c : Bool} {q : Prop} (hc : c = true ↔ q) (x y : DWord) :
    (q → (branchTo s p (if c then x else y)).ip = x) ∧ (¬ q → (branchTo s p (if c then x else y)).ip = y) :=
  ⟨fun hq => if_pos (hc.2 hq), fun hq => if_neg (mt hc.1 hq)⟩

/-- IP goes on if a channel is at the next instruction, and away if none is. -/
theorem converge_ip (s : State) (p : Vector DWord 32) (away : DWord) :
    (ChannelAt (converge s p away) s.nextIP → (converge s p away).ip = s.nextIP) ∧
    (¬ ChannelAt (converge s p away) s.nextIP → (converge s p away).ip = away) :=
  branchTo_ip_of_iff s p (someAt_iff_channelAt ..) s.nextIP away

end Sys2Proof.Machine
end

section
/-! OBLIGATIONS O12, O24 to O27 and O29: the step of a fetched instruction, `jmpi`, the branches in both flows, and `case` (spec/42_flow_control.md R630 to R650). -/

namespace Sys2Proof.Machine

/-- Settles O12: nothing before the instruction stops or holds it. -/
theorem stepRunsDecoded : Obligations.StepRunsDecoded := fun _ _ _ _ hfetch hbreak hheld =>
  step_of_fetches hfetch hbreak hheld

/-- Settles O29: the refusal is all of its meaning (R646). -/
theorem caseStops : Obligations.CaseStops := fun _ _ => rfl

/-! ## jmpi (R640) -/

theorem jmpiChecks_header {s : State} {b : Basic2} (ha : Allowed (jmpiChecks s b)) :
    b.hdr.size = .s1 ∧ b.hdr.noMask = true := by
  have hsize := allowed_mem ha (c := (b.hdr.size != .s1, .execSize)) (by simp [jmpiChecks])
  have hmask := allowed_mem ha (c := (!b.hdr.noMask, .noMask)) (by simp [jmpiChecks])
  exact ⟨by simpa using hsize, by simpa using hmask⟩

/-- The one channel of a NoMask instruction is enabled by its predicate. -/
theorem wrEn_scalar {h : Header} (hsize : h.size = .s1) (hmask : h.noMask = true) (s : State) :
    wrEn s h 0 = pmask s h false 0 := by
  simp [wrEn, wrEnNoPred, execEnable, Header.count, ExecSize.toNat, hsize, hmask]

/-- Settles O24: the predicate decides on the one channel, and the index counts 8 bytes. -/
theorem jmpiJumps : Obligations.JmpiJumps := by
  intro s b ha index dest
  obtain ⟨hsize, hmask⟩ := jmpiChecks_header ha
  have hindex : jmpiIndex s b <<< 3 = BitVec.ofInt 32 (8 * index) := by
    simp only [jmpiIndex, index]
    cases b.src1 <;> exact ofInt_shiftLeft_three _
  rw [exec_of_allowed (i := .jmpi b) rfl ha, wrEn_scalar hsize hmask, hindex]
  rfl

/-! ## Branches of the channels -/

/-- Settles O25: each branch by the addresses of its channels, and IP by a channel that is there. -/
theorem branchesToTargets : Obligations.BranchesToTargets := by
  refine ⟨fun s b hspf => ⟨fun ha => ?brd, fun ha => ?while_⟩, ?brcHalt⟩
  case brd =>
    rw [← target_eq]
    exact ⟨_, exec_multiFlow rfl ha hspf, branchPost_movePcIP .., branchTo_ip_of_iff s _ (someAt_iff_channelAt ..) _ _⟩
  case while_ =>
    rw [← target_eq]
    obtain ⟨hjump, hstay⟩ := branchTo_ip_of_iff s (movePcIP s (chanEn s b.hdr) (target s b.jip) s.nextIP)
      (anyChan_iff s b.hdr) (target s b.jip) s.nextIP
    exact ⟨_, exec_multiFlow rfl ha hspf, branchPost_movePcIP .., hjump, fun hno => hstay (by simp [hno])⟩
  case brcHalt =>
    intro s b i hi hspf
    rw [← target_eq, ← target_eq]
    rcases hi with ⟨rfl, ha⟩ | ⟨rfl, ha⟩ <;>
      exact ⟨_, exec_multiFlow rfl ha hspf, branchPost_movePcIP .., converge_ip ..⟩

/-- Settles O26, instruction by instruction. -/
theorem blockAndLoopBranches : Obligations.BlockAndLoopBranches := by
  refine ⟨fun s b ha hspf => ?if_, fun s b ha hend => ?ifAlone,
    fun s b ha hspf => ⟨fun hblock => ?else_, fun hany => ?endifOn, fun hno => ?endifAway⟩, fun s b ha hspf => ?breakCont⟩
  case if_ =>
    rw [← target_eq]
    exact ⟨_, exec_multiFlow rfl ha hspf, branchTo_frame .., getElem_ifPcIP s b.hdr _, converge_ip ..⟩
  case ifAlone =>
    change guarded (firstViolation (ifChecks s b)) _ = _
    rw [ifChecks, firstViolation_append ha, blockChecks, hend]
    rfl
  case else_ =>
    rw [← target_eq]
    exact ⟨_, exec_multiFlow rfl hblock hspf, branchTo_frame .., getElem_moveEnabled s (chanEn s b.hdr) _, converge_ip ..⟩
  case endifOn =>
    rw [exec_multiFlow (i := .endif b) rfl ha hspf, if_pos ((anyChan_iff s b.hdr).2 hany)]
    rfl
  case endifAway =>
    rw [exec_multiFlow (i := .endif b) rfl ha hspf, anyChan_eq_false hno, target_eq]
    rfl
  case breakCont =>
    rw [← target_eq, ← target_eq]
    obtain ⟨hstay, haway⟩ := branchTo_ip_of_iff s (moveGroup s b.hdr (target s b.uip)) (someOfGroupAt_iff ..)
      s.nextIP (target s b.jip)
    exact ⟨⟨_, exec_multiFlow rfl ha hspf, ⟨branchTo_frame .., getElem_moveGroup s b.hdr _⟩, hstay,
        fun hnone => haway fun ⟨c, hlo, hhi, hc⟩ => hnone c hlo hhi hc⟩,
      ⟨_, exec_multiFlow rfl ha hspf, ⟨branchTo_frame .., getElem_moveGroup s b.hdr _⟩, converge_ip ..⟩⟩

/-! ## A single program flow (R633) -/

/-- Settles O27: IP alone moves, to the offset that each branch has. -/
theorem singlePathBranches : Obligations.SinglePathBranches := by
  intro s hspf
  simp only [← target_eq]
  refine ⟨fun b i hi => ?_, fun b ha => exec_singleFlow rfl ha hspf, fun b ha => exec_singleFlow rfl ha hspf,
    fun b ha => exec_singleFlow rfl ha hspf, fun b ha => exec_singleFlow rfl ha hspf,
    fun b ha => ⟨fun hblock => exec_singleFlow rfl hblock hspf, exec_singleFlow rfl ha hspf⟩⟩
  rcases hi with ⟨ha, rfl | rfl⟩ | ⟨ha, rfl⟩ <;> exact exec_singleFlow rfl ha hspf

end Sys2Proof.Machine
end

section
/-! OBLIGATION O28: `call` and `ret` (spec/42_flow_control.md R651, R652; spec/92_eei_decisions.md D11, D18). -/

namespace Sys2Proof.Machine

/-! ## Channels and masks -/

theorem getLsbD_maskOf (f : Nat → Bool) {n : Nat} (hn : n < 32) : (maskOf f).getLsbD n = f n := by
  rw [maskOf, getLsbD_setBits f le_rfl]
  simp [hn]

/-- Only channels of the thread are enabled. -/
theorem lt_of_callEn {s : State} {h : Header} {n : Nat} (hn : callEn s h n = true) : n < 32 := by
  simp only [callEn, Bool.and_eq_true, decide_eq_true_eq] at hn
  obtain ⟨⟨hwidth, -⟩, -⟩ := hn
  have : callWidth s ≤ 32 := by
    unfold callWidth
    split <;> decide
  omega

theorem callPcIP_of_spf {s : State} (hspf : s.spf = true) (h : Header) (dest : DWord) : callPcIP s h dest = s.pcIP :=
  if_pos hspf

theorem getElem_callPcIP {s : State} (hspf : s.spf = false) (h : Header) (dest : DWord) (c : Fin 32) :
    (callPcIP s h dest)[c] = if callEn s h c.val then dest else if s.pcIP[c] = s.ip then s.nextIP else s.pcIP[c] := by
  rw [callPcIP, if_neg (Bool.eq_false_iff.1 hspf), getElem_movePcIP]

/-! ## The stored pair -/

/-- The two DWords are two elements of four bytes. -/
theorem storePair_grf (s : State) (addr : Nat) (lo hi : DWord) : (storePair s addr lo hi).grf =
    setGrfBytes s.grf (elemWrites 2 4 (fun _ => true) (fun n => addr + 4 * n) (fun n => if n = 0 then lo else hi)) := rfl

theorem grfByte_storePair (s : State) {addr i : Nat} (lo hi : DWord) (haddr : addr + 8 ≤ 4096) (hlt : i < 4) :
    grfByte (storePair s addr lo hi).grf (addr + i) = lo.extractLsb' (8 * i) 8 ∧
    grfByte (storePair s addr lo hi).grf (addr + 4 + i) = hi.extractLsb' (8 * i) 8 := by
  rw [storePair_grf]
  have helem (n : Nat) (hn : n < 2) := grfByte_elemWrites_written s.grf 2 4 (fun _ => true) (fun n => addr + 4 * n)
    (fun n => if n = 0 then lo else hi) n i hn rfl hlt (by omega) (by omega)
  exact ⟨helem 0 (by decide), helem 1 (by decide)⟩

theorem grfByte_storePair_kept (s : State) {addr a : Nat} (lo hi : DWord) (ha : a < addr ∨ addr + 8 ≤ a) :
    grfByte (storePair s addr lo hi).grf a = grfByte s.grf a := by
  rw [storePair_grf]
  exact grfByte_elemWrites_kept _ _ _ _ _ _ _ (by omega)

/-! ## call (R651) -/

/-- The place of the return pair lies in the register file. -/
theorem callChecks_pair {s : State} {c : Call} (ha : Allowed (callChecks s c)) :
    (dstAddr s c.hdr c.dst 0).toNat + 8 ≤ 4096 := by
  have hrange := allowed_mem ha (c := (outOfGrf s 8 [dstAddr s c.hdr c.dst 0], .grfRange)) (by simp [callChecks])
  simp only [outOfGrf, List.any_cons, List.any_nil, Bool.or_false, Bool.or_eq_false_iff, decide_eq_false_iff_not] at hrange
  omega

/-- Some channel takes the call. -/
def callJumps (s : State) (h : Header) : Bool := (List.range 32).any (callEn s h)

theorem callJumps_iff (s : State) (h : Header) : callJumps s h = true ↔ ∃ n, callEn s h n = true := by
  simp only [callJumps, List.any_eq_true, List.mem_range]
  exact exists_congr fun n => and_iff_right_of_imp lt_of_callEn

/-- The call mask of the subroutine. -/
def calledMask (s : State) (h : Header) : DWord :=
  maskOf fun n => if n < callWidth s then callEn s h n else s.callMask.getLsbD n

/-- The state with the pointers and the call mask of `call`, before it stores the return pair. -/
def callMoved (s : State) (c : Call) : State :=
  { s with
    pcIP := callPcIP s c.hdr (target s c.jip)
    ip := if callJumps s c.hdr then target s c.jip else s.nextIP
    callMask := calledMask s c.hdr }

/-- The state that `call` leaves. -/
def callLeft (s : State) (c : Call) : State :=
  let addr := (dstAddr s c.hdr c.dst 0).toNat
  markDst (if callJumps s c.hdr then storePair (callMoved s c) addr s.nextIP (calledMask s c.hdr) else callMoved s c)
    c.hdr (callJumps s c.hdr) [addr / 32]

theorem exec_call {s : State} {c : Call} (ha : Allowed (callChecks s c)) : exec (.call c) s = .next (callLeft s c) :=
  exec_of_allowed rfl ha

/-- A call that a channel takes: the pointers, and the return pair with its mark. -/
theorem callLeft_of_jump {s : State} {c : Call} (hjump : callJumps s c.hdr = true) : callLeft s c =
    markDst (storePair (callMoved s c) (dstAddr s c.hdr c.dst 0).toNat s.nextIP (calledMask s c.hdr)) c.hdr true
      [(dstAddr s c.hdr c.dst 0).toNat / 32] := by
  rw [callLeft, hjump]
  rfl

/-- A call that no channel takes stores nothing. -/
theorem callLeft_of_stay {s : State} {c : Call} (hstay : callJumps s c.hdr = false) : callLeft s c =
    markDst (callMoved s c) c.hdr false [(dstAddr s c.hdr c.dst 0).toNat / 32] := by
  rw [callLeft, hstay]
  rfl

/-- Beside the pointers and the call mask only general registers and their marks differ. -/
theorem callLeft_eq (s : State) (c : Call) : ∃ grf dep, callLeft s c = { callMoved s c with grf := grf, dep := dep } := by
  cases hjump : callJumps s c.hdr with
  | true => exact ⟨_, _, callLeft_of_jump hjump⟩
  | false => exact ⟨_, _, callLeft_of_stay hjump⟩

theorem callLeft_depOf_kept (s : State) (c : Call) {r : Nat} (hr : r ≠ (dstAddr s c.hdr c.dst 0).toNat / 32) :
    (callLeft s c).depOf r = s.depOf r := by
  rw [callLeft, markDst_depOf_kept _ _ _ _ _ (by simpa using hr)]
  cases callJumps s c.hdr <;> rfl

/-! ## ret (R652) -/

/-- The call mask without the channels that return. -/
def returnMask (s : State) (h : Header) : DWord := maskOf fun n => s.callMask.getLsbD n && !callEn s h n

/-- The state that `ret` leaves: IP follows and the saved mask returns when the last channel has returned. -/
def retLeft (s : State) (b : Basic1) : State :=
  { s with
    pcIP := callPcIP s b.hdr (alignIP (retElem s b 0))
    ip := if returnMask s b.hdr = 0 then alignIP (retElem s b 0) else s.nextIP
    callMask := if returnMask s b.hdr = 0 then retElem s b 1 else returnMask s b.hdr }

theorem exec_ret {s : State} {b : Basic1} (ha : Allowed (retChecks s b)) : exec (.ret b) s = .next (retLeft s b) := by
  refine (exec_of_allowed rfl ha).trans (congrArg _ ?_)
  change (if returnMask s b.hdr = 0 then _ else _) = _
  unfold retLeft
  split <;> rfl

/-! ## The obligation -/

/-- Settles O28: `call` by whether a channel takes it, `ret` by whether the call mask becomes empty. -/
theorem callAndRet : Obligations.CallAndRet := by
  refine ⟨fun s c ha => ?call, fun s b ha => ?ret⟩
  case call =>
    rw [← target_eq]
    intro dest addr
    obtain ⟨grf, dep, hleft⟩ := callLeft_eq s c
    refine ⟨callLeft s c, exec_call ha, ?frame, fun n hn => ?mask, fun hspf => ?single, fun hspf n => ?multi,
      fun r hr => callLeft_depOf_kept s c hr, fun hjump => ?taken, fun hstay => ?stayed⟩
    case taken =>
      have hjumps := (callJumps_iff s c.hdr).2 hjump
      have hpair : addr + 8 ≤ 4096 := callChecks_pair ha
      rw [callLeft_of_jump hjumps]
      refine ⟨if_pos hjumps, ?_, fun i hi => grfByte_storePair _ _ _ hpair hi, fun a houtside =>
        grfByte_storePair_kept _ _ _ houtside⟩
      rw [markDst_depOf _ _ _ _ _ (by omega) rfl, if_pos List.mem_cons_self]
    case stayed =>
      have hnone : callJumps s c.hdr = false := Bool.eq_false_iff.2 fun hjumps => by
        obtain ⟨n, hn⟩ := (callJumps_iff s c.hdr).1 hjumps
        exact absurd ((hstay n).symm.trans hn) Bool.false_ne_true
      rw [callLeft_of_stay hnone]
      exact ⟨if_neg (by simp [hnone]), rfl⟩
    all_goals rw [hleft]
    case frame => rfl
    case mask => exact getLsbD_maskOf _ hn
    case single => exact callPcIP_of_spf hspf ..
    case multi => exact getElem_callPcIP hspf ..
  case ret =>
    exact ⟨retLeft s b, exec_ret ha, returnMask s b.hdr, fun n hn => getLsbD_maskOf _ hn, rfl,
      fun hempty => ⟨if_pos hempty, if_pos hempty⟩, fun hleft => ⟨if_neg hleft, if_neg hleft⟩,
      fun hspf => callPcIP_of_spf hspf .., fun hspf => getElem_callPcIP hspf _ _⟩

end Sys2Proof.Machine
end

section
/-! OBLIGATIONS O16 and O20: `illegal`, `nop` and `wait` (spec/43_misc_send_wait.md R700, R704, R705; spec/60_exceptions.md R907, R910; spec/10_state.md R81). -/

namespace Sys2Proof.Machine

/-! ## illegal, nop (R704, R705) -/

/-- Where Illegal Opcode is enabled outside the System Routine the exception is taken, with AIP at the instruction. -/
theorem exec_illegal_raises {s : State} (hin : s.inSR = false) (henabled : s.cr01.getLsbD 12 = true) :
    exec .illegal s = .next (raise { s with cr01 := s.cr01 ||| 0x10000000 } s.ip) :=
  if_pos (by rw [hin, henabled]; rfl)

/-- Elsewhere it is a no-operation that leaves its status bit. -/
theorem exec_illegal_advances {s : State} (h : s.inSR = true ∨ s.cr01.getLsbD 12 = false) :
    exec .illegal s = .next (advance s.spf { s with cr01 := s.cr01 ||| 0x10000000 }) :=
  if_neg (by rcases h with h | h <;> rw [h] <;> simp)

/-- Settles O16, by whether the exception is taken. -/
theorem illegalAndNop : Obligations.IllegalAndNop := fun _ =>
  ⟨exec_illegal_raises, exec_illegal_advances, fun _ => rfl⟩

/-! ## wait (R700) -/

/-- A notification that is there is consumed. -/
theorem notify_addNotify_down {s : State} {k : Fin 3} (h : s.notify k ≠ 0) :
    (s.addNotify k false).notify k = s.notify k - 1 := by
  match k with
  | 0 | 1 | 2 => exact BitVec.toNat_sub_of_le (BitVec.le_def.2 (Nat.one_le_iff_ne_zero.2 h))

/-- `wait` at a notification that is there, and without one. -/
theorem exec_wait {s : State} {b : Basic1} {k : Fin 3} (ha : Allowed (waitChecks s b)) (hk : waitIndex b = some k) :
    exec (.wait b) s =
      .next (if s.notify k = 0 then { s with run := .waiting k } else advance s.spf (s.addNotify k false)) := by
  change execWait b s = _
  unfold execWait
  rw [show firstViolation (waitChecks s b) = none from ha, hk]
  by_cases h : s.notify k = 0 <;> simp [guarded, h]

/-- The step of a suspended thread that no asynchronous exception wakes. -/
theorem step_waiting {s : State} {k : Fin 3} (hhost : s.host = []) (hrun : s.run = .waiting k)
    (hpend : s.inSR = true ∨ (s.pendHalt = false ∧ s.pendSW = false)) :
    step s = .next (if s.notify k = 0 then s else advance s.spf { s.addNotify k false with run := .running }) := by
  have hquiet : (!s.inSR && (s.pendHalt || s.pendSW)) = false := by
    rcases hpend with h | ⟨hh, hs⟩ <;> simp [*]
  unfold step machineStep
  rw [hhost]
  unfold threadStep
  rw [hrun]
  unfold runWaiting
  by_cases h : s.notify k = 0 <;> simp [hquiet, h]

/-- Settles O20, by whether a notification is there. -/
theorem waitConsumesOrSuspends : Obligations.WaitConsumesOrSuspends := by
  refine ⟨fun s b k ha hk => ⟨_, exec_wait ha hk, ?issued⟩, fun s k hhost hrun hpend => ?suspended⟩
  case issued =>
    split
    · rfl
    next hcount =>
      exact ⟨notify_addNotify_down hcount, fun j hj => notify_addNotify_ne s false hj,
        congrArg (advance s.spf) (addNotify_eq s k false)⟩
  case suspended =>
    rw [step_waiting hhost hrun hpend]
    refine ⟨fun hnone => by rw [if_pos hnone], fun hcount => ?_⟩
    rw [if_neg hcount]
    exact ⟨_, rfl, notify_addNotify_down hcount, fun j hj => notify_addNotify_ne s false hj,
      congrArg (fun t : State => advance s.spf { t with run := .running }) (addNotify_eq s k false)⟩

end Sys2Proof.Machine
end

section
/-! OBLIGATION O21: `send` and `sendc` (spec/43_misc_send_wait.md R701, R702; spec/20_memory.md R210 to R212; spec/70_reset_and_hazards.md R953, R961). -/

namespace Sys2Proof.Machine

/-! ## The message -/

theorem getLsbD_foldl_setBit {w : Nat} (f : Nat → Bool) (l : List Nat) (v : BitVec w) {i : Nat} (hi : i < w) :
    (l.foldl (fun v j => if f j then v ||| (1#w <<< j) else v) v).getLsbD i = (v.getLsbD i || (decide (i ∈ l) && f i)) := by
  induction l generalizing v with
  | nil => simp
  | cons j l ih =>
    have hone : (1#w <<< j).getLsbD i = decide (i = j) := by
      rw [getLsbD_one_shiftLeft w j i (by omega), decide_eq_true hi, Bool.true_and]
    have hstep : (if f j then v ||| (1#w <<< j) else v).getLsbD i = (v.getLsbD i || (decide (i = j) && f j)) := by
      split
      next hf => rw [BitVec.getLsbD_or, hone, hf, Bool.and_true]
      next hf => rw [Bool.eq_false_iff.2 hf, Bool.and_false, Bool.or_false]
    rw [List.foldl_cons, ih, hstep]
    by_cases hij : i = j
    · subst hij
      cases f i <;> simp
    · simp [hij]

theorem getLsbD_channelEnables (s : State) (m : Send) {n : Nat} (hn : n < 16) :
    (channelEnables s m).getLsbD n = (wrEn s m.hdr n && m.dst.region.chanOn n) := by
  refine (getLsbD_foldl_setBit (fun i => wrEn s m.hdr i && m.dst.region.chanOn i) _ _ hn).trans ?_
  simp [hn]

/-! ## The response (20_memory R212, 70 R961) -/

section
variable {s : State} {m : Send} {h : Header} {msg : Message}

/-- The registers of an allowed response stand in the allocation (10_state R53). -/
theorem sendChecks_dstReg (ha : Allowed (sendChecks s m)) {r : Nat} (hr : sendReg s m.dst.loc = some r) :
    r + max 1 (descRlen (sendDesc s m)).toNat ≤ 128 := by
  have hrange := allowed_mem ha
    (c := (rangeOutside s (sendReg s m.dst.loc) (max 1 (descRlen (sendDesc s m)).toNat), .grfRange)) (by simp [sendChecks])
  simp only [hr, rangeOutside, Bool.and_eq_false_iff, bne_eq_false_iff_eq, decide_eq_false_iff_not] at hrange
  omega

/-- An allowed EOT expects no response. -/
theorem sendChecks_eot (ha : Allowed (sendChecks s m)) (heot : m.eot = true) : sendReg s m.dst.loc = none := by
  have hnull := allowed_mem ha (c := (m.eot && !m.dst.loc.isNull, .operand)) (by simp [sendChecks])
  rw [heot, Bool.true_and, Bool.not_eq_false'] at hnull
  cases hloc : m.dst.loc with
  | arf a sub => rfl
  | grf _ _ | ind _ _ => rw [hloc] at hnull; exact absurd hnull Bool.false_ne_true

theorem expectResponse_none (h : Header) (hnone : msg.reg = none ∨ msg.rlen = 0) : expectResponse s h msg = s := by
  unfold expectResponse
  rcases hnone with hreg | hlen
  · rw [hreg]
  · cases msg.reg <;> simp [hlen]

theorem expectResponse_some (h : Header) {r : BitVec 7} (hreg : msg.reg = some r) (hlen : msg.rlen ≠ 0) :
    expectResponse s h msg = { s with
      outstanding := s.outstanding ++ [{ reg := r, rlen := msg.rlen, clear := msg.clear, landed := 0 }]
      dep := markResponse s h r.toNat msg.rlen.toNat } := by
  unfold expectResponse
  rw [hreg]
  exact if_neg hlen

/-- Only registers of the response get marks. -/
theorem markResponse_kept (s : State) (h : Header) {first count q : Nat} (hq : q < first ∨ first + count ≤ q) :
    (markResponse s h first count).getLsbD q = s.dep.getLsbD q := by
  obtain hlt | hge := Nat.lt_or_ge q 128
  · unfold markResponse
    split
    · have hmap : ∀ d : BitVec 128,
          (List.range count).foldl (fun d i => setDep d (first + i) ((Config.free s.draw (.dep (first + i))).getLsbD 0)) d =
            ((List.range count).map (first + ·)).foldl
              (fun d r => setDep d r ((Config.free s.draw (.dep r)).getLsbD 0)) d := fun d => by rw [List.foldl_map]
      rw [hmap, foldl_setDep_get _ _ (fun r => (Config.free s.draw (.dep r)).getLsbD 0) _ hlt, if_neg]
      rw [List.mem_map]
      rintro ⟨i, hi, rfl⟩
      have := List.mem_range.1 hi
      omega
    · rw [markRange_get _ _ _ _ _ hlt, if_neg (by omega)]
  · rw [BitVec.getLsbD_of_ge _ _ hge, BitVec.getLsbD_of_ge _ _ hge]

/-- Where they are not free (U17) all of them are set. -/
theorem markResponse_set (hmark : h.noDDClr = false ∨ ∃ n, n < h.count ∧ wrEn s h n = true) {first count q : Nat}
    (hlo : first ≤ q) (hhi : q < first + count) (hq : q < 128) : (markResponse s h first count).getLsbD q = true := by
  have hany : (h.noDDClr && !anyWrEn s h) = false := by
    rcases hmark with hclr | ⟨n, hn, hen⟩
    · rw [hclr, Bool.false_and]
    · rw [show anyWrEn s h = true from List.any_eq_true.2 ⟨n, List.mem_range.2 hn, hen⟩, Bool.not_true, Bool.and_false]
  rw [markResponse, if_neg (Bool.eq_false_iff.1 hany), markRange_get _ _ _ _ _ hq, if_pos ⟨hlo, hhi⟩]

/-! ## The next state -/

/-- The state with the message enqueued. -/
def enqueued (s : State) (m : Send) : State := { s with messages := s.messages ++ [messageOf s m] }

theorem sendState_messages (s : State) (m : Send) : (sendState s m).messages = s.messages ++ [messageOf s m] := by
  unfold sendState
  cases m.eot <;> simp

theorem sendState_eot (ha : Allowed (sendChecks s m)) (heot : m.eot = true) :
    sendState s m = { enqueued s m with run := .ended, outstanding := [] } := by
  have hnone : (messageOf s m).reg = none := congrArg (Option.map _) (sendChecks_eot ha heot)
  unfold sendState
  dsimp only
  rw [if_pos heot, expectResponse_none m.hdr (.inl hnone)]
  rfl

theorem sendState_goes (heot : m.eot = false) :
    sendState s m = advance s.spf (expectResponse (enqueued s m) m.hdr (messageOf s m)) :=
  if_neg (by simp [heot])

theorem exec_send (ha : Allowed (sendChecks s m)) : exec (.send m) s = .next (sendState s m) := exec_of_allowed rfl ha

theorem exec_sendc (ha : Allowed (sendChecks s m)) :
    exec (.sendc m) s = .next (if s.tdrPending then s else sendState s m) := exec_of_allowed rfl ha

/-- A violated restriction refuses both instructions. -/
theorem send_refused {c : Check} (hc : c ∈ sendChecks s m) (hbad : c.1 = true) :
    (∃ r, exec (.send m) s = .refused r) ∧ ∃ r, exec (.sendc m) s = .refused r := by
  obtain ⟨r, hr⟩ := violated hc hbad
  refine ⟨⟨.restriction r, ?_⟩, ⟨.restriction r, ?_⟩⟩
  · change execSend m s = _
    rw [execSend, hr]
    rfl
  · change execSendc m s = _
    rw [execSendc, hr]
    rfl

/-- The marks of a thread that goes on, with the response that it is owed. -/
theorem sendState_response (ha : Allowed (sendChecks s m)) (heot : m.eot = false) {r : Nat}
    (hr : sendReg s m.dst.loc = some r) (hlen : (messageOf s m).rlen ≠ 0) :
    let t := sendState s m
    let msg := messageOf s m
    t.outstanding = s.outstanding ++ [{ reg := BitVec.ofNat 7 r, rlen := msg.rlen, clear := msg.clear, landed := 0 }] ∧
      (∀ q, q < r ∨ r + msg.rlen.toNat ≤ q → t.depOf q = s.depOf q) ∧
      (m.hdr.noDDClr = false ∨ (∃ n, n < m.hdr.count ∧ wrEn s m.hdr n = true) →
        ∀ q, r ≤ q → q < r + msg.rlen.toNat → t.depOf q = true) := by
  intro t msg
  have hreg : msg.reg = some (BitVec.ofNat 7 r) := congrArg (Option.map _) hr
  have hrange : r + max 1 msg.rlen.toNat ≤ 128 := sendChecks_dstReg ha hr
  have hnat : (BitVec.ofNat 7 r).toNat = r := by
    rw [BitVec.toNat_ofNat]
    exact Nat.mod_eq_of_lt (by omega)
  have ht : t = _ := (sendState_goes heot).trans (congrArg (advance s.spf) (expectResponse_some m.hdr hreg hlen))
  rw [ht, hnat]
  refine ⟨rfl, fun q hq => markResponse_kept _ m.hdr hq, fun hmark q hlo hhi => ?_⟩
  exact markResponse_set (s := enqueued s m) hmark hlo hhi (by omega)

end

/-! ## The obligation -/

/-- Settles O21: the message is `messageOf`, an EOT ends the thread, and otherwise the response that is owed gets its marks. -/
theorem sendAndSendc : Obligations.SendAndSendc := by
  refine ⟨fun s m ha => ⟨sendState s m, exec_send ha, messageOf s m, sendState_messages s m, rfl, rfl, rfl, rfl, rfl, rfl,
    rfl, rfl, rfl, rfl, rfl, rfl, rfl, fun n hn => getLsbD_channelEnables s m hn, ?length, fun i hi => ?payload,
    fun heot => ?ends, fun heot => ⟨?goes, fun hnone => ?silent, fun r hr hlen => sendState_response ha heot hr hlen⟩⟩,
    fun s m ha => ⟨fun hdone => ?sends, fun hlive => ?waits⟩, fun s m heot hbad => ?refused⟩
  case length => simp [messageOf, descMlen]
  case payload =>
    rw [List.getElem?_eq_getElem hi]
    simp [messageOf]
  case ends =>
    rw [sendState_messages]
    exact sendState_eot ha heot
  case goes =>
    rw [sendState_messages, sendState_goes heot, expectResponse_eq]
    rfl
  case silent =>
    have hsilent : (messageOf s m).reg = none ∨ (messageOf s m).rlen = 0 := hnone.imp_left (congrArg (Option.map _))
    rw [sendState_goes heot, expectResponse_none m.hdr hsilent]
    exact ⟨rfl, rfl⟩
  case sends =>
    have hsends : exec (.sendc m) s = .next (sendState s m) := by
      rw [exec_sendc ha, if_neg]
      simpa only [State.tdrPending, List.any_eq_true, not_exists, not_and, Bool.not_eq_true] using hdone
    exact ⟨hsends.trans (exec_send ha).symm, _, _, hsends, sendState_messages s m⟩
  case waits =>
    rw [exec_sendc ha, if_pos (show s.tdrPending = true from List.any_eq_true.2 hlive)]
  case refused =>
    rcases hbad with ⟨num, sub, hloc, hlow⟩ | hdst
    · refine send_refused (c := (eotOutside m, .eotSource)) (by simp [sendChecks]) ?_
      simp [eotOutside, heot, hloc, hlow]
    · refine send_refused (c := (m.eot && !m.dst.loc.isNull, .operand)) (by simp [sendChecks]) ?_
      cases hloc : m.dst.loc with
      | arf a sub => rw [hloc] at hdst; exact absurd hdst (by simp [Loc.isArf])
      | grf _ _ | ind _ _ => simp [heot, Loc.isNull]

end Sys2Proof.Machine
end

section
/-! SUPPORT. `math` behind its restrictions: the step of a float function, its operand and the pattern of its result (spec/43_misc_send_wait.md R703; spec/40_common_execution.md R482). -/

namespace Sys2Proof.Machine

section
variable {s : State} {m : Math} {n : Nat}

/-! ## The step -/

/-- Every function but quotient with remainder is a data instruction. -/
theorem exec_math (hreserved : isReservedFC m.fc = false) (hboth : m.fc ≠ 0xB) : exec (.math m) s =
    execute s (firstViolation (mathChecks s m)) (effect s m.hdr .none m.dst (mathSrcs m) (mathOut s m)) := by
  change execMath m s = _
  unfold execMath execute
  rw [if_neg (Bool.eq_false_iff.1 hreserved), if_neg hboth]

theorem mathChecks_data (ha : Allowed (mathChecks s m)) :
    Allowed (dataChecks s m.hdr .none m.dst (mathSrcs m) false) := by
  unfold mathChecks at ha
  exact allowed_of_append ha

/-- The destination of an allowed `math` is no control register. -/
theorem staysIn_math (ha : Allowed (mathChecks s m)) : StaysIn s m.dst := by
  have hgrf := mathChecks_dst ha
  refine .inr ?_
  cases hloc : m.dst.loc with
  | grf _ _ => rfl
  | arf _ _ | ind _ _ => rw [hloc] at hgrf; exact absurd hgrf Bool.false_ne_true

/-- The step of a function that writes one result a channel. -/
theorem math_step {val : Nat → DWord → Bool → QWord → QWord → Prop} (ha : Allowed (mathChecks s m))
    (hreserved : isReservedFC m.fc = false) (hboth : m.fc ≠ 0xB)
    (hv : ∀ n, n < m.hdr.count → val n (mathOut s m n).bits (mathOut s m n).flag (mathOut s m n).acc (mathOut s m n).wide) :
    DataStep s (.math m) m.hdr .none m.dst (mathSrcs m) val :=
  dataStep_of_checks (exec_math hreserved hboth) ha (mathChecks_data ha) (staysIn_math ha) fun n hn _ => hv n hn

/-! ## Float functions -/

/-- The number that channel n of a float function takes from src0, and from src1. -/
def mathX (s : State) (m : Math) (n : Nat) : FVal := valF s m.hdr (dstTwoRegs s m.hdr m.dst) 0 (.reg m.src0) n
def mathY (s : State) (m : Math) (n : Nat) : FVal := valF s m.hdr (dstTwoRegs s m.hdr m.dst) 1 m.src1 n

/-- An F number as a result: an infinity is clamped in ALT mode (40 R481). -/
def FVal.clampInf (md : FMode) (v : FVal) : FVal :=
  match v with
  | .inf neg => (infRes md neg).val
  | c => c

/-- The uninterpreted result of the function on channel n, as a number (93 U12; log 31). -/
def mathCand (s : State) (m : Math) (n : Nat) : FVal :=
  FVal.clampInf (mathMode s) ((FVal.ofBits fmtF (Config.mathValue m.fc s.altMode
    (srcF s m.hdr (dstTwoRegs s m.hdr m.dst) 0 (.reg m.src0) n)
    (if isUnaryFC m.fc then 0 else srcF s m.hdr (dstTwoRegs s m.hdr m.dst) 1 m.src1 n)).toNat).flushIn (mathMode s))

theorem inF_maxVal (neg : Bool) : (fmtF.maxVal neg).InF := inF_ofBits _

theorem inF_mathCand : (mathCand s m n).InF := by
  have hin := inF_flushIn (inF_ofBits (Config.mathValue m.fc s.altMode
    (srcF s m.hdr (dstTwoRegs s m.hdr m.dst) 0 (.reg m.src0) n)
    (if isUnaryFC m.fc then 0 else srcF s m.hdr (dstTwoRegs s m.hdr m.dst) 1 m.src1 n)).toNat) (mathMode s)
  unfold mathCand
  generalize (FVal.ofBits fmtF _).flushIn (mathMode s) = v at hin
  cases v with
  | nan | fin => exact hin
  | inf neg =>
    change (if s.altMode then fmtF.maxVal neg else FVal.inf neg).InF
    split
    · exact inF_maxVal neg
    · exact hin

theorem mathFloat_unary (hunary : isUnaryFC m.fc = true) :
    mathFloat s m n = mathUnary (mathMode s) m.fc (mathCand s m n) (mathX s m n) := by
  have h9 : m.fc ≠ 9 := fun h => by rw [h] at hunary; exact absurd hunary (by decide)
  have hA : m.fc ≠ 0xA := fun h => by rw [h] at hunary; exact absurd hunary (by decide)
  exact (if_neg h9).trans (if_neg hA)

theorem mathFloat_fdiv (hfc : m.fc = 9) : mathFloat s m n = some (fdiv (mathMode s) (mathX s m n) (mathY s m n)).val := by
  have hunary : isUnaryFC m.fc = false := by rw [hfc]; decide
  unfold mathFloat
  rw [if_pos hfc, hunary]
  rfl

theorem mathFloat_pow (hfc : m.fc = 0xA) : mathFloat s m n =
    if s.altMode then powALT (mathMode s) (mathCand s m n) (mathX s m n) (mathY s m n)
    else powIEEE (mathMode s) (mathCand s m n) (mathX s m n) (mathY s m n) := by
  have hunary : isUnaryFC m.fc = false := by rw [hfc]; decide
  have h9 : m.fc ≠ 9 := by rw [hfc]; decide
  unfold mathFloat mathCand
  rw [if_neg h9, if_pos hfc, hunary]
  rfl

/-- The pattern that a float function writes holds its number. -/
theorem mathOut_holds (hint : isIntDivFC m.fc = false) {w : FVal}
    (hw : mathFloat s m n = some w) : HoldsFloat fmtF (saturated fmtF m.hdr.sat w) (mathOut s m n).bits := by
  unfold mathOut mathFloatOut
  rw [hint, if_neg Bool.false_ne_true, hw]
  exact holdsFloat_floatBitsF n m.hdr.sat w

/-- The step of a function of one source: what its value is on channel n, the destination element holds. -/
theorem unary_step {val : Nat → DWord → Bool → QWord → QWord → Prop} (ha : Allowed (mathChecks s m))
    (hunary : isUnaryFC m.fc = true)
    (hv : ∀ n bits flag acc wide, (∀ w, mathUnary (mathMode s) m.fc (mathCand s m n) (mathX s m n) = some w →
      HoldsFloat fmtF (saturated fmtF m.hdr.sat w) bits) → val n bits flag acc wide) :
    DataStep s (.math m) m.hdr .none m.dst (mathSrcs m) val := by
  have hkinds : isReservedFC m.fc = false ∧ isIntDivFC m.fc = false ∧ m.fc ≠ 0xB := by
    generalize m.fc = fc at hunary
    revert fc
    decide
  obtain ⟨hreserved, hint, hboth⟩ := hkinds
  exact math_step ha hreserved hboth fun n _ => hv n _ _ _ _ fun w hw =>
    mathOut_holds hint ((mathFloat_unary hunary).trans hw)

end

end Sys2Proof.Machine
end

section
/-! OBLIGATION O58: the special values of the float functions (spec/43_misc_send_wait.md R710 to R718; spec/92_eei_decisions.md D17). -/

namespace Sys2Proof.Machine

/-! ## Functions of one source (R710 to R714, R716, R717) -/

/-- The IEEE tables: what function fc makes of the operand v. -/
def IeeeTable (fc : Nat) (v w : FVal) : Prop :=
  match fc with
  | 1 => (v = .inf false → w = .fin false 0 fmtF.emin) ∧ (v = .inf true → w = .fin true 0 fmtF.emin) ∧
      (∀ neg, v = .fin neg 0 fmtF.emin → w = .inf neg)
  | 2 => (v = .inf false → w = .inf false) ∧ (v = .inf true → w = .nan) ∧
      (∀ neg, v = .fin neg 0 fmtF.emin → w = .inf true) ∧ (∀ k e, k ≠ 0 → v = .fin true k e → w = .nan)
  | 3 => (v = .inf false → w = .inf false) ∧ (v = .inf true → w = .fin false 0 fmtF.emin) ∧
      (∀ neg, v = .fin neg 0 fmtF.emin → w = .fin false 1 0)
  | 4 => (v = .inf false → w = .inf false) ∧ (v = .inf true → w = .nan) ∧
      (∀ neg, v = .fin neg 0 fmtF.emin → w = .fin neg 0 fmtF.emin) ∧ (∀ k e, k ≠ 0 → v = .fin true k e → w = .nan)
  | 5 => (v = .inf false → w = .fin false 0 fmtF.emin) ∧ (v = .inf true → w = .nan) ∧
      (∀ neg, v = .fin neg 0 fmtF.emin → w = .inf neg) ∧ (∀ k e, k ≠ 0 → v = .fin true k e → w = .nan)
  | 6 => (∀ neg, v = .inf neg → w = .nan) ∧ (∀ neg, v = .fin neg 0 fmtF.emin → w = .fin neg 0 fmtF.emin)
  | 7 => (∀ neg, v = .inf neg → w = .nan) ∧ (∀ neg, v = .fin neg 0 fmtF.emin → w = .fin false 1 0)
  | _ => True

/-- The ALT tables: what function fc makes of a zero. -/
def AltTable (fc : Nat) (v w : FVal) : Prop :=
  ∀ neg, v = .fin neg 0 fmtF.emin →
    match fc with
    | 1 => w = fmtF.maxVal neg
    | 2 => w = fmtF.maxVal true
    | 3 => w = .fin false 1 0
    | 4 => w = .fin false 0 fmtF.emin
    | 5 => w = fmtF.maxVal false
    | 6 => w = .fin neg 0 fmtF.emin
    | 7 => w = .fin false 1 0
    | _ => True

section
variable {md : FMode} {fc : BitVec 4} {cand : FVal}

theorem unaryFC_cases (hunary : isUnaryFC fc = true) :
    fc = 1 ∨ fc = 2 ∨ fc = 3 ∨ fc = 4 ∨ fc = 5 ∨ fc = 6 ∨ fc = 7 := by
  revert fc
  decide

theorem mathUnary_nan (md : FMode) (fc : BitVec 4) (cand : FVal) : mathUnary md fc cand .nan = some .nan := rfl

theorem ieeeTable_nan (fc : Nat) : IeeeTable fc .nan .nan := by
  unfold IeeeTable
  split <;> simp

theorem mathUnary_inf (hfmt : md.fmt = fmtF) (halt : md.alt = false) (hunary : isUnaryFC fc = true) (neg : Bool) :
    ∃ w, mathUnary md fc cand (.inf neg) = some w ∧ IeeeTable fc.toNat (.inf neg) w := by
  have hif : ∀ o : Option FVal, (if md.alt then none else o) = o := fun _ => by rw [halt]; rfl
  unfold mathUnary
  simp only [hif, hfmt]
  rcases unaryFC_cases hunary with rfl | rfl | rfl | rfl | rfl | rfl | rfl
  all_goals exact ⟨_, rfl, by cases neg <;> simp [IeeeTable]⟩

theorem mathUnary_zero (hfmt : md.fmt = fmtF) (hunary : isUnaryFC fc = true) (neg : Bool) (e : Int) :
    ∃ w, mathUnary md fc cand (.fin neg 0 e) = some w ∧
      if md.alt then AltTable fc.toNat (.fin neg 0 e) w else IeeeTable fc.toNat (.fin neg 0 e) w := by
  unfold mathUnary
  simp only [infRes, hfmt]
  rcases unaryFC_cases hunary with rfl | rfl | rfl | rfl | rfl | rfl | rfl
  all_goals
    refine ⟨_, rfl, ?_⟩
    cases md.alt
    · simp +contextual [IeeeTable, eq_comm (a := 0)]
    · simp +contextual [AltTable]

/-- Of a number that is not zero the tables say that it may not be negative; every function has a result. -/
theorem mathUnary_number (hunary : isUnaryFC fc = true) (neg : Bool) {j : Nat} (e : Int) (hj : j ≠ 0) :
    ∃ w, mathUnary md fc cand (.fin neg j e) = some w ∧
      if md.alt then AltTable fc.toNat (.fin neg j e) w else IeeeTable fc.toNat (.fin neg j e) w := by
  have hif : ∀ x y : Option FVal, (if j = 0 then x else y) = y := fun _ _ => if_neg hj
  unfold mathUnary
  simp only [hif]
  rcases unaryFC_cases hunary with rfl | rfl | rfl | rfl | rfl | rfl | rfl
  all_goals
    refine ⟨_, rfl, ?_⟩
    cases md.alt
    · simp +contextual [IeeeTable, hj]
    · simp +contextual [AltTable, hj]

theorem mathUnary_special (hfmt : md.fmt = fmtF) (hunary : isUnaryFC fc = true) {v : FVal}
    (hv : v.isSpecial = false ∨ md.alt = false ∨ v = .nan) :
    ∃ w, mathUnary md fc cand v = some w ∧ (v = .nan → w = .nan) ∧
      if md.alt then AltTable fc.toNat v w else IeeeTable fc.toNat v w := by
  cases v with
  | nan =>
    refine ⟨.nan, mathUnary_nan .., fun _ => rfl, ?_⟩
    split
    · exact fun neg h => nomatch h
    · exact ieeeTable_nan _
  | inf neg =>
    have halt : md.alt = false := by simpa [FVal.isSpecial] using hv
    obtain ⟨w, hw, htable⟩ := mathUnary_inf (cand := cand) hfmt halt hunary neg
    exact ⟨w, hw, nofun, by rwa [halt]⟩
  | fin neg j e =>
    obtain rfl | hj := Nat.eq_zero_or_pos j
    · obtain ⟨w, hw, htable⟩ := mathUnary_zero (cand := cand) hfmt hunary neg e
      exact ⟨w, hw, nofun, htable⟩
    · obtain ⟨w, hw, htable⟩ := mathUnary_number (md := md) (cand := cand) hunary neg e hj.ne'
      exact ⟨w, hw, nofun, htable⟩

end

/-! ## POW (R715) -/

/-- A positive finite number that is not zero. -/
def PositiveFinite (w : FVal) : Prop := ∃ k e, k ≠ 0 ∧ w = .fin false k e

theorem powPositive_positive (cand : FVal) : PositiveFinite (powPositive cand) := by
  unfold powPositive
  split
  next hpos =>
    cases cand with
    | nan | inf => simp [FVal.isSpecial] at hpos
    | fin neg m e =>
      simp only [FVal.isSpecial, FVal.sign, FVal.isZero, Bool.not_false, Bool.true_and, Bool.and_eq_true, Bool.not_eq_true',
        decide_eq_false_iff_not] at hpos
      obtain ⟨rfl, hm⟩ := hpos
      exact ⟨m, e, hm, rfl⟩
  · exact ⟨1, 0, one_ne_zero, rfl⟩

/-- The IEEE table: row u (src1), column v (src0). -/
def PowIeeeTable (v u w : FVal) : Prop :=
  (v = .nan ∨ u = .nan → w = .nan) ∧
  (∀ neg k e, k ≠ 0 → u = .fin neg k e →
    (v = .inf neg → neg = false → w = .inf false) ∧ (v = .inf true → neg = false → w = .nan) ∧
    (∀ n2, v = .inf n2 → neg = true → w = .fin false 0 fmtF.emin) ∧
    (∀ n2, v = .fin n2 0 fmtF.emin → w = if neg then .inf false else .fin false 0 fmtF.emin) ∧
    (PositiveFinite v → neg = true ∨ 1 < v.toRat → PositiveFinite w)) ∧
  (∀ neg, u = .fin neg 0 fmtF.emin →
    ((∃ n2, v = .inf n2) ∨ (∃ n2, v = .fin n2 0 fmtF.emin) → w = .nan) ∧ (PositiveFinite v → w = .fin false 1 0)) ∧
  (∀ neg, u = .inf neg →
    (∀ n2, v = .inf n2 → w = if neg then .fin false 0 fmtF.emin else .inf false) ∧
    (∀ n2, v = .fin n2 0 fmtF.emin → w = if neg then .inf false else .fin false 0 fmtF.emin) ∧
    (PositiveFinite v → w = if v.toRat = 1 then .nan
      else if (decide (1 < v.toRat)) = neg then .fin false 0 fmtF.emin else .inf false))

/-- The ALT table. -/
def PowAltTable (v u w : FVal) : Prop :=
  (v = .nan → (∀ neg, u ≠ .inf neg) → w = .nan) ∧
  (u = .nan → (∃ neg, v = .fin neg 0 fmtF.emin) ∨ (∃ k e, v = .fin true k e) → w = .nan) ∧
  (∀ n2 j d, v = .fin n2 j d →
    (∀ neg, u = .fin neg 0 fmtF.emin → w = .fin false 1 0) ∧
    (∀ neg k e, k ≠ 0 → u = .fin neg k e →
      (j = 0 → w = if neg then fmtF.maxVal false else .fin false 0 fmtF.emin) ∧ (j ≠ 0 → PositiveFinite w)))

theorem cmpFin_one (m : Nat) (e : Int) :
    (cmpFin false m e false 1 0 = 1 ↔ 1 < (FVal.fin false m e).toRat) ∧
    (cmpFin false m e false 1 0 = 0 ↔ (FVal.fin false m e).toRat = 1) := by
  have hone : (FVal.fin false 1 0).toRat = 1 := by simp [FVal.toRat, pow2]
  obtain ⟨hlt, heq⟩ := cmpFin_order false false m 1 e 0
  rw [hone] at hlt heq
  refine ⟨?_, heq⟩
  rw [← not_le, le_iff_lt_or_eq, ← hlt, ← heq]
  unfold cmpFin
  rcases Int.sign_trichotomy (addExact (signedM false m) e (-(signedM false 1)) 0).1 with h | h | h <;> rw [h] <;> decide

section
variable {md : FMode} {cand x y : FVal}

theorem powIEEE_inf (hfmt : md.fmt = fmtF) (neg : Bool) (y : FVal) :
    ∃ w, powIEEE md cand (.inf neg) y = some w ∧ PowIeeeTable (.inf neg) y w := by
  unfold powIEEE
  rw [hfmt]
  cases y with
  | nan => exact ⟨.nan, rfl, by simp [PowIeeeTable]⟩
  | inf yneg => exact ⟨_, rfl, by cases yneg <;> simp [PowIeeeTable, PositiveFinite]⟩
  | fin yneg k f =>
    dsimp only
    split
    next hk => exact ⟨.nan, rfl, by simp +contextual [PowIeeeTable, PositiveFinite, hk, eq_comm (a := 0)]⟩
    next hk => cases yneg <;> cases neg <;> exact ⟨_, rfl, by simp +contextual [PowIeeeTable, PositiveFinite, hk]⟩

theorem powIEEE_zero (hfmt : md.fmt = fmtF) (neg : Bool) (e : Int) (y : FVal) :
    ∃ w, powIEEE md cand (.fin neg 0 e) y = some w ∧ PowIeeeTable (.fin neg 0 e) y w := by
  cases y with
  | nan => exact ⟨.nan, by cases neg <;> rfl, by simp [PowIeeeTable]⟩
  | inf yneg =>
    have hrow : powIEEE md cand (.fin neg 0 e) (.inf yneg) =
        some (if yneg then .inf false else .fin false 0 md.fmt.emin) := by cases neg <;> rfl
    rw [hrow, hfmt]
    exact ⟨_, rfl, by cases yneg <;> simp +contextual [PowIeeeTable, PositiveFinite, eq_comm (a := 0)]⟩
  | fin yneg k f =>
    have hrow : powIEEE md cand (.fin neg 0 e) (.fin yneg k f) =
        if k = 0 then some .nan else some (if yneg then .inf false else .fin false 0 md.fmt.emin) := by cases neg <;> rfl
    rw [hrow, hfmt]
    split
    next hk => exact ⟨.nan, rfl, by simp +contextual [PowIeeeTable, PositiveFinite, hk, eq_comm (a := 0)]⟩
    next hk => exact ⟨_, rfl, by cases yneg <;> simp +contextual [PowIeeeTable, PositiveFinite, hk, eq_comm (a := 0)]⟩

/-- A positive base: against an infinity by its order to 1, else +F. -/
theorem powIEEE_positive (hfmt : md.fmt = fmtF) {m : Nat} (e : Int) (y : FVal)
    (hblank : ∀ j d, j ≠ 0 → y = .fin false j d → 1 < (FVal.fin false (m + 1) e).toRat) :
    ∃ w, powIEEE md cand (.fin false (m + 1) e) y = some w ∧ PowIeeeTable (.fin false (m + 1) e) y w := by
  obtain ⟨habove, hone⟩ := cmpFin_one (m + 1) e
  cases y with
  | nan => exact ⟨.nan, rfl, by simp [PowIeeeTable]⟩
  | inf yneg =>
    have hrow : powIEEE md cand (.fin false (m + 1) e) (.inf yneg) =
        if cmpFin false (m + 1) e false 1 0 = 0 then some .nan
        else if (cmpFin false (m + 1) e false 1 0 = 1) = yneg then some (.fin false 0 md.fmt.emin)
        else some (.inf false) := rfl
    simp only [hrow, hfmt, hone, habove]
    split
    next h1 => exact ⟨.nan, rfl, by simp [PowIeeeTable, PositiveFinite, h1]⟩
    next h1 =>
      split
      next h2 => exact ⟨_, rfl, by simp [PowIeeeTable, PositiveFinite, h1, h2]⟩
      next h2 => exact ⟨_, rfl, by cases yneg <;> simp_all [PowIeeeTable, PositiveFinite]⟩
  | fin yneg k f =>
    have hrow : powIEEE md cand (.fin false (m + 1) e) (.fin yneg k f) =
        if k = 0 then some (.fin false 1 0)
        else if yneg || cmpFin false (m + 1) e false 1 0 = 1 then some (powPositive cand) else none := rfl
    rw [hrow]
    split
    next hk => exact ⟨_, rfl, by simp +contextual [PowIeeeTable, hk, eq_comm (a := 0)]⟩
    next hk =>
      refine ⟨powPositive cand, if_pos ?_, by simp +contextual [PowIeeeTable, hk, powPositive_positive]⟩
      cases yneg
      · simpa [habove] using hblank k f hk rfl
      · rfl

theorem powIEEE_special (hfmt : md.fmt = fmtF) (hbase : ∀ k e, k ≠ 0 → x = .fin true k e → y.isNan = true)
    (hblank : ∀ k e j d, k ≠ 0 → j ≠ 0 → x = .fin false k e → y = .fin false j d → 1 < x.toRat) :
    ∃ w, powIEEE md cand x y = some w ∧ PowIeeeTable x y w := by
  cases x with
  | nan => exact ⟨.nan, rfl, by simp [PowIeeeTable, PositiveFinite]⟩
  | inf neg => exact powIEEE_inf hfmt neg y
  | fin neg m e =>
    obtain _ | m := m
    · exact powIEEE_zero hfmt neg e y
    cases neg
    · exact powIEEE_positive hfmt e y fun j d hj hy => hblank (m + 1) e j d (by omega) hj rfl hy
    · obtain rfl : y = .nan := by
        have hnan := hbase (m + 1) e (by omega) rfl
        cases y with
        | nan => rfl
        | inf | fin => exact absurd hnan Bool.false_ne_true
      exact ⟨.nan, rfl, by simp [PowIeeeTable]⟩

theorem powALT_special (hfmt : md.fmt = fmtF) (hx : ∀ neg, x ≠ .inf neg) (hy : ∀ neg, y ≠ .inf neg)
    (hblank : y = .nan → PositiveFinite x → False) : ∃ w, powALT md cand x y = some w ∧ PowAltTable x y w := by
  unfold powALT
  rw [hfmt]
  cases y with
  | inf yneg => exact absurd rfl (hy yneg)
  | nan =>
    cases x with
    | inf neg => exact absurd rfl (hx neg)
    | nan => exact ⟨.nan, rfl, by simp [PowAltTable]⟩
    | fin neg m e =>
      refine ⟨.nan, if_pos ?_, by simp [PowAltTable]⟩
      cases neg
      · simpa [PositiveFinite] using hblank rfl
      · simp
  | fin yneg k f =>
    cases x with
    | inf neg => exact absurd rfl (hx neg)
    | nan => exact ⟨.nan, rfl, by simp [PowAltTable]⟩
    | fin neg m e =>
      dsimp only
      split
      next hk => exact ⟨_, rfl, by simp +contextual [PowAltTable, hk, eq_comm (a := 0)]⟩
      next hk =>
        split
        next hm => exact ⟨_, rfl, by cases yneg <;> simp +contextual [PowAltTable, hk, hm, eq_comm (a := 0)]⟩
        next hm =>
          have := powPositive_positive cand
          exact ⟨_, rfl, by simp +contextual [PowAltTable, hk, hm, this]⟩

end

/-! ## The obligation -/

/-- Settles O58, function by function: the tables of one source, FDIV, and POW in both modes. -/
theorem mathSpecialValues : Obligations.MathSpecialValues := by
  intro s m hs ha hint hreserved x y zero one fmax ieee alt posFin powIeee powAlt
  have hboth : m.fc ≠ 0xB := fun h => by rw [h] at hint; exact absurd hint (by decide)
  refine math_step ha hreserved hboth fun n hn => ⟨fun hlow hv => ?unary, fun hfc => ?fdiv, fun hfc halt hbase hblank => ?ieee,
    fun hfc halt hx hy hblank => ?alt⟩
  case unary =>
    have hunary : isUnaryFC m.fc = true := by
      generalize m.fc = fc at hlow hreserved
      revert fc
      decide
    obtain ⟨w, hw, hnan, htable⟩ := mathUnary_special (md := mathMode s) (cand := mathCand s m n) rfl hunary hv
    exact ⟨w, mathOut_holds hint ((mathFloat_unary hunary).trans hw), hnan, htable⟩
  case fdiv => exact mathOut_holds hint (mathFloat_fdiv hfc)
  case ieee =>
    obtain ⟨w, hw, htable⟩ := powIEEE_special (md := mathMode s) (cand := mathCand s m n) rfl hbase hblank
    exact ⟨w, mathOut_holds hint ((mathFloat_pow hfc).trans ((if_neg (Bool.eq_false_iff.1 halt)).trans hw)), htable⟩
  case alt =>
    obtain ⟨w, hw, htable⟩ := powALT_special (md := mathMode s) (cand := mathCand s m n) rfl hx hy hblank
    exact ⟨w, mathOut_holds hint ((mathFloat_pow hfc).trans ((if_pos halt).trans hw)), htable⟩

end Sys2Proof.Machine
end

section
/-! OBLIGATION O57: integer division (spec/43_misc_send_wait.md R703, R719; spec/93_implementation_defined.md U13). -/

namespace Sys2Proof.Machine

/-! ## Numbers -/

/-- The quotient toward zero and the remainder of the numerator's sign. -/
def Divides (x y q r : Int) : Prop := x = q * y + r ∧ |r| < |y| ∧ (0 ≤ x → 0 ≤ r) ∧ (x ≤ 0 → r ≤ 0)

theorem divides_tdiv {x y : Int} (hy : y ≠ 0) : Divides x y (x.tdiv y) (x.tmod y) := by
  refine ⟨?_, ?_, fun hx => Int.tmod_nonneg y hx, fun hx => ?_⟩
  · rw [mul_comm]
    exact (Int.mul_tdiv_add_tmod x y).symm
  · rw [Int.abs_eq_natAbs, Int.abs_eq_natAbs, Int.natAbs_tmod]
    exact_mod_cast Nat.mod_lt _ (Int.natAbs_pos.2 hy)
  · have := Int.tmod_nonneg y (neg_nonneg.2 hx)
    rw [Int.neg_tmod] at this
    omega

/-- The types of integer division (R703). -/
def IsDivType (ty : RegType) : Prop := ty = .d ∨ ty = .ud

/-- Quotient and remainder fit the type where a result is described. -/
theorem tdiv_in_range {ty : RegType} (hty : IsDivType ty) {x y : Int} (hx : ty.lo ≤ x ∧ x ≤ ty.hi) (hy : ty.lo ≤ y ∧ y ≤ ty.hi)
    (hy0 : y ≠ 0) (hover : ¬ (ty = .d ∧ x = -2147483648 ∧ y = -1)) :
    (ty.lo ≤ x.tdiv y ∧ x.tdiv y ≤ ty.hi) ∧ ty.lo ≤ x.tmod y ∧ x.tmod y ≤ ty.hi := by
  have hquot : (x.tdiv y).natAbs = x.natAbs / y.natAbs := Int.natAbs_tdiv x y
  have hle : x.natAbs / y.natAbs ≤ x.natAbs := Nat.div_le_self _ _
  obtain ⟨-, hrem, hpos, hneg⟩ := divides_tdiv (x := x) hy0
  rw [Int.abs_eq_natAbs, Int.abs_eq_natAbs] at hrem
  rcases hty with rfl | rfl
  · simp only [RegType.lo, RegType.hi, true_and] at *
    refine ⟨?_, by omega⟩
    obtain rfl | hne := eq_or_ne y (-1)
    · rw [Int.tdiv_neg, Int.tdiv_one]
      omega
    obtain rfl | hne1 := eq_or_ne y 1
    · rw [Int.tdiv_one]
      exact hx
    · have : x.natAbs / y.natAbs ≤ x.natAbs / 2 := Nat.div_le_div_left (by omega) (by decide)
      omega
  · simp only [RegType.lo, RegType.hi] at *
    have := Int.tdiv_nonneg hx.1 hy.1
    omega

/-! ## Operands -/

section
variable {s : State} {m : Math}

/-- What the restrictions say of a source of an integer division (R703). -/
structure DivSource (ty : RegType) (r : RegSrc) : Prop where
  ty : r.ty = ty
  loc : r.loc.isGrf = true
  mod : r.mod = .none

theorem isUnaryFC_div {fc : BitVec 4} (hint : isIntDivFC fc = true) : isUnaryFC fc = false := by
  revert fc
  decide

theorem mathSrcs_div (hint : isIntDivFC m.fc = true) : mathSrcs m = m.srcs :=
  if_neg (Bool.eq_false_iff.1 (isUnaryFC_div hint))

theorem mathChecks_div (ha : Allowed (mathChecks s m)) (hint : isIntDivFC m.fc = true) :
    IsDivType m.dst.ty ∧ DivSource m.dst.ty m.src0 ∧ ∃ r, m.src1 = .reg r ∧ DivSource m.dst.ty r := by
  have hgrf := allowed_mem ha (c := (!(m.dst.loc.isGrf && m.src0.loc.isGrf), .operand)) (by simp [mathChecks])
  have hmod := allowed_mem ha (c := noSrcMod m.srcs) (by simp [mathChecks])
  have hty := allowed_mem ha (c := (if isIntDivFC m.fc then !sameTypes [.d, .ud] m.dst (mathSrcs m)
    else !floatTypes m.dst (mathSrcs m), .types)) (by simp [mathChecks])
  have hsrc1 : (match m.src1 with
      | .imm _ _ => true
      | .reg r => if isUnaryFC m.fc then !(r.loc.isFiller && r.ty = m.src0.ty) else !r.loc.isGrf) = false :=
    allowed_mem ha (List.mem_cons_of_mem _ List.mem_cons_self)
  simp only [Bool.not_eq_false', Bool.and_eq_true] at hgrf
  cases hloc : m.src1 with
  | imm t v => simp [hloc] at hsrc1
  | reg r =>
    simp only [hloc, isUnaryFC_div hint, Bool.false_eq_true, if_false, Bool.not_eq_false'] at hsrc1
    simp only [noSrcMod, Math.srcs, hloc, List.any_cons, List.any_nil, Src.hasMod, Bool.or_false, Bool.or_eq_false_iff,
      bne_eq_false_iff_eq] at hmod
    obtain ⟨hmod0, hmod1⟩ := hmod
    simp only [hint, if_true, mathSrcs_div hint, sameTypes, allTy, Math.srcs, hloc, Src.regType, Bool.not_eq_false',
      Bool.and_eq_true, List.all_cons, List.all_nil, Bool.and_true, List.contains_iff_mem, List.mem_cons,
      List.not_mem_nil, or_false] at hty
    obtain ⟨hdst, hty0, hty1⟩ := hty
    exact ⟨hdst, ⟨of_decide_eq_true hty0, hgrf.2, hmod0⟩, r, rfl, ⟨of_decide_eq_true hty1, hsrc1, hmod1⟩⟩

theorem intOfRaw_in_range {ty : RegType} (hty : IsDivType ty) (raw : DWord) :
    ty.lo ≤ intOfRaw ty raw ∧ intOfRaw ty raw ≤ ty.hi := by
  rcases hty with rfl | rfl
  · have := raw.toInt_lt
    have := raw.le_toInt
    simp only [RegType.lo, RegType.hi, intOfRaw]
    omega
  · have := raw.isLt
    simp only [RegType.lo, RegType.hi, intOfRaw]
    omega

theorem isArf_of_isGrf {l : Loc} (h : l.isGrf = true) : l.isArf = false := by
  cases l with
  | grf _ _ | ind _ _ => rfl
  | arf _ _ => exact absurd h Bool.false_ne_true

theorem srcInt_in_range {ty : RegType} (hty : IsDivType ty) {r : RegSrc} (hr : DivSource ty r) (h : Header) (two : Bool)
    (k n : Nat) : ty.lo ≤ srcInt s h two k (.reg r) n ∧ srcInt s h two k (.reg r) n ≤ ty.hi := by
  have hval : srcInt s h two k (.reg r) n = intOfRaw ty (srcRaw s h two k r n) := by
    rw [← hr.ty, ← regInt_of_not_acc (accOperand_of_not_arf (isArf_of_isGrf hr.loc))]
    exact congrArg (modInt · _) hr.mod
  rw [hval]
  exact intOfRaw_in_range hty _

/-! ## One channel -/

/-- Numerator and denominator of channel n. -/
def divX (s : State) (m : Math) (n : Nat) : Int := srcInt s m.hdr (dstTwoRegs s m.hdr m.dst) 0 (.reg m.src0) n
def divY (s : State) (m : Math) (n : Nat) : Int := srcInt s m.hdr (dstTwoRegs s m.hdr m.dst) 1 m.src1 n

/-- The spec describes a result of channel n (R719, U13). -/
def Described (s : State) (m : Math) (n : Nat) : Prop :=
  divY s m n ≠ 0 ∧ ¬ (m.dst.ty = .d ∧ divX s m n = -2147483648 ∧ divY s m n = -1)

/-- A result in the range of its type is written as it is, with and without saturation. -/
theorem intOut_bits_in_range {ty : RegType} (hty : IsDivType ty) {v : Int} (hv : ty.lo ≤ v ∧ v ≤ ty.hi) (h : Header) (n : Nat) :
    (intOut s h .none ty 64 v n).bits = BitVec.ofInt 32 v := by
  obtain ⟨hlo, hhi⟩ := hv
  have hfits : fitsInt 64 v = true := by
    rcases hty with rfl | rfl <;> simp [fitsInt, RegType.lo, RegType.hi] at * <;> omega
  have hclamp : clampInt ty v = v := by rw [clampInt, if_neg (by omega), if_neg (by omega)]
  rw [intOut, if_pos hfits]
  rcases hty with rfl | rfl
  · exact congrArg (BitVec.ofInt 32) ((congrArg (fun x => if h.sat then x else v) hclamp).trans (ite_self v))
  · exact congrArg (BitVec.ofInt 32) ((congrArg (fun x => if h.sat then x else v) hclamp).trans (ite_self v))

theorem intDivOut_bits (ha : Allowed (mathChecks s m)) (hint : isIntDivFC m.fc = true) {n : Nat} (hdesc : Described s m n)
    (rem : Bool) (slot : Nat → FreeSlot) : (intDivOut s m rem slot n).bits =
      BitVec.ofInt 32 (if rem then (divX s m n).tmod (divY s m n) else (divX s m n).tdiv (divY s m n)) := by
  obtain ⟨hty, hsrc0, r, hreg, hsrc1⟩ := mathChecks_div ha hint
  have hx := srcInt_in_range (s := s) hty hsrc0 m.hdr (dstTwoRegs s m.hdr m.dst) 0 n
  have hy : m.dst.ty.lo ≤ divY s m n ∧ divY s m n ≤ m.dst.ty.hi := by
    rw [divY, hreg]
    exact srcInt_in_range hty hsrc1 m.hdr (dstTwoRegs s m.hdr m.dst) 1 n
  obtain ⟨hquot, hrem⟩ := tdiv_in_range hty hx hy hdesc.1 hdesc.2
  have hdiv : intDiv m.dst.ty (divX s m n) (divY s m n) =
      some ((divX s m n).tdiv (divY s m n), (divX s m n).tmod (divY s m n)) :=
    if_neg (by simpa using not_or.2 hdesc)
  have hout : intDivOut s m rem slot n = intOut s m.hdr .none m.dst.ty 64
      (if rem then (divX s m n).tmod (divY s m n) else (divX s m n).tdiv (divY s m n)) n := by
    unfold intDivOut
    dsimp only
    rw [show intDiv m.dst.ty (srcInt s _ _ 0 _ n) (srcInt s _ _ 1 _ n) = _ from hdiv]
  rw [hout]
  refine intOut_bits_in_range hty ?_ m.hdr n
  split
  · exact hrem
  · exact hquot

/-! ## Quotient and remainder in two registers (R703) -/

/-- The place of channel n's results. -/
def divAddr (s : State) (m : Math) (n : Nat) : Nat := dstByte s m.hdr m.dst n

/-- The place of the quotient, and of the remainder, from there on; what is written there. -/
def divOff (rem : Bool) : Nat := if rem then 32 else 0
def divVal (s : State) (m : Math) (rem : Bool) (n : Nat) : DWord :=
  (intDivOut s m rem (if rem then .dst2 else .dst) n).bits

/-- Channel n writes. -/
def DivOn (s : State) (m : Math) (n : Nat) : Prop := n < m.hdr.count ∧ dstOn m.dst (wrEn s m.hdr) n

/-- The bytes of channel n: the quotient, then the remainder. -/
def divPart (s : State) (m : Math) (n : Nat) : List (Nat × Byte) :=
  let en := fun k => k = n && wrEn s m.hdr k
  dstWrites s m.hdr m.dst en (fun k => (intDivOut s m false .dst k).bits) ++
    dstWrites s m.hdr (mathDst2 m) en (fun k => (intDivOut s m true .dst2 k).bits)

/-- Where the two destinations of an allowed division with both results lie. -/
structure DivPlaces (s : State) (m : Math) : Prop where
  size : m.dst.ty.size = 4
  size2 : (mathDst2 m).ty.size = 4
  region : (mathDst2 m).region = m.dst.region
  next : ∀ n, n < m.hdr.count → dstByte s m.hdr (mathDst2 m) n = divAddr s m n + 32
  fits : ∀ n, n < m.hdr.count → divAddr s m n + 36 ≤ 4096
  rises : ∀ n k, n < k → k < m.hdr.count → divAddr s m n + 4 ≤ divAddr s m k

theorem mathChecks_places (ha : Allowed (mathChecks s m)) (hfc : m.fc = 0xB) : DivPlaces s m := by
  have hint : isIntDivFC m.fc = true := by rw [hfc]; decide
  have hsize : m.dst.ty.size = 4 := by
    rcases (mathChecks_div ha hint).1 with h | h <;> rw [h] <;> rfl
  obtain ⟨num, sub, hloc⟩ : ∃ num sub, m.dst.loc = .grf num sub := by
    have hgrf := mathChecks_dst ha
    cases hl : m.dst.loc with
    | grf num sub => exact ⟨num, sub, rfl⟩
    | arf _ _ | ind _ _ => rw [hl] at hgrf; exact absurd hgrf Bool.false_ne_true
  have haddr (n : Nat) : dstAddr s m.hdr m.dst n = (num.toNat * 32 + sub.toNat + n * (m.dst.region.stride * 4) : Nat) := by
    unfold dstAddr
    rw [hloc, hsize]
  have hplace (n : Nat) : divAddr s m n = num.toNat * 32 + sub.toNat + n * (m.dst.region.stride * 4) := by
    rw [divAddr, dstByte, haddr, Int.toNat_natCast]
  have hfits : ∀ n, n < m.hdr.count → divAddr s m n + 36 ≤ 4096 := by
    have hrange := allowed_mem ha
      (c := (m.fc = 0xB && outOfGrf s m.dst.ty.size ((dstElems s m.hdr m.dst).map (· + 32)), .grfRange)) (by simp [mathChecks])
    simp only [hfc, decide_true, Bool.true_and, outOfGrf, List.any_eq_false] at hrange
    intro n hn
    have := hrange _ (List.mem_map_of_mem (List.mem_map_of_mem (List.mem_range.2 hn)))
    rw [haddr, hsize] at this
    simp only [Bool.or_eq_true, decide_eq_true_eq, not_or, not_lt] at this
    rw [hplace]
    omega
  have hstride : m.dst.region.stride ≠ 0 := by
    have hstep := allowed_mem (dataChecks_dst (mathChecks_data ha)) (c := (m.dst.region.stride * m.dst.ty.size = 0, .dstStride))
      (by simp [dstChecks, hloc])
    simpa [hsize] using hstep
  have hnext : (num + 1).toNat = num.toNat + 1 := by
    have := hfits 0 (count_pos m.hdr)
    rw [hplace] at this
    rw [BitVec.toNat_add_of_lt (by simp; omega)]
    rfl
  have hdst2 : mathDst2 m = { m.dst with loc := .grf (num + 1) sub } := by
    unfold mathDst2
    rw [hloc]
  refine ⟨hsize, by rw [hdst2]; exact hsize, by rw [hdst2], fun n _ => ?next, hfits, fun n k hnk _ => ?rises⟩
  case next =>
    rw [hplace, hdst2, dstByte, dstAddr]
    dsimp only
    rw [hnext, hsize, Int.toNat_natCast]
    omega
  case rises =>
    have hstep : n * (m.dst.region.stride * 4) + m.dst.region.stride * 4 ≤ k * (m.dst.region.stride * 4) := by
      rw [← Nat.succ_mul]
      exact Nat.mul_le_mul_right _ hnk
    rw [hplace, hplace]
    omega

/-- The entries of channel n's list. -/
theorem mem_divPart (hp : DivPlaces s m) {n : Nat} (hn : n < m.hdr.count) {w : Nat × Byte} : w ∈ divPart s m n ↔
    DivOn s m n ∧ ∃ rem i, i < 4 ∧ w = (divAddr s m n + divOff rem + i, (divVal s m rem n).extractLsb' (8 * i) 8) := by
  unfold divPart dstWrites
  simp only [List.mem_append, mem_elemWrites, hp.size, hp.size2, hp.region, Bool.and_eq_true, decide_eq_true_eq]
  have hnext : (dstAddr s m.hdr (mathDst2 m) n).toNat = divAddr s m n + 32 := hp.next n hn
  constructor
  · rintro (⟨k, hk, ⟨⟨rfl, hen⟩, hchan⟩, i, hi, rfl⟩ | ⟨k, hk, ⟨⟨rfl, hen⟩, hchan⟩, i, hi, rfl⟩)
    · exact ⟨⟨hn, hen, hchan⟩, false, i, hi, rfl⟩
    · exact ⟨⟨hn, hen, hchan⟩, true, i, hi, by rw [hnext]; rfl⟩
  · rintro ⟨⟨-, hen, hchan⟩, rem, i, hi, rfl⟩
    cases rem
    · exact .inl ⟨n, hn, ⟨⟨rfl, hen⟩, hchan⟩, i, hi, rfl⟩
    · exact .inr ⟨n, hn, ⟨⟨rfl, hen⟩, hchan⟩, i, hi, by rw [hnext]; rfl⟩

/-- The general registers after the first k channels. -/
def divGrf (s : State) (m : Math) (k : Nat) : Vector Reg256 128 :=
  setGrfBytes s.grf ((List.range k).flatMap (divPart s m))

/-- Both results leave the general registers after all channels. -/
theorem grf_divBoth (s : State) (m : Math) : (advance s.spf (divBoth s m)).grf = divGrf s m m.hdr.count := rfl

theorem divGrf_succ (s : State) (m : Math) (k : Nat) : divGrf s m (k + 1) = setGrfBytes (divGrf s m k) (divPart s m k) := by
  rw [divGrf, List.range_succ, List.flatMap_append, setGrfBytes_append, List.flatMap_singleton]
  rfl

/-- The byte c stands outside both results of channel n. -/
def DivClear (s : State) (m : Math) (n c : Nat) : Prop :=
  (c < divAddr s m n ∨ divAddr s m n + 4 ≤ c) ∧ (c < divAddr s m n + 32 ∨ divAddr s m n + 36 ≤ c)

/-- Channels that leave a byte out do not change it. -/
theorem grfByte_divGrf_kept (hp : DivPlaces s m) {j k c : Nat} (hjk : j ≤ k) (hk : k ≤ m.hdr.count)
    (hclear : ∀ n, j ≤ n → n < k → DivOn s m n → DivClear s m n c) :
    grfByte (divGrf s m k) c = grfByte (divGrf s m j) c := by
  induction k, hjk using Nat.le_induction with
  | base => rfl
  | succ k hjk ih =>
    rw [divGrf_succ, grfByte_setGrfBytes_of_not_mem, ih (by omega) fun n hjn hnk => hclear n hjn (by omega)]
    intro w hw
    obtain ⟨hon, rem, i, hi, rfl⟩ := (mem_divPart hp (by omega)).1 hw
    obtain ⟨hquot, hrem⟩ := hclear k hjk (by omega) hon
    cases rem <;> simp only [divOff, Bool.false_eq_true, if_true, if_false] <;> omega

/-- What a channel writes is there until a later channel writes over it. -/
theorem grfByte_divGrf_written (hp : DivPlaces s m) {n i : Nat} (hon : DivOn s m n) (hi : i < 4) (rem : Bool)
    (hlater : ∀ k, n < k → DivOn s m k → DivClear s m k (divAddr s m n + divOff rem + i)) :
    grfByte (divGrf s m m.hdr.count) (divAddr s m n + divOff rem + i) = (divVal s m rem n).extractLsb' (8 * i) 8 := by
  have hn := hon.1
  have hoff : ∀ rem, divOff rem = 0 ∨ divOff rem = 32 := by decide
  have hinj : ∀ rem rem', divOff rem = divOff rem' → rem = rem' := by decide
  have hinside : divAddr s m n + divOff rem + i < 4096 := by
    have := hp.fits n hn
    have := hoff rem
    omega
  rw [grfByte_divGrf_kept hp (Nat.succ_le_of_lt hn) le_rfl fun k hk _ => hlater k hk, divGrf_succ]
  refine grfByte_setGrfBytes_of_mem _ _ _ _ hinside ((mem_divPart hp hn).2 ⟨hon, rem, i, hi, rfl⟩) fun w hw hsame => ?_
  obtain ⟨-, rem', j, hj, rfl⟩ := (mem_divPart hp hn).1 hw
  dsimp only at hsame
  have := hoff rem
  have := hoff rem'
  obtain rfl := hinj rem' rem (by omega)
  obtain rfl : j = i := by omega
  rfl

/-- A DWord of the general registers from its four bytes. -/
theorem grfElem_four_of_bytes {g : Vector Reg256 128} {a : Nat} {v : DWord}
    (h : ∀ i, i < 4 → grfByte g (a + i) = v.extractLsb' (8 * i) 8) : grfElem g a 4 = v := by
  rw [grfElem_four, h 3 (by decide), h 2 (by decide), h 1 (by decide), h 0 (by decide)]
  ext i hi
  simp only [BitVec.getElem_append, BitVec.getElem_extractLsb']
  split_ifs <;> rw [← BitVec.getLsbD_eq_getElem] <;> congr 1 <;> omega

/-! ## The obligation -/

theorem exec_divBoth (ha : Allowed (mathChecks s m)) (hfc : m.fc = 0xB) :
    exec (.math m) s = .next (advance s.spf (divBoth s m)) := by
  have hreserved : isReservedFC m.fc = false := by rw [hfc]; decide
  change execMath m s = _
  unfold execMath
  rw [if_neg (Bool.eq_false_iff.1 hreserved), if_pos hfc, show firstViolation (mathChecks s m) = none from ha]
  exact finish_stays s _ (.inr rfl)

end

/-- Settles O57: one result by the step of a data instruction; both by the order of the writes, channel by channel. -/
theorem integerDivision : Obligations.IntegerDivision := by
  intro s m ha x y described divides
  refine ⟨fun hfc => ?single, fun hfc => ?both⟩
  case single =>
    have hint : isIntDivFC m.fc = true := by rcases hfc with h | h <;> rw [h] <;> decide
    have hreserved : isReservedFC m.fc = false := by rcases hfc with h | h <;> rw [h] <;> decide
    have hboth : m.fc ≠ 0xB := by rcases hfc with h | h <;> rw [h] <;> decide
    rw [← mathSrcs_div hint]
    refine math_step ha hreserved hboth fun n _ hdesc => ⟨_, _, divides_tdiv hdesc.1, ?_⟩
    unfold mathOut
    rw [if_pos hint, intDivOut_bits ha hint hdesc]
    simp only [decide_eq_true_eq]
    rfl
  case both =>
    have hint : isIntDivFC m.fc = true := by rw [hfc]; decide
    have hp := mathChecks_places ha hfc
    refine ⟨_, exec_divBoth ha hfc, rfl, ?_⟩
    rw [grf_divBoth]
    refine ⟨fun n hon hdesc => ⟨_, _, divides_tdiv hdesc.1, ?quotient,
      fun hlater => ?remainder⟩, fun p hout => ?kept⟩
    case quotient =>
      refine (grfElem_four_of_bytes fun i hi => grfByte_divGrf_written hp hon hi false fun k hnk hk => ?_).trans
        (intDivOut_bits ha hint hdesc false _)
      have := hp.rises n k hnk hk.1
      simp only [DivClear, divOff, Bool.false_eq_true, if_false]
      omega
    case remainder =>
      refine (grfElem_four_of_bytes fun i hi => grfByte_divGrf_written hp hon hi true fun k hnk hk => ?_).trans
        (intDivOut_bits ha hint hdesc true _)
      have := hp.rises n k hnk hk.1
      have : divAddr s m k + 4 ≤ divAddr s m n + 32 ∨ divAddr s m n + 36 ≤ divAddr s m k := hlater k hk hnk
      simp only [DivClear, divOff, if_true]
      omega
    case kept =>
      exact grfByte_divGrf_kept hp (Nat.zero_le _) le_rfl fun n _ _ hon => hout n hon

end Sys2Proof.Machine
end

section
/-! SUPPORT. Real numbers and F numbers: units in the last place, rounding to nearest even, square roots of naturals, and the bounds that `math` tests (spec/43_misc_send_wait.md R703, R710 to R717; spec/40_common_execution.md R482, R483). -/

namespace Sys2Proof.Machine

/-! ## Powers of two and units in the last place -/

theorem cast_pow2 (e : Int) : ((pow2 e : Rat) : ℝ) = (2 : ℝ) ^ e := by
  rw [pow2_eq_zpow]
  push_cast
  rfl

theorem zpow2_lt_iff {a b : Int} : (2 : ℝ) ^ a < 2 ^ b ↔ a < b := zpow_lt_zpow_iff_right₀ (by norm_num)
theorem zpow2_le_iff {a b : Int} : (2 : ℝ) ^ a ≤ 2 ^ b ↔ a ≤ b := zpow_le_zpow_iff_right₀ (by norm_num)
theorem zpow2_add (a b : Int) : (2 : ℝ) ^ (a + b) = 2 ^ a * 2 ^ b := zpow_add₀ (by norm_num) a b
theorem zpow2_pos (a : Int) : (0 : ℝ) < 2 ^ a := by positivity

/-- A positive real lies in one binade. -/
theorem binade_unique {y : ℝ} {i j : Int} (hi : (2 : ℝ) ^ i ≤ y) (hi' : y < 2 ^ (i + 1)) (hj : (2 : ℝ) ^ j ≤ y)
    (hj' : y < 2 ^ (j + 1)) : i = j := by
  have h1 := zpow2_lt_iff.1 (hi.trans_lt hj')
  have h2 := zpow2_lt_iff.1 (hj.trans_lt hi')
  omega

theorem cast_ulpF (k : Int) : ((ulpF k : Rat) : ℝ) = (2 : ℝ) ^ (max k (-126) - 23) := cast_pow2 _

theorem cast_toRat_fin (neg : Bool) (m : Nat) (e : Int) :
    (((FVal.fin neg m e).toRat : Rat) : ℝ) = signRat neg * (m * 2 ^ e) := by
  rw [toRat_fin]
  push_cast
  rw [cast_pow2]

theorem absRat_eq_abs (x : Rat) : absRat x = |x| := by
  unfold absRat
  split
  next h => exact (abs_of_neg h).symm
  next h => exact (abs_of_nonneg (not_lt.1 h)).symm

/-! ## Square roots of naturals -/

theorem isqrtBits_eq (n k r : Nat) (hlo : r * r ≤ n) (hhi : n < (r + 2 ^ (k + 1)) * (r + 2 ^ (k + 1))) :
    isqrtBits n k r = Nat.sqrt n := by
  induction k generalizing r with
  | zero =>
    unfold isqrtBits
    split
    next h => exact (Nat.eq_sqrt.2 ⟨h, hhi⟩)
    next h => exact (Nat.eq_sqrt.2 ⟨hlo, not_le.1 h⟩)
  | succ k ih =>
    unfold isqrtBits
    dsimp only
    split
    next h => exact ih _ h (by rwa [Nat.add_assoc, ← Nat.two_mul, ← Nat.pow_succ'])
    next h => exact ih _ hlo (not_le.1 h)

theorem isqrt_eq_sqrt (n : Nat) : isqrt n = Nat.sqrt n := by
  refine isqrtBits_eq n _ 0 (Nat.zero_le _) ?_
  have hlog : n < 2 ^ (Nat.log2 n + 1) := Nat.lt_log2_self
  calc n < 2 ^ (Nat.log2 n + 1) := hlog
    _ ≤ 2 ^ ((Nat.log2 n / 2 + 2) + (Nat.log2 n / 2 + 2)) := Nat.pow_le_pow_right (by decide) (by omega)
    _ = _ := by rw [pow_add, Nat.zero_add]

/-! ## Rounding to nearest even (R703) -/

/-- How `math` rounds: to F, to nearest even, with denormals flushed. -/
structure FMode.IsMath (md : FMode) : Prop where
  fmt : md.fmt = fmtF
  rm : md.rm = .rne
  flush : md.flush = true

theorem isMath_mathMode (s : State) : (mathMode s).IsMath := ⟨rfl, rfl, rfl⟩

/-- The F number that a rounded value W becomes. -/
structure RoundedTo (md : FMode) (neg : Bool) (W : Rat) (c : FVal) : Prop where
  overflow : pow2 128 ≤ |W| → c = if md.alt then fmtF.maxVal neg else .inf neg
  flushed : |W| < pow2 (-126) → c = .fin neg 0 fmtF.emin
  kept : pow2 (-126) ≤ |W| → |W| < pow2 128 → c.toRat = W ∧ c.sign = neg ∧ c.isSpecial = false

theorem roundFin_rne {md : FMode} (h : md.IsMath) (neg : Bool) {m : Nat} (e : Int) (hm : m ≠ 0) :
    ∃ W : Rat, (∃ z : Int, W = z * pow2 (fmtF.quantum m e)) ∧
      2 * |W - (FVal.fin neg m e).toRat| ≤ pow2 (fmtF.quantum m e) ∧ RoundedTo md neg W (roundFin md neg m e).val := by
  obtain ⟨W, hmul, hnear, -, -, -, hover, hinf, hflush, hkept⟩ := roundingOfFiniteNumbers md neg m e hm (.inl h.fmt)
  rw [h.fmt] at hmul hnear hover hinf hflush hkept
  have hlimit : pow2 (fmtF.emin + (2 ^ fmtF.expBits - 2) + fmtF.frac) = pow2 128 := rfl
  have hnormal : pow2 (fmtF.emin + fmtF.frac) = pow2 (-126) := rfl
  rw [hlimit] at hover
  rw [hnormal] at hflush hkept
  have hin (hlt : |W| < pow2 128) : (roundFin md neg m e).ov = false :=
    Bool.eq_false_iff.2 fun hov => absurd (hover.1 hov) (not_le.2 hlt)
  refine ⟨W, hmul, (hnear h.rm).1, fun hbig => ?_, fun hsmall => ?_, fun hlo hhi => hkept (hin hhi) (.inr hlo)⟩
  · rw [hinf (hover.2 hbig)]
    cases halt : md.alt <;> simp [h.rm]
  · exact hflush (hin (hsmall.trans_le (pow2_le_pow2 (by decide)))) h.flush hsmall

theorem RoundedTo.not_nan_sign {md : FMode} {neg : Bool} {W : Rat} {c : FVal} (h : RoundedTo md neg W c) :
    c.isNan = false ∧ c.sign = neg := by
  obtain hbig | hlt := le_or_gt (pow2 128) |W|
  · rw [h.overflow hbig]
    split
    · cases neg <;> decide
    · exact ⟨rfl, rfl⟩
  obtain hsmall | hlo := lt_or_ge |W| (pow2 (-126))
  · rw [h.flushed hsmall]
    exact ⟨rfl, rfl⟩
  · obtain ⟨-, hsign, hspecial⟩ := h.kept hlo hlt
    refine ⟨?_, hsign⟩
    cases c with
    | nan => exact absurd hspecial (by simp [FVal.isSpecial])
    | inf | fin => rfl

/-- The unit in the last place of a number below 2^(k+1). -/
theorem quantum_le {m : Nat} {e k : Int} (hm : m ≠ 0) (hlt : (m : ℝ) * 2 ^ e < 2 ^ (k + 1)) :
    fmtF.quantum m e ≤ max k (-126) - 23 := by
  have hlog : (2 : ℝ) ^ ((Nat.log2 m : Int) + e) ≤ m * 2 ^ e := by
    rw [zpow2_add, zpow_natCast]
    exact mul_le_mul_of_nonneg_right (by exact_mod_cast Nat.log2_self_le hm) (zpow2_pos e).le
  have hexp := zpow2_lt_iff.1 (hlog.trans_lt hlt)
  have hemin : fmtF.emin = -149 := by decide
  have hfrac : fmtF.frac = 23 := rfl
  unfold FFmt.quantum
  omega

/-- An F number close to a real x, or the zero of a flush (40 R482). -/
def CloseTo (c : FVal) (x tol : ℝ) : Prop :=
  |(c.toRat : ℝ) - x| ≤ tol ∨ (c.isZero = true ∧ |x| < 2 ^ (-126 : Int) + tol)

theorem CloseTo.trans {c : FVal} {x y tol d : ℝ} (h : CloseTo c x tol) (hxy : |x - y| ≤ d) : CloseTo c y (tol + d) := by
  refine h.imp (fun hc => ?_) fun ⟨hz, hx⟩ => ⟨hz, ?_⟩
  · calc |(c.toRat : ℝ) - y| = |((c.toRat : ℝ) - x) + (x - y)| := by ring_nf
      _ ≤ |(c.toRat : ℝ) - x| + |x - y| := abs_add_le _ _
      _ ≤ tol + d := add_le_add hc hxy
  · have : |y| ≤ |x| + |x - y| := by
      calc |y| = |x - (x - y)| := by ring_nf
        _ ≤ |x| + |x - y| := abs_sub _ _
    linarith

theorem CloseTo.mono {c : FVal} {x tol tol' : ℝ} (h : CloseTo c x tol) (hle : tol ≤ tol') : CloseTo c x tol' :=
  h.imp (·.trans hle) fun ⟨hz, hx⟩ => ⟨hz, hx.trans_le (by linarith)⟩

theorem abs_signRat_mul_real (neg : Bool) (v : ℝ) : |(signRat neg : ℝ) * v| = |v| := by
  cases neg <;> simp [signRat]

/-- Rounding to nearest is within half a unit, and what overflows has reached 2^128. -/
theorem roundFin_half_unit {md : FMode} (h : md.IsMath) (neg : Bool) {m : Nat} {e k : Int} (hm : m ≠ 0)
    (hlt : (m : ℝ) * 2 ^ e < 2 ^ (k + 1)) : ∃ W : Rat, RoundedTo md neg W (roundFin md neg m e).val ∧
      |(W : ℝ) - signRat neg * (m * 2 ^ e)| ≤ 2 ^ (max k (-126) - 24) := by
  obtain ⟨W, -, hnear, hto⟩ := roundFin_rne h neg e hm
  refine ⟨W, hto, ?_⟩
  have hnear : 2 * |(W : ℝ) - signRat neg * (m * 2 ^ e)| ≤ 2 ^ fmtF.quantum m e := by
    rw [← cast_toRat_fin, ← cast_pow2]
    exact_mod_cast hnear
  have hunit : (2 : ℝ) ^ fmtF.quantum m e ≤ 2 * 2 ^ (max k (-126) - 24) := by
    rw [← zpow_one_add₀ (by norm_num)]
    exact zpow2_le_iff.2 ((quantum_le hm hlt).trans (by omega))
  linarith

theorem RoundedTo.closeTo {md : FMode} {neg : Bool} {W : Rat} {c : FVal} (h : RoundedTo md neg W c) {x tol : ℝ}
    (hW : |(W : ℝ) - x| ≤ tol) (hlt : |(W : ℝ)| < 2 ^ (128 : Int)) : CloseTo c x tol := by
  have hlt : |W| < pow2 128 := by
    rw [← cast_pow2] at hlt
    exact_mod_cast hlt
  obtain hsmall | hlo := lt_or_ge |W| (pow2 (-126))
  · have hsmall' : |(W : ℝ)| < 2 ^ (-126 : Int) := by
      rw [← cast_pow2]
      exact_mod_cast hsmall
    refine .inr ⟨by rw [h.flushed hsmall]; rfl, ?_⟩
    calc |x| = |(W : ℝ) - (W - x)| := by ring_nf
      _ ≤ |(W : ℝ)| + |(W : ℝ) - x| := abs_sub _ _
      _ < 2 ^ (-126 : Int) + tol := add_lt_add_of_lt_of_le hsmall' hW
  · refine .inl ?_
    rw [(h.kept hlo hlt).1]
    exact hW

/-- Where nothing overflows the result is within half a unit. -/
theorem roundFin_close {md : FMode} (h : md.IsMath) (neg : Bool) {m : Nat} {e k : Int} (hm : m ≠ 0)
    (hlt : (m : ℝ) * 2 ^ e < 2 ^ (k + 1)) (hk : k ≤ 126) :
    (roundFin md neg m e).val.isNan = false ∧ (roundFin md neg m e).val.sign = neg ∧
      CloseTo (roundFin md neg m e).val (signRat neg * (m * 2 ^ e)) (2 ^ (max k (-126) - 24)) := by
  obtain ⟨W, hto, hW⟩ := roundFin_half_unit h neg hm hlt
  obtain ⟨hnan, hsign⟩ := hto.not_nan_sign
  refine ⟨hnan, hsign, hto.closeTo hW ?_⟩
  have hx : |(signRat neg : ℝ) * (m * 2 ^ e)| < 2 ^ (127 : Int) := by
    rw [abs_signRat_mul_real, abs_of_nonneg (by positivity)]
    exact hlt.trans_le (zpow2_le_iff.2 (by omega))
  have htol : (2 : ℝ) ^ (max k (-126) - 24) ≤ 2 ^ (127 : Int) := zpow2_le_iff.2 (by omega)
  calc |(W : ℝ)| = |((W : ℝ) - signRat neg * (m * 2 ^ e)) + signRat neg * (m * 2 ^ e)| := by ring_nf
    _ ≤ |(W : ℝ) - signRat neg * (m * 2 ^ e)| + |(signRat neg : ℝ) * (m * 2 ^ e)| := abs_add_le _ _
    _ < 2 ^ (127 : Int) + 2 ^ (127 : Int) := add_lt_add_of_le_of_lt (hW.trans htol) hx
    _ = 2 ^ (128 : Int) := by norm_num

/-- A quotient or root y, cut to q units of 2^γ with a last bit st that may be set: rounding it is within a unit of y. -/
theorem roundFin_cut {md : FMode} (h : md.IsMath) (neg : Bool) {q st : Nat} {γ k : Int} {y : ℝ} (hq : q ≠ 0)
    (hlo : q * 2 ^ γ ≤ y) (hhi : y < (q + 1) * 2 ^ γ) (hst : st ≤ 1) (hy : y < 2 ^ (k + 1)) (hγ : γ ≤ k - 24) (hk : k ≤ 126) :
    (roundFin md neg (2 * q + st) (γ - 1)).val.isNan = false ∧ (roundFin md neg (2 * q + st) (γ - 1)).val.sign = neg ∧
      CloseTo (roundFin md neg (2 * q + st) (γ - 1)).val (signRat neg * y) (2 ^ (max k (-126) - 23)) := by
  have hgrid := zpow2_pos γ
  have hst' : (st : ℝ) ≤ 1 := by exact_mod_cast hst
  have hval : ((2 * q + st : Nat) : ℝ) * 2 ^ (γ - 1) = (q + st / 2) * 2 ^ γ := by
    rw [zpow_sub_one₀ (by norm_num)]
    push_cast
    ring
  -- 2^(k+1) is a multiple of the grid, so that the last bit does not reach it
  have hlt : ((2 * q + st : Nat) : ℝ) * 2 ^ (γ - 1) < 2 ^ (k + 1) := by
    obtain ⟨d, hd⟩ : ∃ d : Nat, k + 1 = d + γ := ⟨(k + 1 - γ).toNat, by omega⟩
    have hpow : (2 : ℝ) ^ (k + 1) = (2 ^ d : Nat) * 2 ^ γ := by
      rw [hd, zpow2_add, zpow_natCast]
      push_cast
      rfl
    have hqd : q + 1 ≤ 2 ^ d := by
      have := hlo.trans_lt hy
      rw [hpow] at this
      exact_mod_cast lt_of_mul_lt_mul_right this hgrid.le
    have hqd' : (q : ℝ) + 1 ≤ (2 ^ d : Nat) := by exact_mod_cast hqd
    rw [hval, hpow]
    exact mul_lt_mul_of_pos_right (by linarith) hgrid
  obtain ⟨hnan, hsign, hclose⟩ := roundFin_close h neg (by omega) hlt hk
  refine ⟨hnan, hsign, ?_⟩
  have hdist : |(signRat neg : ℝ) * ((2 * q + st : Nat) * 2 ^ (γ - 1)) - signRat neg * y| ≤ 2 ^ γ := by
    rw [← mul_sub, abs_signRat_mul_real, hval, abs_le]
    have : (st : ℝ) / 2 * 2 ^ γ ≤ 2 ^ γ := mul_le_of_le_one_left hgrid.le (by linarith)
    have : 0 ≤ (st : ℝ) / 2 * 2 ^ γ := by positivity
    constructor <;> linarith [add_mul (q : ℝ) (st / 2) (2 ^ γ), add_mul (q : ℝ) 1 (2 ^ γ)]
  have htol : (2 : ℝ) ^ (max k (-126) - 24) + 2 ^ γ ≤ 2 ^ (max k (-126) - 23) := by
    have hγ' : (2 : ℝ) ^ γ ≤ 2 ^ (max k (-126) - 24) := zpow2_le_iff.2 (by omega)
    rw [show max k (-126) - 23 = 1 + (max k (-126) - 24) by ring, zpow_one_add₀ (by norm_num)]
    linarith
  exact (hclose.trans hdist).mono htol

/-! ## Operands and candidates -/

/-- The fields of an F number that is neither a zero nor a denormal (40 R403). -/
structure NormalF (m : Nat) (e : Int) : Prop where
  lo : 2 ^ 23 ≤ m
  hi : m < 2 ^ 24
  emin : -149 ≤ e
  emax : e ≤ 104

theorem mathX_normal {s : State} {m : Math} {n : Nat} {neg : Bool} {j : Nat} {e : Int} (hj : j ≠ 0)
    (hx : mathX s m n = .fin neg j e) : NormalF j e := by
  unfold mathX valF at hx
  generalize (srcF s _ _ 0 _ n).toNat = p at hx
  have hemin : fmtF.emin = -149 := by decide
  rcases ofBits_of_exponent fmtF (by decide) p with ⟨-, neg', m', hm, hval⟩ | ⟨neg', m', k, hlo, hhi, hk, -, hval⟩ | ⟨-, hspecial⟩
  · have hden : fmtF.isDenorm m' fmtF.emin = true := isDenorm_of_lt fmtF hm
    have hflush : (FVal.fin neg' m' fmtF.emin).flushIn (modeF s) = .fin neg' 0 fmtF.emin := if_pos hden
    rw [hval, hflush] at hx
    exact absurd (FVal.fin.inj hx).2.1.symm hj
  · have hden : fmtF.isDenorm m' (fmtF.emin + k) = false := isDenorm_of_le fmtF k hlo
    have hflush : (FVal.fin neg' m' (fmtF.emin + k)).flushIn (modeF s) = .fin neg' m' (fmtF.emin + k) :=
      if_neg (by rw [show (modeF s).fmt = fmtF from rfl, hden, Bool.and_false]; exact Bool.false_ne_true)
    rw [hval, hflush] at hx
    obtain ⟨-, rfl, rfl⟩ := FVal.fin.inj hx
    have hfrac : fmtF.frac = 23 := rfl
    have hbits : fmtF.expBits = 8 := rfl
    rw [hfrac] at hlo hhi
    rw [hbits] at hk
    exact ⟨hlo, hhi, by omega, by omega⟩
  · cases hv : FVal.ofBits fmtF p with
    | nan | inf => rw [hv] at hx; exact nomatch hx
    | fin neg' m' e' => rw [hv] at hspecial; exact absurd hspecial Bool.false_ne_true

/-- Of the candidate and the value that replaces it, the test holds or it is the replacement. -/
theorem bounded_cases {P : FVal → Prop} {cand : FVal} {ok : FVal → Bool} {other : FRes} (hcand : ok cand = true → P cand)
    (hother : P other.val) : P (bounded cand ok other) := by
  unfold bounded
  split
  next h => exact hcand h
  next => exact hother

theorem closeTo_cast (c : FVal) (v tol : Rat) :
    CloseTo c v tol ↔ |c.toRat - v| ≤ tol ∨ (c.isZero = true ∧ |v| < pow2 (-126) + tol) := by
  unfold CloseTo
  rw [← cast_pow2]
  norm_cast

theorem near_iff (c : FVal) (v tol : Rat) : near c v tol = true ↔ c.isNan = false ∧ CloseTo c v tol := by
  rw [closeTo_cast]
  unfold near
  rw [absRat_eq_abs, absRat_eq_abs]
  simp only [Bool.and_eq_true, Bool.or_eq_true, Bool.not_eq_true', decide_eq_true_eq]

end Sys2Proof.Machine
end

section
/-! OBLIGATION O59: INV, SQRT and RSQ within their units in the last place (spec/43_misc_send_wait.md R710, R713, R714). -/

namespace Sys2Proof.Machine

section
variable {md : FMode} {cand : FVal} {m : Nat} {e : Int}

namespace NormalF

theorem log2 (h : NormalF m e) : Nat.log2 m = 23 := by
  have hm : m ≠ 0 := by have := h.lo; omega
  exact (Nat.log2_eq_iff hm).2 ⟨h.lo, h.hi⟩

theorem ne_zero (h : NormalF m e) : m ≠ 0 := by have := h.lo; omega

/-- The number lies in the binade of its exponent. -/
theorem binade (h : NormalF m e) : (2 : ℝ) ^ (e + 23) ≤ m * 2 ^ e ∧ (m : ℝ) * 2 ^ e < 2 ^ (e + 24) := by
  have hpow := zpow2_pos e
  have hlo : (2 : ℝ) ^ 23 ≤ m := by exact_mod_cast h.lo
  have hhi : (m : ℝ) < 2 ^ 24 := by exact_mod_cast h.hi
  rw [add_comm e 23, add_comm e 24, zpow2_add, zpow2_add]
  exact ⟨mul_le_mul_of_nonneg_right (by exact_mod_cast hlo) hpow.le, mul_lt_mul_of_pos_right (by exact_mod_cast hhi) hpow⟩

theorem pos (h : NormalF m e) : (0 : ℝ) < m * 2 ^ e := (zpow2_pos _).trans_le h.binade.1

end NormalF

/-! ## INV (R710) -/

/-- The exponent of 1 / (m * 2^e). -/
def invExp (m : Nat) (e : Int) : Int := -(log2Floor m e) - (if m = 2 ^ Nat.log2 m then 0 else 1)

theorem invExp_binade (h : NormalF m e) : (2 : ℝ) ^ invExp m e ≤ ((m : ℝ) * 2 ^ e)⁻¹ ∧
    ((m : ℝ) * 2 ^ e)⁻¹ < 2 ^ (invExp m e + 1) := by
  obtain ⟨hlo, hhi⟩ := h.binade
  unfold invExp log2Floor
  rw [h.log2]
  split
  next hpow =>
    have hval : (m : ℝ) * 2 ^ e = 2 ^ (e + 23) := by
      rw [hpow, add_comm, zpow2_add]
      norm_num
    rw [hval, ← zpow_neg]
    exact ⟨zpow2_le_iff.2 (by push_cast; omega), zpow2_lt_iff.2 (by push_cast; omega)⟩
  next hpow =>
    have hlt : (2 : ℝ) ^ (e + 23) < m * 2 ^ e := by
      have hm : 2 ^ 23 < m := lt_of_le_of_ne h.lo (Ne.symm hpow)
      rw [add_comm, zpow2_add]
      exact mul_lt_mul_of_pos_right (by exact_mod_cast hm) (zpow2_pos e)
    constructor
    · rw [show -(e + ((23 : Nat) : Int)) - 1 = -(e + 24) by push_cast; ring, zpow_neg]
      exact inv_anti₀ h.pos hhi.le
    · rw [show -(e + ((23 : Nat) : Int)) - 1 + 1 = -(e + 23) by push_cast; ring, zpow_neg]
      exact inv_strictAnti₀ (zpow2_pos _) hlt

theorem cast_inv_toRat (neg : Bool) (m : Nat) (e : Int) :
    ((1 / (FVal.fin neg m e).toRat : Rat) : ℝ) = signRat neg * ((m : ℝ) * 2 ^ e)⁻¹ := by
  rw [Rat.cast_div, cast_toRat_fin]
  cases neg <;> simp [signRat]

/-- The reciprocal as `fdiv` cuts it: 50 bits and a sticky one. -/
theorem fdiv_one (h : md.IsMath) (hn : NormalF m e) (neg : Bool) : ∃ st, st ≤ 1 ∧
    fdiv md (.fin false 1 0) (.fin neg m e) = roundFin md neg (2 * (2 ^ 73 / m) + st) (-e - 73 - 1) := by
  refine ⟨if 1 * 2 ^ 73 % m = 0 then 0 else 1, by split <;> decide, ?_⟩
  unfold fdiv
  dsimp only
  have hfrac : md.fmt.frac = 23 := by rw [h.fmt]; rfl
  rw [if_neg hn.ne_zero, if_neg one_ne_zero, hn.log2, hfrac, Bool.false_bne, one_mul]
  congr 1
  push_cast
  ring

theorem fdiv_one_close (h : md.IsMath) (hn : NormalF m e) (neg : Bool) :
    let c := (fdiv md (.fin false 1 0) (.fin neg m e)).val
    c.isNan = false ∧ c.sign = neg ∧
      CloseTo c (signRat neg * ((m : ℝ) * 2 ^ e)⁻¹) (2 ^ (max (invExp m e) (-126) - 23)) := by
  intro c
  obtain ⟨st, hst, hdiv⟩ := fdiv_one h hn neg
  have hc : c = _ := congrArg FRes.val hdiv
  obtain ⟨hlo, hhi⟩ := invExp_binade hn
  have hpos := hn.pos
  have hm : (0 : ℝ) < m := by exact_mod_cast Nat.pos_of_ne_zero hn.ne_zero
  have hval : ((m : ℝ) * 2 ^ e)⁻¹ = 2 ^ 73 / m * 2 ^ (-e - 73) := by
    rw [mul_inv, zpow_sub₀ (by norm_num), zpow_neg]
    field_simp
  have hexp : -e - 25 < invExp m e ∧ invExp m e ≤ 126 := by
    have := hn.emin
    unfold invExp log2Floor
    rw [hn.log2]
    split <;> omega
  rw [hc]
  refine roundFin_cut h neg (Nat.div_pos (hn.hi.le.trans (by decide)) (Nat.pos_of_ne_zero hn.ne_zero)).ne' ?_ ?_ hst hhi (by omega) hexp.2
  · rw [hval]
    refine mul_le_mul_of_nonneg_right ?_ (zpow2_pos _).le
    exact_mod_cast Nat.cast_div_le (α := ℝ) (m := 2 ^ 73) (n := m)
  · rw [hval]
    refine mul_lt_mul_of_pos_right ?_ (zpow2_pos _)
    rw [div_lt_iff₀ hm]
    rw [mul_comm]
    exact_mod_cast Nat.lt_mul_div_succ (2 ^ 73) (Nat.pos_of_ne_zero hn.ne_zero)

theorem invFin_close (h : md.IsMath) (hn : NormalF m e) (neg : Bool) :
    (invFin md cand neg m e).isNan = false ∧ (invFin md cand neg m e).sign = neg ∧
      CloseTo (invFin md cand neg m e) (1 / (FVal.fin neg m e).toRat : Rat) (ulpF (invExp m e) : Rat) := by
  unfold invFin
  refine bounded_cases (P := fun w => w.isNan = false ∧ w.sign = neg ∧ CloseTo w _ _) (fun hok => ?_) ?_
  · simp only [Bool.and_eq_true, decide_eq_true_eq] at hok
    obtain ⟨hnear, hsign⟩ := hok
    obtain ⟨hnan, hclose⟩ := (near_iff ..).1 hnear
    exact ⟨hnan, hsign, hclose⟩
  · rw [cast_inv_toRat, cast_ulpF]
    exact fdiv_one_close h hn neg

/-! ## SQRT (R713) -/

/-- What lies within u of y has the square of y between those of c - u and c + u. -/
theorem sq_bounds {c u y : ℝ} (hy : 0 ≤ y) (h : |c - y| ≤ u) : (c ≤ u ∨ (c - u) ^ 2 ≤ y ^ 2) ∧ y ^ 2 ≤ (c + u) ^ 2 := by
  obtain ⟨hlo, hhi⟩ := abs_le.1 h
  refine ⟨(le_or_gt c u).imp_right fun hc => ?_, pow_le_pow_left₀ hy (by linarith) 2⟩
  exact pow_le_pow_left₀ (by linarith) (by linarith) 2

/-- A number above the flush is close without it. -/
theorem CloseTo.of_normal {c : FVal} {x tol : ℝ} (h : CloseTo c x tol) (hx : 2 ^ (-126 : Int) + tol ≤ |x|) :
    |(c.toRat : ℝ) - x| ≤ tol :=
  h.resolve_right fun ⟨_, hlt⟩ => absurd hlt (not_lt.2 hx)

/-- A number of at least 2^-100 is not flushed. -/
theorem flush_below {k : Int} (hk : -100 ≤ k) {y : ℝ} (hy : (2 : ℝ) ^ k ≤ y) :
    2 ^ (-126 : Int) + 2 ^ (max k (-126) - 23) ≤ |y| := by
  have h1 : (2 : ℝ) ^ (-126 : Int) ≤ 2 ^ (k - 1) := zpow2_le_iff.2 (by omega)
  have h2 : (2 : ℝ) ^ (max k (-126) - 23) ≤ 2 ^ (k - 1) := zpow2_le_iff.2 (by omega)
  have h3 : (2 : ℝ) ^ k = 2 * 2 ^ (k - 1) := by
    rw [← zpow_one_add₀ (by norm_num)]
    congr 1
    ring
  linarith [le_abs_self y]

/-- w is within u of a square root of a, in squares. -/
def SqrtWithin (w : FVal) (a u : Rat) : Prop := (w.toRat ≤ u ∨ (w.toRat - u) ^ 2 ≤ a) ∧ a ≤ (w.toRat + u) ^ 2

/-- The radicand as a natural and an even exponent (R713). -/
theorem sqrt_radicand (m : Nat) (e : Int) :
    (m : ℝ) * 2 ^ e = (m * 2 ^ (80 + (e % 2).toNat) : Nat) * (2 ^ ((e - (80 + (e % 2).toNat : Nat)) / 2)) ^ 2 := by
  have hexp : e = ((80 + (e % 2).toNat : Nat) : Int) +
      ((e - (80 + (e % 2).toNat : Nat)) / 2 + (e - (80 + (e % 2).toNat : Nat)) / 2) := by omega
  rw [sq, ← zpow2_add]
  nth_rw 1 [hexp]
  rw [zpow2_add, zpow_natCast]
  push_cast
  ring

/-- The root that the model computes, cut to 51 bits and a sticky one. -/
theorem sqrt_close (h : md.IsMath) (hn : NormalF m e) {st : Nat} (hst : st ≤ 1) :
    let sh := 80 + (e % 2).toNat
    let c := (roundFin md false (2 * Nat.sqrt (m * 2 ^ sh) + st) ((e - sh) / 2 - 1)).val
    c.isNan = false ∧ c.sign = false ∧ |(c.toRat : ℝ) - √(m * 2 ^ e)| ≤ 2 ^ (max ((e + 23) / 2) (-126) - 23) := by
  intro sh c
  obtain ⟨hlo, hhi⟩ := hn.binade
  have hrad := sqrt_radicand m e
  set M := m * 2 ^ sh
  set g : ℝ := 2 ^ ((e - sh) / 2) with hg
  have hgpos : 0 < g := zpow2_pos _
  have hroot : √((m : ℝ) * 2 ^ e) = √(M : ℝ) * g := by
    rw [hrad, Real.sqrt_mul (Nat.cast_nonneg M), Real.sqrt_sq hgpos.le]
  have hlower : (2 : ℝ) ^ ((e + 23) / 2) ≤ √((m : ℝ) * 2 ^ e) := by
    refine Real.le_sqrt_of_sq_le (le_trans ?_ hlo)
    rw [sq, ← zpow2_add]
    exact zpow2_le_iff.2 (by omega)
  have hupper : √((m : ℝ) * 2 ^ e) < 2 ^ ((e + 23) / 2 + 1) := by
    rw [Real.sqrt_lt' (zpow2_pos _)]
    refine hhi.trans_le ?_
    rw [sq, ← zpow2_add]
    exact zpow2_le_iff.2 (by omega)
  have hmin := hn.emin
  have hmax := hn.emax
  have hM : M ≠ 0 := Nat.mul_ne_zero hn.ne_zero (by positivity)
  obtain ⟨hnan, hsign, hclose⟩ := roundFin_cut h false (q := Nat.sqrt M) (st := st) (γ := (e - sh) / 2) (k := (e + 23) / 2)
    (y := √((m : ℝ) * 2 ^ e)) (Nat.sqrt_pos.2 (Nat.pos_of_ne_zero hM)).ne'
    (by rw [hroot]; exact mul_le_mul_of_nonneg_right Real.nat_sqrt_le_real_sqrt hgpos.le)
    (by rw [hroot]; exact mul_lt_mul_of_pos_right Real.real_sqrt_lt_nat_sqrt_succ hgpos) hst hupper (by omega) (by omega)
  refine ⟨hnan, hsign, ?_⟩
  rw [show (signRat false : ℝ) * √((m : ℝ) * 2 ^ e) = √((m : ℝ) * 2 ^ e) by simp [signRat]] at hclose
  exact hclose.of_normal (flush_below (by omega) hlower)

theorem sqrtWithin_of_abs {w : FVal} {a u : Rat} (ha : 0 ≤ a) (h : |(w.toRat : ℝ) - √(a : ℝ)| ≤ (u : ℝ)) : SqrtWithin w a u := by
  have hsq := sq_bounds (Real.sqrt_nonneg _) h
  rw [Real.sq_sqrt (by exact_mod_cast ha)] at hsq
  unfold SqrtWithin
  exact_mod_cast hsq

theorem sqrtFin_within (h : md.IsMath) (hn : NormalF m e) :
    (sqrtFin md cand m e).isNan = false ∧ (sqrtFin md cand m e).sign = false ∧
      SqrtWithin (sqrtFin md cand m e) (FVal.fin false m e).toRat (ulpF ((e + 23) / 2)) := by
  have hexp : log2Floor m e / 2 = (e + 23) / 2 := by rw [log2Floor, hn.log2]; rfl
  unfold sqrtFin
  rw [hexp]
  refine bounded_cases (P := fun w => w.isNan = false ∧ w.sign = false ∧ SqrtWithin w _ _) (fun hok => ?_) ?_
  · simp only [Bool.and_eq_true, Bool.or_eq_true, Bool.not_eq_true', decide_eq_true_eq, ← sq] at hok
    obtain ⟨⟨⟨hnan, hsign⟩, hlo⟩, hhi⟩ := hok
    exact ⟨hnan, hsign, hlo, hhi⟩
  · rw [isqrt_eq_sqrt]
    obtain ⟨hnan, hsign, hclose⟩ := sqrt_close h hn (st := if Nat.sqrt (m * 2 ^ (80 + (e % 2).toNat)) *
      Nat.sqrt (m * 2 ^ (80 + (e % 2).toNat)) = m * 2 ^ (80 + (e % 2).toNat) then 0 else 1) (by split <;> decide)
    have hval : (((FVal.fin false m e).toRat : Rat) : ℝ) = m * 2 ^ e := by
      rw [cast_toRat_fin]
      simp [signRat]
    refine ⟨hnan, hsign, sqrtWithin_of_abs ?_ ?_⟩
    · have := hn.pos
      rw [← hval] at this
      exact_mod_cast this.le
    · rw [hval, cast_ulpF]
      exact hclose

/-! ## RSQ (R714) -/

theorem cast_toRat_pos (m : Nat) (e : Int) : (((FVal.fin false m e).toRat : Rat) : ℝ) = m * 2 ^ e := by
  rw [cast_toRat_fin]
  simp [signRat]

/-- The exponent of the reciprocal of the square root of m * 2^e. -/
def rsqExp (m : Nat) (e : Int) : Int :=
  if pow2 (2 * (-(log2Floor m e) / 2)) * (FVal.fin false m e).toRat ≤ 1 then -(log2Floor m e) / 2
  else -(log2Floor m e) / 2 - 1

theorem rsqExp_binade (hn : NormalF m e) :
    (2 : ℝ) ^ (2 * rsqExp m e) * (m * 2 ^ e) ≤ 1 ∧ 1 < (2 : ℝ) ^ (2 * (rsqExp m e + 1)) * (m * 2 ^ e) := by
  obtain ⟨hlo, hhi⟩ := hn.binade
  have hbelow {j : Int} (hj : j + (e + 24) ≤ 0) : (2 : ℝ) ^ j * (m * 2 ^ e) ≤ 1 := by
    calc (2 : ℝ) ^ j * (m * 2 ^ e) ≤ 2 ^ j * 2 ^ (e + 24) := mul_le_mul_of_nonneg_left hhi.le (zpow2_pos j).le
      _ = 2 ^ (j + (e + 24)) := (zpow2_add ..).symm
      _ ≤ 2 ^ (0 : Int) := zpow2_le_iff.2 hj
      _ = 1 := zpow_zero _
  have habove {j : Int} (hj : 0 < j + (e + 23)) : 1 < (2 : ℝ) ^ j * (m * 2 ^ e) := by
    calc (1 : ℝ) = 2 ^ (0 : Int) := (zpow_zero _).symm
      _ < 2 ^ (j + (e + 23)) := zpow2_lt_iff.2 hj
      _ = 2 ^ j * 2 ^ (e + 23) := zpow2_add ..
      _ ≤ 2 ^ j * (m * 2 ^ e) := mul_le_mul_of_nonneg_left hlo (zpow2_pos j).le
  have hlog : log2Floor m e = e + 23 := by rw [log2Floor, hn.log2]; rfl
  have htest : pow2 (2 * (-(log2Floor m e) / 2)) * (FVal.fin false m e).toRat ≤ 1 ↔
      (2 : ℝ) ^ (2 * (-(e + 23) / 2)) * (m * 2 ^ e) ≤ 1 := by
    rw [← cast_toRat_pos, ← cast_pow2, hlog]
    norm_cast
  unfold rsqExp
  simp only [htest]
  rw [hlog]
  split
  next h => exact ⟨h, habove (by omega)⟩
  next h => exact ⟨hbelow (by omega), by rw [sub_add_cancel]; exact not_le.1 h⟩

/-- The cut reciprocal root: its radicand, and what it is a multiple of. -/
theorem rsq_radicand (m : Nat) (e : Int) :
    (m : ℝ) * 2 ^ e = (m * 2 ^ (e % 2).toNat : Nat) / 2 ^ 140 * ((2 ^ (-70 - (e - (e % 2).toNat) / 2) : ℝ)⁻¹) ^ 2 := by
  have hexp : e = ((e % 2).toNat : Int) + ((e - (e % 2).toNat) / 2 + (e - (e % 2).toNat) / 2) := by omega
  generalize (e - (e % 2).toNat) / 2 = d at hexp
  generalize (e % 2).toNat = o at hexp
  rw [hexp, zpow2_add, zpow2_add, zpow_natCast, zpow_sub₀ (by norm_num)]
  push_cast
  field_simp

/-- The root of a quotient lies in the cell of the root of its integer part. -/
theorem sqrt_div_cell (a : Nat) {b : Nat} (hb : 0 < b) :
    (Nat.sqrt (a / b) : ℝ) ≤ √((a : ℝ) / b) ∧ √((a : ℝ) / b) < Nat.sqrt (a / b) + 1 := by
  refine ⟨Real.nat_sqrt_le_real_sqrt.trans (Real.sqrt_le_sqrt Nat.cast_div_le), ?_⟩
  rw [Real.sqrt_lt' (by positivity), div_lt_iff₀ (by exact_mod_cast hb)]
  have hnext : a / b + 1 ≤ (Nat.sqrt (a / b) + 1) ^ 2 := Nat.lt_succ_sqrt' _
  have : a < (Nat.sqrt (a / b) + 1) ^ 2 * b := by
    calc a < b * (a / b + 1) := Nat.lt_mul_div_succ a hb
      _ = (a / b + 1) * b := mul_comm _ _
      _ ≤ _ := Nat.mul_le_mul_right b hnext
  exact_mod_cast this

/-- The reciprocal root that the model computes, cut to 58 bits and one more. -/
theorem rsq_close (h : md.IsMath) (hn : NormalF m e) :
    let odd := (e % 2).toNat
    let c := (roundFin md false (2 * Nat.sqrt (2 ^ 140 / (m * 2 ^ odd)) + 1) (-71 - (e - odd) / 2)).val
    c.isNan = false ∧ c.sign = false ∧ |(c.toRat : ℝ) - √((m : ℝ) * 2 ^ e)⁻¹| ≤ 2 ^ (max (rsqExp m e) (-126) - 23) := by
  intro odd c
  obtain ⟨hlo, hhi⟩ := hn.binade
  obtain ⟨hle, hlt⟩ := rsqExp_binade hn
  have hpos := hn.pos
  have hrad := rsq_radicand m e
  set M := m * 2 ^ odd with hMdef
  set g : ℝ := 2 ^ (-70 - (e - odd) / 2) with hg
  have hgpos : 0 < g := zpow2_pos _
  have hM : 0 < M := Nat.mul_pos (Nat.pos_of_ne_zero hn.ne_zero) (by positivity)
  have hroot : √((m : ℝ) * 2 ^ e)⁻¹ = √(((2 ^ 140 : Nat) : ℝ) / M) * g := by
    rw [hrad, mul_inv, inv_div, inv_pow, inv_inv, Real.sqrt_mul (by positivity), Real.sqrt_sq hgpos.le]
    norm_num
  have hlower : (2 : ℝ) ^ rsqExp m e ≤ √((m : ℝ) * 2 ^ e)⁻¹ := by
    refine Real.le_sqrt_of_sq_le ?_
    rw [sq, ← zpow2_add, ← two_mul, ← one_div, le_div_iff₀ hpos]
    exact hle
  have hupper : √((m : ℝ) * 2 ^ e)⁻¹ < 2 ^ (rsqExp m e + 1) := by
    rw [Real.sqrt_lt' (zpow2_pos _), sq, ← zpow2_add, ← two_mul, ← one_div, div_lt_iff₀ hpos]
    exact hlt
  obtain ⟨hcell, hcell'⟩ := sqrt_div_cell (2 ^ 140) hM
  have hmin := hn.emin
  have hmax := hn.emax
  have hexp : -e - 26 < 2 * rsqExp m e ∧ 2 * rsqExp m e ≤ -e - 23 := by
    constructor
    · have : (2 : ℝ) ^ (0 : Int) < 2 ^ (2 * (rsqExp m e + 1) + (e + 24)) := by
        rw [zpow_zero, zpow2_add]
        exact hlt.trans (mul_lt_mul_of_pos_left hhi (zpow2_pos _))
      have := zpow2_lt_iff.1 this
      omega
    · have : (2 : ℝ) ^ (2 * rsqExp m e + (e + 23)) ≤ 2 ^ (0 : Int) := by
        rw [zpow_zero, zpow2_add]
        exact (mul_le_mul_of_nonneg_left hlo (zpow2_pos _).le).trans hle
      have := zpow2_le_iff.1 this
      omega
  have hroots : Nat.sqrt (2 ^ 140 / M) ≠ 0 := by
    have hMlt : M ≤ 2 ^ 140 := by
      have := hn.hi
      calc M ≤ 2 ^ 24 * 2 ^ 1 := Nat.mul_le_mul this.le (Nat.pow_le_pow_right (by decide) (by omega))
        _ ≤ 2 ^ 140 := by decide
    exact (Nat.sqrt_pos.2 (Nat.div_pos hMlt hM)).ne'
  obtain ⟨hnan, hsign, hclose⟩ := roundFin_cut h false (st := 1) (γ := -70 - (e - odd) / 2) (k := rsqExp m e)
    (y := √((m : ℝ) * 2 ^ e)⁻¹) hroots (by rw [hroot]; exact mul_le_mul_of_nonneg_right hcell hgpos.le)
    (by rw [hroot]; exact mul_lt_mul_of_pos_right hcell' hgpos) le_rfl hupper (by omega) (by omega)
  have hc : c = (roundFin md false (2 * Nat.sqrt (2 ^ 140 / M) + 1) (-70 - (e - odd) / 2 - 1)).val := by
    rw [show -70 - (e - odd) / 2 - 1 = -71 - (e - odd) / 2 by ring]
  rw [hc]
  refine ⟨hnan, hsign, ?_⟩
  rw [show (signRat false : ℝ) * √((m : ℝ) * 2 ^ e)⁻¹ = √((m : ℝ) * 2 ^ e)⁻¹ by simp [signRat]] at hclose
  exact hclose.of_normal (flush_below (by omega) hlower)

/-- w is within u of a reciprocal square root of a, in squares. -/
def RsqWithin (w : FVal) (a u : Rat) : Prop := (w.toRat ≤ u ∨ (w.toRat - u) ^ 2 * a ≤ 1) ∧ 1 ≤ (w.toRat + u) ^ 2 * a

theorem rsqWithin_of_abs {w : FVal} {a u : Rat} (ha : 0 < a) (h : |(w.toRat : ℝ) - √(a : ℝ)⁻¹| ≤ (u : ℝ)) : RsqWithin w a u := by
  have ha' : (0 : ℝ) < a := by exact_mod_cast ha
  have hsq := sq_bounds (Real.sqrt_nonneg _) h
  rw [Real.sq_sqrt (inv_nonneg.2 ha'.le), ← one_div, le_div_iff₀ ha', div_le_iff₀ ha'] at hsq
  unfold RsqWithin
  exact_mod_cast hsq

theorem rsqFin_within (h : md.IsMath) (hn : NormalF m e) :
    (rsqFin md cand m e).isNan = false ∧ (rsqFin md cand m e).sign = false ∧
      RsqWithin (rsqFin md cand m e) (FVal.fin false m e).toRat (3 * ulpF (rsqExp m e)) := by
  unfold rsqFin
  dsimp only
  rw [show (if pow2 (2 * (-(log2Floor m e) / 2)) * (FVal.fin false m e).toRat ≤ 1 then -(log2Floor m e) / 2
    else -(log2Floor m e) / 2 - 1) = rsqExp m e from rfl]
  refine bounded_cases (P := fun w => w.isNan = false ∧ w.sign = false ∧ RsqWithin w _ _) (fun hok => ?_) ?_
  · simp only [Bool.and_eq_true, Bool.or_eq_true, Bool.not_eq_true', decide_eq_true_eq, ← sq] at hok
    obtain ⟨⟨⟨hnan, hsign⟩, hlo⟩, hhi⟩ := hok
    exact ⟨hnan, hsign, hlo, hhi⟩
  · rw [isqrt_eq_sqrt]
    obtain ⟨hnan, hsign, hclose⟩ := rsq_close h hn
    refine ⟨hnan, hsign, rsqWithin_of_abs ?_ ?_⟩
    · have := hn.pos
      rw [← cast_toRat_pos] at this
      exact_mod_cast this
    · rw [cast_toRat_pos, Rat.cast_mul, cast_ulpF]
      refine hclose.trans (le_mul_of_one_le_left (zpow2_pos _).le ?_)
      norm_num

end

/-! ## The obligation -/

theorem abs_toRat_fin (neg : Bool) (m : Nat) (e : Int) : |(FVal.fin neg m e).toRat| = (FVal.fin false m e).toRat := by
  have : 0 ≤ (m : Rat) * pow2 e := mul_nonneg (Nat.cast_nonneg m) (pow2_pos e).le
  rw [toRat_fin, toRat_fin, abs_signRat_mul, abs_of_nonneg this, signRat, if_neg Bool.false_ne_true, one_mul]

section
variable {md : FMode} {cand : FVal} {m : Nat} {e : Int}

/-- The value of a function of one source on a number that is not zero (R710, R713, R714). -/
theorem mathUnary_inv (hm : m ≠ 0) (neg : Bool) : mathUnary md 1 cand (.fin neg m e) = some (invFin md cand neg m e) :=
  if_neg hm

theorem mathUnary_sqrt (hm : m ≠ 0) {neg : Bool} (hdomain : neg = false ∨ md.alt = true) :
    mathUnary md 4 cand (.fin neg m e) = some (sqrtFin md cand m e) :=
  (if_neg hm).trans (congrArg some (if_neg (by rcases hdomain with h | h <;> simp [h])))

theorem mathUnary_rsq (hm : m ≠ 0) {neg : Bool} (hdomain : neg = false ∨ md.alt = true) :
    mathUnary md 5 cand (.fin neg m e) = some (rsqFin md cand m e) :=
  (if_neg hm).trans (congrArg some (if_neg (by rcases hdomain with h | h <;> simp [h])))

/-- The exponent of a reciprocal is the one that the model takes. -/
theorem invExp_unique (hn : NormalF m e) {k : Int} (hk : pow2 k * (FVal.fin false m e).toRat ≤ 1)
    (hk' : 1 < pow2 (k + 1) * (FVal.fin false m e).toRat) : invExp m e = k := by
  obtain ⟨hlo, hhi⟩ := invExp_binade hn
  have hle : (2 : ℝ) ^ k * (m * 2 ^ e) ≤ 1 := by
    rw [← cast_toRat_pos, ← cast_pow2]
    exact_mod_cast hk
  have hlt : 1 < (2 : ℝ) ^ (k + 1) * (m * 2 ^ e) := by
    rw [← cast_toRat_pos, ← cast_pow2]
    exact_mod_cast hk'
  refine binade_unique hlo hhi ?_ ?_
  · rwa [← one_div, le_div_iff₀ hn.pos]
  · rwa [← one_div, div_lt_iff₀ hn.pos]

theorem sqrtExp_unique (hn : NormalF m e) {k : Int} (hk : pow2 (2 * k) ≤ (FVal.fin false m e).toRat)
    (hk' : (FVal.fin false m e).toRat < pow2 (2 * (k + 1))) : (e + 23) / 2 = k := by
  obtain ⟨hlo, hhi⟩ := hn.binade
  have hle : (2 : ℝ) ^ (2 * k) ≤ m * 2 ^ e := by
    rw [← cast_toRat_pos, ← cast_pow2]
    exact_mod_cast hk
  have hlt : (m : ℝ) * 2 ^ e < 2 ^ (2 * (k + 1)) := by
    rw [← cast_toRat_pos, ← cast_pow2]
    exact_mod_cast hk'
  have h1 := zpow2_lt_iff.1 (hle.trans_lt hhi)
  have h2 := zpow2_lt_iff.1 (hlo.trans_lt hlt)
  omega

theorem rsqExp_unique (hn : NormalF m e) {k : Int} (hk : pow2 (2 * k) * (FVal.fin false m e).toRat ≤ 1)
    (hk' : 1 < pow2 (2 * (k + 1)) * (FVal.fin false m e).toRat) : rsqExp m e = k := by
  obtain ⟨hle, hlt⟩ := rsqExp_binade hn
  have hle' : (2 : ℝ) ^ (2 * k) * (m * 2 ^ e) ≤ 1 := by
    rw [← cast_toRat_pos, ← cast_pow2]
    exact_mod_cast hk
  have hlt' : 1 < (2 : ℝ) ^ (2 * (k + 1)) * (m * 2 ^ e) := by
    rw [← cast_toRat_pos, ← cast_pow2]
    exact_mod_cast hk'
  have h1 := zpow2_lt_iff.1 (lt_of_mul_lt_mul_right (hle.trans_lt hlt') hn.pos.le)
  have h2 := zpow2_lt_iff.1 (lt_of_mul_lt_mul_right (hle'.trans_lt hlt) hn.pos.le)
  omega

end

/-- Settles O59, function by function: the number's exponent is the model's, and the result is within its units. -/
theorem mathAlgebraicPrecision : Obligations.MathAlgebraicPrecision := by
  intro s m hs ha hfc x
  have hunary : isUnaryFC m.fc = true := by rcases hfc with h | h | h <;> rw [h] <;> decide
  refine unary_step ha hunary fun n bits _ _ _ hholds neg j e hj hx hdomain => ?_
  have hnormal : NormalF j e := mathX_normal hj hx
  have hmath := isMath_mathMode s
  rw [show mathX s m n = _ from hx] at hholds
  rw [hx, abs_toRat_fin]
  rcases hfc with hfc | hfc | hfc
  · obtain ⟨hnan, hsign, hclose⟩ := invFin_close (cand := mathCand s m n) hmath hnormal neg
    rw [hfc] at hholds
    refine ⟨_, hholds _ (mathUnary_inv hj neg), hnan, fun _ => ⟨hsign, fun k hk hk' => ?_⟩, fun h => ?_, fun h => ?_⟩
    · rw [invExp_unique hnormal hk hk', closeTo_cast, abs_one_div, abs_toRat_fin] at hclose
      exact hclose
    all_goals exact absurd (hfc.symm.trans h) (by decide)
  · obtain ⟨hnan, hsign, hwithin⟩ := sqrtFin_within (cand := mathCand s m n) hmath hnormal
    rw [hfc] at hholds hdomain
    refine ⟨_, hholds _ (mathUnary_sqrt hj (hdomain.resolve_left (by decide))), hnan, fun h => ?_, fun _ => ⟨hsign, fun k hk hk' => ?_⟩, fun h => ?_⟩
    case refine_2 =>
      rw [sqrtExp_unique hnormal hk hk'] at hwithin
      exact hwithin
    all_goals exact absurd (hfc.symm.trans h) (by decide)
  · obtain ⟨hnan, hsign, hwithin⟩ := rsqFin_within (cand := mathCand s m n) hmath hnormal
    rw [hfc] at hholds hdomain
    refine ⟨_, hholds _ (mathUnary_rsq hj (hdomain.resolve_left (by decide))), hnan, fun h => ?_, fun h => ?_, fun _ => ⟨hsign, fun k hk hk' => ?_⟩⟩
    case refine_3 =>
      rw [rsqExp_unique hnormal hk hk'] at hwithin
      exact hwithin
    all_goals exact absurd (hfc.symm.trans h) (by decide)

end Sys2Proof.Machine
end

section
/-! SUPPORT. The binary logarithm by repeated squaring (spec/43_misc_send_wait.md R711; notes/assumptions/31.md). -/

namespace Sys2Proof.Machine

/-- The logarithm of y in units of 2^-100. -/
noncomputable def logUnits (y : Nat) : ℝ := Real.logb 2 ((y : ℝ) / 2 ^ 100)

theorem logb_two_zpow (k : Int) : Real.logb 2 ((2 : ℝ) ^ k) = k := by
  rw [← Real.rpow_intCast, Real.logb_rpow (by norm_num) (by norm_num)]

theorem logUnits_double {y : Nat} (hy : 0 < y) : logUnits (2 * y) = 1 + logUnits y := by
  have hy' : (y : ℝ) ≠ 0 := by exact_mod_cast hy.ne'
  unfold logUnits
  rw [Nat.cast_mul, mul_div_assoc, Real.logb_mul (by norm_num) (by positivity)]
  norm_num

theorem logUnits_nonneg {y : Nat} (hy : 2 ^ 100 ≤ y) : 0 ≤ logUnits y := by
  refine Real.logb_nonneg (by norm_num) ?_
  rw [le_div_iff₀ (by positivity), one_mul]
  exact_mod_cast hy

theorem logUnits_le_one {y : Nat} (hy : 0 < y) (hy' : y ≤ 2 ^ 101) : logUnits y ≤ 1 := by
  have hpos : (0 : ℝ) < y := by exact_mod_cast hy
  unfold logUnits
  rw [Real.logb_le_iff_le_rpow (by norm_num) (by positivity), Real.rpow_one, div_le_iff₀ (by positivity)]
  exact_mod_cast hy'

/-- The logarithm rises by less than twice a small relative step. -/
theorem logb_one_add_le {ε : ℝ} (hε : 0 ≤ ε) : Real.logb 2 (1 + ε) ≤ 2 * ε := by
  have hlog2 := Real.log_two_gt_d9
  have hlog : Real.log (1 + ε) ≤ ε := by
    have := Real.log_le_sub_one_of_pos (x := 1 + ε) (by linarith)
    linarith
  rw [Real.logb, div_le_iff₀ (by linarith)]
  nlinarith

/-- A square, cut by less than two units, has twice the logarithm. -/
theorem logUnits_square {y w : Nat} (hy : 2 ^ 100 ≤ y) (hw : 2 ^ 100 ≤ w) (hle : w * 2 ^ 100 ≤ y * y)
    (hlt : y * y < (w + 2) * 2 ^ 100) : 2 * logUnits y - 1 / 2 ^ 98 ≤ logUnits w ∧ logUnits w ≤ 2 * logUnits y := by
  have hypos : (0 : ℝ) < y := by exact_mod_cast (by positivity : 0 < 2 ^ 100).trans_le hy
  have hwpos : (0 : ℝ) < w := by exact_mod_cast (by positivity : 0 < 2 ^ 100).trans_le hw
  have hdouble : 2 * logUnits y = Real.logb 2 ((y : ℝ) * y / 2 ^ 200) := by
    unfold logUnits
    rw [← Nat.cast_two, ← Real.logb_pow]
    congr 1
    ring
  have hle' : (w : ℝ) * 2 ^ 100 ≤ y * y := by exact_mod_cast hle
  have hlt' : (y : ℝ) * y < (w + 2) * 2 ^ 100 := by exact_mod_cast hlt
  have hw' : (2 : ℝ) ^ 100 ≤ w := by exact_mod_cast hw
  rw [hdouble]
  constructor
  · have hstep : (y : ℝ) * y / 2 ^ 200 ≤ w / 2 ^ 100 * (1 + 1 / 2 ^ 99) := by
      rw [div_le_iff₀ (by positivity)]
      calc (y : ℝ) * y ≤ (w + 2) * 2 ^ 100 := hlt'.le
        _ ≤ (w + w / 2 ^ 99) * 2 ^ 100 := by
          gcongr
          rw [le_div_iff₀ (by positivity)]
          linarith
        _ = w / 2 ^ 100 * (1 + 1 / 2 ^ 99) * 2 ^ 200 := by ring
    calc Real.logb 2 ((y : ℝ) * y / 2 ^ 200) - 1 / 2 ^ 98
        ≤ Real.logb 2 (w / 2 ^ 100 * (1 + 1 / 2 ^ 99)) - 1 / 2 ^ 98 :=
          sub_le_sub_right (Real.logb_le_logb_of_le (by norm_num) (by positivity) hstep) _
      _ = logUnits w + Real.logb 2 (1 + 1 / 2 ^ 99) - 1 / 2 ^ 98 := by
          rw [Real.logb_mul (by positivity) (by positivity)]
          rfl
      _ ≤ logUnits w := by
          have := logb_one_add_le (ε := 1 / 2 ^ 99) (by positivity)
          linarith
  · refine Real.logb_le_logb_of_le (by norm_num) (by positivity) ?_
    rw [div_le_div_iff₀ (by positivity) (by positivity)]
    nlinarith

/-- The bits are those of the logarithm, the last one cut. -/
theorem log2Bits_bounds (n : Nat) {y : Nat} (acc : Nat) (hy : 2 ^ 100 ≤ y) (hy' : y < 2 ^ 101) :
    (log2Bits n y acc : ℝ) ≤ 2 ^ n * (acc + logUnits y) ∧
      2 ^ n * (acc + logUnits y) ≤ log2Bits n y acc + 1 + 2 ^ n / 2 ^ 98 := by
  induction n generalizing y acc with
  | zero =>
    have hlo := logUnits_nonneg hy
    have hhi := logUnits_le_one (by omega) hy'.le
    simp only [log2Bits, pow_zero, one_mul]
    constructor
    · linarith
    · have : (0 : ℝ) < 1 / 2 ^ 98 := by positivity
      linarith
  | succ n ih =>
    set z := y * y / 2 ^ 100 with hz
    have hzlo : z * 2 ^ 100 ≤ y * y := Nat.div_mul_le_self _ _
    have hzhi : y * y < (z + 1) * 2 ^ 100 := by
      rw [mul_comm (z + 1)]
      exact Nat.lt_mul_div_succ _ (by positivity)
    have hzmin : 2 ^ 100 ≤ z := by
      rw [hz, Nat.le_div_iff_mul_le (by positivity)]
      exact Nat.mul_le_mul hy hy
    have hzmax : z < 2 ^ 102 := by
      rw [hz, Nat.div_lt_iff_lt_mul (by positivity)]
      calc y * y < 2 ^ 101 * 2 ^ 101 := Nat.mul_lt_mul'' hy' hy'
        _ = 2 ^ 102 * 2 ^ 100 := by norm_num
    -- in both cases the next y has the logarithm of the square, less its integer bit
    have hstep {b y' : Nat} (hnext : log2Bits (n + 1) y acc = log2Bits n y' (2 * acc + b)) (hlo : 2 ^ 100 ≤ y')
        (hhi : y' < 2 ^ 101) (hlog : 2 * logUnits y - 1 / 2 ^ 98 ≤ b + logUnits y' ∧ b + logUnits y' ≤ 2 * logUnits y) :
        (log2Bits (n + 1) y acc : ℝ) ≤ 2 ^ (n + 1) * (acc + logUnits y) ∧
          2 ^ (n + 1) * (acc + logUnits y) ≤ log2Bits (n + 1) y acc + 1 + 2 ^ (n + 1) / 2 ^ 98 := by
      obtain ⟨h1, h2⟩ := ih (2 * acc + b) hlo hhi
      have hpow : (0 : ℝ) < 2 ^ n := by positivity
      rw [hnext]
      push_cast at h1 h2
      constructor
      · calc _ ≤ _ := h1
          _ ≤ 2 ^ n * (2 * acc + 2 * logUnits y) := by
            refine mul_le_mul_of_nonneg_left ?_ hpow.le
            linarith [hlog.2]
          _ = _ := by ring
      · calc (2 : ℝ) ^ (n + 1) * (acc + logUnits y) = 2 ^ n * (2 * acc + (2 * logUnits y - 1 / 2 ^ 98)) + 2 ^ n / 2 ^ 98 := by ring
          _ ≤ 2 ^ n * (2 * acc + b + logUnits y') + 2 ^ n / 2 ^ 98 := by
            refine add_le_add_left (mul_le_mul_of_nonneg_left ?_ hpow.le) _
            linarith [hlog.1]
          _ ≤ _ := by
            rw [pow_succ (2 : ℝ) n]
            linarith
    obtain hbig | hsmall := le_or_gt (2 ^ 101) z
    · refine hstep (b := 1) (y' := z / 2) (if_pos hbig) (by omega) (by omega) ?_
      have := logUnits_square hy (w := 2 * (z / 2)) (by omega) (le_trans (Nat.mul_le_mul_right _ (by omega)) hzlo)
        (hzhi.trans_le (Nat.mul_le_mul_right _ (by omega)))
      rw [logUnits_double (by omega)] at this
      exact_mod_cast this
    · refine hstep (b := 0) (y' := z) (if_neg (not_le.2 hsmall)) hzmin hsmall ?_
      have := logUnits_square hy hzmin hzlo (hzhi.trans_le (Nat.mul_le_mul_right _ (by omega)))
      simpa using this

/-- The fixed-point logarithm of a normal number is cut by less than two of its units. -/
theorem log2Fixed_close {m : Nat} {e : Int} (hn : NormalF m e) :
    |(log2Fixed m e : ℝ) * 2 ^ (-48 : Int) - Real.logb 2 (m * 2 ^ e)| ≤ 1 / 2 ^ 47 := by
  have hlo : 2 ^ 100 ≤ m * 2 ^ 77 := by have := hn.lo; omega
  have hhi : m * 2 ^ 77 < 2 ^ 101 := by have := hn.hi; omega
  have hmpos : (0 : ℝ) < m := by exact_mod_cast Nat.pos_of_ne_zero hn.ne_zero
  obtain ⟨h1, h2⟩ := log2Bits_bounds 48 0 hlo hhi
  have hfixed : log2Fixed m e = (e + 23) * 2 ^ 48 + log2Bits 48 (m * 2 ^ 77) 0 := by
    rw [log2Fixed, log2Floor, hn.log2]
    rfl
  have hlog : Real.logb 2 ((m : ℝ) * 2 ^ e) = e + 23 + logUnits (m * 2 ^ 77) := by
    have hval : (m : ℝ) * 2 ^ e = 2 ^ (e + 23) * (((m * 2 ^ 77 : Nat) : ℝ) / 2 ^ 100) := by
      rw [zpow2_add]
      push_cast
      field_simp
      norm_num
    rw [hval, Real.logb_mul (by positivity) (by positivity), logb_two_zpow, Int.cast_add, Int.cast_ofNat]
    rfl
  rw [hlog, hfixed, zpow_neg]
  push_cast
  rw [Nat.cast_zero, zero_add] at h1 h2
  rw [abs_le]
  norm_num at h1 h2 ⊢
  constructor <;> linarith

end Sys2Proof.Machine
end

section
/-! SUPPORT. LOG within its bounds (spec/43_misc_send_wait.md R711). -/

namespace Sys2Proof.Machine

variable {md : FMode} {cand : FVal} {m : Nat} {e : Int}

/-- A flushed zero is within the smallest normal number more. -/
theorem CloseTo.abs_sub_le {c : FVal} {x tol : ℝ} (h : CloseTo c x tol) : |(c.toRat : ℝ) - x| ≤ tol + 2 ^ (-126 : Int) := by
  rcases h with hc | ⟨hz, hx⟩
  · exact hc.trans (le_add_of_nonneg_right (zpow2_pos _).le)
  · have hzero : c.toRat = 0 := by
      cases c with
      | nan => rfl
      | inf => exact absurd hz Bool.false_ne_true
      | fin neg j e =>
        have hj : j = 0 := of_decide_eq_true hz
        rw [toRat_fin, hj, Nat.cast_zero, zero_mul, mul_zero]
    rw [hzero, Rat.cast_zero, zero_sub, abs_neg, add_comm]
    exact hx.le

theorem signRat_natAbs (l : Int) : (signRat (l < 0) : ℝ) * (l.natAbs : ℝ) = l := by
  rw [Nat.cast_natAbs, Int.cast_abs, signRat]
  obtain hneg | hpos := lt_or_ge l 0
  · have : (l : ℝ) < 0 := by exact_mod_cast hneg
    simp [hneg, abs_of_neg this]
  · have : (0 : ℝ) ≤ l := by exact_mod_cast hpos
    simp [not_lt.2 hpos, abs_of_nonneg this]

/-- An integer in units of 2^e, rounded: half a unit is at most 2^-24 of the value. -/
theorem roundInt_close (h : md.IsMath) (zeroNeg : Bool) (l : Int) (he : -100 ≤ e) (hlt : |(l : ℝ) * 2 ^ e| < 2 ^ 127) :
    (roundInt md zeroNeg l e).val.isNan = false ∧
      |((roundInt md zeroNeg l e).val.toRat : ℝ) - l * 2 ^ e| ≤ |(l : ℝ) * 2 ^ e| / 2 ^ 24 := by
  unfold roundInt
  split
  next hl =>
    refine ⟨rfl, ?_⟩
    have hzero : (exactRes (.fin zeroNeg 0 md.fmt.emin)).val.toRat = 0 := by
      rw [exactRes, toRat_fin, Nat.cast_zero, zero_mul, mul_zero]
    rw [hzero, hl]
    simp
  next hl =>
    have hm : l.natAbs ≠ 0 := Int.natAbs_ne_zero.2 hl
    have habs : |(l : ℝ) * 2 ^ e| = l.natAbs * 2 ^ e := by
      rw [abs_mul, abs_of_pos (zpow2_pos e), Nat.cast_natAbs, Int.cast_abs]
    set k : Int := Nat.log2 l.natAbs + e
    have hlo : (2 : ℝ) ^ k ≤ l.natAbs * 2 ^ e := by
      rw [zpow2_add, zpow_natCast]
      exact mul_le_mul_of_nonneg_right (by exact_mod_cast Nat.log2_self_le hm) (zpow2_pos e).le
    have hhi : (l.natAbs : ℝ) * 2 ^ e < 2 ^ (k + 1) := by
      rw [show k + 1 = (Nat.log2 l.natAbs + 1 : Nat) + e by omega, zpow2_add, zpow_natCast]
      exact mul_lt_mul_of_pos_right (by exact_mod_cast Nat.lt_log2_self) (zpow2_pos e)
    have hk : k ≤ 126 := by
      rw [habs] at hlt
      have : (2 : ℝ) ^ k < 2 ^ (127 : Int) := hlo.trans_lt (by exact_mod_cast hlt)
      have := zpow2_lt_iff.1 this
      omega
    obtain ⟨hnan, -, hclose⟩ := roundFin_close h (l < 0) hm hhi hk
    rw [← mul_assoc, signRat_natAbs] at hclose
    have hunit : (2 : ℝ) ^ (max k (-126) - 24) ≤ 2 ^ (max k (-126) - 23) := zpow2_le_iff.2 (by omega)
    refine ⟨hnan, (hclose.of_normal ?_).trans ?_⟩
    · rw [habs]
      have := flush_below (by omega) hlo
      rw [abs_of_pos ((zpow2_pos k).trans_le hlo)] at this
      linarith
    · rw [habs, max_eq_left (by omega), zpow_sub₀ (by norm_num)]
      exact div_le_div_of_nonneg_right hlo (by positivity)

/-- The logarithm of a normal number is small, and between 1/2 and 2 at most 1. -/
theorem NormalF.abs_logb_le (hn : NormalF m e) : |Real.logb 2 (m * 2 ^ e)| ≤ 128 := by
  obtain ⟨hlo, hhi⟩ := hn.binade
  have h1 := Real.logb_le_logb_of_le (b := 2) (by norm_num) (zpow2_pos _) hlo
  have h2 := Real.logb_le_logb_of_le (b := 2) (by norm_num) hn.pos hhi.le
  rw [logb_two_zpow] at h1 h2
  have hmin : (-149 : ℝ) ≤ e := by exact_mod_cast hn.emin
  have hmax : (e : ℝ) ≤ 104 := by exact_mod_cast hn.emax
  push_cast at h1 h2
  rw [abs_le]
  constructor <;> linarith

theorem abs_logb_le_one {x : ℝ} (hlo : 1 / 2 ≤ x) (hhi : x ≤ 2) : |Real.logb 2 x| ≤ 1 := by
  have hpos : 0 < x := by linarith
  rw [abs_le, Real.le_logb_iff_rpow_le (by norm_num) hpos, Real.logb_le_iff_le_rpow (by norm_num) hpos, Real.rpow_neg_one, Real.rpow_one]
  exact ⟨by linarith, hhi⟩

/-- The bound of LOG at x (R711). -/
noncomputable def logTol (x : ℝ) : ℝ := if 1 / 2 ≤ x ∧ x ≤ 2 then 1 / 2 ^ 21 else |Real.logb 2 x| / 2 ^ 21

theorem abs_log2Fixed_le (hn : NormalF m e) :
    |(log2Fixed m e : ℝ) * 2 ^ (-48 : Int)| ≤ |Real.logb 2 (m * 2 ^ e)| + 1 / 2 ^ 47 :=
  sub_le_iff_le_add'.1 ((abs_sub_abs_le_abs_sub _ _).trans (log2Fixed_close hn))

/-- The bound that the model tests, from the cut logarithm. -/
def logTest (m : Nat) (e : Int) : Rat :=
  if pow2 (-1) ≤ (FVal.fin false m e).toRat && (FVal.fin false m e).toRat ≤ 2 then pow2 (-21)
  else pow2 (-21) * absRat (log2Fixed m e * pow2 (-48))

/-- The model's bound is the exact one but for the cut, and rounding stays within it. -/
theorem logTest_bounds (hn : NormalF m e) : (logTest m e : ℝ) ≤ logTol (m * 2 ^ e) + 1 / 2 ^ 68 ∧
    |(log2Fixed m e : ℝ) * 2 ^ (-48 : Int)| / 2 ^ 24 ≤ logTest m e := by
  have hcut := abs_log2Fixed_le hn
  have hpow : ((pow2 (-21) : Rat) : ℝ) = 1 / 2 ^ 21 := by rw [cast_pow2]; norm_num
  have hrange : (decide (pow2 (-1) ≤ (FVal.fin false m e).toRat) && decide ((FVal.fin false m e).toRat ≤ 2)) = true ↔
      1 / 2 ≤ (m : ℝ) * 2 ^ e ∧ (m : ℝ) * 2 ^ e ≤ 2 := by
    have hhalf : (1 : ℝ) / 2 = ((pow2 (-1) : Rat) : ℝ) := by rw [cast_pow2]; norm_num
    rw [Bool.and_eq_true, decide_eq_true_eq, decide_eq_true_eq, ← cast_toRat_pos, hhalf]
    norm_cast
  have hcast : ((absRat (log2Fixed m e * pow2 (-48)) : Rat) : ℝ) = |(log2Fixed m e : ℝ) * 2 ^ (-48 : Int)| := by
    rw [absRat_eq_abs, Rat.cast_abs, Rat.cast_mul, cast_pow2]
    rfl
  rw [logTest, logTol]
  simp only [hrange]
  have hnonneg := abs_nonneg ((log2Fixed m e : ℝ) * 2 ^ (-48 : Int))
  split
  next hin =>
    have := abs_logb_le_one hin.1 hin.2
    rw [hpow]
    constructor <;> linarith
  next =>
    rw [Rat.cast_mul, hpow, hcast]
    generalize |(log2Fixed m e : ℝ) * 2 ^ (-48 : Int)| = v at hcut hnonneg ⊢
    constructor <;> linarith

theorem logFin_close (h : md.IsMath) (hn : NormalF m e) :
    (logFin md cand m e).isNan = false ∧
      |((logFin md cand m e).toRat : ℝ) - Real.logb 2 (m * 2 ^ e)| ≤ logTol (m * 2 ^ e) + 1 / 2 ^ 39 := by
  have hcut := log2Fixed_close hn
  obtain ⟨htest, hround⟩ := logTest_bounds hn
  have hflush : (2 : ℝ) ^ (-126 : Int) ≤ 1 / 2 ^ 68 := by norm_num
  suffices hw : (logFin md cand m e).isNan = false ∧ |((logFin md cand m e).toRat : ℝ) - log2Fixed m e * 2 ^ (-48 : Int)| ≤
      logTest m e + 1 / 2 ^ 40 + 2 ^ (-126 : Int) by
    refine ⟨hw.1, (abs_sub_le _ _ _).trans ((add_le_add hw.2 hcut).trans ?_)⟩
    linarith
  change (bounded cand (fun c => near c (log2Fixed m e * pow2 (-48)) (logTest m e + pow2 (-40)))
    (roundInt md false (log2Fixed m e) (-48))).isNan = false ∧ _
  refine bounded_cases (P := fun w => w.isNan = false ∧ |(w.toRat : ℝ) - log2Fixed m e * 2 ^ (-48 : Int)| ≤
    logTest m e + 1 / 2 ^ 40 + 2 ^ (-126 : Int)) (fun hok => ?_) ?_
  · obtain ⟨hnan, hclose⟩ := (near_iff ..).1 hok
    have hdist := hclose.abs_sub_le
    rw [Rat.cast_mul, cast_pow2, Rat.cast_intCast, Rat.cast_add, cast_pow2] at hdist
    exact ⟨hnan, hdist.trans_eq (by norm_num)⟩
  · have hsmall := hn.abs_logb_le
    obtain ⟨hnan, hclose⟩ := roundInt_close h false (log2Fixed m e) (e := -48) (by decide)
      ((abs_log2Fixed_le hn).trans_lt (by linarith))
    refine ⟨hnan, hclose.trans (hround.trans ?_)⟩
    have := zpow2_pos (-126)
    linarith [show (0 : ℝ) < 1 / 2 ^ 40 by positivity]

end Sys2Proof.Machine
end

section
/-! SUPPORT. The power of two by square roots of square roots, and the integer part of a real (spec/43_misc_send_wait.md R712; notes/assumptions/31.md). -/

namespace Sys2Proof.Machine

/-- The integer part that the model takes is the floor. -/
theorem floorInt_eq (neg : Bool) (m : Nat) (e : Int) : floorInt neg m e = ⌊(signRat neg : ℝ) * (m * 2 ^ e)⌋ := by
  have hsigned : (signRat neg : ℝ) * m = (signedM neg m : Int) := by cases neg <;> simp [signRat, signedM]
  rw [← mul_assoc, hsigned]
  unfold floorInt
  split
  next he =>
    obtain ⟨k, rfl⟩ := Int.eq_ofNat_of_zero_le he
    have hval : ((signedM neg m : Int) : ℝ) * 2 ^ (k : Int) = (signedM neg m * 2 ^ k : Int) := by
      push_cast
      rw [zpow_natCast]
    rw [hval, Int.floor_intCast]
    rfl
  next he =>
    obtain ⟨k, hk⟩ : ∃ k : Nat, e = -k := ⟨(-e).toNat, by omega⟩
    subst hk
    have hpow : (0 : Int) < 2 ^ k := by positivity
    rw [neg_neg, Int.toNat_natCast, eq_comm, Int.floor_eq_iff, zpow_neg, zpow_natCast, ← div_eq_mul_inv,
      le_div_iff₀ (by positivity), div_lt_iff₀ (by positivity)]
    constructor
    · exact_mod_cast Int.ediv_mul_le (signedM neg m) hpow.ne'
    · exact_mod_cast Int.lt_ediv_add_one_mul_self (signedM neg m) hpow

/-! ## The bits of the exponent -/

/-- The power of two of a fraction f / 2^64. -/
noncomputable def fracPow (f : Nat) : ℝ := 2 ^ ((f : ℝ) / 2 ^ 64)

theorem fracPow_add (a b : Nat) : fracPow (a + b) = fracPow a * fracPow b := by
  unfold fracPow
  rw [← Real.rpow_add (by norm_num)]
  push_cast
  ring_nf

theorem fracPow_double (n : Nat) : fracPow (2 ^ (n + 1)) = fracPow (2 ^ n) ^ 2 := by
  rw [pow_succ, mul_two, fracPow_add, sq]

theorem one_le_fracPow (f : Nat) : 1 ≤ fracPow f := Real.one_le_rpow (by norm_num) (by positivity)

theorem fracPow_pos (f : Nat) : 0 < fracPow f := by have := one_le_fracPow f; linarith

/-- The root C of a square, cut, keeps its relative error. -/
theorem root_close {c : Nat} {C : ℝ} (hC : 1 ≤ C) (hlo : 2 ^ 100 * C ^ 2 * (1 - 1 / 2 ^ 98) ≤ c) (hhi : (c : ℝ) ≤ 2 ^ 100 * C ^ 2) :
    2 ^ 100 * C * (1 - 1 / 2 ^ 98) ≤ Nat.sqrt (c * 2 ^ 100) ∧ (Nat.sqrt (c * 2 ^ 100) : ℝ) ≤ 2 ^ 100 * C := by
  constructor
  · have hcell : √((c * 2 ^ 100 : Nat) : ℝ) < Nat.sqrt (c * 2 ^ 100) + 1 := Real.real_sqrt_lt_nat_sqrt_succ
    have hroot : 2 ^ 100 * C * (1 - 1 / 2 ^ 98) + 1 ≤ √((c * 2 ^ 100 : Nat) : ℝ) := by
      refine Real.le_sqrt_of_sq_le ?_
      push_cast
      refine le_trans ?_ (mul_le_mul_of_nonneg_right hlo (by positivity))
      norm_num
      nlinarith
    exact le_of_add_le_add_right (hroot.trans hcell.le)
  · refine Real.nat_sqrt_le_real_sqrt.trans (Real.sqrt_le_iff.2 ⟨by positivity, ?_⟩)
    push_cast
    nlinarith

/-- A product of units of 2^-100, cut. -/
theorem product_close {a c : Nat} {C : ℝ} (hC : 1 ≤ C) (ha : 2 ^ 100 ≤ a) (hlo : 2 ^ 100 * C * (1 - 1 / 2 ^ 98) ≤ c)
    (hhi : (c : ℝ) ≤ 2 ^ 100 * C) : a * C * (1 - 1 / 2 ^ 97) ≤ (a * c / 2 ^ 100 : Nat) ∧ ((a * c / 2 ^ 100 : Nat) : ℝ) ≤ a * C := by
  have ha' : (2 : ℝ) ^ 100 ≤ a := by exact_mod_cast ha
  constructor
  · have hcut : (a * c : ℝ) < 2 ^ 100 * ((a * c / 2 ^ 100 : Nat) + 1) := by
      exact_mod_cast Nat.lt_mul_div_succ (a * c) (by positivity)
    have hprod : a * (2 ^ 100 * C * (1 - 1 / 2 ^ 98)) ≤ (a * c : ℝ) := mul_le_mul_of_nonneg_left hlo (by positivity)
    have hunit : (2 : ℝ) ^ 100 ≤ a * C := ha'.trans (le_mul_of_one_le_right (by positivity) hC)
    linarith
  · refine Nat.cast_div_le.trans ?_
    rw [Nat.cast_mul, Nat.cast_pow, Nat.cast_ofNat, div_le_iff₀ (by positivity)]
    calc (a : ℝ) * c ≤ a * (2 ^ 100 * C) := mul_le_mul_of_nonneg_left hhi (by positivity)
      _ = a * C * 2 ^ 100 := by ring

theorem exp2Bits_bounds (n : Nat) {c f a : Nat} (hc : 2 ^ 100 ≤ c) (ha : 2 ^ 100 ≤ a) (hf : f < 2 ^ n)
    (hlo : 2 ^ 100 * fracPow (2 ^ n) * (1 - 1 / 2 ^ 98) ≤ c) (hhi : (c : ℝ) ≤ 2 ^ 100 * fracPow (2 ^ n)) :
    a * fracPow f * (1 - 1 / 2 ^ 97) ^ n ≤ exp2Bits n c f a ∧ (exp2Bits n c f a : ℝ) ≤ a * fracPow f := by
  induction n generalizing c f a with
  | zero =>
    have hzero : fracPow f = 1 := by
      rw [show f = 0 by omega, fracPow, Nat.cast_zero, zero_div, Real.rpow_zero]
    rw [hzero, pow_zero, mul_one, mul_one]
    exact ⟨le_rfl, le_rfl⟩
  | succ n ih =>
    rw [fracPow_double] at hlo hhi
    have hC := one_le_fracPow (2 ^ n)
    obtain ⟨hlo', hhi'⟩ := root_close hC hlo hhi
    have hroot : 2 ^ 100 ≤ Nat.sqrt (c * 2 ^ 100) := Nat.le_sqrt.2 (Nat.mul_le_mul_right _ hc)
    have hstep : exp2Bits (n + 1) c f a = exp2Bits n (Nat.sqrt (c * 2 ^ 100)) (f % 2 ^ n)
        (if 2 ^ n ≤ f then a * Nat.sqrt (c * 2 ^ 100) / 2 ^ 100 else a) := by
      rw [exp2Bits, isqrt_eq_sqrt]
    have hmod : f % 2 ^ n < 2 ^ n := Nat.mod_lt _ (by positivity)
    have hpow : (0 : ℝ) ≤ (1 - 1 / 2 ^ 97) ^ n := pow_nonneg (by norm_num) n
    rw [hstep]
    split
    next hbit =>
      have hsplit : f = 2 ^ n + f % 2 ^ n := by
        rw [Nat.mod_eq_sub_mod hbit, Nat.mod_eq_of_lt (by omega)]
        omega
      have hfrac : fracPow f = fracPow (2 ^ n) * fracPow (f % 2 ^ n) := by rw [← fracPow_add, ← hsplit]
      obtain ⟨hplo, hphi⟩ := product_close hC ha hlo' hhi'
      have hprod : 2 ^ 100 ≤ a * Nat.sqrt (c * 2 ^ 100) / 2 ^ 100 := by
        rw [Nat.le_div_iff_mul_le (by positivity)]
        exact Nat.mul_le_mul ha hroot
      obtain ⟨h1, h2⟩ := ih hroot hprod hmod hlo' hhi'
      have hF := fracPow_pos (f % 2 ^ n)
      constructor
      · calc a * fracPow f * (1 - 1 / 2 ^ 97) ^ (n + 1)
            = a * fracPow (2 ^ n) * (1 - 1 / 2 ^ 97) * fracPow (f % 2 ^ n) * (1 - 1 / 2 ^ 97) ^ n := by
              rw [hfrac]
              ring
          _ ≤ _ := mul_le_mul_of_nonneg_right (mul_le_mul_of_nonneg_right hplo hF.le) hpow
          _ ≤ _ := h1
      · calc _ ≤ _ := h2
          _ ≤ a * fracPow (2 ^ n) * fracPow (f % 2 ^ n) := mul_le_mul_of_nonneg_right hphi hF.le
          _ = a * fracPow f := by
              rw [hfrac]
              ring
    next hbit =>
      have hkeep : f % 2 ^ n = f := Nat.mod_eq_of_lt (by omega)
      rw [hkeep]
      obtain ⟨h1, h2⟩ := ih hroot ha (f := f) (by omega) hlo' hhi'
      refine ⟨le_trans ?_ h1, h2⟩
      refine mul_le_mul_of_nonneg_left ?_ (mul_nonneg (Nat.cast_nonneg a) (fracPow_pos f).le)
      exact pow_le_pow_of_le_one (by norm_num) (by norm_num) (Nat.le_succ n)

theorem exp2Fixed_bounds {f : Nat} (hf : f < 2 ^ 64) : 2 ^ 100 * fracPow f * (1 - 1 / 2 ^ 91) ≤ exp2Fixed f ∧
    (exp2Fixed f : ℝ) ≤ 2 ^ 100 * fracPow f := by
  have htwo : fracPow (2 ^ 64) = 2 := by
    rw [fracPow, Nat.cast_pow, Nat.cast_ofNat, div_self (by positivity), Real.rpow_one]
  obtain ⟨h1, h2⟩ := exp2Bits_bounds 64 (c := 2 * 2 ^ 100) (a := 2 ^ 100) (by omega) le_rfl hf
    (by rw [htwo]; norm_num) (by rw [htwo]; norm_num)
  rw [Nat.cast_pow, Nat.cast_ofNat] at h1 h2
  refine ⟨le_trans (mul_le_mul_of_nonneg_left ?_ (by have := fracPow_pos f; positivity)) h1, h2⟩
  norm_num

/-! ## The exponent's parts -/

/-- The power of two of r, from its integer part and the 64 bits after it, cut by less than 2^-63 of its value. -/
theorem exp2_close (r : ℝ) :
    let p := exp2Fixed (⌊2 ^ 64 * r⌋ - ⌊r⌋ * 2 ^ 64).toNat
    (2 : ℝ) ^ r * (1 - 1 / 2 ^ 63) ≤ p * 2 ^ (⌊r⌋ - 100) ∧ (p : ℝ) * 2 ^ (⌊r⌋ - 100) ≤ 2 ^ r := by
  intro p
  set f := (⌊2 ^ 64 * r⌋ - ⌊r⌋ * 2 ^ 64).toNat with hfdef
  have hi := Int.floor_le r
  have hi' := Int.lt_floor_add_one r
  have hg := Int.floor_le (2 ^ 64 * r)
  have hg' := Int.lt_floor_add_one (2 ^ 64 * r)
  have hge : ⌊r⌋ * 2 ^ 64 ≤ ⌊2 ^ 64 * r⌋ := by
    refine Int.le_floor.2 ?_
    push_cast
    linarith
  have hlt : ⌊2 ^ 64 * r⌋ < (⌊r⌋ + 1) * 2 ^ 64 := by
    refine Int.floor_lt.2 ?_
    push_cast
    linarith
  have hf : f < 2 ^ 64 := by omega
  have hcast : (f : ℝ) = ⌊2 ^ 64 * r⌋ - ⌊r⌋ * 2 ^ 64 := by
    have : (f : Int) = ⌊2 ^ 64 * r⌋ - ⌊r⌋ * 2 ^ 64 := by omega
    exact_mod_cast this
  obtain ⟨hplo, hphi⟩ := exp2Fixed_bounds hf
  set δ := r - ⌊r⌋ - f / 2 ^ 64 with hδ
  have hδ0 : 0 ≤ δ := by linarith
  have hδ1 : δ ≤ 1 / 2 ^ 64 := by linarith
  have hval : (2 : ℝ) ^ r = 2 ^ ⌊r⌋ * fracPow f * 2 ^ δ := by
    rw [fracPow, ← Real.rpow_intCast, ← Real.rpow_add (by norm_num), ← Real.rpow_add (by norm_num)]
    congr 1
    rw [hδ]
    ring
  have hδlo : (1 : ℝ) ≤ 2 ^ δ := Real.one_le_rpow (by norm_num) hδ0
  have hδhi : (2 : ℝ) ^ δ ≤ 1 + 1 / 2 ^ 64 := by
    have := rpow_one_add_le_one_add_mul_self (s := 1) (by norm_num) hδ0 (by linarith)
    norm_num at this hδ1 ⊢
    linarith
  have hunit : (2 : ℝ) ^ (⌊r⌋ - 100) = 2 ^ ⌊r⌋ / 2 ^ 100 := by
    rw [zpow_sub₀ (by norm_num)]
    norm_num
  have hF := fracPow_pos f
  have hI := zpow2_pos ⌊r⌋
  set B := (2 : ℝ) ^ ⌊r⌋ * fracPow f with hB
  have hBpos : 0 < B := mul_pos hI hF
  have hp : (p : ℝ) * 2 ^ (⌊r⌋ - 100) = 2 ^ ⌊r⌋ * (p / 2 ^ 100) := by rw [hunit]; ring
  have hplo' : B * (1 - 1 / 2 ^ 91) ≤ p * 2 ^ (⌊r⌋ - 100) := by
    rw [hp, hB, mul_assoc]
    refine mul_le_mul_of_nonneg_left ?_ hI.le
    rw [le_div_iff₀ (by positivity)]
    linarith
  have hphi' : (p : ℝ) * 2 ^ (⌊r⌋ - 100) ≤ B := by
    rw [hp, hB]
    refine mul_le_mul_of_nonneg_left ?_ hI.le
    rw [div_le_iff₀ (by positivity)]
    linarith
  rw [hval]
  constructor
  · calc B * 2 ^ δ * (1 - 1 / 2 ^ 63) ≤ B * (1 + 1 / 2 ^ 64) * (1 - 1 / 2 ^ 63) :=
          mul_le_mul_of_nonneg_right (mul_le_mul_of_nonneg_left hδhi hBpos.le) (by norm_num)
      _ = B * ((1 + 1 / 2 ^ 64) * (1 - 1 / 2 ^ 63)) := mul_assoc ..
      _ ≤ B * (1 - 1 / 2 ^ 91) := mul_le_mul_of_nonneg_left (by norm_num) hBpos.le
      _ ≤ _ := hplo'
  · exact hphi'.trans (le_mul_of_one_le_right hBpos.le hδlo)

/-- The power lies in the binade of the integer part. -/
theorem exp2_binade (r : ℝ) : (2 : ℝ) ^ ⌊r⌋ ≤ 2 ^ r ∧ (2 : ℝ) ^ r < 2 ^ (⌊r⌋ + 1) := by
  rw [← Real.rpow_intCast, ← Real.rpow_intCast, Real.rpow_le_rpow_left_iff (by norm_num), Real.rpow_lt_rpow_left_iff (by norm_num)]
  push_cast
  exact ⟨Int.floor_le r, Int.lt_floor_add_one r⟩

end Sys2Proof.Machine
end

section
/-! SUPPORT. EXP within its bounds (spec/43_misc_send_wait.md R712). -/

namespace Sys2Proof.Machine

variable {md : FMode} {cand : FVal}

/-- A result of EXP at r: within three units and the widening of log 31, or the overflow above 128. -/
structure ExpWithin (alt : Bool) (r : ℝ) (w : FVal) : Prop where
  notNan : w.isNan = false
  overflow : 128 < r → w = if alt then fmtF.maxVal false else .inf false
  sign : r ≤ 128 → w.sign = false
  close : r ≤ 128 → CloseTo w (2 ^ r) (3 * 2 ^ (max ⌊r⌋ (-126) - 23) + 2 ^ r / 2 ^ 49)

/-- Rounding what has reached 2^128 overflows. -/
theorem RoundedTo.overflow_of_le {W : Rat} {c : FVal} (h : RoundedTo md false W c) (hW : (2 : ℝ) ^ (128 : Int) ≤ W) :
    c = if md.alt then fmtF.maxVal false else .inf false := by
  refine h.overflow (le_trans ?_ (le_abs_self W))
  rw [← cast_pow2] at hW
  exact_mod_cast hW

/-! ## Above and below all F numbers -/

theorem expWithin_big (h : md.IsMath) {r : ℝ} (hr : 200 ≤ ⌊r⌋) : ExpWithin md.alt r (roundFin md false 1 200).val := by
  obtain ⟨W, hto, hW⟩ := roundFin_half_unit h false (m := 1) (e := 200) (k := 200) one_ne_zero (by norm_num)
  have hbig : 128 < r := by
    have := Int.le_floor.1 hr
    norm_num at this
    linarith
  refine ⟨hto.not_nan_sign.1, fun _ => hto.overflow_of_le ?_, fun hle => absurd hle (not_le.2 hbig), fun hle => absurd hle (not_le.2 hbig)⟩
  have := (abs_le.1 hW).1
  norm_num [signRat] at this ⊢
  linarith

theorem expWithin_small {alt : Bool} {r : ℝ} {e : Int} (hr : ⌊r⌋ ≤ -200) : ExpWithin alt r (.fin false 0 e) := by
  have hlt := (exp2_binade r).2
  have hsmall : (2 : ℝ) ^ (⌊r⌋ + 1) ≤ 2 ^ (-126 : Int) := zpow2_le_iff.2 (by omega)
  have hr' : r < 128 := by
    have : (⌊r⌋ : ℝ) ≤ -200 := by exact_mod_cast hr
    linarith [Int.lt_floor_add_one r]
  refine ⟨rfl, fun h => absurd h (not_lt.2 hr'.le), fun _ => rfl, fun _ => .inr ⟨rfl, ?_⟩⟩
  have hpos : (0 : ℝ) < 2 ^ r := by positivity
  rw [abs_of_pos hpos]
  exact (hlt.trans_le hsmall).trans (lt_add_of_pos_right _ (by positivity))

/-! ## The candidate and the rounded value -/

section
variable {r : ℝ} {v : ℝ}

/-- A unit in the last place against the power. -/
theorem unit_le_exp2 (hr : -100 ≤ ⌊r⌋) : (2 : ℝ) ^ (max ⌊r⌋ (-126) - 23) ≤ 2 ^ r / 2 ^ 23 := by
  rw [max_eq_left (by omega), zpow_sub₀ (by norm_num)]
  exact div_le_div_of_nonneg_right (exp2_binade r).1 (by positivity)

/-- Above 128 the next F number is far enough that its power is not in the reach of F. -/
theorem exp2_far (hr : 128 + 1 / 2 ^ 16 ≤ r) : (2 : ℝ) ^ (128 : Int) * (1 + 1 / 2 ^ 17) ≤ 2 ^ r := by
  have hlog := Real.log_two_gt_d9
  have hstep : (1 : ℝ) + 1 / 2 ^ 17 ≤ 2 ^ ((1 : ℝ) / 2 ^ 16) := by
    rw [Real.rpow_def_of_pos (by norm_num)]
    have := Real.add_one_le_exp (Real.log 2 * (1 / 2 ^ 16))
    norm_num at this ⊢
    linarith
  calc (2 : ℝ) ^ (128 : Int) * (1 + 1 / 2 ^ 17) ≤ 2 ^ (128 : Int) * 2 ^ ((1 : ℝ) / 2 ^ 16) :=
        mul_le_mul_of_nonneg_left hstep (zpow2_pos _).le
    _ = 2 ^ ((128 : ℝ) + 1 / 2 ^ 16) := by
        rw [Real.rpow_add (by norm_num), ← Real.rpow_intCast]
        norm_num
    _ ≤ 2 ^ r := Real.rpow_le_rpow_of_exponent_le (by norm_num) hr

theorem FVal.InF.toRat_le {c : FVal} (h : c.InF) : (c.toRat : ℝ) ≤ 2 ^ (128 : Int) := by
  rw [← cast_pow2]
  have hpos := (pow2_pos 128).le
  cases c with
  | nan => exact_mod_cast hpos
  | inf neg =>
    cases neg with
    | false => exact le_rfl
    | true => exact_mod_cast (neg_nonpos.2 hpos).trans hpos
  | fin neg m e =>
    have hin := h neg m e rfl
    have hmag : 0 ≤ (m : Rat) * pow2 e := mul_nonneg (Nat.cast_nonneg m) (pow2_pos e).le
    cases neg with
    | false => exact_mod_cast hin.le
    | true => exact_mod_cast (neg_nonpos.2 hmag).trans hpos

/-- The candidate that passes the model's test (R712). -/
theorem expWithin_near {alt : Bool} (hlo : (2 : ℝ) ^ r * (1 - 1 / 2 ^ 63) ≤ v) (hhi : v ≤ 2 ^ r) (hfar : 128 < r → 128 + 1 / 2 ^ 16 ≤ r)
    {c : FVal} (hin : c.InF) (hnan : c.isNan = false) (hsign : c.sign = false)
    (hclose : CloseTo c v (3 * 2 ^ (max ⌊r⌋ (-126) - 23) + v / 2 ^ 50)) : ExpWithin alt r c := by
  have hV : (0 : ℝ) < 2 ^ r := by positivity
  have hcloser : CloseTo c (2 ^ r) (3 * 2 ^ (max ⌊r⌋ (-126) - 23) + 2 ^ r / 2 ^ 49) := by
    refine (hclose.trans (d := 2 ^ r / 2 ^ 63) ?_).mono (by linarith)
    rw [abs_le]
    constructor <;> linarith
  refine ⟨hnan, fun hbig => ?_, fun _ => hsign, fun _ => hcloser⟩
  -- above 128 no F number passes
  have hpow := exp2_far (hfar hbig)
  have hunit := unit_le_exp2 (r := r) (Int.le_floor.2 (by push_cast; linarith))
  have h128 := zpow2_pos 128
  rcases hcloser with habs | ⟨-, hzero⟩
  · have := hin.toRat_le
    have := (abs_le.1 habs).1
    linarith
  · have hsmall : (2 : ℝ) ^ (-126 : Int) ≤ 2 ^ (128 : Int) / 2 := by norm_num
    rw [abs_of_pos hV] at hzero
    linarith

/-- The value that replaces the candidate, rounded to nearest (R712). -/
theorem expWithin_round (h : md.IsMath) {p : Nat} {e : Int} (hlo : (2 : ℝ) ^ r * (1 - 1 / 2 ^ 63) ≤ p * 2 ^ e)
    (hhi : (p : ℝ) * 2 ^ e ≤ 2 ^ r) (hfar : 128 < r → 128 + 1 / 2 ^ 16 ≤ r) : ExpWithin md.alt r (roundFin md false p e).val := by
  have hV : (0 : ℝ) < 2 ^ r := by positivity
  have hp : p ≠ 0 := by
    rintro rfl
    rw [Nat.cast_zero, zero_mul] at hlo
    linarith
  obtain ⟨hbin, hbin'⟩ := exp2_binade r
  obtain ⟨W, hto, hW⟩ := roundFin_half_unit h false hp (hhi.trans_lt hbin')
  rw [show (signRat false : ℝ) * (p * 2 ^ e) = p * 2 ^ e by simp [signRat]] at hW
  have hhalf : (2 : ℝ) ^ (max ⌊r⌋ (-126) - 23) = 2 * 2 ^ (max ⌊r⌋ (-126) - 24) := by
    rw [← zpow_one_add₀ (by norm_num)]
    congr 1
    ring
  have hdist : |(p : ℝ) * 2 ^ e - 2 ^ r| ≤ 2 ^ r / 2 ^ 63 := by
    rw [abs_le]
    constructor <;> linarith
  obtain ⟨hWlo, hWhi⟩ := abs_le.1 hW
  have hhalfpos := zpow2_pos (max ⌊r⌋ (-126) - 24)
  obtain ⟨hnan, hsign⟩ := hto.not_nan_sign
  refine ⟨hnan, fun hbig => hto.overflow_of_le ?_, fun _ => hsign, fun hle => ?_⟩
  · have hpow := exp2_far (hfar hbig)
    have hunit := unit_le_exp2 (r := r) (Int.le_floor.2 (by push_cast; linarith))
    have := zpow2_pos 128
    linarith
  have hi128 : ⌊r⌋ ≤ 128 := by
    have : ⌊r⌋ ≤ ⌊(128 : ℝ)⌋ := Int.floor_le_floor hle
    rwa [Int.floor_ofNat] at this
  obtain hsmall | hover := lt_or_ge |(W : ℝ)| (2 ^ (128 : Int))
  · exact ((hto.closeTo hW hsmall).trans hdist).mono (by linarith)
  -- what rounds to 2^128 is within a unit of the largest F number and of 2^128
  have hunit128 : (2 : ℝ) ^ (max ⌊r⌋ (-126) - 24) ≤ 2 ^ (104 : Int) := zpow2_le_iff.2 (by omega)
  have hpos : (0 : ℝ) ≤ p * 2 ^ e := by positivity
  have hW128 : (2 : ℝ) ^ (128 : Int) ≤ W := by
    refine (le_abs.1 hover).resolve_right fun hneg => ?_
    norm_num at hneg hunit128
    linarith
  have hr128 : (2 : ℝ) ^ r ≤ 2 ^ (128 : Int) := by
    rw [← Real.rpow_intCast]
    exact Real.rpow_le_rpow_of_exponent_le (by norm_num) (by exact_mod_cast hle)
  have hi127 : 127 ≤ ⌊r⌋ := by
    have : (2 : ℝ) ^ (127 : Int) < 2 ^ (⌊r⌋ + 1) := by
      refine lt_of_lt_of_le (b := (2 : ℝ) ^ (128 : Int) - 2 ^ (104 : Int)) (by norm_num) (le_trans ?_ hbin'.le)
      linarith
    have := zpow2_lt_iff.1 this
    omega
  have hunit127 : (2 : ℝ) ^ (104 : Int) ≤ 2 ^ (max ⌊r⌋ (-126) - 23) := zpow2_le_iff.2 (by omega)
  have hmax : ((roundFin md false p e).val.toRat : ℝ) = 2 ^ (128 : Int) ∨
      ((roundFin md false p e).val.toRat : ℝ) = 2 ^ (128 : Int) - 2 ^ (104 : Int) := by
    rw [hto.overflow_of_le hW128]
    split
    · right
      have hmaxVal : fmtF.maxVal false = .fin false (2 ^ 24 - 1) 104 := by decide
      rw [hmaxVal, cast_toRat_pos]
      norm_num
    · exact .inl (cast_pow2 128)
  left
  rw [abs_le]
  rcases hmax with hmax | hmax <;> rw [hmax] <;> constructor <;> linarith

end

/-! ## EXP -/

/-- The F numbers above 128 are at least 2^-16 above it. -/
theorem NormalF.far {m : Nat} {e : Int} (hn : NormalF m e) (neg : Bool) (hr : 128 < (signRat neg : ℝ) * (m * 2 ^ e)) :
    128 + 1 / 2 ^ 16 ≤ (signRat neg : ℝ) * (m * 2 ^ e) := by
  have hpos := hn.pos
  cases neg with
  | true => exact absurd hr (by simp only [signRat]; push_cast; linarith)
  | false =>
    rw [show (signRat false : ℝ) * (m * 2 ^ e) = m * 2 ^ e by simp [signRat]] at hr ⊢
    have he : -16 ≤ e := by
      have : (2 : ℝ) ^ (7 : Int) < 2 ^ (e + 24) := lt_trans (by norm_num; exact hr) hn.binade.2
      have := zpow2_lt_iff.1 this
      omega
    obtain ⟨d, rfl⟩ : ∃ d : Nat, e = -16 + d := ⟨(e + 16).toNat, by omega⟩
    have hval : (m : ℝ) * 2 ^ (-16 + (d : Int)) = (m * 2 ^ d : Nat) / 2 ^ 16 := by
      rw [zpow2_add, zpow_natCast]
      push_cast
      norm_num
      ring
    rw [hval] at hr ⊢
    rw [lt_div_iff₀ (by positivity)] at hr
    rw [le_div_iff₀ (by positivity)]
    have hint : 128 * 2 ^ 16 < m * 2 ^ d := by exact_mod_cast hr
    have : ((128 * 2 ^ 16 + 1 : Nat) : ℝ) ≤ (m * 2 ^ d : Nat) := by exact_mod_cast hint
    norm_num at this ⊢
    linarith

theorem expFin_within (h : md.IsMath) (hin : cand.InF) {m : Nat} {e : Int} (hn : NormalF m e) (neg : Bool) :
    ExpWithin md.alt (signRat neg * (m * 2 ^ e)) (expFin md cand neg m e) := by
  set r : ℝ := signRat neg * (m * 2 ^ e) with hr
  have hscaled : (signRat neg : ℝ) * (m * 2 ^ (e + 64)) = 2 ^ 64 * r := by
    rw [zpow2_add, hr]
    norm_num
    ring
  unfold expFin
  simp only [floorInt_eq, hscaled, ← hr]
  split
  next hbig => exact expWithin_big h hbig
  split
  next hsmall => exact expWithin_small hsmall
  next =>
    obtain ⟨hlo, hhi⟩ := exp2_close r
    refine bounded_cases (fun hok => ?_) (expWithin_round h hlo hhi (hn.far neg))
    simp only [Bool.and_eq_true, Bool.not_eq_true'] at hok
    obtain ⟨hnear, hsign⟩ := hok
    obtain ⟨hnan, hclose⟩ := (near_iff ..).1 hnear
    refine expWithin_near hlo hhi (hn.far neg) hin hnan hsign ?_
    rw [Rat.cast_mul, Rat.cast_natCast, cast_pow2, Rat.cast_add, Rat.cast_mul, cast_ulpF] at hclose
    refine hclose.mono (le_of_eq ?_)
    rw [Rat.cast_mul, Rat.cast_mul, cast_pow2, cast_pow2]
    norm_num
    ring

end Sys2Proof.Machine
end

section
/-! SUPPORT. Sine and cosine by their power series, and the reduction of the angle (spec/43_misc_send_wait.md R716, R717; notes/assumptions/31.md). -/

namespace Sys2Proof.Machine

/-! ## The power series -/

/-- The term of order 2j + k of the series of sine (k = 1) or cosine (k = 0). -/
noncomputable def trigTerm (k : Nat) (ρ : ℝ) (j : Nat) : ℝ := (-1) ^ j * ρ ^ (2 * j + k) / (2 * j + k).factorial

theorem trigTerm_succ (k : Nat) (ρ : ℝ) (j : Nat) :
    trigTerm k ρ (j + 1) = -(trigTerm k ρ j * ρ * ρ) / (((2 * j + k : Nat) + 1) * ((2 * j + k : Nat) + 2)) := by
  have hfact : ((2 * (j + 1) + k).factorial : ℝ) = ((2 * j + k : Nat) + 2) * (((2 * j + k : Nat) + 1) * (2 * j + k).factorial) := by
    rw [show 2 * (j + 1) + k = 2 * j + k + 1 + 1 by ring, Nat.factorial_succ, Nat.factorial_succ]
    push_cast
    ring
  have hpos : ((2 * j + k).factorial : ℝ) ≠ 0 := by positivity
  have h1 : ((2 * j + k : Nat) : ℝ) + 1 ≠ 0 := by positivity
  have h2 : ((2 * j + k : Nat) : ℝ) + 2 ≠ 0 := by positivity
  unfold trigTerm
  rw [hfact, show 2 * (j + 1) + k = 2 * j + k + 1 + 1 by ring]
  field_simp
  ring

/-- The terms fall faster than 2^81 / 256^j. -/
theorem trigTerm_le (k : Nat) {ρ : ℝ} (hρ : |ρ| ≤ 63 / 20) (j : Nat) : ‖trigTerm k ρ j‖ ≤ 2 ^ 81 * (1 / 256) ^ j := by
  have hexp : Real.exp (16 * |ρ|) ≤ 2 ^ 81 := by
    calc Real.exp (16 * |ρ|) ≤ Real.exp ((51 : Nat) * 1) := Real.exp_le_exp.2 (by push_cast; linarith)
      _ = Real.exp 1 ^ 51 := Real.exp_nat_mul 1 51
      _ ≤ 3 ^ 51 := pow_le_pow_left₀ (Real.exp_pos 1).le Real.exp_one_lt_three.le 51
      _ ≤ 2 ^ 81 := by norm_num
  have hterm := (Real.pow_div_factorial_le_exp (x := 16 * |ρ|) (by positivity) (2 * j + k)).trans hexp
  have hscale : (16 : ℝ) ^ (2 * j) ≤ 16 ^ (2 * j + k) := pow_le_pow_right₀ (by norm_num) (by omega)
  rw [mul_pow, div_le_iff₀ (by positivity)] at hterm
  rw [trigTerm, norm_div, norm_mul, norm_pow, norm_neg, norm_one, one_pow, one_mul, norm_pow, Real.norm_natCast,
    Real.norm_eq_abs, div_le_iff₀ (by positivity), one_div, inv_pow, ← div_eq_mul_inv, div_mul_eq_mul_div, le_div_iff₀ (by positivity)]
  calc |ρ| ^ (2 * j + k) * 256 ^ j = 16 ^ (2 * j) * |ρ| ^ (2 * j + k) := by
        rw [pow_mul (16 : ℝ)]
        norm_num
        ring
    _ ≤ 16 ^ (2 * j + k) * |ρ| ^ (2 * j + k) := mul_le_mul_of_nonneg_right hscale (by positivity)
    _ ≤ _ := hterm

/-- A quotient of the model, cut, against the real one. -/
theorem abs_ediv_sub_le (a : Int) {d : Int} (hd : 0 < d) : |((a / d : Int) : ℝ) - a / d| ≤ 1 := by
  have hd' : (0 : ℝ) < d := by exact_mod_cast hd
  have hlo : ((a / d : Int) : ℝ) * d ≤ a := by exact_mod_cast Int.ediv_mul_le a hd.ne'
  have hhi : (a : ℝ) < ((a / d : Int) + 1) * d := by exact_mod_cast Int.lt_ediv_add_one_mul_self a hd
  rw [← le_div_iff₀ hd'] at hlo
  rw [← div_lt_iff₀ hd'] at hhi
  rw [abs_le]
  constructor <;> linarith

/-- The next term, cut three times, has at most five times the error and four units. -/
theorem term_close {t r K : Int} {τ ε : ℝ} (hK : 0 ≤ K) (hr : |(r : ℝ) / 2 ^ 100| ≤ 63 / 20) (ht : |(t : ℝ) - τ| ≤ ε) :
    |((-(t * r / 2 ^ 100 * r / 2 ^ 100) / ((K + 1) * (K + 2)) : Int) : ℝ) -
      -(τ * (r / 2 ^ 100) * (r / 2 ^ 100)) / ((K + 1) * (K + 2))| ≤ 5 * ε + 4 := by
  set ρ : ℝ := r / 2 ^ 100 with hρ
  set a := t * r / 2 ^ 100 with ha
  set b := a * r / 2 ^ 100 with hb
  set d : Int := (K + 1) * (K + 2) with hd
  have hd2 : 2 ≤ d := by nlinarith
  have hd2' : (2 : ℝ) ≤ d := by exact_mod_cast hd2
  have hcut {x : Int} : |((x * r / 2 ^ 100 : Int) : ℝ) - x * ρ| ≤ 1 := by
    have := abs_ediv_sub_le (x * r) (d := 2 ^ 100) (by positivity)
    rwa [Int.cast_mul, Int.cast_pow, Int.cast_ofNat, mul_div_assoc] at this
  have h1 : |(a : ℝ) - t * ρ| ≤ 1 := hcut
  have h2 : |(b : ℝ) - a * ρ| ≤ 1 := hcut
  have h3 : |((-b / d : Int) : ℝ) - -b / d| ≤ 1 := by
    have := abs_ediv_sub_le (-b) (d := d) (by omega)
    rwa [Int.cast_neg] at this
  have hsplit : ((-b / d : Int) : ℝ) - -(τ * ρ * ρ) / d =
      (((-b / d : Int) : ℝ) - -b / d) + -((b - a * ρ) + (a - t * ρ) * ρ + (t - τ) * (ρ * ρ)) / d := by
    field_simp
    ring
  have hsq : |ρ * ρ| ≤ 10 := by
    rw [abs_mul]
    nlinarith [abs_nonneg ρ]
  have hε : 0 ≤ ε := (abs_nonneg _).trans ht
  have hnum : |-((b - a * ρ) + (a - t * ρ) * ρ + (t - τ) * (ρ * ρ))| ≤ 1 + 1 * (63 / 20) + ε * 10 := by
    rw [abs_neg]
    refine (abs_add_three _ _ _).trans (add_le_add_three h2 ?_ ?_)
    · rw [abs_mul]
      exact mul_le_mul h1 hr (abs_nonneg _) (by norm_num)
    · rw [abs_mul]
      exact mul_le_mul ht hsq (abs_nonneg _) hε
  have hquot : |-((b - a * ρ) + (a - t * ρ) * ρ + (t - τ) * (ρ * ρ)) / (d : ℝ)| ≤ (1 + 1 * (63 / 20) + ε * 10) / 2 := by
    rw [abs_div, abs_of_pos (by linarith : (0 : ℝ) < d)]
    exact div_le_div₀ (by positivity) hnum (by norm_num) hd2'
  have hcast : ((K : ℝ) + 1) * (K + 2) = d := by rw [hd]; push_cast; ring
  rw [hcast, hsplit]
  refine (abs_add_le _ _).trans ((add_le_add h3 hquot).trans ?_)
  linarith

/-- n terms from order 2j + k on: the errors of the terms add up. -/
theorem trigSeries_close (k : Nat) {r : Int} (hr : |(r : ℝ) / 2 ^ 100| ≤ 63 / 20) (n j : Nat) {t acc : Int} {ε : ℝ}
    (ht : |(t : ℝ) - 2 ^ 100 * trigTerm k (r / 2 ^ 100) j| ≤ ε) :
    |(trigSeries r n (2 * j + k : Nat) t acc : ℝ) - (acc + 2 ^ 100 * ∑ i ∈ Finset.range n, trigTerm k (r / 2 ^ 100) (j + i))| ≤
      (ε + 1) * (5 ^ n - 1) / 4 := by
  induction n generalizing j t acc ε with
  | zero => simp [trigSeries]
  | succ n ih =>
    have hnext := term_close (K := (2 * j + k : Nat)) (Int.natCast_nonneg _) hr ht
    rw [trigSeries, Finset.sum_range_succ', Nat.add_zero]
    have hterm : 2 ^ 100 * trigTerm k ((r : ℝ) / 2 ^ 100) (j + 1) =
        -(2 ^ 100 * trigTerm k (r / 2 ^ 100) j * (r / 2 ^ 100) * (r / 2 ^ 100)) /
          ((((2 * j + k : Nat) : Int) + 1) * (((2 * j + k : Nat) : Int) + 2)) := by
      rw [trigTerm_succ, Int.cast_natCast]
      ring
    rw [← hterm] at hnext
    have hrest := ih (j + 1) (acc := acc + t) hnext
    have horder : (((2 * (j + 1) + k : Nat) : Int)) = ((2 * j + k : Nat) : Int) + 2 := by push_cast; ring
    rw [horder] at hrest
    have hshift (i : Nat) : trigTerm k ((r : ℝ) / 2 ^ 100) (j + (i + 1)) = trigTerm k (r / 2 ^ 100) (j + 1 + i) := by
      rw [Nat.add_right_comm, Nat.add_assoc]
    simp only [hshift]
    generalize trigSeries r n _ _ (acc + t) = S at hrest ⊢
    generalize ∑ i ∈ Finset.range n, trigTerm k ((r : ℝ) / 2 ^ 100) (j + 1 + i) = total at hrest ⊢
    generalize trigTerm k ((r : ℝ) / 2 ^ 100) j = τ at ht ⊢
    have hε : 0 ≤ ε := (abs_nonneg _).trans ht
    calc |(S : ℝ) - (acc + 2 ^ 100 * (total + τ))|
        = |((S : ℝ) - ((acc + t : Int) + 2 ^ 100 * total)) + (t - 2 ^ 100 * τ)| := by
          push_cast
          ring_nf
      _ ≤ (5 * ε + 4 + 1) * (5 ^ n - 1) / 4 + ε := (abs_add_le _ _).trans (add_le_add hrest ht)
      _ ≤ (ε + 1) * (5 ^ (n + 1) - 1) / 4 := by
          rw [pow_succ]
          linarith

/-! ## Sine and cosine -/

/-- What the model's series and reduction need of sine and cosine. -/
structure TrigFun (k : Nat) (S : ℝ → ℝ) : Prop where
  series : ∀ ρ, HasSum (trigTerm k ρ) (S ρ)
  periodic : Function.Periodic S (2 * Real.pi)
  lipschitz : ∀ x y, |S x - S y| ≤ |x - y|
  bounded : ∀ x, |S x| ≤ 1

theorem trigFun_sin : TrigFun 1 Real.sin := ⟨Real.hasSum_sin, Real.sin_periodic, Real.abs_sin_sub_sin_le, Real.abs_sin_le_one⟩
theorem trigFun_cos : TrigFun 0 Real.cos := ⟨Real.hasSum_cos, Real.cos_periodic, Real.abs_cos_sub_cos_le, Real.abs_cos_le_one⟩

section
variable {k : Nat} {S : ℝ → ℝ}

/-- 24 terms of the series give the function. -/
theorem TrigFun.series_close (hS : TrigFun k S) {r t : Int} (hr : |(r : ℝ) / 2 ^ 100| ≤ 63 / 20)
    (ht : (t : ℝ) = 2 ^ 100 * trigTerm k (r / 2 ^ 100) 0) :
    |(trigSeries r 24 k t 0 : ℝ) * 2 ^ (-100 : Int) - S (r / 2 ^ 100)| ≤ 1 / 2 ^ 45 := by
  have hsum := trigSeries_close k hr 24 0 (acc := 0) (ε := 0) (t := t) (by rw [ht, sub_self, abs_zero])
  have htail := norm_sub_le_of_geometric_bound_of_hasSum (by norm_num) (trigTerm_le k hr) (hS.series _) 24
  simp only [Nat.mul_zero, Int.cast_zero, zero_add] at hsum
  rw [Real.norm_eq_abs] at htail
  rw [abs_le] at hsum htail ⊢
  norm_num at hsum htail ⊢
  constructor <;> linarith

end

/-! ## The angle -/

/-- The model's pi. -/
noncomputable def piCut : ℝ := piFixed / 2 ^ 100

theorem piCut_close : |Real.pi - piCut| ≤ 1 / 10 ^ 20 := by
  have h1 := Real.pi_gt_d20
  have h2 := Real.pi_lt_d20
  rw [piCut, piFixed, abs_le]
  norm_num at h1 h2 ⊢
  constructor <;> linarith

theorem piFixed_pos : 0 < piFixed := by decide

theorem reduceAngle_small (x : Int) : |(reduceAngle x : ℝ) / 2 ^ 100| ≤ 63 / 20 := by
  have hlo := Int.emod_nonneg (x + piFixed) (b := 2 * piFixed) (by decide)
  have hhi := Int.emod_lt_of_pos (x + piFixed) (b := 2 * piFixed) (by decide)
  have habs : |reduceAngle x| ≤ piFixed := by
    unfold reduceAngle
    rw [abs_le]
    omega
  have habs' : |(reduceAngle x : ℝ)| ≤ piFixed := by exact_mod_cast habs
  rw [abs_div, abs_of_pos (by positivity : (0 : ℝ) < 2 ^ 100), div_le_iff₀ (by positivity)]
  refine habs'.trans ?_
  norm_num [piFixed]

/-- In range the reduction takes off at most 51 turns, so that the model's pi serves for pi. -/
theorem TrigFun.reduce_close {k : Nat} {S : ℝ → ℝ} (hS : TrigFun k S) {r : ℝ} (hlo : -(100 * piFixed) ≤ ⌊2 ^ 100 * r⌋)
    (hhi : ⌊2 ^ 100 * r⌋ ≤ 100 * piFixed) : |S (reduceAngle ⌊2 ^ 100 * r⌋ / 2 ^ 100) - S r| ≤ 1 / 2 ^ 45 := by
  set x := ⌊2 ^ 100 * r⌋ with hx
  set q := (x + piFixed) / (2 * piFixed) with hq
  have hpos := piFixed_pos
  have hreduce : reduceAngle x = x - 2 * piFixed * q := by
    have := Int.emod_add_mul_ediv (x + piFixed) (2 * piFixed)
    unfold reduceAngle
    linarith
  have hq' : |q| ≤ 51 := by
    rw [abs_le]
    constructor
    · exact (Int.le_ediv_iff_mul_le (by linarith)).2 (by linarith)
    · exact Int.lt_add_one_iff.1 ((Int.ediv_lt_iff_lt_mul (by linarith)).2 (by linarith))
  have hq'' : |(q : ℝ)| ≤ 51 := by exact_mod_cast hq'
  have hturns : S r = S (r - q * (2 * Real.pi)) := (hS.periodic.sub_int_mul_eq q).symm
  rw [hturns]
  refine (hS.lipschitz _ _).trans ?_
  have hfloor := Int.floor_le (2 ^ 100 * r)
  have hfloor' := Int.lt_floor_add_one (2 ^ 100 * r)
  have hcut : |(x : ℝ) / 2 ^ 100 - r| ≤ 1 / 2 ^ 100 := by
    rw [abs_le]
    constructor <;> linarith
  have hval : (reduceAngle x : ℝ) / 2 ^ 100 - (r - q * (2 * Real.pi)) = (x / 2 ^ 100 - r) + 2 * q * (Real.pi - piCut) := by
    rw [hreduce, piCut]
    push_cast
    ring
  rw [hval]
  have hpi : |2 * (q : ℝ) * (Real.pi - piCut)| ≤ 2 * 51 * (1 / 10 ^ 20) := by
    rw [abs_mul, abs_mul, abs_two]
    exact mul_le_mul (by linarith) piCut_close (abs_nonneg _) (by norm_num)
  refine (abs_add_le _ _).trans ((add_le_add hcut hpi).trans ?_)
  norm_num

/-- An F number within 100 pi is within the model's 100 pi. -/
theorem NormalF.inRange {m : Nat} {e : Int} (hn : NormalF m e) {neg : Bool} (hr : |(signRat neg : ℝ) * (m * 2 ^ e)| ≤ 100 * Real.pi) :
    -(100 * piFixed) ≤ ⌊2 ^ 100 * ((signRat neg : ℝ) * (m * 2 ^ e))⌋ ∧
      ⌊2 ^ 100 * ((signRat neg : ℝ) * (m * 2 ^ e))⌋ ≤ 100 * piFixed := by
  have hgrid : (m : ℝ) * 2 ^ e ≤ 10294370 / 2 ^ 15 := by
    rw [abs_signRat_mul_real, abs_of_pos hn.pos] at hr
    obtain hsmall | hbig := lt_or_ge ((m : ℝ) * 2 ^ e) 256
    · exact hsmall.le.trans (by norm_num)
    have he : -15 ≤ e := by
      have : (2 : ℝ) ^ (8 : Int) < 2 ^ (e + 24) := lt_of_le_of_lt (by norm_num; exact hbig) hn.binade.2
      have := zpow2_lt_iff.1 this
      omega
    obtain ⟨d, rfl⟩ : ∃ d : Nat, e = -15 + d := ⟨(e + 15).toNat, by omega⟩
    have hval : (m : ℝ) * 2 ^ (-15 + (d : Int)) = (m * 2 ^ d : Nat) / 2 ^ 15 := by
      rw [zpow2_add, zpow_natCast]
      push_cast
      norm_num
      ring
    have hpi := Real.pi_lt_d20
    rw [hval] at hr ⊢
    rw [div_le_iff₀ (by positivity)] at hr
    have hlt : ((m * 2 ^ d : Nat) : ℝ) < (10294371 : Nat) := by
      refine hr.trans_lt ?_
      norm_num at hpi ⊢
      linarith
    have : m * 2 ^ d ≤ 10294370 := Nat.lt_succ_iff.1 (by exact_mod_cast hlt)
    exact div_le_div_of_nonneg_right (by exact_mod_cast this) (by positivity)
  have habs : |2 ^ 100 * ((signRat neg : ℝ) * (m * 2 ^ e))| ≤ ((10294370 * 2 ^ 85 : Int) : ℝ) := by
    rw [abs_mul, abs_signRat_mul_real, abs_of_pos hn.pos, abs_of_pos (by positivity)]
    refine (mul_le_mul_of_nonneg_left hgrid (by positivity)).trans (le_of_eq ?_)
    norm_num
  obtain ⟨hlo, hhi⟩ := abs_le.1 habs
  have hpi : (10294370 * 2 ^ 85 : Int) ≤ 100 * piFixed := by decide
  rw [← Int.cast_neg] at hlo
  have hceil : -(10294370 * 2 ^ 85) ≤ ⌊2 ^ 100 * ((signRat neg : ℝ) * (m * 2 ^ e))⌋ := Int.le_floor.2 hlo
  have hfloor : ⌊2 ^ 100 * ((signRat neg : ℝ) * (m * 2 ^ e))⌋ ≤ 10294370 * 2 ^ 85 := by
    exact_mod_cast (Int.floor_le _).trans hhi
  exact ⟨(neg_le_neg hpi).trans hceil, hfloor.trans hpi⟩

end Sys2Proof.Machine
end

section
/-! OBLIGATION O60: LOG, EXP, SIN and COS within their bounds (spec/43_misc_send_wait.md R711, R712, R716, R717). -/

namespace Sys2Proof.Machine

section
variable {md : FMode} {cand : FVal} {m : Nat} {e : Int}

/-! ## SIN and COS (R716, R717) -/

/-- The unit of a number of at least 1. -/
theorem quantum_ge (hm : 1 ≤ (m : ℝ) * 2 ^ e) : -23 ≤ fmtF.quantum m e := by
  have hlt : (2 : ℝ) ^ (0 : Int) < 2 ^ ((Nat.log2 m + 1 : Nat) + e) := by
    rw [zpow_zero, zpow2_add, zpow_natCast]
    exact hm.trans_lt (mul_lt_mul_of_pos_right (by exact_mod_cast Nat.lt_log2_self) (zpow2_pos e))
  have hexp := zpow2_lt_iff.1 hlt
  have hfrac : fmtF.frac = 23 := rfl
  unfold FFmt.quantum
  omega

/-- What is hardly above 1 rounds to at most 1. -/
theorem roundFin_le_one (h : md.IsMath) (neg : Bool) (hm : m ≠ 0) (hle : (m : ℝ) * 2 ^ e ≤ 1 + 1 / 2 ^ 40) :
    |((roundFin md neg m e).val.toRat : ℝ)| ≤ 1 := by
  obtain ⟨W, ⟨z, hz⟩, hnear, hto⟩ := roundFin_rne h neg e hm
  set Q := fmtF.quantum m e with hQ
  have hQneg : Q ≤ -23 := by
    have := quantum_le (k := 0) hm (hle.trans_lt (by norm_num))
    omega
  obtain ⟨d, hd⟩ : ∃ d : Nat, Q = -d := ⟨(-Q).toNat, by omega⟩
  have hunit := zpow2_pos Q
  have hone : ((2 ^ d : Nat) : ℝ) * 2 ^ Q = 1 := by
    rw [hd, zpow_neg, zpow_natCast]
    push_cast
    exact mul_inv_cancel₀ (by positivity)
  have hnear' : 2 * |(W : ℝ) - signRat neg * (m * 2 ^ e)| ≤ 2 ^ Q := by
    rw [← cast_toRat_fin, ← cast_pow2]
    exact_mod_cast hnear
  have hmag : |(W : ℝ)| ≤ m * 2 ^ e + 2 ^ Q / 2 := by
    have := abs_sub_abs_le_abs_sub (W : ℝ) (signRat neg * (m * 2 ^ e))
    rw [abs_signRat_mul_real, abs_of_nonneg (by positivity : (0 : ℝ) ≤ m * 2 ^ e)] at this
    linarith
  -- W is a multiple of the unit and 1 is one too: above 1 it would be a whole unit above
  have hW : |(W : ℝ)| ≤ 1 := by
    have hWz : |(W : ℝ)| = z.natAbs * 2 ^ Q := by
      rw [hz, Rat.cast_mul, cast_pow2, abs_mul, abs_of_pos hunit, Nat.cast_natAbs, Int.cast_abs, Rat.cast_intCast]
    by_contra hgt
    rw [not_le, hWz, ← hone] at hgt
    have hstep : 2 ^ d + 1 ≤ z.natAbs := by exact_mod_cast lt_of_mul_lt_mul_right hgt hunit.le
    have hstep' : ((2 ^ d : Nat) : ℝ) + 1 ≤ z.natAbs := by exact_mod_cast hstep
    have habove : 1 + 2 ^ Q ≤ |(W : ℝ)| := by
      rw [hWz, ← hone, ← add_one_mul]
      exact mul_le_mul_of_nonneg_right hstep' hunit.le
    have hQlow : (2 : ℝ) ^ (-23 : Int) ≤ 2 ^ Q := zpow2_le_iff.2 (quantum_ge (by linarith))
    norm_num at hQlow hle
    linarith
  have hlt : |W| < pow2 128 := by
    have : |(W : ℝ)| < 2 ^ (128 : Int) := hW.trans_lt (by norm_num)
    rw [← cast_pow2] at this
    exact_mod_cast this
  obtain hsmall | hlo := lt_or_ge |W| (pow2 (-126))
  · rw [hto.flushed hsmall, cast_toRat_fin]
    simp
  · rwa [(hto.kept hlo hlt).1]

theorem roundInt_le_one (h : md.IsMath) (zeroNeg : Bool) {l : Int} (hle : |(l : ℝ) * 2 ^ e| ≤ 1 + 1 / 2 ^ 40) :
    |((roundInt md zeroNeg l e).val.toRat : ℝ)| ≤ 1 := by
  unfold roundInt
  split
  next =>
    rw [exactRes, cast_toRat_fin]
    simp
  next hl =>
    refine roundFin_le_one h _ (Int.natAbs_ne_zero.2 hl) ?_
    rwa [abs_mul, abs_of_pos (zpow2_pos e), ← Int.cast_abs, ← Nat.cast_natAbs] at hle

/-- A value from -1 to 1, near v where the angle x (in units of 2^-100) is in the model's range. -/
structure TrigWithin (x : Int) (v : ℝ) (w : FVal) : Prop where
  notNan : w.isNan = false
  le_one : |(w.toRat : ℝ)| ≤ 1
  near : -(100 * piFixed) ≤ x → x ≤ 100 * piFixed → |(w.toRat : ℝ) - v| ≤ 8 / 10000 + 1 / 2 ^ 40 + 2 ^ (-126 : Int)

theorem trigFin_within (h : md.IsMath) {fixed : Int → Int} (hfixed : ∀ x, |(fixed x : ℝ) * 2 ^ (-100 : Int)| ≤ 1 + 1 / 2 ^ 40)
    (neg : Bool) : TrigWithin (floorInt neg m (e + 100)) (fixed (floorInt neg m (e + 100)) * 2 ^ (-100 : Int))
      (trigFin md cand fixed neg m e) := by
  unfold trigFin
  generalize floorInt neg m (e + 100) = x
  refine bounded_cases (fun hok => ?_) ?_
  · simp only [Bool.and_eq_true, Bool.or_eq_true, Bool.not_eq_true', decide_eq_true_eq, absRat_eq_abs] at hok
    obtain ⟨⟨hnan, hone⟩, hrange⟩ := hok
    refine ⟨hnan, by exact_mod_cast hone, fun hlo hhi => ?_⟩
    have hnear := hrange.resolve_left (by simp [hlo, hhi])
    have hdist := ((near_iff ..).1 hnear).2.abs_sub_le
    rw [Rat.cast_mul, cast_pow2, Rat.cast_intCast, Rat.cast_add, cast_pow2] at hdist
    exact hdist.trans_eq (by norm_num)
  · split
    next =>
      obtain ⟨hnan, hclose⟩ := roundInt_close h false (fixed x) (e := -100) le_rfl ((hfixed x).trans_lt (by norm_num))
      refine ⟨hnan, roundInt_le_one h false (hfixed x), fun _ _ => hclose.trans ?_⟩
      have := hfixed x
      have := zpow2_pos (-126)
      linarith
    next hout =>
      refine ⟨rfl, by rw [exactRes, cast_toRat_fin]; simp, fun hlo hhi => absurd ?_ hout⟩
      simp only [Bool.and_eq_true, decide_eq_true_eq]
      exact ⟨hlo, hhi⟩

/-- SIN or COS of a normal number. -/
theorem trigFin_close (h : md.IsMath) (hn : NormalF m e) {k : Nat} {S : ℝ → ℝ} (hS : TrigFun k S) {fixed : Int → Int}
    (hfixed : ∀ x, |(fixed x : ℝ) * 2 ^ (-100 : Int) - S (reduceAngle x / 2 ^ 100)| ≤ 1 / 2 ^ 45) (neg : Bool) :
    let r : ℝ := signRat neg * (m * 2 ^ e)
    let w := trigFin md cand fixed neg m e
    w.isNan = false ∧ |(w.toRat : ℝ)| ≤ 1 ∧ (|r| ≤ 100 * Real.pi → |(w.toRat : ℝ) - S r| ≤ 8 / 10000 + 1 / 2 ^ 39) := by
  intro r w
  have hbounded (x : Int) : |(fixed x : ℝ) * 2 ^ (-100 : Int)| ≤ 1 + 1 / 2 ^ 40 := by
    have := (abs_sub_abs_le_abs_sub _ _).trans (hfixed x)
    refine (sub_le_iff_le_add'.1 this).trans ?_
    have := hS.bounded (reduceAngle x / 2 ^ 100)
    linarith
  obtain ⟨hnan, hone, hnear⟩ := trigFin_within (cand := cand) (m := m) (e := e) h hbounded neg
  refine ⟨hnan, hone, fun hr => ?_⟩
  have hx : floorInt neg m (e + 100) = ⌊2 ^ 100 * r⌋ := by
    rw [floorInt_eq, zpow2_add]
    congr 1
    norm_num [r]
    ring
  obtain ⟨hlo, hhi⟩ := hn.inRange hr
  rw [hx] at hnear
  have h1 := hnear hlo hhi
  have h2 := hfixed ⌊2 ^ 100 * r⌋
  have h3 := hS.reduce_close hlo hhi
  refine (abs_sub_le _ _ _).trans ((add_le_add h1 ((abs_sub_le _ _ _).trans (add_le_add h2 h3))).trans ?_)
  norm_num

theorem sinFixed_close (x : Int) : |(sinFixed x : ℝ) * 2 ^ (-100 : Int) - Real.sin (reduceAngle x / 2 ^ 100)| ≤ 1 / 2 ^ 45 :=
  trigFun_sin.series_close (reduceAngle_small x) (by simp [trigTerm, mul_div_cancel₀])

theorem cosFixed_close (x : Int) : |(cosFixed x : ℝ) * 2 ^ (-100 : Int) - Real.cos (reduceAngle x / 2 ^ 100)| ≤ 1 / 2 ^ 45 :=
  trigFun_cos.series_close (reduceAngle_small x) (by norm_num [trigTerm])

/-! ## The functions on a number that is not zero -/

theorem mathUnary_log (hm : m ≠ 0) {neg : Bool} (hdomain : neg = false ∨ md.alt = true) :
    mathUnary md 2 cand (.fin neg m e) = some (logFin md cand m e) :=
  (if_neg hm).trans (congrArg some (if_neg (by rcases hdomain with h | h <;> simp [h])))

theorem mathUnary_exp (hm : m ≠ 0) (neg : Bool) : mathUnary md 3 cand (.fin neg m e) = some (expFin md cand neg m e) :=
  if_neg hm

theorem mathUnary_sin (hm : m ≠ 0) (neg : Bool) : mathUnary md 6 cand (.fin neg m e) = some (trigFin md cand sinFixed neg m e) :=
  if_neg hm

theorem mathUnary_cos (hm : m ≠ 0) (neg : Bool) : mathUnary md 7 cand (.fin neg m e) = some (trigFin md cand cosFixed neg m e) :=
  if_neg hm

theorem logb_signRat_mul (neg : Bool) (x : ℝ) : Real.logb 2 (signRat neg * x) = Real.logb 2 x := by
  cases neg <;> simp [signRat, Real.logb_neg_eq_logb]

end

/-- Settles O60, function by function: the enclosure is close to the real function, the model's test or its rounded value is
close to the enclosure. -/
theorem mathTranscendentalPrecision : Obligations.MathTranscendentalPrecision := by
  intro s m hs ha hfc x
  have hunary : isUnaryFC m.fc = true := by rcases hfc with h | h | h | h <;> rw [h] <;> decide
  refine unary_step ha hunary fun n bits _ _ _ hholds neg j e hj hx hdomain => ?_
  have hnormal : NormalF j e := mathX_normal hj hx
  have hmath := isMath_mathMode s
  rw [show mathX s m n = _ from hx] at hholds
  rw [hx, cast_toRat_fin]
  rcases hfc with hfc | hfc | hfc | hfc
  · obtain ⟨hnan, hclose⟩ := logFin_close (cand := mathCand s m n) hmath hnormal
    rw [hfc] at hholds hdomain
    refine ⟨_, hholds _ (mathUnary_log hj (hdomain.resolve_left (fun h => h rfl))), hnan, fun _ => ?_, fun h => ?_, fun h => ?_⟩
    case refine_1 =>
      rw [abs_signRat_mul_real, abs_of_pos hnormal.pos, logb_signRat_mul]
      unfold logTol at hclose
      refine ⟨fun hin => ?_, fun hout => ?_⟩
      · rwa [if_pos hin] at hclose
      · rwa [if_neg (fun hin => by rcases hout with h | h <;> linarith [hin.1, hin.2])] at hclose
    case refine_2 => exact absurd (hfc.symm.trans h) (by decide)
    case refine_3 => rcases h with h | h <;> exact absurd (hfc.symm.trans h) (by decide)
  · have hwithin := expFin_within hmath (inF_mathCand (s := s) (m := m) (n := n)) hnormal neg
    rw [hfc] at hholds
    refine ⟨_, hholds _ (mathUnary_exp hj neg), hwithin.notNan, fun h => ?_, fun _ => ⟨hwithin.overflow, fun hle => ⟨hwithin.sign hle, ?_⟩⟩, fun h => ?_⟩
    case refine_1 => exact absurd (hfc.symm.trans h) (by decide)
    case refine_2 =>
      have hclose := hwithin.close hle
      have hpos : (0 : ℝ) < 2 ^ ((signRat neg : ℝ) * (j * 2 ^ e)) := by positivity
      unfold CloseTo at hclose
      rw [abs_of_pos hpos] at hclose
      dsimp only
      rw [cast_pow2, cast_pow2]
      exact hclose
    case refine_3 => rcases h with h | h <;> exact absurd (hfc.symm.trans h) (by decide)
  · obtain ⟨hnan, hone, hclose⟩ := trigFin_close (cand := mathCand s m n) hmath hnormal trigFun_sin sinFixed_close neg
    rw [hfc] at hholds
    refine ⟨_, hholds _ (mathUnary_sin hj neg), hnan, fun h => ?_, fun h => ?_, fun _ => ⟨hone, fun hr => ?_⟩⟩
    case refine_3 =>
      rw [if_pos hfc]
      exact hclose hr
    all_goals exact absurd (hfc.symm.trans h) (by decide)
  · obtain ⟨hnan, hone, hclose⟩ := trigFin_close (cand := mathCand s m n) hmath hnormal trigFun_cos cosFixed_close neg
    rw [hfc] at hholds
    refine ⟨_, hholds _ (mathUnary_cos hj neg), hnan, fun h => ?_, fun h => ?_, fun _ => ⟨hone, fun hr => ?_⟩⟩
    case refine_3 =>
      rw [if_neg (by rw [hfc]; decide)]
      exact hclose hr
    all_goals exact absurd (hfc.symm.trans h) (by decide)

end Sys2Proof.Machine
end

section
/-! OBLIGATION O36: the sum and the product of two finite numbers (spec/44_parallel_arith.md R740, R741; spec/40_common_execution.md R483). -/

namespace Sys2Proof.Machine

/-! ## Exact numbers -/

theorem toRat_eq_zero_iff (neg : Bool) (m : Nat) (e : Int) : (FVal.fin neg m e).toRat = 0 ↔ m = 0 := by
  have hpos := (pow2_pos e).ne'
  cases neg <;> simp [FVal.toRat, hpos]

/-- A number is no denormal from the smallest normal one on. -/
theorem isDenorm_eq_false_iff (f : FFmt) (m : Nat) (e : Int) :
    f.isDenorm m e = false ↔ pow2 (f.emin + f.frac) ≤ m * pow2 e := by
  have hvalue := addExact_value m e (-(2 ^ f.frac)) f.emin
  have hpos := pow2_pos (addExact m e (-(2 ^ f.frac : Int)) f.emin).2
  rw [FFmt.isDenorm, decide_eq_false_iff_not, not_lt, pow2_add, pow2_natCast, ← Int.cast_nonneg_iff (R := Rat),
    ← mul_nonneg_iff_of_pos_right hpos, hvalue]
  push_cast
  constructor <;> intro h <;> linarith

theorem signedM_decide_natAbs (v : Int) : signedM (v < 0) v.natAbs = v := by
  unfold signedM
  split
  next h => have := of_decide_eq_true h; omega
  next h => have := of_decide_eq_false (Bool.eq_false_iff.2 h); omega

/-- A signed number that is not zero is rounded once; zero takes the given sign. -/
theorem roundInt_of_ne_zero (md : FMode) (zeroNeg : Bool) {l : Int} (e : Int) (hl : l ≠ 0) :
    (FVal.fin (l < 0) l.natAbs e).toRat = l * pow2 e ∧ roundInt md zeroNeg l e = roundFin md (l < 0) l.natAbs e :=
  ⟨by rw [toRat_fin_signedM, signedM_decide_natAbs], if_neg hl⟩

theorem roundInt_zero (md : FMode) (zeroNeg : Bool) (e : Int) :
    roundInt md zeroNeg 0 e = exactRes (.fin zeroNeg 0 md.fmt.emin) := if_pos rfl

/-! ## Sums (R740) -/

section
variable (md : FMode) (s t : Bool) {m n : Nat} (e f : Int)

/-- The exact sum of two finite numbers as a signed significand and exponent. -/
def sumOf (s t : Bool) (m n : Nat) (e f : Int) : Int × Int := addExact (signedM s m) e (signedM t n) f

theorem sumOf_value : (FVal.fin s m e).toRat + (FVal.fin t n f).toRat = (sumOf s t m n e f).1 * pow2 (sumOf s t m n e f).2 := by
  rw [toRat_fin_signedM, toRat_fin_signedM]
  exact (addExact_value _ _ _ _).symm

theorem sumOf_eq_zero_iff : (sumOf s t m n e f).1 = 0 ↔ (FVal.fin s m e).toRat + (FVal.fin t n f).toRat = 0 := by
  rw [sumOf_value, mul_eq_zero_iff_right (pow2_pos _).ne', Int.cast_eq_zero]

theorem fadd_zeros : fadd md (.fin s 0 e) (.fin t 0 f) = exactRes (.fin (s && t) 0 md.fmt.emin) := rfl

theorem fadd_fin (h : m ≠ 0 ∨ n ≠ 0) : fadd md (.fin s m e) (.fin t n f) =
    roundInt md (md.cancelNeg m e) (sumOf s t m n e f).1 (sumOf s t m n e f).2 := by
  rcases h with h | h <;> exact if_neg (by simp [h])

theorem fadd_rounded_once (h : (FVal.fin s m e).toRat + (FVal.fin t n f).toRat ≠ 0) :
    ∃ neg k g, (FVal.fin neg k g).toRat = (FVal.fin s m e).toRat + (FVal.fin t n f).toRat ∧
      fadd md (.fin s m e) (.fin t n f) = roundFin md neg k g := by
  have hne : m ≠ 0 ∨ n ≠ 0 := by
    by_contra hz
    obtain ⟨rfl, rfl⟩ : m = 0 ∧ n = 0 := by omega
    exact h (by simp [toRat_fin])
  obtain ⟨hvalue, hround⟩ := roundInt_of_ne_zero md (md.cancelNeg m e) (sumOf s t m n e f).2
    (mt (sumOf_eq_zero_iff s t e f).1 h)
  exact ⟨_, _, _, hvalue.trans (sumOf_value s t e f).symm, (fadd_fin md s t e f hne).trans hround⟩

/-- The sign of a sum that is zero: of two zeros, or of a cancellation (log 25). -/
theorem fadd_eq_zero (h : (FVal.fin s m e).toRat + (FVal.fin t n f).toRat = 0) : fadd md (.fin s m e) (.fin t n f) =
    exactRes (.fin (if m = 0 then s && t else md.cancelNeg m e) 0 md.fmt.emin) := by
  obtain rfl | hm := eq_or_ne m 0
  · obtain rfl : n = 0 := by
      rwa [(toRat_eq_zero_iff s 0 e).2 rfl, zero_add, toRat_eq_zero_iff] at h
    exact fadd_zeros md s t e f
  · rw [fadd_fin md s t e f (.inl hm), (sumOf_eq_zero_iff s t e f).2 h, roundInt_zero, if_neg hm]

theorem cancelNeg_eq : md.cancelNeg m e =
    (decide (md.rm = .rd) && !md.alt && decide (pow2 (md.fmt.emin + md.fmt.frac) ≤ |(FVal.fin s m e).toRat|)) := by
  rw [FMode.cancelNeg, abs_toRat_fin]
  congr 1
  rw [Bool.eq_iff_iff, Bool.not_eq_true', decide_eq_true_eq]
  exact isDenorm_eq_false_iff md.fmt m e

/-! ## Products (R741) -/

theorem mul_toRat (s t : Bool) (m n : Nat) (e f : Int) :
    (FVal.fin (s != t) (m * n) (e + f)).toRat = (FVal.fin s m e).toRat * (FVal.fin t n f).toRat := by
  simp only [toRat_fin, pow2_add]
  cases s <;> cases t <;> simp [signRat] <;> ring

theorem mul_toRat_eq_zero_iff : (FVal.fin s m e).toRat * (FVal.fin t n f).toRat = 0 ↔ m = 0 ∨ n = 0 := by
  rw [mul_eq_zero, toRat_eq_zero_iff, toRat_eq_zero_iff]

theorem fmul_eq_zero (h : m = 0 ∨ n = 0) :
    fmul md (.fin s m e) (.fin t n f) = exactRes (.fin (s != t) 0 md.fmt.emin) := if_pos (by simpa using h)

theorem fmul_fin (h : ¬ (m = 0 ∨ n = 0)) :
    fmul md (.fin s m e) (.fin t n f) = roundFin md (s != t) (m * n) (e + f) := if_neg (by simpa using h)

/-! ## The largest number in ALT mode (log 63) -/

/-- A format in which the largest number is finite. -/
theorem infBits_pos_of_maxVal_fin {f : FFmt} {neg s : Bool} {m : Nat} {e : Int} (h : FVal.fin s m e = f.maxVal neg) :
    0 < f.infBits := by
  by_contra hzero
  have hexp : 2 ^ f.expBits = 1 := by
    have hpos : 0 < 2 ^ f.expBits := by positivity
    have := (Nat.mul_eq_zero.1 (Nat.eq_zero_of_not_pos hzero)).resolve_right (by positivity)
    omega
  have hspecial : ∀ p, (FVal.ofBits f p).isSpecial = true := fun p => by
    unfold FVal.ofBits
    rw [hexp, Nat.mod_one, if_pos rfl]
    split <;> rfl
  have hval := congrArg FVal.isSpecial h
  rw [FFmt.maxVal, hspecial] at hval
  exact absurd hval Bool.false_ne_true

theorem isNan_ofBits_of_lt_infBits (f : FFmt) (neg : Bool) {b : Nat} (hb : b < f.infBits) :
    (FVal.ofBits f (b + f.signOf neg)).isNan = false := by
  rw [ofBits_of_lt_infBits f neg hb]
  split <;> rfl

/-- A rounded number is no NaN. -/
theorem roundFin_isNan (hfmt : 0 < md.fmt.infBits) (neg : Bool) (m : Nat) (e : Int) :
    (roundFin md neg m e).val.isNan = false := by
  rw [roundFin_eq md neg m e rfl]
  split
  · dsimp only [FMode.overflowVal]
    split
    · rfl
    · exact isNan_ofBits_of_lt_infBits md.fmt neg (Nat.sub_lt hfmt one_pos)
  · next hin =>
    split
    · rfl
    · exact isNan_ofBits_of_lt_infBits md.fmt neg (not_le.1 hin)

/-- Neither ALT mode with a factor fmax nor a product other than zero: `fmulAlt` is `fmul`. -/
theorem fmulAlt_eq_fmul (h : md.alt = false ∨ (m = 0 ∨ n = 0) ∨
    (FVal.fin s m e ≠ md.fmt.maxVal s ∧ FVal.fin t n f ≠ md.fmt.maxVal t)) :
    fmulAlt md (.fin s m e) (.fin t n f) = fmul md (.fin s m e) (.fin t n f) := by
  refine if_neg ?_
  rcases h with h | (h | h) | ⟨ha, hb⟩
  · simp [h]
  · simp [h, FVal.isZero]
  · simp [h, FVal.isZero]
  · simp [FVal.sign, ha, hb]

/-- In ALT mode a factor fmax gives fmax. -/
theorem fmulAlt_maxVal (halt : md.alt = true) (h : ¬ (m = 0 ∨ n = 0))
    (hmax : FVal.fin s m e = md.fmt.maxVal s ∨ FVal.fin t n f = md.fmt.maxVal t) :
    (fmulAlt md (.fin s m e) (.fin t n f)).val = md.fmt.maxVal (s != t) := by
  have hfmt : 0 < md.fmt.infBits := hmax.elim infBits_pos_of_maxVal_fin infBits_pos_of_maxVal_fin
  have hnan : (fmul md (.fin s m e) (.fin t n f)).val.isNan = false := by
    rw [fmul_fin md s t e f h]
    exact roundFin_isNan md hfmt _ _ _
  obtain ⟨hm, hn⟩ := not_or.1 h
  unfold fmulAlt
  rw [if_pos (by rcases hmax with hmax | hmax <;> simp [halt, hnan, hm, hn, FVal.isZero, FVal.sign, ← hmax])]
  rfl

end

/-- Settles O36: sums by the exact sum of the significands, products by the product of the significands. -/
theorem sumAndProductAreRoundedOnce : Obligations.SumAndProductAreRoundedOnce := by
  intro md s t m n e f a b
  have hzero : a.toRat * b.toRat = 0 ↔ m = 0 ∨ n = 0 := mul_toRat_eq_zero_iff s t e f
  simp only [ne_eq, hzero]
  refine ⟨fadd_rounded_once md s t e f, fun hsum => ?_, fun hne => ?_, fun hz => ?_, fmulAlt_eq_fmul md s t e f,
    fmulAlt_maxVal md s t e f⟩
  · rw [fadd_eq_zero md s t e f hsum, ← cancelNeg_eq]
    exact ⟨rfl, rfl, rfl⟩
  · exact ⟨_, _, _, mul_toRat s t m n e f, fmul_fin md s t e f hne⟩
  · rw [fmul_eq_zero md s t e f hz]
    exact ⟨rfl, rfl, rfl⟩

end Sys2Proof.Machine
end

section
/-! OBLIGATIONS O37, O38 and O39: `add`, `mul`, `avg`, `addc`, `subb`, `mac` and `mach`, and the saturation of a float
(spec/44_parallel_arith.md R740 to R742, R748, R749, R754, R755; spec/40_common_execution.md R450). -/

namespace Sys2Proof.Machine

section
variable {s : State} {b : Basic2}

/-! ## Two sources by execution type (40 R430) -/

section
variable (fi : Int → Int → Int) (ff : FMode → FVal → FVal → FRes) (n : Nat)

theorem arith2_int (hint : allInt b.srcs = true) : arith2 s b fi ff n = int2 s b fi n := by
  unfold arith2 int2
  rcases execTy_of_allInt hint with h | h <;> rw [h]

theorem arith2_f (hf : allTy .f b.srcs = true) : arith2 s b fi ff n =
    fResult s b.hdr b.cmod b.dst.ty [flt0 s b n, flt1 s b n] (ff (modeF s) (flt0 s b n) (flt1 s b n)) n := by
  unfold arith2
  rw [execTy_of_allF hf]
  rfl

theorem arith2_df (hdf : allTy .df b.srcs = true) : arith2 s b fi ff n =
    dfOut s b.hdr b.cmod b.dst.ty (ff (modeDF s) (dbl0 s b n) (dbl1 s b n)) n := by
  unfold arith2
  rw [execTy_of_allDF hdf]
  rfl

end

section
variable {i : Instr} {l : List Check} {fi : Int → Int → Int} {ff : FMode → FVal → FVal → FRes}

/-- An instruction that applies an integer function to its integer sources. -/
theorem int_step (hexec : exec i s = execute s (firstViolation l) (effect s b.hdr b.cmod b.dst b.srcs (int2 s b fi)))
    (hs : StaysIn s b.dst) (ha : Allowed l) (hd : Allowed (dataChecks s b.hdr b.cmod b.dst b.srcs false)) :
    IntStep s i b (accWidth b) fun n => fi (int0 s b n) (int1 s b n) :=
  dataStep_of_checks hexec ha hd hs fun n _ _ => int2_value s b fi n

variable (hexec : exec i s = execute s (firstViolation l) (effect s b.hdr b.cmod b.dst b.srcs (arith2 s b fi ff)))
include hexec

/-- An arithmetic instruction on integers. -/
theorem arith_intStep (hint : allInt b.srcs = true) (hs : StaysIn s b.dst) (ha : Allowed l)
    (hd : Allowed (dataChecks s b.hdr b.cmod b.dst b.srcs false)) :
    IntStep s i b (accWidth b) fun n => fi (int0 s b n) (int1 s b n) :=
  int_step (by rw [hexec, show arith2 s b fi ff = int2 s b fi from funext fun n => arith2_int fi ff n hint]) hs ha hd

/-- An arithmetic instruction on F. -/
theorem arith_floatStep (hf : allTy .f b.srcs = true) (hdst : b.dst.ty = .f) (hs : StaysIn s b.dst) (ha : Allowed l)
    (hd : Allowed (dataChecks s b.hdr b.cmod b.dst b.srcs false)) :
    FloatStep s i b (fun n => [flt0 s b n, flt1 s b n]) fun n => ff (modeF s) (flt0 s b n) (flt1 s b n) := by
  refine dataStep_of_checks hexec ha hd hs fun n _ _ => ?_
  rw [arith2_f fi ff n hf, hdst]
  exact fResult_value s b.hdr b.cmod _ _ n

/-- An arithmetic instruction on DF. -/
theorem arith_dfStep (hdf : allTy .df b.srcs = true) (hdst : b.dst.ty = .df) (hs : StaysIn s b.dst) (ha : Allowed l)
    (hd : Allowed (dataChecks s b.hdr b.cmod b.dst b.srcs false)) :
    DFStep s i b fun n => ff (modeDF s) (dbl0 s b n) (dbl1 s b n) := by
  refine dataStep_of_checks hexec ha hd hs fun n _ _ => ?_
  rw [arith2_df fi ff n hdf, hdst]
  exact dfOut_value s b.hdr b.cmod _ n

end

/-! ## add, mul, avg (R740 to R742) -/

theorem addChecks_data (ha : Allowed (addChecks s b)) : Allowed (dataChecks s b.hdr b.cmod b.dst b.srcs false) :=
  ((allowed_cons _ _).1 ha).2

theorem mulChecks_data (ha : Allowed (mulChecks s b)) : Allowed (dataChecks s b.hdr b.cmod b.dst b.srcs false) :=
  allowed_of_append ha

theorem avgChecks_data (ha : Allowed (avgChecks s b)) : Allowed (dataChecks s b.hdr b.cmod b.dst b.srcs false) :=
  ((allowed_cons _ _).1 ha).2

/-- `mul` multiplies DWords by the low 16 bits of src1. -/
theorem mul_intStep (hint : allInt b.srcs = true) (hs : StaysIn s b.dst) (ha : Allowed (mulChecks s b)) :
    IntStep s (.mul b) b (accWidth b) fun n => mulInt b (int0 s b n) (int1 s b n) :=
  arith_intStep (ff := fmulAlt) rfl hint hs ha (mulChecks_data ha)

/-! ## addc, subb (R754, R755) -/

/-- A carry instruction leaves the low 32 bits of the exact result, and in the accumulator whether it is out of range. -/
theorem carry_step {i : Instr} {v : Nat → Int} {val : Nat → DWord → Bool → QWord → QWord → Prop}
    (hexec : exec i s = execute s (firstViolation (carryChecks s b))
      (effect s b.hdr b.cmod b.dst b.srcs fun n => carryOut b.cmod (v n)))
    (hs : StaysIn s b.dst) (ha : Allowed (carryChecks s b))
    (hv : ∀ n wide, val n (BitVec.ofInt 32 (v n))
      (condition b.cmod { neg := false, zero := BitVec.ofInt 32 (v n) = 0, ov := v n < 0 || 4294967295 < v n, nan := false })
      (if v n < 0 || 4294967295 < v n then 1 else 0) wide) :
    DataStep s i b.hdr b.cmod b.dst b.srcs val :=
  dataStep_of_checks hexec ha (allowed_of_append ha) hs fun n _ _ => hv n _

theorem ofInt_toNat (x : DWord) : BitVec.ofInt 32 (x.toNat : Int) = x := by
  rw [BitVec.ofInt_natCast, BitVec.ofNat_toNat, BitVec.setWidth_eq]

theorem ofInt_add_toNat (x y : DWord) : BitVec.ofInt 32 ((x.toNat : Int) + y.toNat) = x + y := by
  rw [BitVec.ofInt_add, ofInt_toNat, ofInt_toNat]

theorem ofInt_sub_toNat (x y : DWord) : BitVec.ofInt 32 ((x.toNat : Int) - y.toNat) = x - y := by
  rw [Int.sub_eq_add_neg, BitVec.ofInt_add, BitVec.ofInt_neg, ofInt_toNat, ofInt_toNat, BitVec.sub_eq_add_neg]

theorem carry_add (x y : DWord) :
    (decide ((x.toNat : Int) + y.toNat < 0) || decide (4294967295 < (x.toNat : Int) + y.toNat)) =
      decide (2 ^ 32 ≤ x.toNat + y.toNat) := by
  rw [← Bool.decide_or, decide_eq_decide]
  omega

theorem borrow_sub (x y : DWord) :
    (decide ((x.toNat : Int) - y.toNat < 0) || decide (4294967295 < (x.toNat : Int) - y.toNat)) =
      decide (x.toNat < y.toNat) := by
  have := x.isLt
  rw [← Bool.decide_or, decide_eq_decide]
  omega

end

/-- Settles O37: the exact results of `add`, `mul` and `avg`, and the carry of `addc` and `subb`. -/
theorem integerArithmetic : Obligations.IntegerArithmetic := by
  intro s b hs
  refine ⟨fun hint => ⟨fun ha => ?_, fun ha => ?_, fun ha => ?_⟩, fun ha => ⟨?_, ?_⟩⟩
  · exact arith_intStep (ff := fadd) rfl hint hs ha (addChecks_data ha)
  · exact mul_intStep hint hs ha
  · exact int_step (fi := avgInt) rfl hs ha (avgChecks_data ha)
  · refine carry_step (v := fun n => (bits0 s b n).toNat + (bits1 s b n).toNat) rfl hs ha fun n _ => ?_
    rw [carry_add, ofInt_add_toNat]
    exact ⟨rfl, rfl, rfl⟩
  · refine carry_step (v := fun n => (bits0 s b n).toNat - (bits1 s b n).toNat) rfl hs ha fun n _ => ?_
    rw [borrow_sub, ofInt_sub_toNat]
    exact ⟨rfl, rfl, rfl⟩

/-! ## Saturation of a float (40 R450) -/

theorem cmpFin_eq_one_iff (s t : Bool) (m n : Nat) (e f : Int) :
    cmpFin s m e t n f = 1 ↔ (FVal.fin t n f).toRat < (FVal.fin s m e).toRat := by
  obtain ⟨hlt, heq⟩ := cmpFin_order s t m n e f
  rw [← not_le, le_iff_lt_or_eq, ← hlt, ← heq]
  unfold cmpFin
  rcases Int.sign_trichotomy (addExact (signedM s m) e (-(signedM t n)) f).1 with h | h | h <;> rw [h] <;> decide

theorem toRat_fin_nonpos_iff (neg : Bool) (m : Nat) (e : Int) :
    (FVal.fin neg m e).toRat ≤ 0 ↔ neg = true ∨ m = 0 := by
  have hmag : 0 ≤ (m : Rat) * pow2 e := mul_nonneg (Nat.cast_nonneg m) (pow2_pos e).le
  cases neg
  · rw [← toRat_eq_zero_iff false m e, or_iff_right Bool.false_ne_true]
    exact ⟨fun h => le_antisymm h hmag, le_of_eq⟩
  · exact iff_of_true (neg_nonpos.2 hmag) (.inl rfl)

theorem toRat_one : (FVal.fin false 1 0).toRat = 1 := by simp [FVal.toRat, pow2]

/-- A number that is not positive gives +0, one above 1 gives 1, and another stays. -/
theorem fsat_fin (f : FFmt) (neg : Bool) (m : Nat) (e : Int) : fsat f (.fin neg m e) =
    if (FVal.fin neg m e).toRat ≤ 0 then .fin false 0 f.emin
    else if 1 < (FVal.fin neg m e).toRat then .fin false 1 0
    else .fin neg m e := by
  unfold fsat
  simp only [Bool.or_eq_true, decide_eq_true_eq, toRat_fin_nonpos_iff, cmpFin_eq_one_iff, toRat_one]
  split
  · rfl
  next hpos =>
    obtain rfl : neg = false := by simpa using (not_or.1 hpos).1
    rfl

theorem fsat_fin_value (f : FFmt) (neg : Bool) (m : Nat) (e : Int) :
    (fsat f (.fin neg m e)).isSpecial = false ∧ (fsat f (.fin neg m e)).sign = false ∧
      (fsat f (.fin neg m e)).toRat = max 0 (min (FVal.fin neg m e).toRat 1) := by
  rw [fsat_fin]
  split
  next hlow =>
    rw [max_eq_left (min_le_of_left_le hlow)]
    exact ⟨rfl, rfl, (toRat_eq_zero_iff _ _ _).2 rfl⟩
  next hpos =>
    have hneg := (not_or.1 (mt (toRat_fin_nonpos_iff neg m e).2 hpos)).1
    rw [not_le] at hpos
    split
    next hhigh =>
      rw [min_eq_right hhigh.le, max_eq_right zero_le_one]
      exact ⟨rfl, rfl, toRat_one⟩
    next hin =>
      rw [min_eq_left (not_lt.1 hin), max_eq_right hpos.le]
      exact ⟨rfl, Bool.eq_false_iff.2 hneg, rfl⟩

theorem fsat_value (f : FFmt) (x : FVal) : (fsat f x).isSpecial = false ∧ (fsat f x).sign = false ∧
    (x = .nan ∨ x = .inf true → (fsat f x).toRat = 0) ∧ (x = .inf false → (fsat f x).toRat = 1) ∧
    (x.isSpecial = false → (fsat f x).toRat = max 0 (min x.toRat 1)) := by
  have hzero : (FVal.fin false 0 f.emin).toRat = 0 := (toRat_eq_zero_iff _ _ _).2 rfl
  cases x with
  | nan => exact ⟨rfl, rfl, fun _ => hzero, by simp, by simp [FVal.isSpecial]⟩
  | inf neg =>
    cases neg
    · exact ⟨rfl, rfl, by simp, fun _ => toRat_one, by simp [FVal.isSpecial]⟩
    · exact ⟨rfl, rfl, fun _ => hzero, by simp, by simp [FVal.isSpecial]⟩
  | fin neg m e =>
    obtain ⟨hfinite, hsign, hvalue⟩ := fsat_fin_value f neg m e
    exact ⟨hfinite, hsign, by simp, by simp, fun _ => hvalue⟩

/-- DF has no ALT mode. -/
theorem fmulAlt_modeDF (s : State) (x y : FVal) : fmulAlt (modeDF s) x y = fmul (modeDF s) x y := rfl

/-- Settles O38: saturation by the order of the numbers, and each channel's sum or product. -/
theorem floatArithmetic : Obligations.FloatArithmetic := by
  refine ⟨fun f x _ => fsat_value f x, fun s b hs => ⟨fun hf hdst => ⟨fun ha => ?_, fun ha => ?_⟩,
    fun hdf hdst => ⟨fun ha => ?_, fun ha => ?_⟩⟩⟩
  · exact arith_floatStep (fi := (· + ·)) rfl hf hdst hs ha (addChecks_data ha)
  · exact arith_floatStep (fi := mulInt b) rfl hf hdst hs ha (mulChecks_data ha)
  · exact arith_dfStep (fi := (· + ·)) rfl hdf hdst hs ha (addChecks_data ha)
  · simpa only [fmulAlt_modeDF] using arith_dfStep (ff := fmulAlt) rfl hdf hdst hs ha (mulChecks_data ha) (i := .mul b)

/-! ## mac (R748) -/

section
variable {s : State} {b : Basic2} {n : Nat}

theorem src0_of_allTy {t : RegType} (h : allTy t b.srcs = true) : b.src0.ty = t :=
  of_decide_eq_true (List.all_eq_true.1 h (.reg b.src0) List.mem_cons_self)

theorem src0_of_allInt (h : allInt b.srcs = true) : b.src0.ty.isInt = true :=
  List.all_eq_true.1 h (.reg b.src0) List.mem_cons_self

theorem macChecks_types (ha : Allowed (macChecks s b)) : macTypes b.dst b.srcs = true := by
  simpa using allowed_mem ha (c := (!macTypes b.dst b.srcs, .types)) (by simp [macChecks])

/-- The types of `mac`: integers narrower than a DWord, or one float type. -/
theorem macTypes_iff : macTypes b.dst b.srcs = true ↔
    (allInt b.srcs = true ∧ b.dst.ty.isInt = true ∧ ∀ x ∈ b.srcs, isDWord x.regType = false) ∨
    (allTy .f b.srcs = true ∧ b.dst.ty = .f) ∨ (allTy .df b.srcs = true ∧ b.dst.ty = .df) := by
  simp [macTypes, intTypes, floatTypes, and_assoc, or_assoc]

theorem execTy_of_narrow {srcs : List Src} (hint : allInt srcs = true) (hnarrow : ∀ x ∈ srcs, isDWord x.regType = false) :
    execTy (srcs.map Src.regType) = .w := by
  have hnone : (srcs.map Src.regType).any (fun t => t = .ud || t = .d) = false := by
    rw [List.any_map, List.any_eq_false]
    intro x hx
    simpa [isDWord, and_comm] using hnarrow x hx
  rcases execTy_of_allInt hint with h | h
  · exact h
  · rw [execTy, hnone, if_neg Bool.false_ne_true] at h
    split_ifs at h

theorem macTypes_int (ht : macTypes b.dst b.srcs = true) (hint : allInt b.srcs = true) :
    execTy (b.srcs.map Src.regType) = .w := by
  have h0 := src0_of_allInt hint
  rcases macTypes_iff.1 ht with ⟨-, -, hnarrow⟩ | ⟨h, -⟩ | ⟨h, -⟩
  · exact execTy_of_narrow hint hnarrow
  all_goals
    rw [src0_of_allTy h] at h0
    exact absurd h0 (by decide)

theorem macTypes_float (ht : macTypes b.dst b.srcs = true) {t : RegType} (hfloat : t.isInt = false)
    (hty : allTy t b.srcs = true) : b.dst.ty = t := by
  have h0 := src0_of_allTy hty
  rcases macTypes_iff.1 ht with ⟨h, -, -⟩ | ⟨h, hdst⟩ | ⟨h, hdst⟩
  · rw [← h0, src0_of_allInt h] at hfloat
    exact absurd hfloat (by decide)
  · rw [hdst, ← h0, src0_of_allTy h]
  · rw [hdst, ← h0, src0_of_allTy h]

theorem macOut_int (hex : execTy (b.srcs.map Src.regType) = .w) : macOut s b n =
    intOut s b.hdr b.cmod b.dst.ty 33 (int0 s b n * int1 s b n + (accIn s b.hdr .w n).toInt) n := by
  unfold macOut
  rw [hex]
  rfl

theorem macOut_f (hf : allTy .f b.srcs = true) : macOut s b n =
    fResult s b.hdr b.cmod b.dst.ty [flt0 s b n, flt1 s b n, accValF s b.hdr n]
      (fmadd (modeF s) s.launch.madFused (flt0 s b n) (flt1 s b n) (accValF s b.hdr n)) n := by
  unfold macOut
  rw [execTy_of_allF hf]
  rfl

theorem macOut_df (hdf : allTy .df b.srcs = true) : macOut s b n =
    dfOut s b.hdr b.cmod b.dst.ty
      (fmadd (modeDF s) s.launch.madFused (dbl0 s b n) (dbl1 s b n) (accValDF s b.hdr n)) n := by
  unfold macOut
  rw [execTy_of_allDF hdf]
  rfl

/-! ## mach (R749) -/

theorem isDWord_of_machSrcOk {ty : RegType} {src : Src} (h : machSrcOk ty src = true) :
    isDWord ty = true ∧ isDWord src.regType = true := by
  cases ty
  case d => exact ⟨rfl, by simpa [isDWord] using Or.inl (of_decide_eq_true h)⟩
  case ud =>
    refine ⟨rfl, ?_⟩
    cases src with
    | reg r =>
      have hty : r.ty = .ud ∨ r.ty = .d := (Bool.or_eq_true_iff.1 h).imp of_decide_eq_true fun habs =>
        of_decide_eq_true (Bool.and_eq_true_iff.1 habs).1
      rcases hty with hty | hty <;> simp [isDWord, Src.regType, hty]
    | imm t v =>
      have hty : t.regType = .ud := of_decide_eq_true ((Bool.or_eq_true_iff.1 h).resolve_right Bool.false_ne_true)
      simp [isDWord, Src.regType, hty]
  all_goals exact absurd h Bool.false_ne_true

/-- The destination and the sources of `mach` are DWords. -/
theorem machChecks_dwords (ha : Allowed (machChecks s b)) :
    isDWord b.dst.ty = true ∧ isDWord b.src0.ty = true ∧ isDWord b.src1.regType = true := by
  have hall : b.srcs.all (machSrcOk b.dst.ty) = true := by
    simpa using allowed_mem ha (c := (!(b.srcs.all (machSrcOk b.dst.ty)), .types)) (by simp [machChecks])
  have hok : ∀ x ∈ b.srcs, isDWord b.dst.ty = true ∧ isDWord x.regType = true := fun x hx =>
    isDWord_of_machSrcOk (List.all_eq_true.1 hall x hx)
  obtain ⟨hdst, h0⟩ := hok (.reg b.src0) List.mem_cons_self
  exact ⟨hdst, h0, (hok b.src1 (List.mem_cons_of_mem _ List.mem_cons_self)).2⟩

theorem intOfRaw_dword_eq_zero_iff {ty : RegType} (hty : isDWord ty = true) (v : DWord) : intOfRaw ty v = 0 ↔ v = 0 := by
  cases ty
  case ud => simp [intOfRaw, ← BitVec.toNat_inj]
  case d => simp [intOfRaw, ← BitVec.toInt_inj]
  all_goals exact absurd hty (by decide)

theorem machOut_of_defined (h : b.cmod = .none ∨ b.srcs.any negatedUD = false) : machOut s b n =
    let v := (machSum s b n).extractLsb' 32 32
    { bits := v, wide := v.setWidth 64, acc := machSum s b n,
      flag := condition b.cmod
        { neg := intOfRaw b.dst.ty v < 0, zero := intOfRaw b.dst.ty v = 0, ov := false, nan := false } } :=
  if_neg (by rcases h with h | h <;> simp [h])

theorem mach_step (hs : StaysIn s b.dst) (ha : Allowed (machChecks s b)) :
    DataStep s (.mach b) b.hdr b.cmod b.dst b.srcs fun n bits flag accv _ =>
      (b.cmod = .none ∨ b.srcs.any negatedUD = false) →
        accv = accIn s b.hdr .d n + BitVec.ofInt 64 (int0 s b n * (int1 s b n / 65536) * 65536) ∧
        bits = accv.extractLsb' 32 32 ∧
        flag = condition b.cmod
          { neg := intOfRaw b.dst.ty bits < 0, zero := bits = 0, ov := false, nan := false } := by
  refine dataStep_of_checks rfl ha (allowed_of_append ha) hs fun n _ _ h => ?_
  rw [machOut_of_defined h]
  dsimp only
  rw [decide_eq_decide.2 (intOfRaw_dword_eq_zero_iff (machChecks_dwords ha).1 _)]
  exact ⟨rfl, rfl, rfl⟩

end

/-- Settles O39: `mac` by the type of its sources, `mach` by its 64-bit sum. -/
theorem macAndMach : Obligations.MacAndMach := by
  refine ⟨fun s b hs ha => ⟨fun hint => ?_, fun hf => ?_, fun hdf => ?_⟩, fun s b hs ha => mach_step hs ha⟩
  · refine dataStep_of_checks rfl ha (allowed_of_append ha) hs fun n _ _ => ?_
    rw [macOut_int (macTypes_int (macChecks_types ha) hint)]
    exact intOut_value s b.hdr b.cmod b.dst.ty 33 _ n
  · refine dataStep_of_checks rfl ha (allowed_of_append ha) hs fun n _ _ => ?_
    rw [macOut_f hf, macTypes_float (macChecks_types ha) rfl hf]
    exact fResult_value s b.hdr b.cmod _ _ n
  · refine dataStep_of_checks rfl ha (allowed_of_append ha) hs fun n _ _ => ?_
    rw [macOut_df hdf, macTypes_float (macChecks_types ha) rfl hdf]
    exact dfOut_value s b.hdr b.cmod _ n

end Sys2Proof.Machine
end

section
/-! OBLIGATION O40: `mul` to acc0 and `mach` on the same sources (spec/44_parallel_arith.md R741, R749; spec/10_state.md R64). -/

namespace Sys2Proof.Machine

/-! ## Sources in the general registers -/

section
variable {s t : State}

theorem indexAddr_of_a0 (ha0 : t.a0 = s.a0) : indexAddr t = indexAddr s := by
  funext k imm
  rw [indexAddr, indexAddr, ha0]

theorem dstTwoRegs_of_a0 (ha0 : t.a0 = s.a0) (h : Header) (d : Dst) : dstTwoRegs t h d = dstTwoRegs s h d := by
  have hsub : dstSub t d = dstSub s d := by
    unfold dstSub
    rw [indexAddr_of_a0 ha0]
  rw [dstTwoRegs, dstTwoRegs, hsub]

theorem srcAddr_of_a0 {h h' : Header} (ha0 : t.a0 = s.a0) (hcount : h'.count = h.count) (two : Bool) (r : RegSrc) (n : Nat) :
    srcAddr t h' two r n = srcAddr s h two r n := by
  have hhalf : halfIndex h' = halfIndex h := by
    funext two n
    rw [halfIndex, halfIndex, hcount]
  unfold srcAddr
  rw [indexAddr_of_a0 ha0, hhalf]

/-- A source outside the architecture registers is the same where the general registers and a0 are. -/
theorem srcInt_of_grf {h h' : Header} (hgrf : ∀ a, grfByte t.grf a = grfByte s.grf a) (ha0 : t.a0 = s.a0)
    (hcount : h'.count = h.count) {src : Src} (hsrc : ∀ r, src = .reg r → r.loc.isArf = false) (two : Bool) (k n : Nat) :
    srcInt t h' two k src n = srcInt s h two k src n := by
  cases src with
  | imm ty v => rfl
  | reg r =>
    have hloc := hsrc r rfl
    have helem : ∀ a size, grfElem t.grf a size = grfElem s.grf a size := fun a size => by
      rw [grfElem, grfElem, funext fun i => hgrf (a + i)]
    have hraw : srcRaw t h' two k r n = srcRaw s h two k r n := by
      rw [srcRaw_of_not_arf hloc, srcRaw_of_not_arf hloc, srcAddr_of_a0 ha0 hcount, helem]
    simp only [srcInt, regInt, accOperand_of_not_arf hloc, hraw]

end

/-! ## A step that answers a next state -/

section
variable {s t : State} {i : Instr}

theorem allowed_of_next {l : List Check} {e : Effect} (hexec : exec i s = execute s (firstViolation l) e)
    (hnext : exec i s = .next t) : Allowed l := by
  cases hv : firstViolation l with
  | none => exact hv
  | some r =>
    rw [hexec, execute_refused s l e r hv] at hnext
    cases hnext

/-- The next state of a data step is the one that its description speaks of. -/
theorem dataStep_next {h : Header} {cm : CondMod} {d : Dst} {srcs : List Src}
    {val : Nat → DWord → Bool → QWord → QWord → Prop} (hstep : DataStep s i h cm d srcs val) (hnext : exec i s = .next t) :
    ∃ bits flag accv wide, DataPost s t h d (cm != .none) (implicitFmt h srcs) (srcs.any Src.isTm0) (wrEn s h) (wrEn s h)
      bits flag accv wide ∧ ∀ n, n < h.count → wrEn s h n = true → val n (bits n) (flag n) (accv n) (wide n) := by
  obtain ⟨t', bits, flag, accv, wide, hnext', hpost, hval⟩ := hstep
  cases hnext.symm.trans hnext'
  exact ⟨bits, flag, accv, wide, hpost, hval⟩

theorem wrEn_of_noMask {h : Header} (hmask : h.noMask = true) (hpred : h.pred = .none) {n : Nat} (hn : n < h.count) :
    wrEn s h n = true := by
  simp [wrEn, wrEnNoPred, execEnable, pmask, hmask, hpred, hn]

end

/-! ## DWord products -/

section
variable {s t : State} {b : Basic2}

theorem dword_facts {ty : RegType} (h : isDWord ty = true) :
    ty.isInt = true ∧ accFmt ty = some .d ∧ ty.size = 4 := by
  cases ty
  case d | ud => exact ⟨rfl, rfl, rfl⟩
  all_goals exact absurd h (by decide)

theorem execTy_of_dwords (h0 : isDWord b.src0.ty = true) (h1 : isDWord b.src1.regType = true) :
    allInt b.srcs = true ∧ execTy (b.srcs.map Src.regType) = .d := by
  have hall : ∀ x ∈ b.srcs, isDWord x.regType = true := List.forall_mem_cons.2 ⟨h0, by simpa using h1⟩
  have hint : allInt b.srcs = true := List.all_eq_true.2 fun x hx => (dword_facts (hall x hx)).1
  have hany : (b.srcs.map Src.regType).any (fun t => t = .ud || t = .d) = true :=
    List.any_eq_true.2 ⟨b.src0.ty, List.mem_cons_self, by simpa [isDWord, or_comm] using h0⟩
  refine ⟨hint, (execTy_of_allInt hint).resolve_left fun hw => ?_⟩
  rw [execTy, hany, if_pos (rfl : true = true)] at hw
  split_ifs at hw

theorem accChannel_d (h : Header) (n : Nat) : accChannel h .d n = n := by
  simp [accChannel, accBase]

/-- The accumulator takes the 64 bits of the exact integer, whether they hold it or not (10_state R66 g). -/
theorem IntValue.wide_dword {h : Header} {cm : CondMod} {ty : RegType} {v : Int} {n : Nat} {bits : DWord} {flag : Bool}
    {accv wide : QWord} (hval : IntValue s h cm ty 64 v n bits flag accv wide) (hty : isDWord ty = true)
    (hsat : h.sat = false) (hcm : cm = .none) : wide = BitVec.ofInt 64 v := by
  have hwide {v : Int} (has : IntAs s h cm ty v n bits flag accv wide) : wide = BitVec.ofInt 64 v := by
    cases ty
    case d | ud =>
      obtain ⟨-, -, -, hwide⟩ := has
      rwa [hsat] at hwide
    all_goals exact absurd hty (by decide)
  obtain ⟨hfits, hwrapped⟩ := hval
  cases hfit : fitsInt 64 v with
  | true => exact hwide (hfits hfit)
  | false =>
    have := hwide (hwrapped hfit hsat hcm)
    rwa [BitVec.ofInt_toInt] at this

theorem mulChecks_dword (ha : Allowed (mulChecks s b)) (h0 : isDWord b.src0.ty = true) :
    b.hdr.sat = false ∧ b.cmod = .none := by
  have hcm := allowed_mem ha (c := ((isDWord b.src0.ty || isDWord b.src1.regType) && b.cmod != .none, .condModifier))
    (by simp [mulChecks])
  have hsat := allowed_mem ha (c := ((isDWord b.src0.ty || isDWord b.src1.regType) && b.hdr.sat, .saturate))
    (by simp [mulChecks])
  simpa [h0] using And.intro hsat hcm

/-- What `mul` of two DWords to acc0 leaves: the product by the low word of src1 in each channel, and all that the sources
and `mach` look at. -/
structure MulPost (s t : State) (b : Basic2) : Prop where
  acc : ∀ n, n < b.hdr.count → n < 8 → ∀ k, t.acc.get .d k n = BitVec.ofInt 64 (int0 s b n * (int1 s b n % 65536))
  grf : ∀ a, grfByte t.grf a = grfByte s.grf a
  a0 : t.a0 = s.a0
  accDisable : t.accDisable = s.accDisable

theorem mul_acc0 (hdst : b.dst = { loc := .arf .acc0 0, ty := b.src0.ty, region := .a1 .h1 })
    (h0 : isDWord b.src0.ty = true) (h1 : isDWord b.src1.regType = true) (hmask : b.hdr.noMask = true)
    (hpred : b.hdr.pred = .none) (haccWr : b.hdr.accWr = false) (hnext : exec (.mul b) s = .next t) : MulPost s t b := by
  have ha : Allowed (mulChecks s b) := allowed_of_next rfl hnext
  obtain ⟨hsat, hcm⟩ := mulChecks_dword ha h0
  obtain ⟨hint, hex⟩ := execTy_of_dwords h0 h1
  have hstays : StaysIn s b.dst := .inr (by rw [hdst]; rfl)
  obtain ⟨bits, flag, accv, wide, hpost, hval⟩ := dataStep_next (mul_intStep hint hstays ha) hnext
  have hfmt : accFmt b.dst.ty = some .d := by
    obtain ⟨-, hfmt, -⟩ := dword_facts h0
    rwa [hdst]
  refine ⟨fun n hn h8 k => ?_, fun a => ?_, ?_, ?_⟩
  · have hwide := hval n hn (wrEn_of_noMask hmask hpred hn)
    rw [accWidth, hex] at hwide
    have hproduct := hwide.wide_dword (by rw [hdst]; exact h0) hsat hcm
    have hnone : implicitFmt b.hdr b.srcs = none := if_neg (by simp [haccWr])
    have hchan : ∀ m, accDstChannel b.dst 0 .d m = m := fun m => by
      simp [accDstChannel, hdst, DstRegion.stride, HorzStride.toNat]
    have hon : accDstOn b.dst (wrEn s b.hdr) n = true := by
      rw [accDstOn, wrEn_of_noMask hmask hpred hn, hdst]
      rfl
    have hwritten := hpost.accExplicit 0 .d (by rw [hdst]; rfl) hfmt (.inl hnone) (fun h => absurd h (by decide)) wide
      fun m _ _ => by rw [hchan, if_neg (by decide)]
    rw [hwritten.1 n h8 ⟨n, hn, hon, hchan n⟩ k, ← show mulInt b (int0 s b n) (int1 s b n) = _ from
      if_pos (by simp [mulBothDWord, h0, h1]), ← hproduct]
    rfl
  · exact hpost.kept a fun h => absurd h (by simp [hdst, Loc.isArf])
  · exact hpost.a0Kept (by rw [hdst]; rfl)
  · have hcr := (hpost.cr0Kept (by rw [hdst]; rfl)).1
    rw [State.accDisable, State.accDisable, hcr]

end

/-! ## The pair -/

/-- A product by the low word and one by the high word add up to the product (R749). -/
theorem ofInt_mul_words (x y : Int) :
    BitVec.ofInt 64 (x * (y % 65536)) + BitVec.ofInt 64 (x * (y / 65536) * 65536) = BitVec.ofInt 64 (x * y) := by
  rw [← BitVec.ofInt_add]
  congr 1
  calc x * (y % 65536) + x * (y / 65536) * 65536 = x * (y % 65536 + 65536 * (y / 65536)) := by ring
    _ = x * y := by rw [Int.emod_add_mul_ediv]

theorem dataChecks_accDst {s : State} {h : Header} {cm : CondMod} {d : Dst} {srcs : List Src} {p : Bool}
    (ha : Allowed (dataChecks s h cm d srcs p)) : Allowed (accDstChecks h d (execTy (srcs.map Src.regType))) := by
  unfold dataChecks at ha
  simp only [allowed_append] at ha
  exact ha.1.2

section
variable {t u : State} {b : Basic2}

theorem machChecks_data (ha : Allowed (machChecks t b)) : Allowed (dataChecks t b.hdr b.cmod b.dst b.srcs false) :=
  allowed_of_append ha

/-- `mach` has AccWrCtrl, and at most eight channels. -/
theorem machChecks_accWr (ha : Allowed (machChecks t b)) : b.hdr.accWr = true ∧ b.hdr.count ≤ 8 := by
  have haccWr : b.hdr.accWr = true := by
    simpa using allowed_mem ha (c := (!b.hdr.accWr, .accWrRequired)) (by simp [machChecks])
  obtain ⟨-, h0, h1⟩ := machChecks_dwords ha
  have hcount := allowed_mem (dataChecks_accDst (machChecks_data ha))
    (c := (b.hdr.accWr && execTy (b.srcs.map Src.regType) = .d && 8 < b.hdr.count, .accChannels)) (by simp [accDstChecks])
  rw [haccWr, (execTy_of_dwords h0 h1).2] at hcount
  exact ⟨haccWr, by simpa using hcount⟩

/-- What `mach` leaves: the 64-bit sum in each accumulator channel, its high DWord in the destination. -/
theorem mach_post (hloc : b.dst.loc.isArf = false) (hon : b.dst.region.chanOn = fun _ => true) (hmask : b.hdr.noMask = true)
    (hpred : b.hdr.pred = .none) (hcm : b.cmod = .none) (hdis : t.accDisable = false) (hnext : exec (.mach b) t = .next u)
    {n : Nat} (hn : n < b.hdr.count) :
    let sum := accIn t b.hdr .d n + BitVec.ofInt 64 (int0 t b n * (int1 t b n / 65536) * 65536)
    (∀ k, u.acc.get .d k n = sum) ∧
    (dstAlone t b.hdr b.dst n → ∀ i, i < 4 →
      grfByte u.grf (dstByte t b.hdr b.dst n + i) = sum.extractLsb' (32 + 8 * i) 8) := by
  intro sum
  have ha : Allowed (machChecks t b) := allowed_of_next rfl hnext
  obtain ⟨hdst, h0, h1⟩ := machChecks_dwords ha
  obtain ⟨haccWr, hcount⟩ := machChecks_accWr ha
  have hstays : StaysIn t b.dst := .inr (by
    cases hl : b.dst.loc with
    | arf _ _ => rw [hl] at hloc; exact absurd hloc (by simp [Loc.isArf])
    | grf _ _ | ind _ _ => rfl)
  have hen : ∀ {m}, m < b.hdr.count → wrEn t b.hdr m = true := wrEn_of_noMask hmask hpred
  obtain ⟨bits, flag, accv, wide, hpost, hval⟩ := dataStep_next (mach_step hstays ha) hnext
  obtain ⟨hsum, hbits, -⟩ := hval n hn (hen hn) (.inl hcm)
  have hfmt : implicitFmt b.hdr b.srcs = some .d := by
    rw [implicitFmt, if_pos haccWr, (execTy_of_dwords h0 h1).2]
    rfl
  have hchan := accChannel_d b.hdr n
  refine ⟨fun k => ?_, fun halone i hi => ?_⟩
  · have hwritten := hpost.accWritten .d hfmt (by decide) hdis n hn (hen hn) (by rw [hchan]; exact lt_of_lt_of_le hn hcount) k
    rw [hchan] at hwritten
    exact hwritten.trans hsum
  · obtain ⟨-, -, hsize⟩ := dword_facts hdst
    have hwritten := hpost.written hloc n hn ⟨hen hn, by rw [hon]⟩ halone i (by omega)
    rw [hwritten, hbits, hsum]
    exact (fld_of_fld rfl (by omega)).symm

end

/-- Settles O40: `mul` leaves the product by the low word in the accumulator, `mach` adds the one by the high word. -/
theorem mulThenMachGivesProduct : Obligations.MulThenMachGivesProduct := by
  intro s mulB machB t u hdst h0 h1 hsrc0 hsrc1 hloc0 hloc1 _ hsize hmask hmask' hpred hpred' haccWr hcm hdis htwo
    hloc hon hmul hmach n hn product
  have hcount : machB.hdr.count = mulB.hdr.count := by rw [Header.count, Header.count, hsize]
  have hmulPost := mul_acc0 hdst h0 h1 hmask hpred haccWr hmul
  have h8 : n < 8 := hn.trans_le (machChecks_accWr (allowed_of_next rfl hmach)).2
  have hreg0 : ∀ r, Src.reg machB.src0 = .reg r → r.loc.isArf = false := by
    rintro _ ⟨⟩
    rwa [← hsrc0]
  have hreg1 : ∀ r, machB.src1 = .reg r → r.loc.isArf = false := fun r h => hloc1 r (hsrc1.trans h)
  have hx : int0 s mulB n = int0 s machB n ∧ int1 s mulB n = int1 s machB n := by
    unfold int0 int1
    rw [hsrc0, hsrc1, htwo]
    exact ⟨srcInt_of_grf (fun _ => rfl) rfl hcount.symm hreg0 _ 0 n, srcInt_of_grf (fun _ => rfl) rfl hcount.symm hreg1 _ 1 n⟩
  have hy : int0 t machB n = int0 s machB n ∧ int1 t machB n = int1 s machB n := by
    unfold int0 int1
    rw [dstTwoRegs_of_a0 hmulPost.a0]
    exact ⟨srcInt_of_grf hmulPost.grf hmulPost.a0 rfl hreg0 _ 0 n, srcInt_of_grf hmulPost.grf hmulPost.a0 rfl hreg1 _ 1 n⟩
  have hsum : accIn t machB.hdr .d n + BitVec.ofInt 64 (int0 t machB n * (int1 t machB n / 65536) * 65536) = product := by
    rw [accIn, accGet, accChannel_d, hmulPost.acc n (hcount ▸ hn) h8, hx.1, hx.2, hy.1, hy.2]
    exact ofInt_mul_words _ _
  rw [← hsum]
  exact mach_post hloc hon hmask' hpred' hcm (hmulPost.accDisable.trans hdis) hmach hn

end Sys2Proof.Machine
end

section
/-! OBLIGATIONS O52 and O53: the rounding to integral numbers and the fraction (spec/44_parallel_arith.md R743 to R747). -/

namespace Sys2Proof.Machine

/-! ## What a rounding chooses -/

section
variable {rm : Round} {x u w : Rat}

/-- Toward zero: between 0 and x, less than a unit away. -/
theorem RoundsTo.toward_zero (h : RoundsTo .rz x u w) :
    (0 ≤ x → w ≤ x ∧ x - u < w) ∧ (x ≤ 0 → x ≤ w ∧ w < x + u) := by
  obtain ⟨hle, hlt, hsign⟩ := h.zero rfl
  constructor
  · intro hx
    obtain rfl | hpos := hx.eq_or_lt
    · obtain rfl : w = 0 := by simpa using hle
      exact ⟨le_rfl, by simpa using hlt⟩
    · have hw : 0 ≤ w := nonneg_of_mul_nonneg_left hsign hpos
      rw [abs_of_nonneg hw, abs_of_nonneg hx] at hle hlt
      exact ⟨hle, hlt⟩
  · intro hx
    obtain rfl | hneg := hx.eq_or_lt
    · obtain rfl : w = 0 := by simpa using hle
      exact ⟨le_rfl, by simpa using hlt⟩
    · have hw : w ≤ 0 := by
        by_contra hpos
        exact absurd hsign (mul_neg_of_pos_of_neg (not_le.1 hpos) hneg).not_ge
      rw [abs_of_nonpos hw, abs_of_nonpos hx] at hle hlt
      constructor <;> linarith

theorem RoundsTo.abs_sub_lt (h : RoundsTo rm x u w) (hu : 0 < u) : |w - x| < u := by
  cases rm with
  | rne => linarith [(h.nearest rfl).1]
  | ru =>
    obtain ⟨hnear, hfar⟩ := h.up rfl
    rw [abs_lt]
    constructor <;> linarith
  | rd =>
    obtain ⟨hnear, hfar⟩ := h.down rfl
    rw [abs_lt]
    constructor <;> linarith
  | rz =>
    rw [abs_lt]
    obtain hx | hx := le_total 0 x
    · obtain ⟨hnear, hfar⟩ := h.toward_zero.1 hx
      constructor <;> linarith
    · obtain ⟨hnear, hfar⟩ := h.toward_zero.2 hx
      constructor <;> linarith

/-- A multiple of the unit stays. -/
theorem RoundsTo.eq_of_multiple {z : Int} (h : RoundsTo rm (z * u) u w) (hu : 0 < u) : w = z * u := by
  obtain ⟨y, rfl⟩ := h.multiple
  have hlt := h.abs_sub_lt hu
  rw [← sub_mul, abs_mul, abs_of_pos hu, mul_lt_iff_lt_one_left hu] at hlt
  have hdist : |y - z| < 1 := by exact_mod_cast hlt
  rw [show y = z by rw [abs_lt] at hdist; omega]

end

/-! ## Rounding to an integral number -/

/-- The integral number that a mode chooses for q. -/
def roundedInt (rm : Round) (q : Rat) : Int :=
  match rm with
  | .rne =>
    if q - q.floor < 1 / 2 then q.floor else if 1 / 2 < q - q.floor then q.floor + 1
      else if q.floor % 2 = 0 then q.floor else q.floor + 1
  | .ru => -(-q).floor
  | .rd => q.floor
  | .rz => truncRat q

theorem floor_eq {q : Rat} {v : Int} (hle : (v : Rat) ≤ q) (hlt : q < v + 1) : q.floor = v := Int.floor_eq_iff.2 ⟨hle, hlt⟩

theorem neg_floor_neg_eq {q : Rat} {v : Int} (hle : q ≤ v) (hlt : (v : Rat) < q + 1) : -(-q).floor = v := by
  rw [floor_eq (v := -v) (by push_cast; linarith) (by push_cast; linarith), neg_neg]

/-- The nearest integer is the floor or the next one; a tie leaves the even one. -/
theorem RoundsTo.nearest_eq {q : Rat} {v : Int} (h : RoundsTo .rne q 1 v) : v = roundedInt .rne q := by
  obtain ⟨hdist, htie⟩ := h.nearest rfl
  have hle : (q.floor : Rat) ≤ q := Rat.floor_le q
  have hlt : q < q.floor + 1 := by exact_mod_cast Rat.lt_floor_add_one q
  have htwo : v = q.floor ∨ v = q.floor + 1 := by
    have hbelow := neg_le_abs ((v : Rat) - q)
    have habove := le_abs_self ((v : Rat) - q)
    have h1 : q.floor < v + 1 := by exact_mod_cast (by linarith : (q.floor : Rat) < v + 1)
    have h2 : v < q.floor + 2 := by exact_mod_cast (by linarith : (v : Rat) < q.floor + 2)
    omega
  unfold roundedInt
  rcases htwo with rfl | hv
  · have habs : |(q.floor : Rat) - q| = q - q.floor := by rw [abs_of_nonpos (by linarith), neg_sub]
    rw [habs] at hdist htie
    split_ifs with hlow hhigh heven
    · rfl
    · linarith
    · rfl
    · obtain ⟨z, hz⟩ := htie (by linarith)
      have : q.floor = 2 * z := by exact_mod_cast hz.trans (mul_one _)
      omega
  · have habs : |(v : Rat) - q| = 1 - (q - q.floor) := by
      rw [hv, abs_of_nonneg (by push_cast; linarith)]
      push_cast
      ring
    rw [habs] at hdist htie
    split_ifs with hlow hhigh heven
    · linarith
    · exact hv
    · obtain ⟨z, hz⟩ := htie (by linarith)
      have : v = 2 * z := by exact_mod_cast hz.trans (mul_one _)
      omega
    · exact hv

theorem RoundsTo.eq_roundedInt {rm : Round} {q : Rat} {v : Int} (h : RoundsTo rm q 1 v) : v = roundedInt rm q := by
  cases rm with
  | rne => exact h.nearest_eq
  | ru =>
    obtain ⟨hle, hlt⟩ := h.up rfl
    exact (neg_floor_neg_eq hle hlt).symm
  | rd =>
    obtain ⟨hle, hlt⟩ := h.down rfl
    exact (floor_eq hle (by linarith)).symm
  | rz =>
    change v = truncRat q
    unfold truncRat
    split
    next hq =>
      obtain ⟨hle, hlt⟩ := h.toward_zero.1 hq
      exact (floor_eq hle (by linarith)).symm
    next hq =>
      obtain ⟨hle, hlt⟩ := h.toward_zero.2 (not_le.1 hq).le
      exact (neg_floor_neg_eq hle hlt).symm

theorem roundsTo_self (rm : Round) (z : Int) {u : Rat} (hu : 0 < u) : RoundsTo rm (z * u) u (z * u) :=
  ⟨⟨z, rfl⟩, fun _ => by simp [hu.le, hu.ne], fun _ => ⟨le_rfl, by linarith⟩, fun _ => ⟨le_rfl, by linarith⟩,
    fun _ => ⟨le_rfl, by linarith, mul_self_nonneg _⟩⟩

/-! ## Numbers that the format holds -/

/-- A number in the range of the normal ones whose significand fits the format stays what it is. -/
theorem roundFin_exact {md : FMode} (hfmt : md.fmt = fmtF ∨ md.fmt = fmtDF ∨ md.fmt = fmtHalf) (neg : Bool) {m : Nat} {e : Int}
    (hm : m ≠ 0) (hquantum : md.fmt.quantum m e ≤ e) (hnormal : pow2 (md.fmt.emin + md.fmt.frac) ≤ |(FVal.fin neg m e).toRat|)
    (hlimit : |(FVal.fin neg m e).toRat| < pow2 (md.fmt.emin + (2 ^ md.fmt.expBits - 2) + md.fmt.frac)) :
    (roundFin md neg m e).val.toRat = (FVal.fin neg m e).toRat ∧ (roundFin md neg m e).val.sign = neg ∧
      (roundFin md neg m e).ov = false ∧ (roundFin md neg m e).val.isSpecial = false := by
  obtain ⟨w, hmultiple, hnearest, hup, hdown, hzero, hov, -, -, hval⟩ := roundingOfFiniteNumbers md neg m e hm hfmt
  have hround : RoundsTo md.rm (FVal.fin neg m e).toRat (pow2 (md.fmt.quantum m e)) w :=
    ⟨hmultiple, hnearest, hup, hdown, hzero⟩
  obtain ⟨z, hz⟩ : ∃ z : Int, (FVal.fin neg m e).toRat = z * pow2 (md.fmt.quantum m e) := by
    refine ⟨signedM neg m * 2 ^ (e - md.fmt.quantum m e).toNat, ?_⟩
    rw [toRat_fin_signedM, mul_pow2_of_le _ hquantum]
    push_cast
    rfl
  obtain rfl : w = (FVal.fin neg m e).toRat := by
    rw [hz] at hround ⊢
    exact hround.eq_of_multiple (pow2_pos _)
  have hin : (roundFin md neg m e).ov = false := Bool.eq_false_iff.2 fun h => absurd (hov.1 h) hlimit.not_ge
  obtain ⟨hvalue, hsign, hfinite⟩ := hval hin (.inr hnormal)
  exact ⟨hvalue, hsign, hin, hfinite⟩

/-- An integer of 24 bits is a number of F; zero takes the given sign. -/
theorem ofIntSigned_exact {md : FMode} (hfmt : md.fmt = fmtF) (neg : Bool) {k : Nat} (hk : k < 2 ^ 24) :
    (ofIntSigned md neg (signedM neg k)).val.toRat = signedM neg k ∧ (ofIntSigned md neg (signedM neg k)).val.sign = neg ∧
      (ofIntSigned md neg (signedM neg k)).ov = false ∧ (ofIntSigned md neg (signedM neg k)).val.isSpecial = false := by
  obtain rfl | hne := eq_or_ne k 0
  · have hzero : ofIntSigned md neg (signedM neg 0) = exactRes (.fin neg 0 md.fmt.emin) := if_pos (by cases neg <;> rfl)
    rw [hzero]
    exact ⟨by cases neg <;> simp [exactRes, FVal.toRat, signedM], rfl, rfl, rfl⟩
  have hparts : signedM neg k ≠ 0 ∧ decide (signedM neg k < 0) = neg ∧ (signedM neg k).natAbs = k := by
    cases neg <;> simp [signedM, hne, Nat.pos_of_ne_zero]
  obtain ⟨hnz, hsign, habs⟩ := hparts
  have hround : ofIntSigned md neg (signedM neg k) = roundFin md neg k 0 := by
    rw [ofIntSigned, if_neg hnz, hsign, habs]
  have hvalue : (FVal.fin neg k 0).toRat = signedM neg k := by
    rw [toRat_fin_signedM, show pow2 0 = 1 by simp [pow2], mul_one]
  have hmag : |(FVal.fin neg k 0).toRat| = k := by
    rw [hvalue, ← Int.cast_abs, Int.abs_eq_natAbs, habs, Int.cast_natCast]
  have hquantum : fmtF.quantum k 0 ≤ 0 := by
    have hlog : Nat.log2 k < 24 := (Nat.log2_lt hne).2 hk
    have hfrac : fmtF.frac = 23 := rfl
    have hemin : fmtF.emin = -149 := rfl
    unfold FFmt.quantum
    omega
  rw [hround, ← hvalue]
  refine roundFin_exact (.inl hfmt) neg hne (hfmt ▸ hquantum) ?_ ?_
  · rw [hmag, hfmt]
    exact (pow2_le_pow2 (a := fmtF.emin + fmtF.frac) (b := 0) (by decide)).trans (by
      rw [show pow2 0 = 1 by simp [pow2]]
      exact_mod_cast Nat.one_le_iff_ne_zero.2 hne)
  · rw [hmag, hfmt]
    refine lt_of_lt_of_le (b := pow2 24) ?_ (pow2_le_pow2 (by decide))
    rw [show pow2 24 = ((2 ^ 24 : Nat) : Rat) by simp [pow2]]
    exact_mod_cast hk

theorem isSpecial_flushIn (md : FMode) (v : FVal) : (v.flushIn md).isSpecial = v.isSpecial := by
  cases v with
  | nan | inf => rfl
  | fin neg m e =>
    unfold FVal.flushIn
    dsimp only
    split <;> rfl

/-- A finite number of F, flushed or not, has a significand of 24 bits. -/
theorem flushIn_ofBits_fin (md : FMode) {p : Nat} (hfinite : (FVal.ofBits fmtF p).isSpecial = false) :
    ∃ neg m e, (FVal.ofBits fmtF p).flushIn md = .fin neg m e ∧ m < 2 ^ 24 := by
  obtain ⟨neg, m, e, hval, hm⟩ : ∃ neg m e, FVal.ofBits fmtF p = .fin neg m e ∧ m < 2 ^ 24 := by
    rcases ofBits_of_exponent fmtF (by decide) p with ⟨-, neg, m, hm, hval⟩ | ⟨neg, m, k, -, hm, -, -, hval⟩ | ⟨-, hspecial⟩
    · exact ⟨neg, m, _, hval, hm.trans (by decide)⟩
    · exact ⟨neg, m, _, hval, hm⟩
    · exact absurd (hfinite.symm.trans hspecial) Bool.false_ne_true
  rw [hval, FVal.flushIn]
  split
  · exact ⟨neg, 0, _, rfl, by decide⟩
  · exact ⟨neg, m, e, rfl, hm⟩

/-! ## The rounding instructions (R744 to R747) -/

theorem cast_signedM (neg : Bool) (k : Nat) : (signedM neg k : Rat) = signRat neg * k := by
  cases neg <;> simp [signedM, signRat]

/-- A number with a fraction is rounded by the mode to the integral number near it. -/
theorem fround_of_fraction {md : FMode} (rm : Round) (neg : Bool) {m : Nat} {e : Int} (hm : m < 2 ^ 24) (hne : m ≠ 0)
    (he : e < 0) : ∃ k, k < 2 ^ 24 ∧ RoundsTo rm (FVal.fin neg m e).toRat 1 (signedM neg k) ∧
      fround md rm (.fin neg m e) = ofIntSigned md neg (signedM neg k) := by
  obtain ⟨j, hj, rfl⟩ : ∃ j : Nat, 0 < j ∧ e = -j := ⟨(-e).toNat, by omega, by omega⟩
  have hhalf : m / 2 ^ j ≤ m / 2 := Nat.div_le_div_left (Nat.le_self_pow hj.ne' 2) two_pos
  have hvalue : (FVal.fin neg m (-j)).toRat = signRat neg * (((m / 2 ^ j : Nat) + ((m % 2 ^ j : Nat) : Rat) / 2 ^ j)) := by
    have hdiv : (m : Rat) = 2 ^ j * (m / 2 ^ j : Nat) + (m % 2 ^ j : Nat) := by
      exact_mod_cast (Nat.div_add_mod m (2 ^ j)).symm
    rw [toRat_fin, pow2_eq_zpow, zpow_neg, zpow_natCast]
    nth_rw 1 [hdiv]
    field_simp
  have hround := roundsTo_up rm neg (m / 2 ^ j) (Nat.mod_lt m (by positivity : 0 < 2 ^ j)) (u := 1) one_pos
  simp only [mul_one] at hround
  refine ⟨m / 2 ^ j + if rm.up neg (m / 2 ^ j) (m % 2 ^ j) j then 1 else 0, by split <;> omega, ?_, ?_⟩
  · rwa [hvalue, cast_signedM]
  · refine (if_neg (by simp [hne, hj.ne'])).trans ?_
    rw [neg_neg, Int.toNat_natCast]

/-- A number without a fraction stays. -/
theorem fround_of_integral (md : FMode) (rm : Round) (neg : Bool) {m : Nat} {e : Int} (h : m = 0 ∨ 0 ≤ e) :
    fround md rm (.fin neg m e) = exactRes (.fin neg m e) := if_pos (by simpa using h)

theorem exists_int_of_integral (neg : Bool) {m : Nat} {e : Int} (h : m = 0 ∨ 0 ≤ e) :
    ∃ z : Int, (FVal.fin neg m e).toRat = z := by
  rcases h with rfl | he
  · exact ⟨0, by simp [toRat_fin]⟩
  · obtain ⟨k, rfl⟩ := Int.eq_ofNat_of_zero_le he
    refine ⟨signedM neg m * 2 ^ k, ?_⟩
    rw [toRat_fin_signedM, pow2_natCast]
    push_cast
    rfl

theorem fround_value {md : FMode} (hfmt : md.fmt = fmtF) (rm : Round) (neg : Bool) {m : Nat} {e : Int} (hm : m < 2 ^ 24) :
    (fround md rm (.fin neg m e)).val.toRat = roundedInt rm (FVal.fin neg m e).toRat ∧
      (fround md rm (.fin neg m e)).val.sign = neg ∧ (fround md rm (.fin neg m e)).ov = false ∧
      (fround md rm (.fin neg m e)).val.isSpecial = false := by
  by_cases hint : m = 0 ∨ 0 ≤ e
  · obtain ⟨z, hz⟩ := exists_int_of_integral neg hint
    have hself := roundsTo_self rm z one_pos
    rw [mul_one] at hself
    rw [fround_of_integral md rm neg hint, hz, ← hself.eq_roundedInt]
    exact ⟨hz, rfl, rfl, rfl⟩
  · obtain ⟨hne, he⟩ := not_or.1 hint
    obtain ⟨k, hk, hround, hval⟩ := fround_of_fraction (md := md) rm neg hm hne (not_le.1 he)
    rw [hval, ← hround.eq_roundedInt]
    exact ofIntSigned_exact hfmt neg hk

/-! ## frc (R743) -/

theorem floorInt_eq_floor (neg : Bool) (m : Nat) (e : Int) : floorInt neg m e = (FVal.fin neg m e).toRat.floor := by
  rw [floorInt_eq, ← cast_toRat_fin]
  exact Rat.floor_cast _

/-- The exact fraction of a number as a significand and exponent. -/
theorem ffrc_fin (md : FMode) (neg : Bool) (m : Nat) (e : Int) : ∃ l g, ffrc md (.fin neg m e) = roundInt md false l g ∧
    (l : Rat) * pow2 g = (FVal.fin neg m e).toRat - (FVal.fin neg m e).toRat.floor := by
  refine ⟨_, _, rfl, ?_⟩
  rw [addExact_value, floorInt_eq_floor, toRat_fin_signedM, show pow2 0 = 1 by simp [pow2]]
  push_cast
  ring

theorem ffrc_value (md : FMode) (neg : Bool) (m : Nat) (e : Int) :
    let q := (FVal.fin neg m e).toRat
    (q - q.floor = 0 → (ffrc md (.fin neg m e)).val = .fin false 0 md.fmt.emin) ∧
    (q - q.floor ≠ 0 → ∃ k g, (FVal.fin false k g).toRat = q - q.floor ∧ ffrc md (.fin neg m e) = roundFin md false k g) := by
  intro q
  obtain ⟨l, g, hfrc, hvalue⟩ := ffrc_fin md neg m e
  have hnonneg : 0 ≤ (l : Rat) * pow2 g := by
    rw [hvalue]
    exact sub_nonneg.2 (Rat.floor_le _)
  rw [hfrc, ← hvalue, ne_eq, mul_eq_zero_iff_right (pow2_pos g).ne', Int.cast_eq_zero]
  refine ⟨fun hl => ?_, fun hl => ?_⟩
  · rw [hl, roundInt_zero]
    rfl
  · have hpos : ¬ l < 0 := by
      have : (0 : Rat) ≤ l := nonneg_of_mul_nonneg_left hnonneg (pow2_pos g)
      exact not_lt.2 (by exact_mod_cast this)
    obtain ⟨hrat, hround⟩ := roundInt_of_ne_zero md false g hl
    rw [decide_eq_false hpos] at hrat hround
    exact ⟨_, _, hrat, hround⟩

/-- Settles O52: the rounded integral number is the one that the mode chooses, and F holds it. -/
theorem roundingToIntegral : Obligations.RoundingToIntegral := by
  intro s p hfinite x q even rm v hv
  obtain rfl : v = roundedInt rm q := by
    rcases hv with ⟨rfl, rfl⟩ | ⟨rfl, rfl⟩ | ⟨rfl, rfl⟩ | ⟨rfl, rfl⟩ <;> rfl
  obtain ⟨neg, m, e, hx, hm⟩ := flushIn_ofBits_fin (modeF s) hfinite
  obtain ⟨hvalue, hsign, hov, hfin⟩ := fround_value (md := modeF s) rfl rm neg hm (e := e)
  obtain ⟨hzero, hfraction⟩ := ffrc_value (modeF s) neg m e
  rw [show q = (FVal.fin neg m e).toRat from congrArg FVal.toRat hx, show x = .fin neg m e from hx]
  exact ⟨hvalue, hsign, hov, hfin, hzero, hfraction, fun _ => rfl, rfl⟩

/-! ## The instructions -/

theorem frcValue_of_no_erratum {s : State} (h : s.launch.frcErratum = false) : frcValue s = ffrc := by
  funext md x
  exact if_neg (by simp [h])

/-- An instruction of one F source whose destination is F. -/
theorem float1_step {s : State} {b : Basic1} {i : Instr} {l : List Check} {f : FMode → FVal → FRes}
    (hexec : exec i s = execute s (firstViolation l) (effect s b.hdr b.cmod b.dst [b.src0] (float1 s b f)))
    (ha : Allowed l) (ht : floatTypes b.dst [b.src0] = true)
    (hd : Allowed (dataChecks s b.hdr b.cmod b.dst [b.src0] false)) (hs : StaysIn s b.dst) :
    DataStep s i b.hdr b.cmod b.dst [b.src0] fun n =>
      FloatValue s b.hdr b.cmod [fltS s b n] (f (modeF s) (fltS s b n)) := by
  have hdst : b.dst.ty = .f := of_decide_eq_true (Bool.and_eq_true_iff.1 ht).2
  refine dataStep_of_checks hexec ha hd hs fun n _ _ => ?_
  rw [float1, hdst]
  exact fResult_value s b.hdr b.cmod _ _ n

/-- Settles O53: each instruction is one function of an F source. -/
theorem roundingSteps : Obligations.RoundingSteps := by
  intro s b hs step1
  refine ⟨fun ha => ?_, fun ha herratum => ?_⟩
  · have ht : floatTypes b.dst [b.src0] = true := by
      simpa using allowed_mem ha (c := (!floatTypes b.dst [b.src0], .types)) (by simp [roundChecks])
    have hd := allowed_of_append ha
    exact ⟨float1_step (f := fun md => fround md .ru) rfl ha ht hd hs,
      float1_step (f := fun md => fround md .rd) rfl ha ht hd hs,
      float1_step (f := fun md => fround md .rne) rfl ha ht hd hs,
      float1_step (f := fun md => fround md .rz) rfl ha ht hd hs⟩
  · have ht : floatTypes b.dst [b.src0] = true := by
      simpa using allowed_mem ha (c := (!floatTypes b.dst [b.src0], .types)) (by simp [frcChecks])
    have hstep := float1_step (f := frcValue s) rfl ha ht (allowed_of_append ha) hs (i := .frc b)
    rwa [frcValue_of_no_erratum herratum] at hstep

end Sys2Proof.Machine
end

section
/-! OBLIGATIONS O50 and O51: counting bits and finding the first one (spec/44_parallel_arith.md R750 to R753). -/

namespace Sys2Proof.Machine

/-! ## The lowest and the highest bit -/

theorem exists_getLsbD_of_ne_zero {v : DWord} (hv : v ≠ 0) : ∃ i, i < 32 ∧ v.getLsbD i = true := by
  by_contra h
  refine hv (BitVec.eq_of_getLsbD_eq fun i hi => ?_)
  rw [Bool.eq_false_iff.2 fun hbit => h ⟨i, hi, hbit⟩]
  exact BitVec.getLsbD_zero.symm

/-- The first of 32 places at which a predicate holds. -/
theorem find?_range_getD {p : Nat → Bool} (h : ∃ i, i < 32 ∧ p i = true) :
    let k := ((List.range 32).find? p).getD 32
    k < 32 ∧ p k = true ∧ ∀ i, i < k → p i = false := by
  cases hfind : (List.range 32).find? p with
  | none =>
    obtain ⟨i, hi, hp⟩ := h
    exact absurd hp (List.find?_eq_none.1 hfind i (List.mem_range.2 hi))
  | some k =>
    obtain ⟨hk, hlt, hbelow⟩ := List.find?_range_eq_some.1 hfind
    exact ⟨List.mem_range.1 hlt, hk, fun i hi => by simpa using hbelow i hi⟩

theorem isTrailingZeros_trailingZeros {v : DWord} (hv : v ≠ 0) : IsTrailingZeros v (trailingZeros v) :=
  find?_range_getD (exists_getLsbD_of_ne_zero hv)

theorem isLeadingZeros_leadingZeros {v : DWord} (hv : v ≠ 0) : IsLeadingZeros v (leadingZeros v) := by
  obtain ⟨i, hi, hbit⟩ := exists_getLsbD_of_ne_zero hv
  obtain ⟨hlt, hone, habove⟩ := find?_range_getD (p := fun i => v.getLsbD (31 - i))
    ⟨31 - i, by omega, by rwa [show 31 - (31 - i) = i by omega]⟩
  refine ⟨hlt, hone, fun j hj => ?_⟩
  obtain hin | hout := Nat.lt_or_ge j 32
  · have := habove (31 - j) (by unfold leadingZeros at hj; omega)
    rwa [show 31 - (31 - j) = j by omega] at this
  · exact BitVec.getLsbD_of_ge _ _ hout

theorem leadingZeros_zero : leadingZeros 0 = 32 := by decide

theorem toNat_ofNat_place {k : Nat} (hk : k < 32) : (BitVec.ofNat 32 k).toNat = k := by
  rw [BitVec.toNat_ofNat, Nat.mod_eq_of_lt (by omega)]

/-! ## fbl, cbit (R752, R753) -/

theorem firstBitLow_of_ne_zero {v : DWord} (hv : v ≠ 0) : IsTrailingZeros v (firstBitLow v).toNat := by
  have hzeros := isTrailingZeros_trailingZeros hv
  rwa [firstBitLow, if_neg hv, toNat_ofNat_place hzeros.1]

theorem countChecks_data {s : State} {b : Basic1} {tys : List RegType} (ha : Allowed (countChecks s b tys)) :
    Allowed (dataChecks s b.hdr b.cmod b.dst [b.src0] false) := allowed_of_append ha

/-- An instruction that counts bits leaves its pattern. -/
theorem count_step {s : State} {b : Basic1} {i : Instr} {tys : List RegType} {pattern : Nat → DWord}
    {val : Nat → DWord → Bool → QWord → QWord → Prop}
    (hexec : exec i s = execute s (firstViolation (countChecks s b tys))
      (effect s b.hdr .none b.dst [b.src0] fun n => bitsOut (pattern n)))
    (ha : Allowed (countChecks s b tys)) (hs : StaysIn s b.dst)
    (hv : ∀ n flag acc, val n (pattern n) flag acc ((pattern n).setWidth 64)) : DataStep s i b.hdr .none b.dst [b.src0] val :=
  dataNext_of_checks (e := effect s b.hdr .none b.dst [b.src0] fun n => bitsOut (pattern n)) hexec ha
    (countChecks_data ha) hs fun n _ _ => hv n _ _

/-- What these instructions do not have. -/
def CountForbidden (b : Basic1) (tys : List RegType) : Prop :=
  b.hdr.accWr = true ∨ b.src0.isAcc = true ∨ b.dst.loc.isAcc = true ∨ b.hdr.sat = true ∨ b.cmod ≠ .none ∨
    b.src0.hasMod = true ∨ b.dst.ty ≠ .ud ∨ b.src0.regType ∉ tys

theorem count_refused {s : State} {b : Basic1} {i : Instr} {tys : List RegType} {e : Effect}
    (hexec : exec i s = execute s (firstViolation (countChecks s b tys)) e) (h : CountForbidden b tys) :
    ∃ r, exec i s = .refused r := by
  have hbad : ∃ c ∈ countChecks s b tys, c.1 = true := by
    unfold countChecks
    rcases h with h | h | h | h | h | h | h | h
    · exact ⟨noAccWr b.hdr, by simp [noAcc], h⟩
    · exact ⟨noAccSrc [b.src0], by simp [noAcc], by simpa [noAccSrc] using h⟩
    · exact ⟨noAccDst b.dst, by simp [noAcc], h⟩
    · exact ⟨noSat b.hdr, by simp, h⟩
    · exact ⟨noCmod b.cmod, by simp, by simpa [noCmod] using h⟩
    · exact ⟨noSrcMod [b.src0], by simp, by simpa [noSrcMod] using h⟩
    · exact ⟨(!(tys.contains b.src0.regType && b.dst.ty = .ud), .types), by simp, by simp [h]⟩
    · exact ⟨(!(tys.contains b.src0.regType && b.dst.ty = .ud), .types), by simp, by simp [h]⟩
  obtain ⟨c, hc, hviolated⟩ := hbad
  obtain ⟨r, hr⟩ := violated hc hviolated
  exact ⟨_, hexec.trans (execute_refused s _ e r hr)⟩

/-- Settles O50: the refusals by the check that each violates, the values by the bits of the source. -/
theorem countBitsAndFindLow : Obligations.CountBitsAndFindLow := by
  refine ⟨fun s b => ⟨rfl, fun h => ?_, fun hs ha => ?_⟩, fun s b => ⟨rfl, fun h => ?_, fun hs ha => ?_⟩⟩
  · exact count_refused (tys := [.ub, .uw, .ud]) rfl (by simpa [CountForbidden] using h)
  · refine count_step (pattern := fun n => BitVec.ofNat 32 (countBits (bitsS s b n))) rfl ha hs fun n _ _ => ?_
    rw [countBits, List.countP_eq_length_filter]
    exact ⟨rfl, rfl⟩
  · exact count_refused (tys := [.ud]) rfl (by simpa [CountForbidden] using h)
  · exact count_step (pattern := fun n => firstBitLow (bitsS s b n)) rfl ha hs fun n _ _ =>
      ⟨fun hzero => if_pos hzero, firstBitLow_of_ne_zero⟩

/-! ## lzd, fbh (R750, R751) -/

theorem firstBitHigh_none {signed : Bool} {v : DWord} (h : v = 0 ∨ (signed = true ∧ v = 0xFFFFFFFF)) :
    firstBitHigh signed v = 0xFFFFFFFF := if_pos (by simpa using h)

theorem firstBitHigh_some {signed : Bool} {v : DWord} (hv : v ≠ 0) (hones : ¬ (signed = true ∧ v = 0xFFFFFFFF)) :
    firstBitHigh signed v = BitVec.ofNat 32 (leadingZeros (if signed && v.getLsbD 31 then ~~~v else v)) := by
  refine if_neg ?_
  simp only [Bool.or_eq_true, Bool.and_eq_true, decide_eq_true_eq]
  exact not_or.2 ⟨hv, hones⟩

theorem firstBitHigh_zeros {signed : Bool} {v : DWord} (hv : v ≠ 0) (hpos : ¬ (signed = true ∧ v.getLsbD 31 = true)) :
    IsLeadingZeros v (firstBitHigh signed v).toNat := by
  have hones : ¬ (signed = true ∧ v = 0xFFFFFFFF) := fun ⟨h, hv⟩ => hpos ⟨h, by rw [hv]; decide⟩
  have hzeros := isLeadingZeros_leadingZeros hv
  rwa [firstBitHigh_some hv hones, if_neg (by simpa using hpos), toNat_ofNat_place hzeros.1]

theorem firstBitHigh_ones {v : DWord} (hneg : v.getLsbD 31 = true) (hones : v ≠ 0xFFFFFFFF) :
    IsLeadingZeros (~~~v) (firstBitHigh true v).toNat := by
  have hv : v ≠ 0 := fun h => by rw [h] at hneg; exact absurd hneg (by decide)
  have hzeros := isLeadingZeros_leadingZeros (v := ~~~v) fun h => hones (by rw [← BitVec.not_not (b := v), h]; rfl)
  rwa [firstBitHigh_some hv fun h => hones h.2, if_pos (by simpa using hneg), toNat_ofNat_place hzeros.1]

/-- One channel of `lzd`. -/
def lzdOut (s : State) (b : Basic1) (n : Nat) : Out := intOut s b.hdr b.cmod .ud 64 (leadingZeros (bitsS s b n)) n

theorem exec_lzd (s : State) (b : Basic1) : exec (.lzd b) s =
    execute s (firstViolation (lzdChecks s b)) (effect s b.hdr b.cmod b.dst [b.src0] (lzdOut s b)) := rfl

theorem lzdOut_value (s : State) (b : Basic1) (n : Nat) :
    IntValue s b.hdr b.cmod .ud 64 (leadingZeros (bitsS s b n)) n (lzdOut s b n).bits (lzdOut s b n).flag
      (lzdOut s b n).acc (lzdOut s b n).wide := intOut_value s b.hdr b.cmod .ud 64 _ n

/-- Settles O51: the number of leading zeros of the pattern, or of its complement for a negative D. -/
theorem leadingBits : Obligations.LeadingBits := by
  refine fun s b hs => ⟨fun ha => ?_, fun ha => ?_⟩
  · refine dataStep_of_checks (exec_lzd s b) ha (allowed_of_append ha) hs fun n _ _ =>
      ⟨leadingZeros (bitsS s b n), fun hzero => ?_, isLeadingZeros_leadingZeros, lzdOut_value s b n⟩
    rw [hzero, leadingZeros_zero]
  · refine count_step (pattern := fun n => firstBitHigh (b.src0.regType = .d) (bitsS s b n)) rfl ha hs fun n _ _ => ?_
    intro x signed
    refine ⟨fun h => firstBitHigh_none (by simpa using h), fun hx h => firstBitHigh_zeros hx (by simpa using h),
      fun hsigned hneg hones => ?_⟩
    rw [decide_eq_true hsigned]
    exact firstBitHigh_ones hneg hones

end Sys2Proof.Machine
end

section
/-! OBLIGATION O54: `sad2` and `sada2` (spec/45_vector_arith.md R780, R781). -/

namespace Sys2Proof.Machine

section
variable {s : State} {b : Basic2}

theorem sadSum_eq_abs (n : Nat) :
    sadSum s b n = |int0 s b n - int1 s b n| + |int0 s b (n + 1) - int1 s b (n + 1)| := by
  rw [← Int.natCast_natAbs, ← Int.natCast_natAbs]
  rfl

/-- An even channel holds the exact sum, in the 33 bits of a word channel (log 95). -/
theorem sadOut_even_value (v : Int) {n : Nat} (heven : n % 2 = 0) :
    IntValue s b.hdr b.cmod b.dst.ty 33 v n (sadOut s b v n).bits (sadOut s b v n).flag (sadOut s b v n).acc
      (sadOut s b v n).wide := by
  rw [sadOut, if_pos heven]
  exact intOut_value s b.hdr b.cmod b.dst.ty 33 v n

/-- An instruction that leaves a sum on the even channels, there and in the accumulator (log 46). -/
theorem sad_next {i : Instr} {v : Nat → Int}
    (hexec : exec i s = execute s (firstViolation (sadChecks s b)) (sadEffect s b fun n => sadOut s b (v n) n))
    (hs : StaysIn s b.dst) (ha : Allowed (sadChecks s b)) :
    DataNext s i b.hdr b.dst (b.cmod != .none) (some .w) (b.srcs.any Src.isTm0) (wrEn s b.hdr)
      (fun n => wrEn s b.hdr n && n % 2 = 0)
      fun n bits flag accv wide => n % 2 = 0 → IntValue s b.hdr b.cmod b.dst.ty 33 (v n) n bits flag accv wide :=
  dataNext_of_checks hexec ha (allowed_of_append ha) hs fun n _ _ => sadOut_even_value (v n)

end

/-- Settles O54: the sums of absolute differences, without and with the accumulator channel. -/
theorem sumOfAbsoluteDifferences : Obligations.SumOfAbsoluteDifferences := by
  intro s b hs ha
  simp only [← sadSum_eq_abs]
  exact ⟨sad_next rfl hs ha, sad_next rfl hs ha⟩

end Sys2Proof.Machine
end

section
/-! OBLIGATION O55: the dot products of groups of four channels (spec/45_vector_arith.md R779, R782 to R785; spec/92_eei_decisions.md D12). -/

namespace Sys2Proof.Machine

/-- An instruction whose channels hold F results, each drawn for a place of its own or of its group. -/
theorem fResult_step {s : State} {i : Instr} {l : List Check} {h : Header} {cm : CondMod} {d : Dst} {srcs : List Src}
    {inputs : Nat → List FVal} {r : Nat → FRes} {place : Nat → Nat}
    (hexec : exec i s = execute s (firstViolation l)
      (effect s h cm d srcs fun n => fResult s h cm d.ty (inputs n) (r n) (place n)))
    (ha : Allowed l) (hd : Allowed (dataChecks s h cm d srcs false)) (hs : StaysIn s d) (hty : d.ty = .f) :
    DataStep s i h cm d srcs fun n => FloatValue s h cm (inputs n) (r n) := by
  refine dataStep_of_checks hexec ha hd hs fun n _ _ => ?_
  rw [hty]
  exact fResult_value s h cm (inputs n) (r n) (place n)

theorem floatTypes_dst {d : Dst} {srcs : List Src} (h : floatTypes d srcs = true) : d.ty = .f :=
  of_decide_eq_true (Bool.and_eq_true_iff.1 h).2

section
variable {s : State} {b : Basic2} {k : DotKind}

/-- The dot product of one kind. -/
def dotInstr (b : Basic2) : DotKind → Instr
  | .dp4 => .dp4 b
  | .dph => .dph b
  | .dp3 => .dp3 b
  | .dp2 => .dp2 b

theorem exec_dotInstr : exec (dotInstr b k) s =
    execute s (firstViolation (dotChecks s b)) (effect s b.hdr b.cmod b.dst b.srcs (dotOut s b k)) := by
  cases k <;> rfl

theorem dotChecks_dst (ha : Allowed (dotChecks s b)) : b.dst.ty = .f :=
  floatTypes_dst (by simpa using allowed_mem ha (c := (!floatTypes b.dst b.srcs, .types)) (by simp [dotChecks]))

/-! ## One scalar for a group (R779) -/

/-- A channel looks at its group alone. -/
theorem dotOut_group (n : Nat) : dotOut s b k n = dotOut s b k (4 * (n / 4)) := by
  simp only [dotOut, dotSrc0, dotSrc1, Nat.mul_div_cancel_left (n / 4) four_pos]

theorem dot_one_scalar (hs : StaysIn s b.dst) (ha : Allowed (dotChecks s b)) :
    ∃ r : Nat → DWord, DataStep s (dotInstr b k) b.hdr b.cmod b.dst b.srcs fun n bits _ _ _ => bits = r (n / 4) :=
  ⟨fun g => (dotOut s b k (4 * g)).bits,
    dataStep_of_checks exec_dotInstr ha (allowed_of_append ha) hs fun n _ _ => congrArg Out.bits (dotOut_group n)⟩

/-! ## The order from left to right (D12) -/

/-- The default `DOT_ORDER`. -/
def leftToRight : SumOrder := .add (.add (.add (.term 0) (.term 1)) (.term 2)) (.term 3)

/-- The components of the two sources in the group of a channel, and their products. -/
def dotInputs (s : State) (b : Basic2) (k : DotKind) (n : Nat) : List FVal :=
  (List.range k.terms).flatMap fun i => [dotSrc0 s b k n i, dotSrc1 s b n i]

def dotProduct (s : State) (b : Basic2) (k : DotKind) (n i : Nat) : FRes :=
  fmul (modeF s) (dotSrc0 s b k n i) (dotSrc1 s b n i)

/-- The products that take part, added from left to right. -/
def dotSum (s : State) (b : Basic2) (k : DotKind) (n : Nat) : FRes :=
  let add := plusF (modeF s)
  let p := dotProduct s b k n
  match k with
  | .dp4 | .dph => add (add (add (p 0) (p 1)) (p 2)) (p 3)
  | .dp3 => add (add (p 0) (p 1)) (p 2)
  | .dp2 => add (p 0) (p 1)

/-- A term that takes no part drops out of the sum. -/
theorem dotOut_leftToRight (horder : s.launch.dotOrder = leftToRight) (n : Nat) :
    dotOut s b k n = fResult s b.hdr b.cmod b.dst.ty (dotInputs s b k n) (dotSum s b k n) (4 * (n / 4)) := by
  unfold dotOut
  rw [horder]
  cases k <;> rfl

theorem dot_floatStep (horder : s.launch.dotOrder = leftToRight) (hs : StaysIn s b.dst) (ha : Allowed (dotChecks s b)) :
    FloatStep s (dotInstr b k) b (dotInputs s b k) (dotSum s b k) := by
  refine fResult_step (place := fun n => 4 * (n / 4)) ?_ ha (allowed_of_append ha) hs (dotChecks_dst ha)
  rw [exec_dotInstr, funext (dotOut_leftToRight horder)]

end

/-- Settles O55: one scalar for the channels of a group, and its value in the order from left to right. -/
theorem dotProducts : Obligations.DotProducts := by
  intro s b hs ha
  refine ⟨?_, fun horder => ⟨?_, ?_, ?_, ?_⟩⟩
  · rintro i (rfl | rfl | rfl | rfl)
    · exact dot_one_scalar (k := .dp4) hs ha
    · exact dot_one_scalar (k := .dph) hs ha
    · exact dot_one_scalar (k := .dp3) hs ha
    · exact dot_one_scalar (k := .dp2) hs ha
  · exact dot_floatStep (k := .dp4) horder hs ha
  · exact dot_floatStep (k := .dph) horder hs ha
  · exact dot_floatStep (k := .dp3) horder hs ha
  · exact dot_floatStep (k := .dp2) horder hs ha

end Sys2Proof.Machine
end

section
/-! SUPPORT. Products and sums kept exact until one rounding, and the same operations rounded one by one (spec/00_scope.md R6; spec/92_eei_decisions.md D16; spec/45_vector_arith.md R786 to R789). -/

namespace Sys2Proof.Machine

/-! ## Exact numbers -/

/-- A finite value that stands for an exact number. -/
def Denotes (v : FVal) (q : Rat) : Prop := v.isSpecial = false ∧ v.toRat = q

theorem allFinite_cons {v : FVal} {l : List FVal} : AllFinite (v :: l) ↔ Denotes v v.toRat ∧ AllFinite l := by
  simp [AllFinite, Denotes]

theorem allFinite_three {x y z : FVal} (h : AllFinite [x, y, z]) :
    Denotes x x.toRat ∧ Denotes y y.toRat ∧ Denotes z z.toRat := by
  obtain ⟨hx, hyz⟩ := allFinite_cons.1 h
  obtain ⟨hy, hz⟩ := allFinite_cons.1 hyz
  exact ⟨hx, hy, (allFinite_cons.1 hz).1⟩

theorem denotes_one : Denotes (.fin false 1 0) 1 := ⟨rfl, toRat_one⟩

namespace Denotes
variable {x y : FVal} {p q : Rat}

theorem eq_fin (hx : Denotes x p) : ∃ neg m e, x = .fin neg m e ∧ (FVal.fin neg m e).toRat = p := by
  obtain ⟨hfinite, hvalue⟩ := hx
  cases x with
  | fin neg m e => exact ⟨neg, m, e, rfl, hvalue⟩
  | nan | inf => exact absurd hfinite (by simp [FVal.isSpecial])

theorem neg (hx : Denotes x p) : Denotes x.neg (-p) := by
  obtain ⟨s, m, e, rfl, rfl⟩ := hx.eq_fin
  refine ⟨rfl, ?_⟩
  cases s <;> simp [FVal.neg, toRat_fin, signRat]

theorem mul (md : FMode) (hx : Denotes x p) (hy : Denotes y q) : Denotes (fmulExact md x y) (p * q) := by
  obtain ⟨s, m, e, rfl, rfl⟩ := hx.eq_fin
  obtain ⟨t, n, f, rfl, rfl⟩ := hy.eq_fin
  exact ⟨rfl, mul_toRat s t m n e f⟩

theorem add (md : FMode) (hx : Denotes x p) (hy : Denotes y q) : Denotes (faddExact md x y) (p + q) := by
  obtain ⟨s, m, e, rfl, rfl⟩ := hx.eq_fin
  obtain ⟨t, n, f, rfl, rfl⟩ := hy.eq_fin
  rw [sumOf_value]
  unfold faddExact
  dsimp only
  split
  next hzeros =>
    obtain ⟨rfl, rfl⟩ : m = 0 ∧ n = 0 := by simpa using hzeros
    refine ⟨rfl, ?_⟩
    rw [← sumOf_value]
    simp [toRat_fin]
  · split
    next hsum =>
      refine ⟨rfl, ?_⟩
      rw [(toRat_eq_zero_iff _ _ _).2 rfl, sumOf, hsum, Int.cast_zero, zero_mul]
    next hsum => exact ⟨rfl, (roundInt_of_ne_zero md false _ hsum).1⟩

/-- The sum of two exact numbers is rounded once. -/
theorem roundedOnce (md : FMode) (hx : Denotes x p) (hy : Denotes y q) : RoundedOnce md (p + q) (fadd md x y) := by
  obtain ⟨s, m, e, rfl, rfl⟩ := hx.eq_fin
  obtain ⟨t, n, f, rfl, rfl⟩ := hy.eq_fin
  refine ⟨fadd_rounded_once md s t e f, fun hsum => ?_⟩
  rw [fadd_eq_zero md s t e f hsum]
  exact ⟨rfl, rfl⟩

end Denotes

/-! ## One rounding -/

section
variable (md : FMode)

theorem fmadd_roundedOnce {a b c : FVal} {x y z : Rat} (ha : Denotes a x) (hb : Denotes b y) (hc : Denotes c z) :
    RoundedOnce md (x * y + z) (fmadd md true a b c) := (ha.mul md hb).roundedOnce md hc

theorem fplane_roundedOnce {p u q v r : FVal} {p' u' q' v' r' : Rat} (hp : Denotes p p') (hu : Denotes u u')
    (hq : Denotes q q') (hv : Denotes v v') (hr : Denotes r r') :
    RoundedOnce md (p' * u' + q' * v' + r') (fplane md true p u q v r) :=
  ((hp.mul md hu).add md (hq.mul md hv)).roundedOnce md hr

theorem flerp_roundedOnce {a u v : FVal} {x y z : Rat} (ha : Denotes a x) (hu : Denotes u y) (hv : Denotes v z) :
    RoundedOnce md (y * x + z * (1 - x)) (flerp md true a u v) := by
  rw [sub_eq_add_neg]
  exact (hu.mul md ha).roundedOnce md (hv.mul md (denotes_one.add md ha.neg))

/-! ## A rounding after each operation -/

theorem fmadd_stepwise (a b c : FVal) : fmadd md false a b c = plusF md (fmul md a b) (exactRes c) := by
  simp [fmadd, FRes.andThen, plusF, exactRes]

theorem fplane_stepwise (p u q v r : FVal) : fplane md false p u q v r =
    plusF md (plusF md (fmul md p u) (fmul md q v)) (exactRes r) := by
  simp only [fplane, fmadd_stepwise, FRes.andThen, plusF, exactRes, Bool.or_false, Bool.false_eq_true, if_false,
    FRes.mk.injEq, true_and]
  ac_rfl

theorem flerp_stepwise (a u v : FVal) : flerp md false a u v =
    let rest := fadd md (.fin false 1 0) a.neg
    let second := fmul md v rest.val
    plusF md (fmul md u a) { second with ov := second.ov || rest.ov } := by
  simp only [flerp, fmadd_stepwise, plusF, exactRes, Bool.or_false, Bool.false_eq_true, if_false, FRes.mk.injEq, true_and]
  ac_rfl

end

end Sys2Proof.Machine
end

section
/-! OBLIGATION O56: `line`, `pln`, `mad` and `lrp` (spec/45_vector_arith.md R786 to R789; spec/00_scope.md R6; spec/92_eei_decisions.md D16). -/

namespace Sys2Proof.Machine

section
variable {s : State} {b : Basic2} {t : Tri}

/-! ## Restrictions -/

theorem lineChecks_dst (ha : Allowed (lineChecks s b)) : b.dst.ty = .f :=
  floatTypes_dst (by simpa using allowed_mem ha (c := (!floatTypes b.dst b.srcs, .types)) (by simp [lineChecks]))

theorem lineChecks_data (ha : Allowed (lineChecks s b)) : Allowed (dataChecks s b.hdr b.cmod b.dst b.srcs false) :=
  allowed_of_append ha

theorem plnChecks_line (ha : Allowed (plnChecks s b)) : Allowed (lineChecks s b) := allowed_of_append ha

theorem lrpChecks_dst (ha : Allowed (lrpChecks s t)) : t.dst.ty = .f :=
  floatTypes_dst (by simpa using allowed_mem ha (c := (!floatTypes t.dst t.srcs, .types)) (by simp [lrpChecks]))

theorem srcTy_of_allTy {ty : RegType} (h : allTy ty t.srcs = true) : t.srcTy.regType = ty :=
  of_decide_eq_true (List.all_eq_true.1 h (t.src0.toSrc t.srcTy) List.mem_cons_self)

/-- The destination of `mad` has the type of its sources. -/
theorem madChecks_dst (ha : Allowed (madChecks s t)) : t.dst.ty = t.srcTy.regType := by
  have htypes : floatTypes t.dst t.srcs = true ∨ (allTy .df t.srcs = true ∧ t.dst.ty = .df) := by
    simpa [or_iff_not_imp_left] using
      allowed_mem ha (c := (!(floatTypes t.dst t.srcs || (allTy .df t.srcs && t.dst.ty = .df)), .types)) (by simp [madChecks])
  rcases htypes with hf | ⟨hdf, hdst⟩
  · rw [floatTypes_dst hf, srcTy_of_allTy (Bool.and_eq_true_iff.1 hf).1]
  · rw [hdst, srcTy_of_allTy hdf]

/-! ## The operands of the planes (R786, R787) -/

theorem planeCoeff_grf {num : BitVec 7} {sub : BitVec 5} (r : RegSrc) (i : Nat) (hloc : r.loc = .grf num sub)
    (hmod : r.mod = .none) : planeCoeff s r i =
      (FVal.ofBits fmtF (grfElem s.grf (32 * num.toNat + sub.toNat / 16 * 16 + 4 * i) 4).toNat).flushIn (modeF s) := by
  have hbase : (num.toNat * 32 + sub.toNat) / 16 * 16 = 32 * num.toNat + sub.toNat / 16 * 16 := by omega
  simp only [planeCoeff, planeBits, planeBase, hloc, hmod, modBits, hbase]

/-- The first element of a direct F source is in the register that it names. -/
theorem plnFirst_grf {num : BitVec 7} {sub : BitVec 5} {r : RegSrc} (hloc : r.loc = .grf num sub) (hty : r.ty = .f)
    (hsub : sub.toNat + r.region.off 4 0 < 32) : plnFirst s b r = num.toNat := by
  have hsize : r.ty.size = 4 := by rw [hty]; rfl
  simp only [plnFirst, srcAddr, hloc, hsize]
  omega

theorem plnV_grf {num : BitVec 7} {sub : BitVec 5} {r : RegSrc} (n : Nat) (hsrc : b.src1 = .reg r)
    (hloc : r.loc = .grf num sub) (hmod : r.mod = .none) (hsub : sub.toNat + r.region.off 4 0 < 32) (hty : r.ty = .f) :
    plnV s b n =
      (FVal.ofBits fmtF (grfElem s.grf (32 * (num.toNat + b.hdr.count / 8) + 4 * n) 4).toNat).flushIn (modeF s) := by
  have haddr : (plnAddr s b r n).toNat = 32 * (num.toNat + b.hdr.count / 8) + 4 * n := by
    rw [plnAddr, plnFirst_grf hloc hty hsub]
    omega
  simp only [plnV, hsrc, hmod, modBits, haddr]

/-! ## The steps, fused or not (D16) -/

theorem line_floatStep (hs : StaysIn s b.dst) (ha : Allowed (lineChecks s b)) :
    FloatStep s (.line b) b (fun n => [planeCoeff s b.src0 0, flt1 s b n, planeCoeff s b.src0 3])
      fun n => fmadd (modeF s) s.launch.madFused (planeCoeff s b.src0 0) (flt1 s b n) (planeCoeff s b.src0 3) :=
  fResult_step (place := id) rfl ha (lineChecks_data ha) hs (lineChecks_dst ha)

theorem pln_floatStep (hs : StaysIn s b.dst) (ha : Allowed (plnChecks s b)) :
    FloatStep s (.pln b) b
      (fun n => [planeCoeff s b.src0 0, planeCoeff s b.src0 1, planeCoeff s b.src0 3, flt1 s b n, plnV s b n])
      fun n => fplane (modeF s) s.launch.madFused (planeCoeff s b.src0 0) (flt1 s b n) (planeCoeff s b.src0 1)
        (plnV s b n) (planeCoeff s b.src0 3) :=
  fResult_step (place := id) rfl ha (lineChecks_data (plnChecks_line ha)) hs (lineChecks_dst (plnChecks_line ha))

theorem mad_floatStep (ha : Allowed (madChecks s t)) (hty : t.srcTy = .f) :
    DataStep s (.mad t) t.hdr t.cmod t.dst t.srcs fun n =>
      FloatValue s t.hdr t.cmod [triF s t 0 t.src0 n, triF s t 1 t.src1 n, triF s t 2 t.src2 n]
        (fmadd (modeF s) s.launch.madFused (triF s t 1 t.src1 n) (triF s t 2 t.src2 n) (triF s t 0 t.src0 n)) := by
  have hdst : t.dst.ty = .f := by rw [madChecks_dst ha, hty]; rfl
  refine dataStep_of_checks rfl ha (allowed_of_append ha) (staysIn_tri s t) fun n _ _ => ?_
  rw [madOut, if_neg (by simp [hty]), hdst]
  exact fResult_value s t.hdr t.cmod _ _ n

theorem mad_dfStep (ha : Allowed (madChecks s t)) (hty : t.srcTy = .df) :
    DataStep s (.mad t) t.hdr t.cmod t.dst t.srcs fun n => DFValue s t.hdr t.cmod
      (fmadd (modeDF s) s.launch.madFused (triDF s t 1 t.src1 n) (triDF s t 2 t.src2 n) (triDF s t 0 t.src0 n)) n := by
  have hdst : t.dst.ty = .df := by rw [madChecks_dst ha, hty]; rfl
  refine dataStep_of_checks rfl ha (allowed_of_append ha) (staysIn_tri s t) fun n _ _ => ?_
  rw [madOut, if_pos hty, hdst]
  exact dfOut_value s t.hdr t.cmod _ n

theorem lrp_floatStep (ha : Allowed (lrpChecks s t)) :
    DataStep s (.lrp t) t.hdr t.cmod t.dst t.srcs fun n =>
      FloatValue s t.hdr t.cmod [triF s t 0 t.src0 n, triF s t 1 t.src1 n, triF s t 2 t.src2 n]
        (flerp (modeF s) s.launch.madFused (triF s t 0 t.src0 n) (triF s t 1 t.src1 n) (triF s t 2 t.src2 n)) :=
  fResult_step (place := id) rfl ha (allowed_of_append ha) (staysIn_tri s t) (lrpChecks_dst ha)

end

/-- Settles O56: one value for each instruction, which is rounded once if fused and after each operation otherwise. -/
theorem planesAndInterpolation : Obligations.PlanesAndInterpolation := by
  refine ⟨fun s b hs => ⟨fun ha => ?_, fun ha => ?_⟩, fun s t => ⟨fun ha => ?_, fun ha => ?_⟩,
    fun s b num sub r i n => ⟨planeCoeff_grf b.src0 i, plnV_grf n⟩, fun s hfused => ?_, fun s hfused => ?_⟩
  · exact dataStep_of_checks rfl ha (lineChecks_data ha) hs fun _ _ _ => trivial
  · exact dataStep_of_checks rfl ha (lineChecks_data (plnChecks_line ha)) hs fun _ _ _ => trivial
  · exact dataStep_of_checks rfl ha (allowed_of_append ha) (staysIn_tri s t) fun _ _ _ => trivial
  · exact dataStep_of_checks rfl ha (allowed_of_append ha) (staysIn_tri s t) fun _ _ _ => trivial
  · refine ⟨fun b hs => ⟨fun ha => ⟨_, line_floatStep hs ha, fun n hfin => ?_⟩,
        fun ha => ⟨_, pln_floatStep hs ha, fun n hfin => ?_⟩⟩,
      fun t => ⟨fun ha hty => ⟨_, mad_floatStep ha hty, fun n hfin => ?_⟩,
        fun ha hty => ⟨_, mad_dfStep ha hty, fun n hfin => ?_⟩, fun ha => ⟨_, lrp_floatStep ha, fun n hfin => ?_⟩⟩⟩
    · rw [hfused]
      obtain ⟨hp, hu, hq⟩ := allFinite_three hfin
      exact fmadd_roundedOnce _ hp hu hq
    · rw [hfused]
      obtain ⟨hp, htail⟩ := allFinite_cons.1 hfin
      obtain ⟨hq, hrest⟩ := allFinite_cons.1 htail
      obtain ⟨hr, hu, hv⟩ := allFinite_three hrest
      exact fplane_roundedOnce _ hp hu hq hv hr
    · rw [hfused]
      obtain ⟨h0, h1, h2⟩ := allFinite_three hfin
      exact fmadd_roundedOnce _ h1 h2 h0
    · rw [hfused]
      obtain ⟨h0, h1, h2⟩ := allFinite_three hfin
      exact fmadd_roundedOnce _ h1 h2 h0
    · rw [hfused]
      obtain ⟨h0, h1, h2⟩ := allFinite_three hfin
      exact flerp_roundedOnce _ h0 h1 h2
  · refine ⟨fun b hs => ⟨fun ha => ?_, fun ha => ?_⟩,
      fun t => ⟨fun ha hty => ?_, fun ha hty => ?_, fun ha => ?_⟩⟩
    · simpa only [hfused, fmadd_stepwise] using line_floatStep hs ha
    · simpa only [hfused, fplane_stepwise] using pln_floatStep hs ha
    · simpa only [hfused, fmadd_stepwise, triF] using mad_floatStep ha hty
    · simpa only [hfused, fmadd_stepwise, triDF] using mad_dfStep ha hty
    · simpa only [hfused, flerp_stepwise, triF] using lrp_floatStep ha

end Sys2Proof.Machine
end

section
/-! OBLIGATIONS O8 and O9: the two passages between the application and the System Routine (spec/60_exceptions.md R904 to R908, R921). -/

namespace Sys2Proof.Machine

/-! ## The passages -/

/-- The registers of the application, with every bit of cr0.0 but Master Exception State and Breakpoint Suppress (R921). -/
def State.application (s : State) :=
  (s.cr00 &&& 0x7FFF7FFF, s.grf, s.a0, s.acc, s.f0, s.f1, s.sr00, s.sr01, s.sr02, s.sr03, s.n00, s.n01, s.n02, s.tdr,
    s.dep, s.messages)

/-- The entry: IP is SIP, AIP the instruction it was entered at, and the application's registers stay (R905, R906). -/
structure EntersRoutine (s t : State) : Prop where
  ip : t.ip = s.launch.sip
  aip : t.cr02 = alignIP s.ip
  pcIP : t.pcIP = s.pcIP
  callMask : t.callMask = s.callMask
  application : t.application = s.application

/-- The return: IP is AIP, and the other pointers stay (R908). -/
structure LeavesRoutine (s t : State) : Prop where
  ip : t.ip = alignIP t.cr02
  pcIP : t.pcIP = s.pcIP
  callMask : t.callMask = s.callMask

/-- What a step can do to Master Exception State: leave it, set it by the entry, or clear it by the return. -/
inductive ModeStep (s t : State) : Prop where
  | stays (same : t.inSR = s.inSR)
  | enters (entry : EntersRoutine s t) (inside : t.inSR = true)
  | leaves (back : LeavesRoutine s t) (inside : s.inSR = true)

/-- What a passage looks at in the state before it. -/
def State.modePart (s : State) := (s.inSR, s.ip, s.launch, s.pcIP, s.callMask, s.application)

/-- A passage from a state that agrees with `s` on these is one from `s`. -/
theorem ModeStep.congr {s u t : State} (h : ModeStep u t) (hu : u.modePart = s.modePart) : ModeStep s t := by
  simp only [State.modePart, Prod.mk.injEq] at hu
  obtain ⟨hin, hip, hlaunch, hpc, hmask, happ⟩ := hu
  cases h with
  | stays same => exact .stays (same.trans hin)
  | enters entry inside =>
    exact .enters ⟨hlaunch ▸ entry.ip, hip ▸ entry.aip, entry.pcIP.trans hpc, entry.callMask.trans hmask,
      entry.application.trans happ⟩ inside
  | leaves back inside => exact .leaves ⟨back.ip, back.pcIP.trans hpc, back.callMask.trans hmask⟩ (hin.symm.trans inside)

theorem ModeStep.ite {s t u : State} {p : Prop} [Decidable p] (ht : ModeStep s t) (hu : ModeStep s u) :
    ModeStep s (if p then t else u) := by
  split <;> assumption

/-! ## The entry (R905) -/

theorem inSR_raise (s : State) (aip : DWord) : (raise s aip).inSR = true := by simp [State.inSR]

/-- Setting bit 31 is not seen under a mask without it. -/
theorem or_master_and_mask (v : DWord) : (v ||| 0x80000000#32) &&& 0x7FFF7FFF#32 = v &&& 0x7FFF7FFF#32 := by
  rw [BitVec.and_comm, BitVec.and_or_distrib_left, BitVec.and_comm _ v]
  exact BitVec.or_zero

theorem application_raise (s : State) (aip : DWord) : (raise s aip).application = s.application := by
  simp [State.application, or_master_and_mask]

theorem ModeStep.raise (s : State) : ModeStep s (raise s s.ip) :=
  .enters ⟨rfl, rfl, rfl, rfl, application_raise s s.ip⟩ (inSR_raise s s.ip)

theorem ModeStep.takeException (s : State) : ModeStep s (takeException s) :=
  .enters ⟨rfl, rfl, rfl, rfl, application_raise s s.ip⟩ (inSR_raise s s.ip)

/-! ## Writes of cr0 (10_state R76) -/

/-- A write of cr0.0 can clear Master Exception State and cannot set it. -/
theorem writeArf_outside {s : State} (hin : s.inSR = false) (r : Arf) (ws : List (Nat × Byte)) :
    (writeArf s r ws).inSR = false := by
  by_cases hr : r = .cr0
  · subst hr
    unfold writeArf
    split
    · exact hin
    · have hold : s.cr00[31] = false := hin
      simp [State.inSR, cr00Stored, hold]
  · rw [State.inSR, writeArf_cr00 _ _ _ hr]
    exact hin

theorem writeDst_outside {s : State} (hin : s.inSR = false) (h : Header) (d : Dst) (en : Nat → Bool) (out : Nat → Out) :
    (writeDst s h d en out).inSR = false :=
  (writeDst_field State.inSR s h d en out (fun _ => rfl) (fun _ _ => rfl)
    fun r ws _ => (writeArf_outside hin r ws).trans hin.symm).trans hin

theorem Effect.apply_outside (e : Effect) {s : State} (hin : s.inSR = false) : (e.apply s).inSR = false := by
  have hread : (readTm0 s e.tm0).inSR = false := by rw [State.inSR, readTm0_cr00]; exact hin
  refine Eq.trans ?_ (writeDst_outside hread e.hdr e.dst e.en e.out)
  exact write_field State.inSR e _ (by simp [State.inSR]) (by simp [State.inSR]) (by simp [State.inSR]) (by simp [State.inSR])

theorem Effect.apply_pcIP (e : Effect) (s : State) : (e.apply s).pcIP = s.pcIP := by
  unfold Effect.apply
  rw [write_field (·.pcIP) e _ (by simp) (by simp) (by simp) (by simp)]
  simp

theorem Effect.apply_callMask (e : Effect) (s : State) : (e.apply s).callMask = s.callMask := by
  unfold Effect.apply
  rw [write_field (·.callMask) e _ (by simp) (by simp) (by simp) (by simp)]
  simp

/-! ## Every instruction -/

/-- The end of an instruction whose results do not set Master Exception State and leave the pointers (R908). -/
theorem finish_mode {s u t : State} (h : finish s u = .next t) (hout : s.inSR = false → u.inSR = false)
    (hpc : u.pcIP = s.pcIP) (hmask : u.callMask = s.callMask) : ModeStep s t := by
  unfold finish at h
  split at h
  next hcleared =>
    split at h
    · obtain ⟨⟩ := h
      exact .leaves ⟨rfl, hpc, hmask⟩ (Bool.and_eq_true_iff.1 hcleared).1
    · exact nomatch h
  next hkept =>
    obtain ⟨⟩ := h
    refine .stays ?_
    change u.inSR = s.inSR
    cases hin : s.inSR with
    | false => exact hout hin
    | true => simpa [hin] using hkept

theorem ControlFrame.inSR {s t : State} (h : ControlFrame s t) : t.inSR = s.inSR := by
  rw [h]
  rfl

theorem exec_mode {i : Instr} {s t : State} (h : exec i s = .next t) : ModeStep s t := by
  cases completion_of_exec h with
  | data e _ _ done => exact finish_mode done e.apply_outside (e.apply_pcIP s) (e.apply_callMask s)
  | division m done => exact finish_mode done id rfl rfl
  | control step => exact .stays step.frame.inSR
  | raised done => exact done ▸ (ModeStep.raise { s with cr01 := s.cr01 ||| 0x10000000 }).congr rfl
  | latched done => exact done ▸ .stays rfl

/-! ## The thread (R904, R912, R913, R920) -/

/-- Breakpoint Suppress is outside the mask too, and bit 31 stays with it cleared. -/
theorem and_suppress_and_mask (v : DWord) : (v &&& 0xFFFF7FFF#32) &&& 0x7FFF7FFF#32 = v &&& 0x7FFF7FFF#32 := BitVec.and_assoc ..

theorem modePart_suppress (s : State) : State.modePart { s with cr00 := s.cr00 &&& 0xFFFF7FFF } = s.modePart := by
  simp [State.modePart, State.application, State.inSR, and_suppress_and_mask]

theorem breakCheck_modePart {s s' : State} {trig : Bool} (h : breakCheck s trig = some s') : s'.modePart = s.modePart := by
  have hlatch : (if trig then latchBreak s else s).modePart = s.modePart := by cases trig <;> rfl
  unfold breakCheck at h
  split at h
  · exact Option.some.inj h ▸ hlatch
  split at h
  · split at h
    · exact Option.some.inj h ▸ modePart_suppress s
    · exact nomatch h
  · exact Option.some.inj h ▸ hlatch

theorem runInstr_mode {s t : State} {op : Byte} {i : Instr} {len : Nat} (h : runInstr s op i len = .next t) :
    ModeStep s t := by
  unfold runInstr at h
  split at h
  · obtain ⟨⟩ := h
    exact (ModeStep.takeException (latchBreak s)).congr rfl
  next s1 hbreak =>
    split at h
    · obtain ⟨⟩ := h
      exact .stays rfl
    · have hissue : (issue s1 i len).modePart = s1.modePart := rfl
      exact (exec_mode h).congr (hissue.trans (breakCheck_modePart hbreak))

theorem runBoundary_mode {s t : State} (h : runBoundary s = .next t) : ModeStep s t := by
  unfold runBoundary at h
  split at h
  · obtain ⟨⟩ := h
    exact .takeException s
  split at h
  · exact nomatch h
  split at h
  · exact nomatch h
  · exact runInstr_mode h

theorem addNotify_inSR (s : State) (k : Fin 3) (up : Bool) : (s.addNotify k up).inSR = s.inSR := by
  rw [State.inSR, addNotify_cr00]
  rfl

theorem runWaiting_mode {s t : State} {k : Fin 3} (h : runWaiting s k = .next t) : ModeStep s t := by
  unfold runWaiting at h
  split at h
  · obtain ⟨⟩ := h
    exact (ModeStep.takeException { s with run := .running }).congr rfl
  split at h
  · obtain ⟨⟩ := h
    exact .stays (addNotify_inSR s k false)
  · obtain ⟨⟩ := h
    exact .stays rfl

theorem threadStep_mode {s t : State} (h : threadStep s = .next t) : ModeStep s t := by
  unfold threadStep at h
  split at h
  · exact nomatch h
  · exact runWaiting_mode h
  · exact runBoundary_mode h

/-! ## The host -/

theorem deliver_inSR (s : State) (idx : Nat) (phase : BitVec 5) (data : Reg256) (mask : BitVec 8) :
    (deliver s idx phase data mask).inSR = s.inSR := by
  unfold deliver
  split
  · rfl
  split
  · rfl
  · dsimp only
    split <;> rfl

/-- Of the host's actions only a preemption enters the routine (R915). -/
theorem hostAct_mode (s : State) (a : HostAction) : ModeStep s (hostAct s a) := by
  cases a with
  | deliver idx phase data mask => exact .stays (deliver_inSR s idx phase data mask)
  | notify k => exact .stays (addNotify_inSR s k true)
  | preempt => exact .ite ((ModeStep.takeException { s with run := .running }).congr rfl) (.stays rfl)
  | run | externalHalt | retire | setPriority | timeEvent => exact .stays rfl

theorem hostApply_mode (s : State) (a : HostAction) : ModeStep s (hostApply s a) := .ite (.stays rfl) (hostAct_mode s a)

theorem step_mode {s t : State} (h : step s = .next t) : ModeStep s t := by
  unfold step machineStep at h
  split at h
  · exact threadStep_mode h
  · exact (threadStep_mode h).congr rfl
  next a rest _ _ =>
    obtain ⟨⟩ := h
    exact (hostApply_mode { s with host := rest } a).congr rfl

/-! ## The obligations -/

/-- Settles O8: of the three things a step can do to Master Exception State only the entry sets it. -/
theorem onlyRaiseEntersSystemRoutine : Obligations.OnlyRaiseEntersSystemRoutine := by
  intro s t h hbefore hafter
  cases step_mode h with
  | stays same => exact absurd (hbefore.symm.trans (same.symm.trans hafter)) Bool.false_ne_true
  | enters entry _ =>
    obtain ⟨hip, haip, hpc, hmask, happ⟩ := entry
    simp only [State.application, Prod.mk.injEq] at happ
    exact ⟨hip, haip, hpc, hmask, happ⟩
  | leaves _ inside => exact absurd (hbefore.symm.trans inside) Bool.false_ne_true

/-- Settles O9: only the return clears it. -/
theorem leavingRestoresIPFromAIP : Obligations.LeavingRestoresIPFromAIP := by
  intro s t h hbefore hafter
  cases step_mode h with
  | stays same => exact absurd (hafter.symm.trans (same.trans hbefore)) Bool.false_ne_true
  | enters _ inside => exact absurd (hafter.symm.trans inside) Bool.false_ne_true
  | leaves back _ => exact ⟨back.ip, back.pcIP, back.callMask⟩

end Sys2Proof.Machine
end

section
/-! OBLIGATION O10: the general registers beyond the thread's allocation (spec/60_exceptions.md R934; spec/10_state.md R53). -/

namespace Sys2Proof.Machine

/-- From `s` to `t` every byte beyond the allocation stays (10_state R53). -/
def KeptBeyond (s t : State) : Prop := ∀ a, 32 * s.launch.grfCount ≤ a → grfByte t.grf a = grfByte s.grf a

theorem KeptBeyond.of_grf {s t : State} (h : t.grf = s.grf) : KeptBeyond s t := fun a _ => congrArg (grfByte · a) h

theorem KeptBeyond.ite {s t u : State} {p : Prop} [Decidable p] (ht : KeptBeyond s t) (hu : KeptBeyond s u) :
    KeptBeyond s (if p then t else u) := by
  split <;> assumption

/-- Elements that are not outside the thread's registers end within its allocation. -/
theorem outOfGrf_inside {s : State} {size : Nat} {l : List Int} (h : outOfGrf s size l = false) {x : Int} (hx : x ∈ l) :
    0 ≤ x ∧ x.toNat + size ≤ 32 * s.launch.grfCount := by
  have hin := List.any_eq_false.1 h x hx
  simp only [Bool.or_eq_true, decide_eq_true_eq, not_or] at hin
  omega

/-! ## Data instructions -/

/-- The elements of a destination in the general registers lie within the allocation. -/
def DstInside (s : State) (h : Header) (d : Dst) : Prop :=
  d.loc.isArf = false → ∀ n, n < h.count → dstByte s h d n + d.ty.size ≤ 32 * s.launch.grfCount

section
variable {s : State} {h : Header} {d : Dst}

theorem dstInside_of_dstChecks {ex : ExecTy} {p : Bool} (ha : Allowed (dstChecks s h d ex p)) : DstInside s h d := by
  intro hloc n hn
  have := (dstChecks_inGrf ha hloc n hn).2
  omega

theorem dstInside_of_dataChecks {cm : CondMod} {srcs : List Src} {p : Bool} (ha : Allowed (dataChecks s h cm d srcs p)) :
    DstInside s h d := dstInside_of_dstChecks (dataChecks_dst ha)

theorem writeDst_keptBeyond (hin : DstInside s h d) (en : Nat → Bool) (out : Nat → Out) :
    KeptBeyond s (writeDst s h d en out) := by
  cases hloc : d.loc.isArf with
  | true => exact .of_grf (writeDst_grf_arf s h d en out hloc)
  | false =>
    intro a ha
    rw [writeDst_grf s h d en out hloc]
    exact grfByte_elemWrites_kept _ _ _ _ _ _ _ fun n hn _ => .inr ((hin hloc n hn).trans ha)

end

theorem Effect.apply_keptBeyond {e : Effect} {s : State} (hin : DstInside s e.hdr e.dst) : KeptBeyond s (e.apply s) := by
  have hread : DstInside (readTm0 s e.tm0) e.hdr e.dst ∧ (readTm0 s e.tm0).launch = s.launch ∧
      (readTm0 s e.tm0).grf = s.grf := by
    cases e.tm0 <;> exact ⟨hin, rfl, rfl⟩
  obtain ⟨hinside, hlaunch, hgrf⟩ := hread
  intro a ha
  rw [Effect.apply, write_grf, ← hgrf]
  exact writeDst_keptBeyond hinside e.en e.out a (hlaunch ▸ ha)

theorem finish_keptBeyond {s u t : State} (h : finish s u = .next t) (hu : KeptBeyond s u) : KeptBeyond s t := by
  rcases finish_next h with rfl | rfl <;> exact hu

/-- A data instruction whose restrictions hold its destination to the allocation. -/
theorem execute_keptBeyond {s t : State} {l : List Check} {e : Effect} (h : execute s (firstViolation l) e = .next t)
    (hin : Allowed l → DstInside s e.hdr e.dst) : KeptBeyond s t := by
  obtain ⟨hallowed, hdone⟩ := guarded_next h
  exact finish_keptBeyond hdone (Effect.apply_keptBeyond (hin hallowed))

/-- The last of the restrictions of `movi` but those of the accumulator are those of its destination (41 R602). -/
theorem moviChecks_inside {s : State} {b : Basic1} (ha : Allowed (moviChecks s b)) : DstInside s b.hdr b.dst := by
  simp only [moviChecks, allowed_append] at ha
  obtain ⟨⟨-, hdst⟩, -⟩ := ha
  exact dstInside_of_dstChecks hdst

/-! ## math (43 R703) -/

/-- The remainder, in the register after the quotient's, ends within the allocation. -/
theorem mathChecks_remainder {s : State} {m : Math} (ha : Allowed (mathChecks s m)) (hfc : m.fc = 0xB) {n : Nat}
    (hn : n < m.hdr.count) : divAddr s m n + 36 ≤ 32 * s.launch.grfCount := by
  have hrange := allowed_mem ha
    (c := (m.fc = 0xB && outOfGrf s m.dst.ty.size ((dstElems s m.hdr m.dst).map (· + 32)), .grfRange)) (by simp [mathChecks])
  simp only [hfc, decide_true, Bool.true_and] at hrange
  have hrem := (outOfGrf_inside hrange
    (List.mem_map_of_mem (List.mem_map_of_mem (f := dstAddr s m.hdr m.dst) (List.mem_range.2 hn)))).2
  have hquot := (dstChecks_inGrf (dataChecks_dst (mathChecks_data ha)) (isArf_of_isGrf (mathChecks_dst ha)) n hn).1
  rw [(mathChecks_places ha hfc).size] at hrem
  unfold divAddr dstByte
  omega

theorem divBoth_keptBeyond {s : State} {m : Math} (ha : Allowed (mathChecks s m)) (hfc : m.fc = 0xB) :
    KeptBeyond s (divBoth s m) := by
  intro a hbeyond
  refine grfByte_divGrf_kept (mathChecks_places ha hfc) (Nat.zero_le _) le_rfl fun n _ hn _ => ?_
  have := mathChecks_remainder ha hfc hn
  exact ⟨.inr (by omega), .inr (by omega)⟩

theorem execMath_keptBeyond {m : Math} {s t : State} (h : execMath m s = .next t) : KeptBeyond s t := by
  unfold execMath at h
  split at h
  · exact nomatch h
  obtain ⟨hallowed, hdone⟩ := guarded_next h
  refine finish_keptBeyond hdone ?_
  split
  next hfc => exact divBoth_keptBeyond hallowed hfc
  · exact Effect.apply_keptBeyond (dstInside_of_dataChecks (mathChecks_data hallowed))

/-! ## Control flow, wait and send -/

theorem guarded_keptBeyond {s u t : State} {v : Option Restriction} (h : guarded v (.next u) = .next t)
    (hu : KeptBeyond s u) : KeptBeyond s t := by
  obtain ⟨-, ⟨⟩⟩ := guarded_next h
  exact hu

/-- A branch moves IP, and the channels where they have their own pointers (42 R631, R633). -/
theorem branch_keptBeyond {s t : State} {v : Option Restriction} {c : Prop} [Decidable c] {p : Vector DWord 32}
    {ip dest : DWord} (h : guarded v (.next (if c then spfBranch s dest else branchTo s p ip)) = .next t) : KeptBeyond s t :=
  guarded_keptBeyond h (.ite (.of_grf (spfBranch_grf s dest)) (.of_grf (branchTo_grf s p ip)))

theorem execWait_keptBeyond {b : Basic1} {s t : State} (h : execWait b s = .next t) : KeptBeyond s t := by
  obtain ⟨-, hdone⟩ := guarded_next h
  split at hdone
  · exact nomatch hdone
  next k _ =>
    split at hdone
    · obtain ⟨⟩ := hdone
      exact .of_grf (addNotify_grf s k false)
    · obtain ⟨⟩ := hdone
      exact .of_grf rfl

theorem execIllegal_keptBeyond {s t : State} (h : execIllegal s = .next t) : KeptBeyond s t := by
  unfold execIllegal at h
  dsimp only at h
  split at h <;> (obtain ⟨⟩ := h; exact .of_grf rfl)

/-- `send` reads general registers and writes none: the response is the host's (43 R701; 20_memory R212). -/
theorem sendState_keptBeyond (s : State) (m : Send) : KeptBeyond s (sendState s m) := by
  unfold sendState
  exact .ite (.of_grf (by simp)) (.of_grf (by simp))

/-- The return pair ends within the allocation (42 R651). -/
theorem callChecks_inside {s : State} {c : Call} (ha : Allowed (callChecks s c)) :
    (dstAddr s c.hdr c.dst 0).toNat + 8 ≤ 32 * s.launch.grfCount :=
  (outOfGrf_inside (allowed_mem ha (c := (outOfGrf s 8 [dstAddr s c.hdr c.dst 0], .grfRange)) (by simp [callChecks]))
    List.mem_cons_self).2

theorem callLeft_keptBeyond {s : State} {c : Call} (ha : Allowed (callChecks s c)) : KeptBeyond s (callLeft s c) := by
  cases hjump : callJumps s c.hdr with
  | false => exact .of_grf (by rw [callLeft_of_stay hjump]; rfl)
  | true =>
    intro a hbeyond
    rw [callLeft_of_jump hjump, markDst_grf]
    exact grfByte_storePair_kept (callMoved s c) _ _ (.inr ((callChecks_inside ha).trans hbeyond))

theorem execCall_keptBeyond {c : Call} {s t : State} (h : exec (.call c) s = .next t) : KeptBeyond s t := by
  have hallowed : Allowed (callChecks s c) := (guarded_next h).1
  obtain ⟨⟩ := (exec_call hallowed).symm.trans h
  exact callLeft_keptBeyond hallowed

/-! ## Every instruction -/

theorem exec_keptBeyond {i : Instr} {s t : State} (h : exec i s = .next t) : KeptBeyond s t := by
  cases i with
  | mov b | not_ b | f32to16 b | f16to32 b | frc b | rndu b | rndd b | rnde b | rndz b | lzd b | bfrev b | fbh b | fbl b
  | cbit b => exact execute_keptBeyond h fun ha => dstInside_of_dataChecks (allowed_of_append ha)
  | and_ b | or_ b | xor_ b | shr b | asr b | cmp b | cmpn b | mul b | mac b | mach b | addc b | subb b | sad2 b | sada2 b
  | dp4 b | dph b | dp3 b | dp2 b | line b | sel b | bfi1 b =>
    exact execute_keptBeyond h fun ha => dstInside_of_dataChecks (allowed_of_append ha)
  | mad t | lrp t => exact execute_keptBeyond h fun ha => dstInside_of_dataChecks (allowed_of_append ha)
  | bfe t | bfi2 t => exact execute_keptBeyond h fun ha => dstInside_of_dataChecks (bitChecks_data (allowed_of_append ha))
  | add b => exact execute_keptBeyond h fun ha => dstInside_of_dataChecks (addChecks_data ha)
  | avg b => exact execute_keptBeyond h fun ha => dstInside_of_dataChecks (avgChecks_data ha)
  | shl b => exact execute_keptBeyond h fun ha => dstInside_of_dataChecks (allowed_of_append (allowed_of_append ha))
  | pln b => exact execute_keptBeyond h fun ha => dstInside_of_dataChecks (lineChecks_data (plnChecks_line ha))
  | movi b => exact execute_keptBeyond h moviChecks_inside
  | math m => exact execMath_keptBeyond h
  | illegal => exact execIllegal_keptBeyond h
  | nop d => exact Host.Outcome.next.inj h ▸ .of_grf rfl
  | case_ b => exact nomatch h
  | wait b => exact execWait_keptBeyond h
  | send m => exact guarded_keptBeyond h (sendState_keptBeyond s m)
  | sendc m => exact guarded_keptBeyond h (.ite (.of_grf rfl) (sendState_keptBeyond s m))
  | call c => exact execCall_keptBeyond h
  | jmpi b => exact guarded_keptBeyond h (.of_grf rfl)
  | brd b | while_ b | else_ b => exact branch_keptBeyond h
  | if_ b | brc b | halt b | break_ b | cont b => exact branch_keptBeyond h
  | ret b => exact guarded_keptBeyond h (.ite (.of_grf rfl) (.of_grf rfl))
  | endif b => exact guarded_keptBeyond h (.ite (.of_grf rfl) (.ite (.of_grf rfl) (.of_grf rfl)))

/-- Settles O10: the restrictions of every instruction that writes a general register hold its destination to the
allocation. -/
theorem writesStayInAllocation : Obligations.WritesStayInAllocation := fun _ _ _ h => exec_keptBeyond h

end Sys2Proof.Machine
end

section
/-! OBLIGATIONS O15 and O17: the exceptions taken before an instruction (spec/60_exceptions.md R904, R905, R912, R913, R920). -/

namespace Sys2Proof.Machine

/-! ## Asynchronous exceptions (R904, R912) -/

/-- The entry of a thread that runs. -/
theorem takeException_of_running {s : State} (hrun : s.run = .running) : takeException s = EnteredFrom s := by
  calc takeException s = takeException { s with run := .running } := by rw [← hrun]
    _ = EnteredFrom s := rfl

theorem runBoundary_pending {s : State} (hin : s.inSR = false) (hpending : (s.pendHalt || s.pendSW) = true) :
    runBoundary s = .next (takeException s) := if_pos (by rw [hin, hpending]; rfl)

theorem runWaiting_pending {s : State} {k : Fin 3} (hin : s.inSR = false) (hpending : (s.pendHalt || s.pendSW) = true) :
    runWaiting s k = .next (EnteredFrom s) := if_pos (by rw [hin, hpending]; rfl)

/-- Settles O15, by whether the thread runs or waits. -/
theorem pendingExceptionTaken : Obligations.PendingExceptionTaken := by
  intro s hhost hlive hin hstatus
  have hpending : (s.pendHalt || s.pendSW) = true := by simpa [State.pendHalt, State.pendSW] using hstatus
  unfold step machineStep
  rw [hhost]
  unfold threadStep
  cases hrun : s.run with
  | ended => exact absurd hrun hlive
  | waiting k => exact runWaiting_pending hin hpending
  | running => exact (runBoundary_pending hin hpending).trans (congrArg _ (takeException_of_running hrun))

/-! ## Breakpoints (R913) -/

theorem Comparator.hits_iff (c : Comparator) (ip : DWord) (op : Byte) :
    c.hits ip op = true ↔ (∀ a, c.addr = some a → a = ip) ∧ ∀ o, c.op = some o → o = op := by
  obtain ⟨addr, byte⟩ := c
  cases addr <;> cases byte <;> simp [Comparator.hits]

theorem breakTrigger_iff (s : State) (op : Byte) (i : Instr) : breakTrigger s op i = true ↔ debugBit i = true ∨
    ∃ c ∈ s.launch.breaks, (∀ a, c.addr = some a → a = s.ip) ∧ ∀ o, c.op = some o → o = op := by
  simp only [breakTrigger, hostBreak, Bool.or_eq_true, List.any_eq_true, Comparator.hits_iff]

section
variable {s : State} {trig : Bool}

/-- Enabled outside the System Routine the check sees a trigger and a latched status alike. -/
theorem breakCheck_enabled (hin : s.inSR = false) (hcond : trig = true ∨ s.cr01.getLsbD 31 = true)
    (henabled : s.cr01.getLsbD 15 = true) : breakCheck s trig =
      if s.cr00.getLsbD 15 then some { s with cr00 := s.cr00 &&& 0xFFFF7FFF } else none := by
  have hseen : ((trig || s.cr01.getLsbD 31) && s.cr01.getLsbD 15) = true := by simpa [henabled] using hcond
  rw [breakCheck, if_neg (by simp [hin]), if_pos hseen]

/-- Elsewhere a trigger is latched, and nothing else happens. -/
theorem breakCheck_latches (h : s.inSR = true ∨ s.cr01.getLsbD 15 = false) : breakCheck s true = some (latchBreak s) := by
  unfold breakCheck
  rcases h with hin | hdisabled
  · exact if_pos hin
  · simp only [hdisabled, Bool.and_false, Bool.false_eq_true, if_false, if_true, ite_self]

end

/-- The step of a fetched instruction begins with the breakpoint check. -/
theorem step_eq_runInstr {s : State} {i : Instr} {len : Nat} {op : Byte} (hf : Fetches s i len op) :
    step s = runInstr s op i len := by
  obtain ⟨hhost, hrun, hpending, bs, hfetch, hdecode, rfl⟩ := hf
  have hnone : (!s.inSR && (s.pendHalt || s.pendSW)) = false := by
    rcases hpending with hin | ⟨hhalt, hsw⟩
    · simp [hin]
    · simp [hhalt, hsw]
  unfold step machineStep
  rw [hhost]
  unfold threadStep
  rw [hrun]
  simp only [runBoundary, hnone, hfetch, hdecode, Bool.false_eq_true, if_false]

theorem runInstr_of_taken {s : State} {i : Instr} {op : Byte} (h : breakCheck s (breakTrigger s op i) = none) (len : Nat) :
    runInstr s op i len = .next (takeException (latchBreak s)) := by
  unfold runInstr
  rw [h]

theorem runInstr_of_passed {s s' : State} {i : Instr} {op : Byte} (h : breakCheck s (breakTrigger s op i) = some s')
    (hheld : isHeld s i = false) (len : Nat) : runInstr s op i len = exec i (issue s' i len) := by
  unfold runInstr
  rw [h]
  exact if_neg (Bool.eq_false_iff.1 hheld)

/-- Settles O17: what the check answers decides how the step goes on. -/
theorem breakpoint : Obligations.Breakpoint := by
  intro s i len op hf
  have ⟨_, hlive, _⟩ := hf
  rw [step_eq_runInstr hf, ← breakTrigger_iff]
  refine ⟨fun hin hcond henabled hunsuppressed => ?taken, fun hin hcond henabled hsuppressed hheld => ?suppressed,
    fun hquiet htrig hheld => ?latched⟩
  case taken =>
    have hcheck := breakCheck_enabled hin hcond henabled
    rw [hunsuppressed] at hcheck
    exact (runInstr_of_taken hcheck len).trans (congrArg _ (takeException_of_running (s := latchBreak s) hlive))
  case suppressed =>
    have hcheck := breakCheck_enabled hin hcond henabled
    rw [hsuppressed] at hcheck
    exact runInstr_of_passed hcheck hheld len
  case latched =>
    have hcheck := breakCheck_latches hquiet
    rw [← htrig] at hcheck
    exact runInstr_of_passed hcheck hheld len

end Sys2Proof.Machine
end

section
/-! OBLIGATION O18: the `and` to cr0.0 that leaves the System Routine (spec/60_exceptions.md R908; spec/70_reset_and_hazards.md R972; spec/41_move_logic.md R604). -/

namespace Sys2Proof.Machine

/-! ## The value (41 R604; 10_state R76) -/

/-- The conjunction of two DWords as unsigned numbers is that of their patterns. -/
theorem bitwise2_and_toNat (x y : DWord) : bitwise2 (· &&& ·) x.toNat y.toNat = ((x &&& y).toNat : Int) := by
  have hx := x.isLt
  have hy := y.isLt
  have hxy := (x &&& y).isLt
  have hand : (BitVec.ofInt 64 x.toNat &&& BitVec.ofInt 64 y.toNat).toNat = (x &&& y).toNat := by
    rw [BitVec.ofInt_natCast, BitVec.ofInt_natCast, BitVec.toNat_and, BitVec.toNat_ofNat, BitVec.toNat_ofNat,
      Nat.mod_eq_of_lt (by omega), Nat.mod_eq_of_lt (by omega), BitVec.toNat_and]
  rw [bitwise2, BitVec.toInt_eq_toNat_of_lt (by omega), hand]

/-- cr0.0 as a scalar source, and the instruction `and cr0.0 cr0.0 imm:ud`. -/
def cr0Scalar : RegSrc := { loc := .arf .cr0 0, ty := .ud, mod := .none, region := .a1 .v0 .w1 .h0 }

def andCr0 (h : Header) (v : DWord) : Basic2 :=
  { hdr := h, cmod := .none, dst := (scalarMov h .cr0 0 v).dst, src0 := cr0Scalar, src1 := .imm .ud v }

/-- cr0.0 as the one channel of the instruction reads it: its unpopulated bits are free (log 15). -/
def cr0Seen (s : State) (h : Header) (v : DWord) : DWord :=
  srcRaw s h (dstTwoRegs s h (andCr0 h v).dst) 0 cr0Scalar 0

theorem cr0Seen_and_mask (s : State) (h : Header) (v : DWord) : cr0Seen s h v &&& cr00Mask = s.cr00 &&& cr00Mask := by
  apply BitVec.eq_of_getLsbD_eq
  intro i hi
  rw [BitVec.getLsbD_and, BitVec.getLsbD_and]
  cases hmask : cr00Mask.getLsbD i with
  | false => rw [Bool.and_false, Bool.and_false]
  | true =>
    have hbit : (cr0Seen s h v).getLsbD i = (arfSeen s .cr0 (.arf 0 0)).getLsbD (8 * 0 + i) :=
      getLsbD_srcRaw_arf (r := cr0Scalar) rfl nofun hi
    rw [hbit, Nat.mul_zero, Nat.zero_add, getLsbD_arfSeen_cr0.1 hi hmask]

section
variable {s : State} {h : Header} {v : DWord}

/-- The result of the one channel is that of a `mov` of the conjunction. -/
theorem logicOut_andCr0_bits (hsat : h.sat = false) :
    (logicOut s (andCr0 h v) (· &&& ·) 0).bits = cr0Seen s h v &&& v := by
  have hout : logicOut s (andCr0 h v) (· &&& ·) 0 =
      intOut s h .none .ud 64 (bitwise2 (· &&& ·) (cr0Seen s h v).toNat v.toNat) 0 := rfl
  rw [hout, bitwise2_and_toNat]
  exact movOut_scalarMov_bits (r := .cr0) (sub := 0) hsat 0

/-- A write of a DWord without bit 31 leaves its other bits in cr0.0. -/
theorem cr00Stored_of_clear (old : DWord) {w : DWord} (hw : w &&& 0x80000000 = 0) :
    cr00Stored old w = w &&& 0x0000807F := by
  have hzero : old &&& (w &&& 0x80000000) = 0 := by
    rw [hw]
    exact BitVec.and_zero
  rw [cr00Stored, BitVec.and_assoc old, hzero]
  exact BitVec.or_zero

theorem and_bit31 (hv : v.getLsbD 31 = false) : v &&& 0x80000000 = 0#32 := by
  apply BitVec.eq_of_getLsbD_eq
  intro i hi
  have hone : ∀ k, k < 32 → (0x80000000#32).getLsbD k = decide (k = 31) := by decide
  rw [BitVec.getLsbD_and, BitVec.getLsbD_zero]
  by_cases hi31 : i = 31
  · rw [hi31, hv, Bool.false_and]
  · rw [show (0x80000000 : DWord).getLsbD i = _ from hone i hi, decide_eq_false hi31, Bool.and_false]

theorem cr00Stored_andCr0 (hv : v.getLsbD 31 = false) :
    cr00Stored s.cr00 (cr0Seen s h v &&& v) = s.cr00 &&& v &&& 0x0000807F := by
  have hpopulated : (0x0000807F : DWord) = cr00Mask &&& 0x0000807F := by decide
  have hclear : cr0Seen s h v &&& v &&& 0x80000000 = 0 := by
    rw [BitVec.and_assoc, and_bit31 hv]
    exact BitVec.and_zero
  rw [cr00Stored_of_clear _ hclear]
  calc cr0Seen s h v &&& v &&& 0x0000807F
      = cr0Seen s h v &&& v &&& (cr00Mask &&& 0x0000807F) := by rw [← hpopulated]
    _ = (cr0Seen s h v &&& cr00Mask) &&& v &&& 0x0000807F := by ac_rfl
    _ = (s.cr00 &&& cr00Mask) &&& v &&& 0x0000807F := by rw [cr0Seen_and_mask]
    _ = s.cr00 &&& v &&& (cr00Mask &&& 0x0000807F) := by ac_rfl
    _ = s.cr00 &&& v &&& 0x0000807F := by rw [← hpopulated]

/-! ## The writes -/

/-- One channel of a DWord destination writes the DWord of its result. -/
theorem writeDst_scalar_cr0 (hsize : h.size = .s1) (hen : wrEn s h 0 = true) (out : Nat → Out) :
    writeDst s h (scalarMov h .cr0 0 v).dst (wrEn s h) out = writeArf s .cr0 (dwordWrites (4 * 0) (out 0).bits) := by
  rw [writeDst_arf s h _ _ _ .cr0 0 rfl nofun nofun]
  simp [dstWrites, elemWrites, Header.count, hsize, ExecSize.toNat, hen, scalarMov, DstRegion.chanOn, dwordWrites, dstAddr,
    RegType.size]

theorem logicChecks_sat {cm : CondMod} {d : Dst} {srcs : List Src} (ha : Allowed (logicChecks s h cm d srcs)) :
    h.sat = false := allowed_mem ha (c := noSat h) (by simp [logicChecks])

/-- The state with the results of the instruction: only cr0.0 differs. -/
theorem apply_andCr0 (hinv : s.Inv) (hsize : h.size = .s1) (haccWr : h.accWr = false) (hen : wrEn s h 0 = true)
    (hsat : h.sat = false) (hv : v.getLsbD 31 = false) :
    (effect s h .none (andCr0 h v).dst (andCr0 h v).srcs (logicOut s (andCr0 h v) (· &&& ·))).apply s =
      { s with cr00 := s.cr00 &&& v &&& 0x0000807F } := by
  have heffect (out : Nat → Out) : effect s h .none (andCr0 h v).dst (andCr0 h v).srcs out =
      effect s h .none (scalarMov h .cr0 0 v).dst [.imm .ud v] out := by
    simp only [effect, implicitFmt, haccWr]
    rfl
  rw [heffect, apply_scalarMov hsize haccWr hen, writeDst_scalar_cr0 hsize hen, logicOut_andCr0_bits hsat,
    writeArf_cr0_dword 0 _ hinv, if_pos rfl, cr00Stored_andCr0 hv]
  rfl

end

/-! ## The return (R908) -/

/-- The end of an instruction that clears Master Exception State before a SIMD-16 `nop`. -/
theorem finish_returns {s u : State} (hin : s.inSR = true) (hout : u.inSR = false) (hnop : u.nopFollows = true) :
    finish s u = .next (returnToApp u) := by
  unfold finish
  rw [if_pos (by rw [hin, hout]; rfl), if_pos hnop]

/-- Settles O18: bit 31 of the immediate clears Master Exception State, so that the end of the instruction returns. -/
theorem clearingMasterReturns : Obligations.ClearingMasterReturns := by
  intro s h v b hinv hsize haccWr hen ha hin hv hnop
  have hclear : State.inSR { s with cr00 := s.cr00 &&& v &&& 0x0000807F } = false := by
    simp only [State.inSR, BitVec.getLsbD_and, hv, Bool.and_false, Bool.false_and]
  have hexec : exec (.and_ b) s = guarded (firstViolation (logicChecks s h .none b.dst b.srcs)) (finish s
      ((effect s h .none (andCr0 h v).dst (andCr0 h v).srcs (logicOut s (andCr0 h v) (· &&& ·))).apply s)) := rfl
  rw [hexec, show firstViolation _ = none from ha, apply_andCr0 hinv hsize haccWr hen (logicChecks_sat ha) hv]
  exact finish_returns hin hclear hnop

end Sys2Proof.Machine
end

section
/-! OBLIGATION O14: an instruction that the scoreboard or tdr0 holds (spec/70_reset_and_hazards.md R954, R961, R962; spec/43_misc_send_wait.md R702; spec/10_state.md R63). -/

namespace Sys2Proof.Machine

/-! ## What holds an instruction -/

/-- A mark on a source holds always, one on the destination unless NoDDChk waives the check (R961, R962). -/
theorem Uses.held_iff (u : Uses) (s : State) : u.held s = true ↔
    (∃ r, r ∈ u.srcs ∧ s.depOf r = true) ∨
    (∃ r, r ∈ u.dsts ∧ s.depOf r = true ∧ u.noDDChk = false) ∨
    (s.depA0 = true ∧ u.a0Src = true) ∨
    (s.depA0 = true ∧ u.a0Dst = true ∧ u.noDDChk = false) := by
  cases hchk : u.noDDChk <;> simp [Uses.held, hchk, and_or_left, or_assoc]

theorem State.tdrPending_iff (s : State) : s.tdrPending = true ↔ ∃ e, e ∈ s.tdr.toList ∧ e.valid = true := List.any_eq_true

/-- Nothing but the registers in use and, for `sendc`, a dependent thread alive holds an instruction (R954). -/
theorem isHeld_iff (s : State) (i : Instr) :
    isHeld s i = true ↔ (uses s i).held s = true ∨ (∃ m, i = .sendc m) ∧ s.tdrPending = true := by
  unfold isHeld
  rw [Bool.or_eq_true]
  refine or_congr_right ?_
  split
  next m => exact (and_iff_right ⟨m, rfl⟩).symm
  next hother => exact iff_of_false Bool.false_ne_true fun ⟨⟨m, hm⟩, _⟩ => hother m hm

/-! ## The step of a held instruction (R961) -/

/-- The breakpoint check passed, a held instruction leaves the state from before that check (log 35). -/
theorem runInstr_of_held {s s' : State} {i : Instr} {op : Byte} (h : breakCheck s (breakTrigger s op i) = some s')
    (hheld : isHeld s i = true) (len : Nat) : runInstr s op i len = .next s := by
  unfold runInstr
  rw [h]
  exact if_pos hheld

/-- Settles O14: the marks and the threads alive are what holds an instruction, and a held one stays. -/
theorem heldInstructionWaits : Obligations.HeldInstructionWaits := by
  intro s i len op hfetches hbreak hwaits
  have hheld : isHeld s i = true := by
    rw [isHeld_iff, Uses.held_iff, State.tdrPending_iff]
    simpa only [or_assoc] using hwaits
  rw [step_eq_runInstr hfetches]
  exact runInstr_of_held (breakCheck_of_noBreak hbreak) hheld len

end Sys2Proof.Machine
end
